-- ==== Sys2Proof/Word.lean ====
section
/-! DEFINITION. The word types of the block: bytes, the 32-bit datapath word, and bit sequences
(00_scope.md R11 to R15). -/

namespace Sys2Proof

/-- One byte of a frame or of `BYTEBUF` (R15). -/
abbrev Byte := BitVec 8

/-- The datapath word of the bit-vector and bit-field operations, `W = 32` bits (R11). -/
abbrev Word := BitVec 32

/-- A `BitSequence` (R13): a finite ordered list of bits, index 0 first. -/
abbrev Bits := List Bool

end Sys2Proof
end

