-- ==== Sys2Proof/Config.lean ====
section
/-! DEFINITION. The data types of the source (00_scope.md R20 to R24), the parameter record `CFG`
(R10, 10_state.md R45), and the one value the spec leaves to the environment that no field of the
state fixes. -/

namespace Sys2Proof

/-- `Protocol` (R24): one of A, B, C. -/
inductive Proto where
  | a | b | c
deriving DecidableEq, Repr

/-- The two bit orders (R84). -/
inductive BitOrder where
  | msbFirst | perByteReversed
deriving DecidableEq, Repr

/-- `Action` (R20) with the internal `Pair` (R420) and the reserved tags 12 to 15, which `XF.OUT`
and `XF.IN` pass through unchanged (R34): `reserved t` is tag `12 + t`. -/
inductive Action where
  | up | down | idle | tiltUp | tiltDown | program | setLimit | confirm | deepUp | deepDown
  | custom (v : BitVec 8)
  | pair
  | reserved (t : BitVec 2)
deriving DecidableEq, Repr

/-- `Command` (R21), with the widths of R33. -/
structure Command where
  action : Action
  rail : BitVec 2
  address : BitVec 24
  channelMask : BitVec 8
  unit : BitVec 4
  rollingCode : BitVec 16
  repeatCount : BitVec 8
  /-- `extCmd`, present or absent. -/
  extCmd : Option (BitVec 8)
deriving DecidableEq, Repr

/-- One value for each protocol (the maps `DEFAULT_REPEAT` and `MY_REPEAT` of R10). -/
structure PerProto (α : Type) where
  a : α
  b : α
  c : α
deriving DecidableEq, Repr

/-- The value a per-protocol map holds for one protocol. -/
def PerProto.at {α : Type} (m : PerProto α) : Proto → α
  | .a => m.a
  | .b => m.b
  | .c => m.c

/-- The configuration record `CFG` (R10, R45): partial maps are lists of (key, value) pairs. -/
structure Cfg where
  codeA : List (Action × BitVec 8)
  pairA : BitVec 8
  code4B : List ((Action × BitVec 2) × BitVec 4)
  actB : List (BitVec 9 × Action)
  railB : List (BitVec 9 × BitVec 2)
  markC0 : Byte
  markC7 : Byte
  codeC : List (Action × BitVec 4)
  /-- `TILT_C(TiltUp)`: command nibble and `extCmd`. -/
  tiltUpC : BitVec 4 × Byte
  /-- `TILT_C(TiltDown)`. -/
  tiltDownC : BitVec 4 × Byte
  defaultRepeat : PerProto (BitVec 8)
  myRepeat : PerProto (BitVec 8)
deriving DecidableEq, Repr

/-- Whether the `n`-th `Transmit` call reports failure when the agenda does not say: a FREE VALUE,
any value, chosen by the environment per call (U13, R353, R432). See log entry 6. -/
opaque Config.txFails : Nat → Bool

end Sys2Proof
end

