-- ==== Sys2Proof/Machine/Serial.lean ====
section
/-! DEFINITION. The bit-vector serializer and the field shifter as functions (40_bitvector.md R181,
R182, R187; 00_scope.md R13, R15; 20_memory.md R84). -/

namespace Sys2Proof.Machine

/-- `IntToBits(v, w, MsbFirst)` (R181): index `i` holds bit `w - 1 - i` of `v`. -/
def intToMsb (v w : Nat) : Bits := (List.range w).map fun i => v.testBit (w - 1 - i)

/-- `BitsToInt(s, MsbFirst)` (R181): the sum of `s[i] * 2^(len(s) - 1 - i)`. -/
def msbToInt (s : Bits) : Nat := s.foldl (fun acc b => 2 * acc + b.toNat) 0

/-- `rev(m[0:8)) ++ rev(m[8:16)) ++ ...` (R182); a rest shorter than 8 is left as it is (the
operations refuse such a width, R93). -/
def revGroups : Bits → Bits
  | b0 :: b1 :: b2 :: b3 :: b4 :: b5 :: b6 :: b7 :: t =>
      b7 :: b6 :: b5 :: b4 :: b3 :: b2 :: b1 :: b0 :: revGroups t
  | s => s

/-- `IntToBits(v, w, order)` (R181, R182). -/
def intToBits (v w : Nat) : BitOrder → Bits
  | .msbFirst => intToMsb v w
  | .perByteReversed => revGroups (intToMsb v w)

/-- `BitsToInt(s, order)` (R181, R182). -/
def bitsToInt (s : Bits) : BitOrder → Nat
  | .msbFirst => msbToInt s
  | .perByteReversed => msbToInt (revGroups s)

/-- `BitOrder` of the register `ORD` (R36): 0 is `MsbFirst`, 1 is `PerByteReversed`. -/
def bitOrderOf (ord : Bool) : BitOrder := if ord then .perByteReversed else .msbFirst

/-- `bytes_msb(f)` or `bytes_rev(f)` (R15): the bytes in order, each in the given bit order. -/
def bytesToBits (o : BitOrder) (f : List Byte) : Bits := f.flatMap fun b => intToBits b.toNat 8 o

/-- The bytes `f[j] = BitsToInt(s[8*j : 8*j+8), order)` of a sequence of whole bytes (R265, R300). -/
def bitsToBytes (o : BitOrder) (s : Bits) : List Byte :=
  (List.range (s.length / 8)).map fun j => BitVec.ofNat 8 (bitsToInt ((s.drop (8 * j)).take 8) o)

/-- `s[a:b)` written with the length `n = b - a` (R13). -/
def slice (s : Bits) (a n : Nat) : Bits := (s.drop a).take n

/-- The low `w` bits set, moved up by `p` (R188). -/
def fieldMask (p w : Nat) : Word := BitVec.ofNat 32 ((2 ^ w - 1) <<< p)

/-- `Ins(base, val, pos, w)` (R187, R188). -/
def insField (base val : Word) (p w : Nat) : Word :=
  (base &&& ~~~(fieldMask p w)) ||| ((val <<< p) &&& fieldMask p w)

/-- `Ext(val, pos, w)` (R187, R189). -/
def extField (val : Word) (p w : Nat) : Word := (val >>> p) &&& fieldMask 0 w

end Sys2Proof.Machine
end

