-- ==== Sys2Proof/Machine/Sums.lean ====
section
/-! DEFINITION. The checksum generators and the whitening chain as functions on byte lists
(41_checksum.md R203, R207, R212, R213; 44_protocol_c.md R296). -/

namespace Sys2Proof.Machine

/-- One step of the additive checksum: `((0x100 | acc) - b) & 0xFF` (R203). -/
def csStep (acc : Nat) (b : Byte) : Nat := ((0x100 ||| acc) - b.toNat) &&& 0xFF

/-- `CsB(bytes)` (R203): the running difference seeded at 1. -/
def csB (f : List Byte) : Byte := BitVec.ofNat 8 (f.foldl csStep 0x01)

/-- The accumulator of `Fold` before its final `& 0xF` (R207). -/
def foldAcc (f : List Byte) : Byte := f.foldl (fun (acc b : Byte) => acc ^^^ b ^^^ (b >>> 4)) 0#8

/-- `Fold(bytes)` (R207): the low nibble of the accumulator. -/
def fold (f : List Byte) : BitVec 4 := (foldAcc f).setWidth 4

/-- The whitening chain after a byte that went out as `prev` (R212). -/
def obfFrom (prev : Byte) : List Byte → List Byte
  | [] => []
  | b :: t => (b ^^^ prev) :: obfFrom (b ^^^ prev) t

/-- `Obf(p)` (R212): byte 0 as it is, then each byte XORed with the previous whitened byte. -/
def obf : List Byte → List Byte
  | [] => []
  | b :: t => b :: obfFrom b t

/-- The de-whitening chain after the raw byte `prev` (R213). -/
def deobfFrom (prev : Byte) : List Byte → List Byte
  | [] => []
  | b :: t => (b ^^^ prev) :: deobfFrom b t

/-- `Deobf(w)` (R213): each byte XORed with the previous RAW byte. -/
def deobf : List Byte → List Byte
  | [] => []
  | b :: t => b :: deobfFrom b t

/-- Two nibbles as one byte, the first high: `(hi << 4) | lo`. -/
def nibbles (hi lo : BitVec 4) : Byte := (hi.setWidth 8 <<< 4) ||| lo.setWidth 8

/-- The high nibble of a byte, `b >> 4`. -/
def hiNib (b : Byte) : BitVec 4 := (b >>> 4).setWidth 4

/-- The low nibble of a byte, `b & 0xF`. -/
def loNib (b : Byte) : BitVec 4 := b.setWidth 4

/-- `TrailerByte(count, b7, b8)` (R296), for a count that fits the nibble. -/
def trailerByte (count : BitVec 4) (b7 b8 : Byte) : Byte := nibbles count (count ^^^ fold [b7, b8])

/-- `TrailerOk(b7, b8, b9)` (R296). -/
def trailerOk (b7 b8 b9 : Byte) : Bool := loNib b9 == hiNib b9 ^^^ fold [b7, b8]

end Sys2Proof.Machine
end

