-- ==== Sys2Proof/Syntax.lean ====
section
/-! DEFINITION. The operations: one constructor per row of `spec/opcode_table.json`, the 27 request
rows (format `OPR8`, 30_encoding.md R120, R121) and the 4 frame rows (R130, R140, R150). -/

namespace Sys2Proof

/-- One instruction. `pr` is `OPR[6:5]`, the field `PROTO`: ignored by the operations that R121
marks "-", an operand of those it marks "op". A frame row stands for a received payload of that
format, which the host places in `BITBUF` and hands to `RX` (R52, R415). -/
inductive Instr where
  /-- `I2B` (R183). -/
  | i2b (pr : BitVec 2)
  /-- `B2I` (R185). -/
  | b2i (pr : BitVec 2)
  /-- `BF.INS` (R188). -/
  | bfIns (pr : BitVec 2)
  /-- `BF.EXT` (R189). -/
  | bfExt (pr : BitVec 2)
  /-- `CSUM.NONE` (R201). -/
  | csumNone
  /-- `CSUM.ADD` (R203). -/
  | csumAdd
  /-- `CSUM.XORN` (R207). -/
  | csumXorn
  /-- `CHK.NONE` (R202). -/
  | chkNone
  /-- `CHK.ADD` (R205). -/
  | chkAdd
  /-- `CHK.XORN` (R209). -/
  | chkXorn
  /-- `OBF` (R212). -/
  | obf (pr : BitVec 2)
  /-- `DEOBF` (R213). -/
  | deobf (pr : BitVec 2)
  /-- `ENC.A` (R232). -/
  | encA
  /-- `ENC.B` (R262). -/
  | encB
  /-- `ENC.C` (R292). -/
  | encC
  /-- `DEC.A` (R236). -/
  | decA
  /-- `DEC.B` (R265). -/
  | decB
  /-- `DEC.C` (R300). -/
  | decC
  /-- `IDENT.B` (R272). -/
  | identB
  /-- `XF.OUT` (R333). -/
  | xfOut (pr : BitVec 2)
  /-- `XF.IN` (R334). -/
  | xfIn (pr : BitVec 2)
  /-- `REQ.CAP` (R360). -/
  | reqCap (pr : BitVec 2)
  /-- `REQ.STEPS` (R362). -/
  | reqSteps (pr : BitVec 2)
  /-- `REQ.MY` (R366). -/
  | reqMy (pr : BitVec 2)
  /-- `REQ.PROG` (R367). -/
  | reqProg (pr : BitVec 2)
  /-- `REQ.RAW` (R368). -/
  | reqRaw (pr : BitVec 2)
  /-- `RX` (R370). -/
  | rx (pr : BitVec 2)
  /-- `FRAME.A`, the 39-bit frame (R130). -/
  | frameA (address : BitVec 24) (mask : BitVec 8) (code7 : BitVec 7)
  /-- `FRAME.B`, the 40-bit frame (R140): `flags` is the whole byte `f[3]`. -/
  | frameB (address : BitVec 16) (unit : BitVec 4) (code4 : BitVec 4) (flags : Byte) (csum : Byte)
  /-- `FRAME.C.SHORT`, the plain 7-byte frame (R150), whitened on the wire (R151). -/
  | frameCShort (mark0 : Byte) (nib : BitVec 4) (csum : BitVec 4) (rc : BitVec 16) (address : BitVec 24)
  /-- `FRAME.C.EXT`, the plain 10-byte frame (R150), whitened on the wire (R151). -/
  | frameCExt (mark0 : Byte) (nib : BitVec 4) (csum : BitVec 4) (rc : BitVec 16) (address : BitVec 24)
      (mark7 : Byte) (extCmd : Byte) (count : BitVec 4) (check : BitVec 4)
deriving DecidableEq, Repr

end Sys2Proof
end

