-- ==== Sys2Proof/WellFormed.lean ====
section
/-! DEFINITION. Which instructions the encodings admit: `PROTO = 3` is illegal where `PROTO` is an
operand (30_encoding.md R122), and the `FRAME.B` row has six bits written 0 (R140). -/

namespace Sys2Proof

/-- `PROTO = 3` is reserved where `PROTO` is an operand (R31, R122). -/
def protoOk (pr : BitVec 2) : Bool := pr != 3#2

/-- The bits of `f[3]` that the `FRAME.B` row holds at 0: `[6:5]` and `[3:0]` (R140). -/
def flagsOk (flags : Byte) : Bool := flags &&& 0x6F#8 == 0#8

/-- The check of one instruction against its row of the table. -/
def Instr.wellFormed : Instr → Bool
  | .reqCap pr | .reqSteps pr | .reqMy pr | .reqProg pr | .reqRaw pr | .rx pr => protoOk pr
  | .frameB _ _ _ flags _ => flagsOk flags
  | .i2b _ | .b2i _ | .bfIns _ | .bfExt _ | .csumNone | .csumAdd | .csumXorn | .chkNone | .chkAdd
  | .chkXorn | .obf _ | .deobf _ | .encA | .encB | .encC | .decA | .decB | .decC | .identB
  | .xfOut _ | .xfIn _ | .frameA _ _ _ | .frameCShort _ _ _ _ _ | .frameCExt _ _ _ _ _ _ _ _ _ => true

end Sys2Proof
end

