-- ==== Sys2Proof/Decode.lean ====
section
/-! DEFINITION. Decoding, total and rejecting by name, and the encoder, both from 30_encoding.md: the
request word `OPR8` (R120 to R122) and the frames `A39`, `B40`, `C56`, `C80` (R130, R140, R141, R150,
R151). -/

namespace Sys2Proof

open Sys2Proof.Machine

/-- What reaches the block from outside and names an instruction: a write of `OPR` (R32), or a payload
the transceiver delivers, with the protocol under which the host issues `RX` (R52). -/
inductive Incoming where
  | opr (w : BitVec 8)
  | frame (p : Proto) (bits : Bits)
deriving DecidableEq, Repr

/-- Why a word is no instruction: the conditions of R122, each under its name, and the frames that are
none of the table's rows. -/
inductive Reject where
  /-- `OP` is `0x00`, `0x0E`, `0x0F` or `0x16` to `0x1F` (R122). -/
  | undefinedOp
  /-- `OPR[7] = 1` (R122). -/
  | reservedBit
  /-- `PROTO = 3` where `PROTO` matters (R122). -/
  | reservedProto
  /-- `IDENT.B` with `PROTO` other than 1 (R122). -/
  | identProto
  /-- A payload whose length is no row's (R95). -/
  | frameLength
  /-- A 40-bit payload with a bit set that the `FRAME.B` row holds at 0 (R140, R144). -/
  | frameReserved
deriving DecidableEq, Repr

/-- The operation selected by `PROTO` for the operations R121 marks "P". -/
def byProto (pr : BitVec 2) (a b c : Instr) : Except Reject Instr :=
  match pr.toNat with
  | 0 => .ok a
  | 1 => .ok b
  | 2 => .ok c
  | _ => .error .reservedProto

/-- An operation that R121 marks "op": `PROTO` 0, 1, 2 are legal. -/
def withProto (pr : BitVec 2) (i : Instr) : Except Reject Instr :=
  if protoOk pr then .ok i else .error .reservedProto

/-- The instruction of an operation code and a `PROTO` field (R121, R122). -/
def decodeOp (pr : BitVec 2) (op : BitVec 5) : Except Reject Instr :=
  match op.toNat with
  | 0x01 => .ok (.i2b pr)
  | 0x02 => .ok (.b2i pr)
  | 0x03 => .ok (.bfIns pr)
  | 0x04 => .ok (.bfExt pr)
  | 0x05 => byProto pr .csumNone .csumAdd .csumXorn
  | 0x06 => byProto pr .chkNone .chkAdd .chkXorn
  | 0x07 => .ok (.obf pr)
  | 0x08 => .ok (.deobf pr)
  | 0x09 => byProto pr .encA .encB .encC
  | 0x0A => byProto pr .decA .decB .decC
  | 0x0B => if pr = 1#2 then .ok .identB else .error .identProto
  | 0x0C => .ok (.xfOut pr)
  | 0x0D => .ok (.xfIn pr)
  | 0x10 => withProto pr (.reqCap pr)
  | 0x11 => withProto pr (.reqSteps pr)
  | 0x12 => withProto pr (.reqMy pr)
  | 0x13 => withProto pr (.reqProg pr)
  | 0x14 => withProto pr (.reqRaw pr)
  | 0x15 => withProto pr (.rx pr)
  | _ => .error .undefinedOp

/-- `OPR[4:0]` (R32). -/
def oprOp (w : BitVec 8) : BitVec 5 := w.extractLsb' 0 5

/-- `OPR[6:5]`, the field `PROTO` (R31). -/
def oprProto (w : BitVec 8) : BitVec 2 := w.extractLsb' 5 2

/-- The instruction a request word selects (R120 to R122). -/
def decodeOpr (w : BitVec 8) : Except Reject Instr :=
  if w.getLsbD 7 then .error .reservedBit else decodeOp (oprProto w) (oprOp w)

/-- A field of a frame, most significant bit first: `n` bits from index `a` (R13, R181). -/
def fieldAt (n : Nat) (s : Bits) (a : Nat) : BitVec n := BitVec.ofNat n (msbToInt (slice s a n))

/-- Two bytes, the first high. -/
def beWord (hi lo : Byte) : BitVec 16 := (hi.setWidth 16 <<< 8) ||| lo.setWidth 16

/-- Three bytes, the first low: the little-endian address of Protocol-C (R88). -/
def leAddr (b0 b1 b2 : Byte) : BitVec 24 :=
  b0.setWidth 24 ||| (b1.setWidth 24 <<< 8) ||| (b2.setWidth 24 <<< 16)

/-- Byte `j` of a word, byte 0 the least significant. -/
def byteOf {n : Nat} (j : Nat) (v : BitVec n) : Byte := v.extractLsb' (8 * j) 8

/-- The row a delivered payload is an instance of: `A39` by its slices, `B40` by its bytes in
`PerByteReversed` order, `C56` and `C80` by its de-whitened bytes. The length alone tells the rows of
one protocol apart (R95, R152). -/
def decodeFrame (p : Proto) (s : Bits) : Except Reject Instr :=
  match p with
  | .a => if s.length = 39 then .ok (.frameA (fieldAt 24 s 0) (fieldAt 8 s 24) (fieldAt 7 s 32))
    else .error .frameLength
  | .b => if s.length = 40 then
      match bitsToBytes .perByteReversed s with
      | [f0, f1, f2, f3, f4] =>
        if flagsOk f3 then .ok (.frameB (beWord f0 f1) (loNib f2) (hiNib f2) f3 f4)
        else .error .frameReserved
      | _ => .error .frameLength
    else .error .frameLength
  | .c => if s.length = 56 ∨ s.length = 80 then
      match deobf (bitsToBytes .msbFirst s) with
      | [p0, p1, p2, p3, p4, p5, p6] =>
        .ok (.frameCShort p0 (hiNib p1) (loNib p1) (beWord p2 p3) (leAddr p4 p5 p6))
      | [p0, p1, p2, p3, p4, p5, p6, p7, p8, p9] =>
        .ok (.frameCExt p0 (hiNib p1) (loNib p1) (beWord p2 p3) (leAddr p4 p5 p6) p7 p8 (hiNib p9)
          (loNib p9))
      | _ => .error .frameLength
    else .error .frameLength

/-- Decoding, total on everything that can reach the block. -/
def decode : Incoming → Except Reject Instr
  | .opr w => decodeOpr w
  | .frame p s => decodeFrame p s

/-- The request word of a `PROTO` field and an operation code, `OPR[7] = 0` (R120). -/
def oprWord (pr : BitVec 2) (op : BitVec 5) : BitVec 8 := (0#1 ++ pr) ++ op

/-- The 39 bits of a `FRAME.A` (R130). -/
def frameBitsA (address : BitVec 24) (mask : BitVec 8) (code7 : BitVec 7) : Bits :=
  intToMsb address.toNat 24 ++ intToMsb mask.toNat 8 ++ intToMsb code7.toNat 7

/-- The 40 bits of a `FRAME.B` (R140, R141). -/
def frameBitsB (address : BitVec 16) (unit code4 : BitVec 4) (flags csum : Byte) : Bits :=
  bytesToBits .perByteReversed
    [byteOf 1 address, byteOf 0 address, nibbles code4 unit, flags, csum]

/-- The 7 plain bytes of the short frame (R150). -/
def plainC (mark0 : Byte) (nib csum : BitVec 4) (rc : BitVec 16) (address : BitVec 24) : List Byte :=
  [mark0, nibbles nib csum, byteOf 1 rc, byteOf 0 rc, byteOf 0 address, byteOf 1 address,
    byteOf 2 address]

/-- The wire bits of a plain Protocol-C frame: whitened, then most significant bit first (R151). -/
def wireBitsC (p : List Byte) : Bits := bytesToBits .msbFirst (obf p)

/-- The word or payload of an instruction, written from the same tables. -/
def encode : Instr → Incoming
  | .i2b pr => .opr (oprWord pr 0x01#5)
  | .b2i pr => .opr (oprWord pr 0x02#5)
  | .bfIns pr => .opr (oprWord pr 0x03#5)
  | .bfExt pr => .opr (oprWord pr 0x04#5)
  | .csumNone => .opr (oprWord 0#2 0x05#5)
  | .csumAdd => .opr (oprWord 1#2 0x05#5)
  | .csumXorn => .opr (oprWord 2#2 0x05#5)
  | .chkNone => .opr (oprWord 0#2 0x06#5)
  | .chkAdd => .opr (oprWord 1#2 0x06#5)
  | .chkXorn => .opr (oprWord 2#2 0x06#5)
  | .obf pr => .opr (oprWord pr 0x07#5)
  | .deobf pr => .opr (oprWord pr 0x08#5)
  | .encA => .opr (oprWord 0#2 0x09#5)
  | .encB => .opr (oprWord 1#2 0x09#5)
  | .encC => .opr (oprWord 2#2 0x09#5)
  | .decA => .opr (oprWord 0#2 0x0A#5)
  | .decB => .opr (oprWord 1#2 0x0A#5)
  | .decC => .opr (oprWord 2#2 0x0A#5)
  | .identB => .opr (oprWord 1#2 0x0B#5)
  | .xfOut pr => .opr (oprWord pr 0x0C#5)
  | .xfIn pr => .opr (oprWord pr 0x0D#5)
  | .reqCap pr => .opr (oprWord pr 0x10#5)
  | .reqSteps pr => .opr (oprWord pr 0x11#5)
  | .reqMy pr => .opr (oprWord pr 0x12#5)
  | .reqProg pr => .opr (oprWord pr 0x13#5)
  | .reqRaw pr => .opr (oprWord pr 0x14#5)
  | .rx pr => .opr (oprWord pr 0x15#5)
  | .frameA address mask code7 => .frame .a (frameBitsA address mask code7)
  | .frameB address unit code4 flags csum => .frame .b (frameBitsB address unit code4 flags csum)
  | .frameCShort m n k rc address => .frame .c (wireBitsC (plainC m n k rc address))
  | .frameCExt m n k rc address m7 e q t =>
      .frame .c (wireBitsC (plainC m n k rc address ++ [m7, e, nibbles q t]))

/-- The table's pattern of a frame row read as one number, its leftmost character the most significant
bit, laid out as the hardware stores it: the wire bits themselves for `A39` and `B40`; for `C56` and
`C80` the pattern is of the PLAIN bytes, so the wire carries them whitened (R151). Log entry 9. -/
def incomingOf (nbits w : Nat) : Incoming :=
  match nbits with
  | 39 => .frame .a (intToMsb w 39)
  | 40 => .frame .b (intToMsb w 40)
  | 56 => .frame .c (wireBitsC (bitsToBytes .msbFirst (intToMsb w 56)))
  | 80 => .frame .c (wireBitsC (bitsToBytes .msbFirst (intToMsb w 80)))
  | _ => .opr (BitVec.ofNat 8 w)

/-- The instruction the decoder reads from a table word of `nbits` bits (8 for a request; 39, 40, 56
or 80 for a frame). -/
def decodeTableWord (nbits w : Nat) : Option Instr :=
  match decode (incomingOf nbits w) with
  | .ok i => some i
  | .error _ => none

end Sys2Proof
end

