-- ==== Sys2Proof/Machine/Reference.lean ====
section
/-! DEFINITION. The reference configuration `CFG_REF` (30_encoding.md R133, R134, R143, R153;
45_transform.md R345), the lookups in a configuration, and which configurations are admissible
(00_scope.md R10; 43_protocol_b.md R268). -/

namespace Sys2Proof.Machine

/-- `CFG_REF`: the values the spec gives as reference. Log entry 1. -/
def cfgRef : Cfg where
  codeA := [(.up, 0x11#8), (.down, 0x33#8), (.idle, 0x55#8), (.deepUp, 0x1E#8),
    (.deepDown, 0x3C#8), (.program, 0xCC#8)]
  pairA := 0x74#8
  code4B := [
    ((.up, 1#2), 0x1#4), ((.up, 2#2), 0x2#4), ((.up, 3#2), 0x1#4),
    ((.down, 1#2), 0x3#4), ((.down, 2#2), 0x4#4), ((.down, 3#2), 0x3#4),
    ((.idle, 1#2), 0x5#4), ((.idle, 2#2), 0x6#4), ((.idle, 3#2), 0x5#4),
    ((.setLimit, 1#2), 0x7#4), ((.setLimit, 2#2), 0x8#4), ((.setLimit, 3#2), 0x7#4),
    ((.confirm, 1#2), 0x9#4), ((.confirm, 2#2), 0xA#4), ((.confirm, 3#2), 0x9#4),
    ((.program, 1#2), 0xC#4), ((.program, 2#2), 0xD#4), ((.program, 3#2), 0xC#4)]
  actB := [
    (0x001#9, .up), (0x002#9, .up), (0x003#9, .down), (0x004#9, .down), (0x005#9, .idle),
    (0x006#9, .idle), (0x007#9, .setLimit), (0x008#9, .setLimit), (0x009#9, .confirm),
    (0x00A#9, .confirm), (0x00C#9, .program), (0x00D#9, .program), (0x081#9, .up),
    (0x083#9, .down), (0x085#9, .idle), (0x087#9, .setLimit), (0x089#9, .confirm),
    (0x08C#9, .program), (0x091#9, .tiltUp), (0x093#9, .tiltDown)]
  railB := [
    (0x002#9, 2#2), (0x004#9, 2#2), (0x006#9, 2#2), (0x008#9, 2#2), (0x00A#9, 2#2),
    (0x00D#9, 2#2), (0x081#9, 3#2), (0x083#9, 3#2), (0x085#9, 3#2), (0x087#9, 3#2),
    (0x089#9, 3#2), (0x08C#9, 3#2), (0x091#9, 3#2), (0x093#9, 3#2)]
  markC0 := 0xA7#8
  markC7 := 0x80#8
  codeC := [(.idle, 0x1#4), (.up, 0x2#4), (.down, 0x4#4), (.program, 0x8#4)]
  tiltUpC := (0xB#4, 0x01#8)
  tiltDownC := (0xB#4, 0x02#8)
  defaultRepeat := ⟨1#8, 1#8, 1#8⟩
  myRepeat := ⟨20#8, 30#8, 45#8⟩

/-- The value of a table at a key, absent where the key is not listed. -/
def tableAt {α β : Type} [DecidableEq α] : List (α × β) → α → Option β
  | [], _ => none
  | (k, v) :: t, a => if k = a then some v else tableAt t a

/-- The first key of a table whose value passes a test. -/
def keyWhere {α β : Type} (ok : β → Bool) : List (α × β) → Option α
  | [] => none
  | (k, v) :: t => if ok v then some k else keyWhere ok t

/-- Whether a nibble is in the range of `CODE_C` (R291). -/
def inRangeC (cfg : Cfg) (n : BitVec 4) : Bool := cfg.codeC.any fun e => e.2 == n

/-- `TiltOf` (R261). -/
def tiltOf : Action → Action
  | .up => .tiltUp
  | .down => .tiltDown
  | a => a

/-- The keys R10 gives `CODE_A`. -/
def keysA : List Action := [.idle, .up, .down, .deepUp, .deepDown, .program]

/-- Whether an action is some `Custom(v)`. -/
def isCustom : Action → Bool
  | .custom _ => true
  | _ => false

/-- Whether a code table may name an action: not `Pair`, which only the sequencer produces (R20, R420), and
not a reserved tag, which is no `Action` of R20. -/
def isCodable : Action → Bool
  | .pair | .reserved _ => false
  | _ => true

/-- The seven bits of a Protocol-A code that are sent and compared, `code[7]` to `code[1]` (R132). -/
def codeBits (code : BitVec 8) : BitVec 7 := code.extractLsb' 1 7

/-- R10 on the Protocol-A tables: `CODE_A(Up) = 0x11`, its keys are the six named ones and perhaps
`Custom(v)` entries, and the 7-bit truncations, `PAIR_A`'s included, are pairwise distinct. -/
def admissibleA (cfg : Cfg) : Bool :=
  tableAt cfg.codeA .up == some 0x11#8 &&
  keysA.all (fun a => (tableAt cfg.codeA a).isSome) &&
  cfg.codeA.all (fun e => keysA.contains e.1 || isCustom e.1) &&
  decide (cfg.codeA.map (·.1)).Nodup &&
  decide (codeBits cfg.pairA :: cfg.codeA.map (fun e => codeBits e.2)).Nodup

/-- The `commandValue` of R268 for one code, rail and tilt marker. -/
def commandValueOf (code : BitVec 4) (rail : BitVec 2) (tilt : Bool) : BitVec 9 :=
  code.setWidth 9 + (if rail = 3#2 then 0x80#9 + (if tilt then 0x10#9 else 0#9) else 0#9)

/-- R268 (a), (b), (c) for one entry of `CODE4_B` and one tilt marker. -/
def admissibleEntryB (cfg : Cfg) (e : (Action × BitVec 2) × BitVec 4) (t : Bool) : Bool :=
  let cv := commandValueOf e.2 e.1.2 t
  tableAt cfg.actB cv == some (if e.1.2 = 3#2 && t then tiltOf e.1.1 else e.1.1) &&
  tableAt cfg.railB cv == (if e.1.2 = 1#2 then none else some e.1.2)

/-- R268: every entry of `CODE4_B` without tilt, and with tilt for `Up` and `Down`; and its shape (R10,
R142, R267): a partial map from a base action (never a tilt action) and a rail 1 to 3. `ACT_B` names
neither `Pair`, which no decoder ever produces (R420), nor a reserved tag (12 to 15), which is no `Action`
of R20; so, by R268 (a), neither does `CODE4_B`. DEDUCED, log entry 24. -/
def admissibleB (cfg : Cfg) : Bool :=
  cfg.code4B.all (fun e => e.1.2 != 0#2 && e.1.1 != .tiltUp && e.1.1 != .tiltDown &&
    admissibleEntryB cfg e false &&
    (if e.1.1 = .up || e.1.1 = .down then admissibleEntryB cfg e true else true)) &&
  decide (cfg.code4B.map (·.1)).Nodup &&
  decide (cfg.actB.map (·.1)).Nodup &&
  decide (cfg.railB.map (·.1)).Nodup &&
  cfg.railB.all (fun e => e.2 == 2#2 || e.2 == 3#2) &&
  cfg.actB.all (fun e => isCodable e.2)

/-- R10 on the Protocol-C tables: `CODE_C` is injective with no `Custom`, `Pair` or tilt key; `TILT_C`
is injective and its nibbles are outside the range of `CODE_C`. `CODE_C` names no reserved tag (12 to 15)
either, which is no `Action` of R20. DEDUCED, log entry 24. -/
def admissibleC (cfg : Cfg) : Bool :=
  decide (cfg.codeC.map (·.1)).Nodup &&
  decide (cfg.codeC.map (·.2)).Nodup &&
  cfg.codeC.all (fun e => !isCustom e.1 && isCodable e.1 && e.1 != .tiltUp && e.1 != .tiltDown) &&
  cfg.tiltUpC != cfg.tiltDownC &&
  !inRangeC cfg cfg.tiltUpC.1 && !inRangeC cfg cfg.tiltDownC.1

/-- R10 on the repeat counts: `DEFAULT_REPEAT` is 1 to 255, 1 to 15 for Protocol-C; `MY_REPEAT` is 20
to 45. -/
def admissibleRepeats (cfg : Cfg) : Bool :=
  cfg.defaultRepeat.a != 0#8 && cfg.defaultRepeat.b != 0#8 && cfg.defaultRepeat.c != 0#8 &&
  decide (cfg.defaultRepeat.c.toNat ≤ 15) &&
  [cfg.myRepeat.a, cfg.myRepeat.b, cfg.myRepeat.c].all
    (fun r => decide (20 ≤ r.toNat) && decide (r.toNat ≤ 45))

/-- The configurations the spec admits (R10, R268). -/
def admissible (cfg : Cfg) : Bool :=
  admissibleA cfg && admissibleB cfg && admissibleC cfg && admissibleRepeats cfg

end Sys2Proof.Machine
end

