-- ==== Sys2Proof/Machine/State.lean ====
section
/-! DEFINITION. The state of the block (10_state.md R30 to R61), the events of its interfaces
(00_scope.md R18), what the outside world may do (60_exceptions.md R430 to R436), and reset (R60). -/

namespace Sys2Proof.Machine

/-- The status codes of R400, in the order of their numbers 0 to 8. -/
inductive Status where
  | ok | unmapped | checksum | unknownCode | malformed | badLength | busy | illegalOp | precond
deriving DecidableEq, Repr

/-- The events of R18. -/
inductive Event where
  /-- `RcGet(v)`: the rolling-code store returned `v`. -/
  | rcGet (v : BitVec 16)
  /-- `RcSet(v)`: the store made `v` durable. -/
  | rcSet (v : BitVec 16)
  /-- `Transmit(bits, reps)`. -/
  | transmit (bits : Bits) (reps : BitVec 8)
  /-- `TxFail`: the transmit call reported failure. -/
  | txFail
  /-- `Wait(ms)`: the timer was armed. -/
  | wait (ms : BitVec 16)
  /-- `Expire`: the timer elapsed. -/
  | expire
  /-- `Deliver(cmd)`: a decoded command handed to the host. -/
  | deliver (c : Command)
  /-- `Resp(status)`: a host operation completed. -/
  | resp (st : Status)
deriving DecidableEq, Repr

/-- An operand register or buffer cell: the value it holds, and whether anything has written it since
reset. One that nothing has written holds no defined value (R48, R60): an operation that reads it ends
with `Precond` (R409). Log entry 3. -/
structure Reg (α : Type) where
  val : α
  written : Bool
deriving DecidableEq, Repr

/-- The command register file `CMD` (R33). -/
structure CmdRegs where
  action : Reg (BitVec 4)
  custom : Reg (BitVec 8)
  rail : Reg (BitVec 2)
  addr : Reg (BitVec 24)
  chmask : Reg (BitVec 8)
  unit : Reg (BitVec 4)
  rc : Reg (BitVec 16)
  rep : Reg (BitVec 8)
  extv : Reg Bool
  extb : Reg (BitVec 8)
deriving DecidableEq, Repr

/-- `SET.ROT`, `SET.INV`, `SET.PULSE` (R35). -/
structure SetRegs where
  rot : Reg Bool
  inv : Reg Bool
  pulse : Reg Bool
deriving DecidableEq, Repr

/-- The stored fields of `STATUS` (R39). `BUSY` is a mirror of `SEQ.ST` and is computed (Flags.lean). -/
structure StatusReg where
  sc : Status
  valid : Bool
  group : Bool
  tilt : Bool
  txfail : Bool
deriving DecidableEq, Repr

/-- `SEQ.ST` (R41): 0 IDLE, 1 READY, 2 WAITING; 3 is never produced (U7). -/
inductive SeqSt where
  | idle | ready | waiting
deriving DecidableEq, Repr

/-- `SEQ.KIND` (R41): 0 LIST, 1 BATCH, 2 PAIR; 3 is never produced (U7). -/
inductive SeqKind where
  | list | batch | pair
deriving DecidableEq, Repr

/-- The sequencer registers `SEQ` (R41). -/
structure Seq where
  st : SeqSt
  kind : SeqKind
  ph : BitVec 2
  rem : BitVec 8
  fuv : Bool
  fuact : BitVec 4
  cmd : Command
  proto : Proto
  waitms : BitVec 16
deriving DecidableEq, Repr

/-- The stored value of the setting `rotated`, the strings "0" and "180" (R23, R53). -/
inductive Rotation where
  | deg0 | deg180
deriving DecidableEq, Repr

/-- The settings store, external and read-only to the block (R53). -/
structure Settings where
  rotated : Rotation
  invertTilt : Bool
  pulseMode : Bool
deriving DecidableEq, Repr

/-- A host write of one operand register or buffer cell (R431). -/
inductive HostWrite where
  | action (v : BitVec 4)
  | custom (v : BitVec 8)
  | rail (v : BitVec 2)
  | addr (v : BitVec 24)
  | chmask (v : BitVec 8)
  | unit (v : BitVec 4)
  | rc (v : BitVec 16)
  | rep (v : BitVec 8)
  | extv (v : Bool)
  | extb (v : BitVec 8)
  | rot (v : Bool)
  | inv (v : Bool)
  | pulse (v : Bool)
  | cap (v : BitVec 2)
  | capval (v : BitVec 2)
  | steps (v : BitVec 8)
  | value (v : Word)
  | base (v : Word)
  | wid (v : BitVec 6)
  | pos (v : BitVec 5)
  | ord (v : Bool)
  | off (v : BitVec 7)
  /-- One cell of `BITBUF`. -/
  | bitCell (i : Fin 80) (v : Bool)
  /-- The whole-buffer write `BITBUF <- s` (R83). -/
  | bitbuf (s : Bits)
  | bitlen (n : Fin 81)
  /-- One byte of `BYTEBUF`. -/
  | byteCell (i : Fin 10) (v : Byte)
  | bytelen (n : Fin 11)
deriving DecidableEq, Repr

/-- One step of the outside world, or the scheduler's choice of a sequencer step (R416, R430 to R436,
R450 to R456). -/
inductive Input where
  /-- The host writes `OPR`, which starts an operation (R32). -/
  | opr (w : BitVec 8)
  /-- The host writes an operand register (R431). -/
  | host (w : HostWrite)
  /-- The host reads the settings store and writes `SET.*` (R53, R455). -/
  | readSettings
  /-- The transceiver delivers a payload, which the host places in `BITBUF` before issuing `RX` under
  the protocol `p` (R52, R415). -/
  | frame (p : Proto) (bits : Bits)
  /-- `SEQ.FIRE` is taken (R355); `fails` is the transceiver's answer to the `Transmit` call (R353). -/
  | fire (fails : Bool)
  /-- The timer facility reports that the wait in progress has elapsed (R358, R435); enabled only while
  one is (R55). -/
  | expire
  /-- The timer facility reports that a wait armed before a reset has elapsed (R60, R451); enabled only
  while such a report is outstanding (R435). -/
  | lateExpire
  /-- Reset (R450). -/
  | reset
  /-- Reset between `RcSet` and `Transmit` of the item being sent (R102, R452). -/
  | crash
  /-- The device layer writes 0 to the rolling-code store at pairing (R456). -/
  | pairStore
  /-- The user edits a setting (R433). -/
  | setting (v : Settings)
deriving DecidableEq, Repr

/-- The state. Registers and buffers of the block (R31 to R41), its configuration (R30 (c), R45), the
external state it reaches through an interface (R30 (d)), and two fields of the MODEL's own: `agenda`,
what the outside world does next, and `txCalls`, how many `Transmit` calls were made. -/
structure State where
  /-- The operation request register `OPR` (R32). -/
  opr : BitVec 8
  cmd : CmdRegs
  sets : SetRegs
  /-- `CAP` (R35). -/
  cap : Reg (BitVec 2)
  /-- `CAPVAL` (R35). -/
  capval : Reg (BitVec 2)
  /-- `STEPS` (R35). -/
  steps : Reg (BitVec 8)
  /-- `VAL` (R36). -/
  value : Reg Word
  /-- `BASE` (R36). -/
  base : Reg Word
  /-- `WID` (R36). -/
  wid : Reg (BitVec 6)
  /-- `POS` (R36). -/
  pos : Reg (BitVec 5)
  /-- `ORD` (R36): true is 1, `PerByteReversed`. -/
  ord : Reg Bool
  /-- `OFF` (R36). -/
  off : Reg (BitVec 7)
  /-- The integer result `RES` (R36). -/
  res : Word
  /-- The 80 cells of `BITBUF` (R37). -/
  bitbuf : Vector (Reg Bool) 80
  /-- `BITLEN`, 0 to 80 (R37). -/
  bitlen : Fin 81
  /-- The 10 bytes of `BYTEBUF` (R38). -/
  bytebuf : Vector (Reg Byte) 10
  /-- `BYTELEN`, 0 to 10 (R38). -/
  bytelen : Fin 11
  status : StatusReg
  seq : Seq
  /-- The configuration, which no step writes (R45). -/
  cfg : Cfg
  /-- The rolling-code counter `RCC` in its external store (R51). -/
  rcc : BitVec 16
  /-- The external settings store (R53). -/
  store : Settings
  /-- The armed timer: the delay of the wait in progress, whose one `Expire` has not come yet (R55,
  R435). -/
  timer : Option (BitVec 16)
  /-- How many waits a reset abandoned whose one `Expire` has not come yet (R60, R435, R451). -/
  abandoned : Nat
  /-- The event trace, oldest first (R18). -/
  trace : List Event
  /-- MODEL: what happens next at the block's boundary, oldest first. -/
  agenda : List Input
  /-- MODEL: how many `Transmit` calls were made, the index of the next free answer. -/
  txCalls : Nat
deriving DecidableEq, Repr

/-- Why a sequencer step stops. Both name states that no rule produces; no run from reset meets one. -/
inductive Fault where
  /-- Raised by `SEQ.FIRE` or `SEQ.EXPIRE` where the sequencer registers hold a combination that no rule
  produces and no rule gives a step for: `PH` above the kind's last phase, or `WAITING` with `KIND`
  LIST (R42, U7). Safe: the model stops where the spec says nothing. -/
  | seqUndefined
  /-- Raised by `SEND` where the encoder refuses the item for a reason other than `Unmapped`, which R352
  says cannot happen. Safe: the model stops where the spec says nothing. -/
  | sendUnencodable
deriving DecidableEq, Repr

/-- Why a step has no meaning in the model. -/
inductive Refusal where
  /-- Raised by an arm of `exec` whose instruction has no meaning yet; no arm does. Safe. -/
  | notModelled (mnemonic : String)
deriving DecidableEq, Repr

/-- A register that nothing has written since reset. -/
def Reg.unwritten {α : Type} (v : α) : Reg α := ⟨v, false⟩

/-- The value of a `Command` register nothing has written. -/
def Command.zero : Command :=
  { action := .up, rail := 0#2, address := 0#24, channelMask := 0#8, unit := 0#4,
    rollingCode := 0#16, repeatCount := 0#8, extCmd := none }

/-- The machine right after reset (R60), at a pairing whose store holds 0 (R51), with nothing on the
agenda. The registers R60 leaves unspecified are zero and unwritten: log entry 2. -/
def State.reset : State where
  opr := 0x00#8
  cmd :=
    { action := .unwritten 0#4, custom := .unwritten 0#8, rail := .unwritten 0#2,
      addr := .unwritten 0#24, chmask := .unwritten 0#8, unit := .unwritten 0#4,
      rc := .unwritten 0#16, rep := .unwritten 0#8, extv := .unwritten false,
      extb := .unwritten 0#8 }
  sets := { rot := .unwritten false, inv := .unwritten false, pulse := .unwritten false }
  cap := .unwritten 0#2
  capval := .unwritten 0#2
  steps := .unwritten 0#8
  value := .unwritten 0#32
  base := .unwritten 0#32
  wid := .unwritten 0#6
  pos := .unwritten 0#5
  ord := .unwritten false
  off := .unwritten 0#7
  res := 0#32
  bitbuf := ⟨⟨List.replicate 80 (.unwritten false)⟩, by simp⟩
  bitlen := 0
  bytebuf := ⟨⟨List.replicate 10 (.unwritten 0#8)⟩, by simp⟩
  bytelen := 0
  status := { sc := .ok, valid := false, group := false, tilt := false, txfail := false }
  seq := { st := .idle, kind := .list, ph := 0#2, rem := 0#8, fuv := false, fuact := 0#4,
           cmd := Command.zero, proto := .a, waitms := 0#16 }
  cfg := cfgRef
  rcc := 0#16
  store := { rotated := .deg0, invertTilt := false, pulseMode := false }
  timer := none
  abandoned := 0
  trace := []
  agenda := []
  txCalls := 0

end Sys2Proof.Machine
end

