-- ==== Sys2Proof/Machine/Flags.lean ====
section
/-! DEFINITION. `STATUS` and every flag computation (10_state.md R39; 60_exceptions.md R400; 42_protocol_a.md
R237, R238; 43_protocol_b.md R269). -/

namespace Sys2Proof.Machine

/-- The number of a status code (R400). -/
def Status.code : Status → BitVec 4
  | .ok => 0#4
  | .unmapped => 1#4
  | .checksum => 2#4
  | .unknownCode => 3#4
  | .malformed => 4#4
  | .badLength => 5#4
  | .busy => 6#4
  | .illegalOp => 7#4
  | .precond => 8#4

/-- `STATUS.BUSY`, the mirror of `SEQ.ST != IDLE` (R39). -/
def State.busyFlag (s : State) : Bool := s.seq.st != .idle

/-- The register `STATUS` as the host reads it (R39). -/
def State.statusWord (s : State) : BitVec 9 :=
  BitVec.ofBool s.status.txfail ++ BitVec.ofBool s.busyFlag ++ BitVec.ofBool s.status.tilt ++
    BitVec.ofBool s.status.group ++ BitVec.ofBool s.status.valid ++ s.status.sc.code

/-- `VALID` for a status: 1 iff the operation returned `Some` (R39). -/
def validOf (st : Status) : Bool := st == .ok

/-- `GROUP` of a Protocol-A frame: `channelMask` has no set bit (R237). -/
def groupA (mask : BitVec 8) : Bool := mask == 0#8

/-- `GROUP` of a Protocol-B frame: `unit = 0` (R269). -/
def groupB (unit : BitVec 4) : Bool := unit == 0#4

/-- `TILT` of a Protocol-A frame: the action is `Up` or `Down` (R238). -/
def tiltA (a : Action) : Bool := a == .up || a == .down

end Sys2Proof.Machine
end

