-- ==== Sys2Proof/Machine/Ops.lean ====
section
/-! DEFINITION. The named operations over registers, buffers, the trace and the status: the one way an
operation ends (60_exceptions.md R400, R411, R417), the buffer primitives (20_memory.md R83), the timer
(R425) and reset (70_reset_and_hazards.md R450). -/

namespace Sys2Proof.Machine

/-- What one step of the model answers. -/
abbrev Out := Host.Outcome State Fault Refusal

/-- The read of an operand register (R17 `x[name]`): one that nothing has written since reset is
`raise Precond` (R48, R409). -/
def Reg.get {α : Type} (r : Reg α) : Except Status α := if r.written then .ok r.val else .error .precond

/-- A register just written with a value. -/
def Reg.put {α : Type} (v : α) : Reg α := ⟨v, true⟩

/-- The read of several cells: `raise Precond` if one of them holds no defined value (R37, R48). -/
def readCells {α : Type} (l : List (Reg α)) : Except Status (List α) :=
  if l.all (·.written) then .ok (l.map (·.val)) else .error .precond

/-- Cells `a, a + 1, ...` overwritten with the values given, as far as there are cells (R83). -/
def overlay {α : Type} : List (Reg α) → Nat → List α → List (Reg α)
  | [], _, _ => []
  | x :: xs, 0, [] => x :: xs
  | _ :: xs, 0, v :: vs => .put v :: overlay xs 0 vs
  | x :: xs, a + 1, vs => x :: overlay xs a vs

/-- Cells at index `n` and above hold no defined value any more (R37). -/
def forgetFrom {α : Type} : List (Reg α) → Nat → List (Reg α)
  | [], _ => []
  | x :: xs, 0 => ⟨x.val, false⟩ :: forgetFrom xs 0
  | x :: xs, n + 1 => x :: forgetFrom xs n

/-- Writing cells keeps how many there are. -/
theorem overlay_length {α : Type} (l : List (Reg α)) (a : Nat) (vs : List α) :
    (overlay l a vs).length = l.length := by
  fun_induction overlay <;> simp_all

/-- Forgetting cells keeps how many there are. -/
theorem forgetFrom_length {α : Type} (l : List (Reg α)) (n : Nat) :
    (forgetFrom l n).length = l.length := by
  fun_induction forgetFrom <;> simp_all

/-- A buffer with the cells from `a` on overwritten. -/
def writeAt {α : Type} {n : Nat} (v : Vector (Reg α) n) (a : Nat) (vs : List α) : Vector (Reg α) n :=
  ⟨⟨overlay v.toArray.toList a vs⟩, by simp [overlay_length]⟩

/-- A buffer whose cells from `k` on hold no defined value any more. -/
def truncAt {α : Type} {n : Nat} (v : Vector (Reg α) n) (k : Nat) : Vector (Reg α) n :=
  ⟨⟨forgetFrom v.toArray.toList k⟩, by simp [forgetFrom_length]⟩

/-- An event appended to the trace (R18). -/
def State.emit (e : Event) (s : State) : State := { s with trace := s.trace ++ [e] }

/-- The end of a host operation (R400): `SC` and `VALID` are written and `Resp(status)` is emitted. -/
def State.respond (st : Status) (s : State) : State :=
  { s with status := { s.status with sc := st, valid := validOf st },
           trace := s.trace ++ [.resp st] }

/-- `raise <Status>` and `result None(<Status>)` (R17): the whole of what a failed operation does is
its status and its `Resp` (R411, R417). There is nothing to return from (R418). -/
def State.raise (st : Status) (s : State) : Out := .next (s.respond st)

/-- How every host operation ends: with the state its body made and `OK`, or from the state as it was
with the status its body raised. -/
def State.finish (s : State) : Except Status State → Out
  | .ok t => .next (t.respond .ok)
  | .error e => s.raise e

/-- `x[RES] <- v`. -/
def State.setRes (v : Word) (s : State) : State := { s with res := v }

/-- The slice read `BITBUF[a : a+n)` (R83): past `BITLEN` it is `raise Precond`. -/
def State.readBits (s : State) (a n : Nat) : Except Status Bits :=
  if a + n ≤ s.bitlen.val then readCells ((s.bitbuf.toArray.toList.drop a).take n)
  else .error .precond

/-- The larger of `BITLEN` and `b`, which is at most 80. -/
def growLen (len : Fin 81) (b : Nat) : Fin 81 := ⟨min (max len.val b) 80, by omega⟩

/-- The slice write `BITBUF[a : a+len(v)) <- v` with `BITLEN <- max(BITLEN, a+len(v))` (R83): a gap or
a write past 80 is `raise Precond`. -/
def State.writeBits (a : Nat) (v : Bits) (s : State) : Except Status State :=
  if a ≤ s.bitlen.val ∧ a + v.length ≤ 80 then
    .ok { s with bitbuf := writeAt s.bitbuf a v, bitlen := growLen s.bitlen (a + v.length) }
  else .error .precond

/-- The whole-buffer write `BITBUF <- v` with `BITLEN <- len(v)` (R83); the cells above hold no defined
value (R37). -/
def State.putBits (v : Bits) (s : State) : State :=
  { s with bitbuf := truncAt (writeAt s.bitbuf 0 v) v.length,
           bitlen := ⟨min v.length 80, by omega⟩ }

/-- A host's write of `BITLEN`: a smaller length leaves the cells above it without a defined value
(R37). Log entry 4. -/
def State.setBitLen (n : Fin 81) (s : State) : State :=
  { s with bitbuf := if n.val < s.bitlen.val then truncAt s.bitbuf n.val else s.bitbuf, bitlen := n }

/-- A host's write of `BYTELEN`, as `setBitLen` (R38, U3). -/
def State.setByteLen (n : Fin 11) (s : State) : State :=
  { s with bytebuf := if n.val < s.bytelen.val then truncAt s.bytebuf n.val else s.bytebuf,
           bytelen := n }

/-- The operand `BYTEBUF[0..BYTELEN-1]` of a checksum or whitening operation (R38). -/
def State.readBytes (s : State) : Except Status (List Byte) :=
  readCells (s.bytebuf.toArray.toList.take s.bytelen.val)

/-- `BYTEBUF[0..n-1] <- f`. -/
def State.putBytes (f : List Byte) (s : State) : State := { s with bytebuf := writeAt s.bytebuf 0 f }

/-- `SEQ <- q`, with `TXFAIL` cleared: what an accepted `REQ.*` does (R359). -/
def State.accept (q : Seq) (s : State) : State :=
  { s with seq := q, status := { s.status with txfail := false } }

/-- `SEQ.ST <- IDLE`. -/
def State.goIdle (s : State) : State := { s with seq := { s.seq with st := .idle } }

/-- `WAITMS <- ms ; Wait(ms) ; ST <- WAITING` (R357, R425). -/
def State.armTimer (ms : BitVec 16) (s : State) : State :=
  { s with seq := { s.seq with st := .waiting, waitms := ms }, timer := some ms,
           trace := s.trace ++ [.wait ms] }

/-- The `Transmit` call and the transceiver's answer (R350, R353): a failure is the event `TxFail` and the
sticky flag, nothing else. -/
def State.transmit (bits : Bits) (reps : BitVec 8) (fails : Bool) (s : State) : State :=
  { s with trace := s.trace ++ (.transmit bits reps :: if fails then [.txFail] else []),
           status := { s.status with txfail := s.status.txfail || fails },
           txCalls := s.txCalls + 1 }

/-- The update of the rolling-code counter (R350, R351): `RcGet(k)`, `RcSet((k + 1) mod 65536)`. -/
def State.bumpRcc (s : State) : State :=
  { s with rcc := s.rcc + 1#16, trace := s.trace ++ [.rcGet s.rcc, .rcSet (s.rcc + 1#16)] }

/-- The timer facility's report on the wait in progress (R435): the one `Expire` of that wait. -/
def State.timerReports (s : State) : State := { s.emit .expire with timer := none }

/-- The timer facility's report on a wait that a reset abandoned (R60, R451): its one `Expire` (R435), which
the sequencer ignores; with no such report outstanding there is none to come. -/
def State.lateExpire (s : State) : State :=
  if s.abandoned = 0 then s else { s.emit .expire with abandoned := s.abandoned - 1 }

/-- Reset of the block (R450, R60): the external stores, the configuration, the trace so far and what the
outside world will do are untouched; no event is emitted; a wait in progress is abandoned, its `Expire`
still to come (R435). -/
def State.blockReset (s : State) : State :=
  { State.reset with cfg := s.cfg, rcc := s.rcc, store := s.store, trace := s.trace,
                     agenda := s.agenda, txCalls := s.txCalls,
                     abandoned := if s.timer.isSome then s.abandoned + 1 else s.abandoned }

end Sys2Proof.Machine
end

