-- ==== Sys2Proof/Machine/Operands.lean ====
section
/-! DEFINITION. How the operations read their operands (10_state.md R31, R33 to R36, R47): action tags,
the protocol select, the `Command` held in `CMD`, the addressing fields, and the write of a decoded
command. -/

namespace Sys2Proof.Machine

/-- The value of `PROTO` (R31): 3 is reserved. -/
def protoOf (pr : BitVec 2) : Option Proto :=
  match pr.toNat with
  | 0 => some .a
  | 1 => some .b
  | 2 => some .c
  | _ => none

/-- The number of a protocol (R31). -/
def protoCode : Proto → BitVec 2
  | .a => 0#2
  | .b => 1#2
  | .c => 2#2

/-- The action of a tag and a `Custom` payload (R34). -/
def actionOf (tag : BitVec 4) (custom : BitVec 8) : Action :=
  match tag.toNat with
  | 0 => .up
  | 1 => .down
  | 2 => .idle
  | 3 => .tiltUp
  | 4 => .tiltDown
  | 5 => .program
  | 6 => .setLimit
  | 7 => .confirm
  | 8 => .deepUp
  | 9 => .deepDown
  | 10 => .custom custom
  | 11 => .pair
  | _ => .reserved (tag.extractLsb' 0 2)

/-- The tag of an action (R34). -/
def tagOf : Action → BitVec 4
  | .up => 0#4
  | .down => 1#4
  | .idle => 2#4
  | .tiltUp => 3#4
  | .tiltDown => 4#4
  | .program => 5#4
  | .setLimit => 6#4
  | .confirm => 7#4
  | .deepUp => 8#4
  | .deepDown => 9#4
  | .custom _ => 10#4
  | .pair => 11#4
  | .reserved t => 3#2 ++ t

/-- `payload(a) or 0` (R236): the `Custom` payload. -/
def payloadOf : Action → BitVec 8
  | .custom v => v
  | _ => 0#8

/-- The address width of a protocol (R21, R263). -/
def addressWidth : Proto → Nat
  | .a => 24
  | .b => 16
  | .c => 24

/-- Whether an address fits the protocol's width; if not, the encoder's answer is `Malformed` (R234,
R263, R404). -/
def addressFits (p : Proto) (a : BitVec 24) : Bool := decide (a.toNat < 2 ^ addressWidth p)

/-- The `Command` held in `CMD` (R33), `extCmd` present iff `EXTV = 1`. -/
def State.heldCommand (s : State) : Command where
  action := actionOf s.cmd.action.val s.cmd.custom.val
  rail := s.cmd.rail.val
  address := s.cmd.addr.val
  channelMask := s.cmd.chmask.val
  unit := s.cmd.unit.val
  rollingCode := s.cmd.rc.val
  repeatCount := s.cmd.rep.val
  extCmd := if s.cmd.extv.val then some s.cmd.extb.val else none

/-- The action in `CMD.ACTION`; `CUSTOM` is read only under tag 10 (R33). -/
def State.heldAction (s : State) : Reg Action :=
  ⟨actionOf s.cmd.action.val s.cmd.custom.val,
    s.cmd.action.written && (s.cmd.action.val != 10#4 || s.cmd.custom.written)⟩

/-- Item 3 of R405: a host action tag 11 to 15 is `Unmapped` (R34, R420). -/
def State.hostTag (s : State) : Except Status Unit :=
  if s.cmd.action.written && decide (11 ≤ s.cmd.action.val.toNat) then .error .unmapped else .ok ()

/-- A command as the operand registers present it to an encoder, with what the checks of R405 need to know
of them: whether `ADDR` is written, whether the registers are that select the code (its key), and whether
every other register is that the operation reads. -/
structure Presented where
  cmd : Command
  addr : Bool
  key : Bool
  rest : Bool
deriving DecidableEq, Repr

/-- Items 6 to 8 of R405 on a presented command: `Malformed`, then `Unmapped`, then the `Precond` of a read
of an unwritten register (R48, R409). A check holds only where the registers it reads are written (log
entry 3). -/
def Presented.check (o : Presented) (p : Proto) (unmapped : Command → Bool) : Except Status Command :=
  if o.addr && !addressFits p o.cmd.address then .error .malformed
  else if o.key && unmapped o.cmd then .error .unmapped
  else if o.addr && o.key && o.rest then .ok o.cmd
  else .error .precond

/-- `RAIL` selects the code under Protocol-B only (R262). -/
def State.railWritten (s : State) (p : Proto) : Bool :=
  match p with
  | .a => true
  | .b => s.cmd.rail.written
  | .c => true

/-- The field besides `ADDR` and `RAIL` by which a protocol addresses a receiver (R47): `CHMASK` under
Protocol-A, `UNIT` under Protocol-B. -/
def State.receiverWritten (s : State) (p : Proto) : Bool :=
  match p with
  | .a => s.cmd.chmask.written
  | .b => s.cmd.unit.written
  | .c => true

/-- The command of R360, R362, R366, R367: an action, the fields of `CMD` that a protocol uses to address a
receiver (R47), the unused ones at `rail 1, channelMask 0, unit 0`, `rollingCode 0` and `extCmd` absent.
`others` says whether the other operands of the request are written. -/
def State.addressed (s : State) (p : Proto) (a : Reg Action) (reps : BitVec 8) (others : Bool) : Presented where
  cmd :=
    { action := a.val, address := s.cmd.addr.val, rollingCode := 0#16, repeatCount := reps, extCmd := none,
      rail := match p with | .b => s.cmd.rail.val | .a | .c => 1#2,
      channelMask := match p with | .a => s.cmd.chmask.val | .b | .c => 0#8,
      unit := match p with | .b => s.cmd.unit.val | .a | .c => 0#4 }
  addr := s.cmd.addr.written
  key := a.written && s.railWritten p
  rest := s.receiverWritten p && others

/-- Whether `EXT` is written where `EXTV = 1` says that it is present (R33). -/
def State.extWritten (s : State) : Bool := s.cmd.extv.written && (!s.cmd.extv.val || s.cmd.extb.written)

/-- What `ENC.A`, `ENC.B` and `ENC.C` present: the `Command` held in `CMD` (R232, R262, R292). `EncC` reads
`EXTV` to select the frame of an action that has one, and `REPEAT` for the extended frame only. A field
that the protocol's encoder does not read may be unwritten; no operation looks at it. -/
def State.encOperand (s : State) (p : Proto) : Presented where
  cmd := s.heldCommand
  addr := s.cmd.addr.written
  key := s.heldAction.written && match p with
    | .a => true
    | .b => s.cmd.rail.written
    | .c => s.cmd.extv.written ||
        !((tableAt s.cfg.codeC s.heldAction.val).isSome || isCustom s.heldAction.val)
  rest := match p with
    | .a => s.cmd.chmask.written
    | .b => s.cmd.unit.written
    | .c => s.extWritten && s.cmd.rc.written && (!s.cmd.extv.val || s.cmd.rep.written)

/-- What `REQ.RAW` presents: the `Command` held in `CMD`, `rollingCode` 0 (R368). `EncC` sees `EXTV` of a
`Custom` action only, the others being lowered to no `extCmd` (R340). The whole command goes to `SEQ.CMD`,
with it the fields that the protocol's encoder does not read (`RAIL`, `UNIT`, `EXTV`, `EXT` under
Protocol-A, say), written or not: R48 refuses an operation that reads an unwritten register, and R47 does
not list those fields as read. No step looks at them. Log entry 23. -/
def State.rawOperand (s : State) (p : Proto) : Presented where
  cmd := { s.heldCommand with rollingCode := 0#16 }
  addr := s.cmd.addr.written
  key := s.heldAction.written && match p with
    | .a => true
    | .b => s.cmd.rail.written
    | .c => s.cmd.extv.written || !isCustom s.heldAction.val
  rest := s.cmd.rep.written && match p with
    | .a => s.cmd.chmask.written
    | .b => s.cmd.unit.written
    | .c => s.extWritten

/-- What a decoder returns: the command and the two flags (R236, R265, R300). -/
structure Decoded where
  cmd : Command
  group : Bool
  tilt : Bool
deriving DecidableEq, Repr

/-- `x[CMD.*] <- c` (R236, R370): every field of the file is written. -/
def cmdRegsOf (c : Command) : CmdRegs where
  action := .put (tagOf c.action)
  custom := .put (payloadOf c.action)
  rail := .put c.rail
  addr := .put c.address
  chmask := .put c.channelMask
  unit := .put c.unit
  rc := .put c.rollingCode
  rep := .put c.repeatCount
  extv := .put c.extCmd.isSome
  extb := .put (c.extCmd.getD 0#8)

/-- What a decode writes on `Some` (R47): `CMD.*`, `GROUP`, `TILT`. -/
def State.writeDecoded (d : Decoded) (s : State) : State :=
  { s with cmd := cmdRegsOf d.cmd,
           status := { s.status with group := d.group, tilt := d.tilt } }

/-- How many bits of a received sequence a decoder reads, by its length: Protocol-A takes 39, or 40 with
index 39 ignored, Protocol-B 40, Protocol-C 56 or 80 (R95); any other length is `BadLength`. -/
def wireLength (p : Proto) (n : Nat) : Option Nat :=
  match p with
  | .a => if n = 39 ∨ n = 40 then some 39 else none
  | .b => if n = 40 then some 40 else none
  | .c => if n = 56 ∨ n = 80 then some n else none

/-- The received sequence as the decoder of a protocol reads it from `BITBUF` (R236, R265, R300): every
cell of the frame, before any check. R265 and R300 read them so; R236 looks at the code slice first, so that
an unwritten address or mask cell beside a written slice that matches no code is `Precond` here, where that
order gives `UnknownCode`. R405 lists `Precond` (item 8) before `UnknownCode` (item 10) and calls their
relative place immaterial. DESIGN CHOICE, log entry 3. -/
def State.received (s : State) (p : Proto) : Except Status Bits :=
  match wireLength p s.bitlen.val with
  | none => .error .badLength
  | some n => s.readBits 0 n

end Sys2Proof.Machine
end

