-- ==== Sys2Proof/Machine/BitVector.lean ====
section
/-! DEFINITION. The bit-vector serializer and the bit-field shifter: `I2B`, `B2I`, `BF.INS`, `BF.EXT`
(40_bitvector.md). -/

namespace Sys2Proof.Machine

/-- The order check of R183 and R185: `PerByteReversed` takes a multiple of 8 (R93). -/
def orderFits (o : BitOrder) (w : Nat) : Bool := o == .msbFirst || w % 8 == 0

/-- `I2B` (R183), checks in its order. -/
def i2bBody (s : State) : Except Status State := do
  let wid ← s.wid.get
  let v ← s.value.get
  let off ← s.off.get
  let w := wid.toNat
  if w < 1 ∨ 32 < w then .error .precond
  else if 2 ^ w ≤ v.toNat then .error .precond
  else do
    let ord ← s.ord.get
    if !orderFits (bitOrderOf ord) w then .error .precond
    else s.writeBits off.toNat (intToBits v.toNat w (bitOrderOf ord))

/-- The meaning of `I2B`. -/
def execI2b (s : State) : Out := s.finish (i2bBody s)

/-- `B2I` (R185), checks in its order. -/
def b2iBody (s : State) : Except Status State := do
  let wid ← s.wid.get
  let off ← s.off.get
  let w := wid.toNat
  if w < 1 ∨ 32 < w then .error .precond
  else do
    let ord ← s.ord.get
    if !orderFits (bitOrderOf ord) w then .error .precond
    else do
      let v ← s.readBits off.toNat w
      .ok (s.setRes (BitVec.ofNat 32 (bitsToInt v (bitOrderOf ord))))

/-- The meaning of `B2I`. -/
def execB2i (s : State) : Out := s.finish (b2iBody s)

/-- `BF.INS` (R188). -/
def bfInsBody (s : State) : Except Status State := do
  let wid ← s.wid.get
  let pos ← s.pos.get
  if wid.toNat < 1 ∨ 32 < pos.toNat + wid.toNat then .error .precond
  else do
    let b ← s.base.get
    let v ← s.value.get
    .ok (s.setRes (insField b v pos.toNat wid.toNat))

/-- The meaning of `BF.INS`. -/
def execBfIns (s : State) : Out := s.finish (bfInsBody s)

/-- `BF.EXT` (R189). -/
def bfExtBody (s : State) : Except Status State := do
  let wid ← s.wid.get
  let pos ← s.pos.get
  if wid.toNat < 1 ∨ 32 < pos.toNat + wid.toNat then .error .precond
  else do
    let v ← s.value.get
    .ok (s.setRes (extField v pos.toNat wid.toNat))

/-- The meaning of `BF.EXT`. -/
def execBfExt (s : State) : Out := s.finish (bfExtBody s)

end Sys2Proof.Machine
end

