-- ==== Sys2Proof/Machine/Checksum.lean ====
section
/-! DEFINITION. The checksum and whitening operations on `BYTEBUF`: `CSUM.*`, `CHK.*`, `OBF`, `DEOBF`
(41_checksum.md). -/

namespace Sys2Proof.Machine

/-- `CSUM.NONE` (R201): no operand is examined. -/
def execCsumNone (s : State) : Out := s.finish (.ok (s.setRes 0#32))

/-- `CSUM.ADD` (R203). -/
def csumAddBody (s : State) : Except Status State := do
  let f ← s.readBytes
  .ok (s.setRes ((csB f).setWidth 32))

/-- The meaning of `CSUM.ADD`. -/
def execCsumAdd (s : State) : Out := s.finish (csumAddBody s)

/-- `CSUM.XORN` (R207). -/
def csumXornBody (s : State) : Except Status State := do
  let f ← s.readBytes
  .ok (s.setRes ((fold f).setWidth 32))

/-- The meaning of `CSUM.XORN`. -/
def execCsumXorn (s : State) : Out := s.finish (csumXornBody s)

/-- `CHK.NONE` (R202): no operand is examined. -/
def execChkNone (s : State) : Out := s.finish (.ok (s.setRes 1#32))

/-- `CHK.ADD` (R205): the last byte is the received checksum. -/
def chkAddBody (s : State) : Except Status State := do
  let f ← s.readBytes
  match f.getLast? with
  | none => .error .precond
  | some b => if csB f.dropLast = b then .ok (s.setRes 1#32) else .error .checksum

/-- The meaning of `CHK.ADD`. -/
def execChkAdd (s : State) : Out := s.finish (chkAddBody s)

/-- `CHK.XORN` (R209), on plain bytes. -/
def chkXornBody (s : State) : Except Status State := do
  let f ← s.readBytes
  if f.isEmpty then .error .precond
  else if fold f = 0#4 then .ok (s.setRes 1#32) else .error .checksum

/-- The meaning of `CHK.XORN`. -/
def execChkXorn (s : State) : Out := s.finish (chkXornBody s)

/-- `OBF` (R212). -/
def obfBody (s : State) : Except Status State := do
  let f ← s.readBytes
  .ok (s.putBytes (obf f))

/-- The meaning of `OBF`. -/
def execObf (s : State) : Out := s.finish (obfBody s)

/-- `DEOBF` (R213). -/
def deobfBody (s : State) : Except Status State := do
  let f ← s.readBytes
  .ok (s.putBytes (deobf f))

/-- The meaning of `DEOBF`. -/
def execDeobf (s : State) : Out := s.finish (deobfBody s)

end Sys2Proof.Machine
end

