-- ==== Sys2Proof/Machine/ProtocolA.lean ====
section
/-! DEFINITION. The Protocol-A codec: `EncA`, the decoder, `ENC.A` and `DEC.A` (42_protocol_a.md;
30_encoding.md R130 to R135). -/

namespace Sys2Proof.Machine

/-- `CodeA(a)` (R231): a key of `CODE_A`, or `PAIR_A` for the internal action `Pair`. -/
def codeA (cfg : Cfg) (a : Action) : Option (BitVec 8) :=
  match tableAt cfg.codeA a with
  | some c => some c
  | none => if a = .pair then some cfg.pairA else none

/-- `Trunc7(code)` (R132): the first seven bits of the code, most significant first. -/
def trunc7 (code : BitVec 8) : Bits := (intToBits code.toNat 8 .msbFirst).take 7

/-- `EncA` (R232). -/
def encodeA (cfg : Cfg) (c : Command) : Except Status Bits :=
  if !addressFits .a c.address then .error .malformed
  else match codeA cfg c.action with
    | none => .error .unmapped
    | some code =>
      .ok (intToBits c.address.toNat 24 .msbFirst ++ intToBits c.channelMask.toNat 8 .msbFirst ++
        trunc7 code)

/-- `EncA` has no code for the command's action (R232). -/
def unmappedA (cfg : Cfg) (c : Command) : Bool := (codeA cfg c.action).isNone

/-- `MatchA(t)` (R235): the key of `CODE_A` whose truncated code is `t`; `PAIR_A` is not searched. -/
def matchA (cfg : Cfg) (t : Bits) : Option Action := keyWhere (fun code => trunc7 code == t) cfg.codeA

/-- The Protocol-A decoder on the first 39 bits of a received sequence (R236). -/
def decodeA (cfg : Cfg) (s : Bits) : Except Status Decoded :=
  match matchA cfg (slice s 32 7) with
  | none => .error .unknownCode
  | some a =>
    .ok { cmd := { action := a, rail := 1#2, address := fieldAt 24 s 0, channelMask := fieldAt 8 s 24,
                   unit := 0#4, rollingCode := 0#16, repeatCount := 1#8, extCmd := none },
          group := groupA (fieldAt 8 s 24), tilt := tiltA a }

/-- `ENC.A` (R232): the host's tag check, then `EncA`, in the order of R405. -/
def encABody (s : State) : Except Status State := do
  s.hostTag
  let c ← (s.encOperand .a).check .a (unmappedA s.cfg)
  let bits ← encodeA s.cfg c
  .ok (s.putBits bits)

/-- The meaning of `ENC.A`. -/
def execEncA (s : State) : Out := s.finish (encABody s)

/-- `DEC.A` (R236). -/
def decABody (s : State) : Except Status State := do
  let bits ← s.received .a
  let d ← decodeA s.cfg bits
  .ok (s.writeDecoded d)

/-- The meaning of `DEC.A`. -/
def execDecA (s : State) : Out := s.finish (decABody s)

end Sys2Proof.Machine
end

