-- ==== Sys2Proof/Machine/ProtocolB.lean ====
section
/-! DEFINITION. The Protocol-B codec and identity: `EncB`, the decoder, `ENC.B`, `DEC.B`, `IDENT.B`
(43_protocol_b.md; 30_encoding.md R140 to R145). -/

namespace Sys2Proof.Machine

/-- `BaseB` (R261). -/
def baseB : Action → Action
  | .tiltUp => .up
  | .tiltDown => .down
  | a => a

/-- `IsTiltB` (R261). -/
def isTiltB (a : Action) : Bool := a == .tiltUp || a == .tiltDown

/-- The flags byte `f[3]` (R140, R142): `0x80` on rail 3, `0x10` for a tilt action. -/
def flagsB (rail : BitVec 2) (tilt : Bool) : Byte :=
  (if rail = 3#2 then 0x80#8 else 0#8) ||| (if tilt then 0x10#8 else 0#8)

/-- The frame bytes `f[0..3]` of a code (R262). -/
def bytesB (c : Command) (code : BitVec 4) : List Byte :=
  [byteOf 1 c.address, byteOf 0 c.address, nibbles code c.unit, flagsB c.rail (isTiltB c.action)]

/-- `EncB` (R262). -/
def encodeB (cfg : Cfg) (c : Command) : Except Status Bits :=
  if !addressFits .b c.address then .error .malformed
  else match tableAt cfg.code4B (baseB c.action, c.rail) with
    | none => .error .unmapped
    | some code => .ok (bytesToBits .perByteReversed (bytesB c code ++ [csB (bytesB c code)]))

/-- `EncB` has no code for the command's base action on its rail (R262). -/
def unmappedB (cfg : Cfg) (c : Command) : Bool := (tableAt cfg.code4B (baseB c.action, c.rail)).isNone

/-- `CommandValue(b2, b3)` (R266): an addition, on 9 bits. -/
def commandValue (b2 b3 : Byte) : BitVec 9 :=
  (b2 >>> 4).setWidth 9 + (if 0x80 ≤ b3.toNat then b3.setWidth 9 else 0#9)

/-- The rail of a `commandValue` (R267): 1 where `RAIL_B` has no entry. -/
def railOf (cfg : Cfg) (cv : BitVec 9) : BitVec 2 := (tableAt cfg.railB cv).getD 1#2

/-- The Protocol-B decoder on the five bytes of a frame (R265). -/
def decodeBytesB (cfg : Cfg) (f0 f1 f2 f3 f4 : Byte) : Except Status Decoded :=
  if csB [f0, f1, f2, f3] ≠ f4 then .error .checksum
  else match tableAt cfg.actB (commandValue f2 f3) with
    | none => .error .unknownCode
    | some a =>
      .ok { cmd := { action := if hiNib f3 = 1#4 then tiltOf a else a,
                     rail := railOf cfg (commandValue f2 f3),
                     address := (beWord f0 f1).setWidth 24, channelMask := 0#8, unit := loNib f2,
                     rollingCode := 0#16, repeatCount := 1#8, extCmd := none },
            group := groupB (loNib f2), tilt := false }

/-- The Protocol-B decoder on the 40 bits of a received sequence (R265). -/
def decodeB (cfg : Cfg) (s : Bits) : Except Status Decoded :=
  match bitsToBytes .perByteReversed s with
  | [f0, f1, f2, f3, f4] => decodeBytesB cfg f0 f1 f2 f3 f4
  | _ => .error .badLength

/-- `ENC.B` (R262), in the order of R405. -/
def encBBody (s : State) : Except Status State := do
  s.hostTag
  let c ← (s.encOperand .b).check .b (unmappedB s.cfg)
  let bits ← encodeB s.cfg c
  .ok (s.putBits bits)

/-- The meaning of `ENC.B`. -/
def execEncB (s : State) : Out := s.finish (encBBody s)

/-- `DEC.B` (R265). -/
def decBBody (s : State) : Except Status State := do
  let bits ← s.received .b
  let d ← decodeB s.cfg bits
  .ok (s.writeDecoded d)

/-- The meaning of `DEC.B`. -/
def execDecB (s : State) : Out := s.finish (decBBody s)

/-- `IDENT.B` (R272, R145): `(address << 4) | unit`. -/
def identBBody (s : State) : Except Status State := do
  let addr ← s.cmd.addr.get
  if !addressFits .b addr then .error .malformed
  else do
    let u ← s.cmd.unit.get
    .ok (s.setRes ((addr.setWidth 32 <<< 4) ||| u.setWidth 32))

/-- The meaning of `IDENT.B`. -/
def execIdentB (s : State) : Out := s.finish (identBBody s)

end Sys2Proof.Machine
end

