-- ==== Sys2Proof/Machine/ProtocolC.lean ====
section
/-! DEFINITION. The Protocol-C codec: `EncC`, the decoder, `ENC.C` and `DEC.C` (44_protocol_c.md;
30_encoding.md R150 to R155). -/

namespace Sys2Proof.Machine

/-- The frame a command selects (R291): its command nibble, and its `extCmd` where the frame is the
extended one; absent where the command has no frame. -/
def selectC (cfg : Cfg) (c : Command) : Option (BitVec 4 × Option Byte) :=
  match c.action, c.extCmd with
  | a, none => (tableAt cfg.codeC a).map fun n => (n, none)
  | .custom v, some e =>
    if v.toNat < 16 ∧ inRangeC cfg (v.setWidth 4) = false then some (v.setWidth 4, some e) else none
  | _, some _ => none

/-- `EncC` has no frame for the command (R291, R292). -/
def unmappedC (cfg : Cfg) (c : Command) : Bool := (selectC cfg c).isNone

/-- The plain bytes `p[0..6]` with the checksum in the low nibble of `p[1]` (R292, R208, R210). -/
def headC (cfg : Cfg) (nib : BitVec 4) (c : Command) : List Byte :=
  plainC cfg.markC0 nib (fold (plainC cfg.markC0 nib 0#4 c.rollingCode c.address)) c.rollingCode
    c.address

/-- The trailer bytes `p[7..9]` (R296), for a count of 1 to 15. -/
def tailC (cfg : Cfg) (e : Byte) (count : BitVec 8) : List Byte :=
  [cfg.markC7, e, trailerByte (count.setWidth 4) cfg.markC7 e]

/-- `EncC` (R292). -/
def encodeC (cfg : Cfg) (c : Command) : Except Status Bits :=
  if !addressFits .c c.address then .error .malformed
  else match selectC cfg c with
    | none => .error .unmapped
    | some (nib, none) => .ok (wireBitsC (headC cfg nib c))
    | some (nib, some e) =>
      if c.repeatCount.toNat < 1 ∨ 15 < c.repeatCount.toNat then .error .precond
      else .ok (wireBitsC (headC cfg nib c ++ tailC cfg e c.repeatCount))

/-- The command a Protocol-C frame carries (R300), for the fields that depend on its length. -/
def commandC (a : Action) (p2 p3 p4 p5 p6 : Byte) (reps : BitVec 8) (e : Option Byte) : Decoded where
  cmd := { action := a, rail := 1#2, address := leAddr p4 p5 p6, channelMask := 0#8, unit := 0#4,
           rollingCode := beWord p2 p3, repeatCount := reps, extCmd := e }
  group := false
  tilt := false

/-- The Protocol-C decoder on the de-whitened bytes of a frame (R300): the markers are not compared
(R301), nor is the rolling code (R302). -/
def decodeBytesC (cfg : Cfg) (p : List Byte) : Except Status Decoded :=
  match p with
  | p0 :: p1 :: p2 :: p3 :: p4 :: p5 :: p6 :: tail =>
    if fold [p0, p1, p2, p3, p4, p5, p6] ≠ 0#4 then .error .checksum
    else match tail with
      | [] =>
        match keyWhere (fun n => n == hiNib p1) cfg.codeC with
        | none => .error .unknownCode
        | some a => .ok (commandC a p2 p3 p4 p5 p6 1#8 none)
      | [p7, p8, p9] =>
        if trailerOk p7 p8 p9 then
          .ok (commandC (.custom ((hiNib p1).setWidth 8)) p2 p3 p4 p5 p6 ((hiNib p9).setWidth 8)
            (some p8))
        else .error .checksum
      | _ => .error .badLength
  | _ => .error .badLength

/-- The Protocol-C decoder on the 56 or 80 bits of a received sequence (R300). -/
def decodeC (cfg : Cfg) (s : Bits) : Except Status Decoded :=
  decodeBytesC cfg (deobf (bitsToBytes .msbFirst s))

/-- `ENC.C` (R292), in the order of R405. -/
def encCBody (s : State) : Except Status State := do
  s.hostTag
  let c ← (s.encOperand .c).check .c (unmappedC s.cfg)
  let bits ← encodeC s.cfg c
  .ok (s.putBits bits)

/-- The meaning of `ENC.C`. -/
def execEncC (s : State) : Out := s.finish (encCBody s)

/-- `DEC.C` (R300). -/
def decCBody (s : State) : Except Status State := do
  let bits ← s.received .c
  let d ← decodeC s.cfg bits
  .ok (s.writeDecoded d)

/-- The meaning of `DEC.C`. -/
def execDecC (s : State) : Out := s.finish (decCBody s)

end Sys2Proof.Machine
end

