-- ==== Sys2Proof/Machine/Transform.lean ====
section
/-! DEFINITION. The transform pipeline's functions and `XF.OUT`, `XF.IN` (45_transform.md R331 to R347):
rotation, tilt inversion, lowering, raising, the follow-up rule, and the encoder and decoder selected
by protocol. -/

namespace Sys2Proof.Machine

/-- `Rot` (R331). -/
def rotAction : Action → Action
  | .up => .down
  | .down => .up
  | .tiltUp => .tiltDown
  | .tiltDown => .tiltUp
  | .deepUp => .deepDown
  | .deepDown => .deepUp
  | a => a

/-- `Inv` (R332). -/
def invAction : Action → Action
  | .tiltUp => .tiltDown
  | .tiltDown => .tiltUp
  | a => a

/-- `XfOut(a, rot, inv)` (R333): rotation, then inversion. -/
def xfOutAction (a : Action) (rot inv : Bool) : Action :=
  let a1 := if rot then rotAction a else a
  if inv then invAction a1 else a1

/-- `XfIn(a, rot, inv)` (R334): inversion, then de-rotation. -/
def xfInAction (a : Action) (rot inv : Bool) : Action :=
  let a1 := if inv then invAction a else a
  if rot then rotAction a1 else a1

/-- `LOWER(proto, c)` (R340). -/
def lower (cfg : Cfg) (p : Proto) (c : Command) : Command :=
  match p, c.action with
  | .a, .tiltUp => { c with action := .up }
  | .a, .tiltDown => { c with action := .down }
  | .a, _ => c
  | .b, _ => c
  | .c, .tiltUp => { c with action := .custom (cfg.tiltUpC.1.setWidth 8), extCmd := some cfg.tiltUpC.2 }
  | .c, .tiltDown =>
      { c with action := .custom (cfg.tiltDownC.1.setWidth 8), extCmd := some cfg.tiltDownC.2 }
  | .c, .custom _ => c
  | .c, _ => { c with extCmd := none }

/-- `RAISE(proto, c, tilt)` (R341). -/
def raiseTilt (cfg : Cfg) (p : Proto) (c : Command) (tilt : Bool) : Command :=
  match p, c.action, c.extCmd with
  | .a, .up, _ => if tilt then { c with action := .tiltUp } else c
  | .a, .down, _ => if tilt then { c with action := .tiltDown } else c
  | .a, _, _ => c
  | .b, _, _ => c
  | .c, .custom n, some e =>
      if (n, e) = (cfg.tiltUpC.1.setWidth 8, cfg.tiltUpC.2) then
        { c with action := .tiltUp, extCmd := none }
      else if (n, e) = (cfg.tiltDownC.1.setWidth 8, cfg.tiltDownC.2) then
        { c with action := .tiltDown, extCmd := none }
      else c
  | .c, _, _ => c

/-- `FollowUp(a, pulse)` (R346), `a` after `XfOut`. -/
def followUp (a : Action) (pulse : Bool) : Option Action :=
  if pulse then none
  else match a with
    | .tiltUp | .tiltDown => some .idle
    | .up => some .deepUp
    | .down => some .deepDown
    | _ => none

/-- `Enc_proto` (R350). -/
def encodeP (cfg : Cfg) (p : Proto) (c : Command) : Except Status Bits :=
  match p with
  | .a => encodeA cfg c
  | .b => encodeB cfg c
  | .c => encodeC cfg c

/-- The decoder of a protocol (R370). -/
def decodeP (cfg : Cfg) (p : Proto) (s : Bits) : Except Status Decoded :=
  match p with
  | .a => decodeA cfg s
  | .b => decodeB cfg s
  | .c => decodeC cfg s

/-- `Enc_proto(LOWER(proto, c) with rollingCode := 0)`: the mappability test of R350 and the dry run of
R359. -/
def dryEncode (cfg : Cfg) (p : Proto) (c : Command) : Except Status Bits :=
  encodeP cfg p { lower cfg p c with rollingCode := 0#16 }

/-- `Enc_proto` answers `Unmapped` for the lowered command, were its address to fit (R359). -/
def unmappedP (cfg : Cfg) (p : Proto) (c : Command) : Bool :=
  match p with
  | .a => unmappedA cfg (lower cfg .a c)
  | .b => unmappedB cfg (lower cfg .b c)
  | .c => unmappedC cfg (lower cfg .c c)

/-- `x[CMD.ACTION] <- tag(f(action))` (R333, R334): every other field is untouched. -/
def State.setActionTag (t : BitVec 4) (s : State) : State :=
  { s with cmd := { s.cmd with action := .put t } }

/-- `XF.OUT` (R333). -/
def xfOutBody (s : State) : Except Status State := do
  let tag ← s.cmd.action.get
  let rot ← s.sets.rot.get
  let inv ← s.sets.inv.get
  .ok (s.setActionTag (tagOf (xfOutAction (actionOf tag s.cmd.custom.val) rot inv)))

/-- The meaning of `XF.OUT`. -/
def execXfOut (s : State) : Out := s.finish (xfOutBody s)

/-- `XF.IN` (R334). -/
def xfInBody (s : State) : Except Status State := do
  let tag ← s.cmd.action.get
  let rot ← s.sets.rot.get
  let inv ← s.sets.inv.get
  .ok (s.setActionTag (tagOf (xfInAction (actionOf tag s.cmd.custom.val) rot inv)))

/-- The meaning of `XF.IN`. -/
def execXfIn (s : State) : Out := s.finish (xfInBody s)

end Sys2Proof.Machine
end

