-- ==== Sys2Proof/Machine/Receive.lean ====
section
/-! DEFINITION. The incoming path: `RX` (45_transform.md R370), and the four frame rows, a received
payload that the host places in `BITBUF` before it issues `RX` (10_state.md R52, 60_exceptions.md
R415). -/

namespace Sys2Proof.Machine

/-- `RX` under a protocol (R370): decode, raise, transform, write `CMD`, deliver. -/
def rxBody (p : Proto) (s : State) : Except Status State := do
  let bits ← s.received p
  let d ← decodeP s.cfg p bits
  let rot ← s.sets.rot.get
  let inv ← s.sets.inv.get
  let c := raiseTilt s.cfg p d.cmd d.tilt
  let c := { c with action := xfInAction c.action rot inv }
  .ok ((s.writeDecoded { d with cmd := c }).emit (.deliver c))

/-- `RX` with its `PROTO` check first (R370). -/
def rxOp (pr : BitVec 2) (s : State) : Except Status State :=
  match protoOf pr with
  | none => .error .illegalOp
  | some p => rxBody p s

/-- The meaning of `RX`. -/
def execRx (pr : BitVec 2) (s : State) : Out := s.finish (rxOp pr s)

/-- The request word of `RX` under a protocol (R120, R121). -/
def rxWord (p : Proto) : BitVec 8 := oprWord (protoCode p) 0x15#5

/-- The host places a received payload in `BITBUF` and writes `OPR` (R52, R415). -/
def State.place (p : Proto) (bits : Bits) (s : State) : State :=
  { s.putBits bits with opr := rxWord p }

/-- A received payload presented to the block: placed, then `RX`. -/
def receive (p : Proto) (bits : Bits) (s : State) : Out := (s.place p bits).finish (rxBody p (s.place p bits))

/-- The meaning of a `FRAME.A` payload (R130). -/
def execFrameA (address : BitVec 24) (mask : BitVec 8) (code7 : BitVec 7) (s : State) : Out :=
  receive .a (frameBitsA address mask code7) s

/-- The meaning of a `FRAME.B` payload (R140). -/
def execFrameB (address : BitVec 16) (unit code4 : BitVec 4) (flags csum : Byte) (s : State) : Out :=
  receive .b (frameBitsB address unit code4 flags csum) s

/-- The meaning of a short Protocol-C payload (R150, R151). -/
def execFrameCShort (mark0 : Byte) (nib csum : BitVec 4) (rc : BitVec 16) (address : BitVec 24)
    (s : State) : Out :=
  receive .c (wireBitsC (plainC mark0 nib csum rc address)) s

/-- The meaning of an extended Protocol-C payload (R150, R151). -/
def execFrameCExt (mark0 : Byte) (nib csum : BitVec 4) (rc : BitVec 16) (address : BitVec 24)
    (mark7 extCmd : Byte) (count check : BitVec 4) (s : State) : Out :=
  receive .c (wireBitsC (plainC mark0 nib csum rc address ++ [mark7, extCmd, nibbles count check])) s

end Sys2Proof.Machine
end

