-- ==== Sys2Proof/Machine/Requests.lean ====
section
/-! DEFINITION. The pipeline requests `REQ.CAP`, `REQ.STEPS`, `REQ.MY`, `REQ.PROG`, `REQ.RAW`
(45_transform.md R359 to R368). -/

namespace Sys2Proof.Machine

/-- The first two checks of every `REQ.*` (R359): `PROTO = 3`, then `SEQ.ST != IDLE`. -/
def reqProto (pr : BitVec 2) (s : State) : Except Status Proto :=
  match protoOf pr with
  | none => .error .illegalOp
  | some p => if s.seq.st = .idle then .ok p else .error .busy

/-- The dry run of `Accept` (R359): the encoder's refusal, then `repeatCount = 0`. -/
def dryRun (cfg : Cfg) (p : Proto) (c : Command) : Except Status Unit :=
  match dryEncode cfg p c with
  | .error e => .error e
  | .ok _ => if c.repeatCount = 0#8 then .error .precond else .ok ()

/-- `Accept` (R359) on a presented command, after the checks on `PROTO`, `SEQ.ST` and the tag: the checks of
R405 on its registers, then the dry run. -/
def Presented.accept (o : Presented) (cfg : Cfg) (p : Proto) : Except Status Command := do
  let c ← o.check p (unmappedP cfg p)
  dryRun cfg p c
  .ok c

/-- `SEQ` of a LIST schedule (R360, R366 to R368). A register the rule does not set keeps its value: no
step reads it (U4, log entry 5). -/
def listSeq (s : State) (p : Proto) (c : Command) (fu : Option Action) : Seq :=
  { s.seq with st := .ready, kind := .list, ph := 0#2, fuv := fu.isSome,
               fuact := (fu.map tagOf).getD s.seq.fuact, cmd := c, proto := p }

/-- `SEQ` of a BATCH schedule (R362). -/
def batchSeq (s : State) (p : Proto) (c : Command) (n : BitVec 8) : Seq :=
  { s.seq with st := .ready, kind := .batch, rem := n, cmd := c, proto := p }

/-- `SEQ` of the pairing schedule (R367). -/
def pairSeq (s : State) (c : Command) : Seq :=
  { s.seq with st := .ready, kind := .pair, ph := 0#2, cmd := c, proto := .a }

/-- `CapAction` (R361); absent for a reserved `CAP` or `CAPVAL` (R35). -/
def capActionOf (cap capval : BitVec 2) : Option Action :=
  match cap.toNat, capval.toNat with
  | 0, 0 => some .up
  | 0, 1 => some .idle
  | 0, 2 => some .down
  | 1, _ => some .tiltUp
  | 2, _ => some .tiltDown
  | _, _ => none

/-- `CapAction` on the registers (R361): a reserved `CAP` or `CAPVAL` is `Precond`, before the encoder's
checks (R360, item 4 of R405); `CAPVAL` is read only under `CAP = 0` (R35). -/
def State.capAction (s : State) : Except Status (Reg Action) :=
  let written := s.cap.written && (s.cap.val != 0#2 || s.capval.written)
  match capActionOf s.cap.val s.capval.val with
  | some a => .ok ⟨a, written⟩
  | none => if written then .error .precond else .ok (.unwritten .idle)

/-- `XfOut` on an action and the settings registers (R333). -/
def State.transformed (s : State) (a : Reg Action) : Reg Action :=
  ⟨xfOutAction a.val s.sets.rot.val s.sets.inv.val, a.written && s.sets.rot.written && s.sets.inv.written⟩

/-- `REQ.CAP` (R360). -/
def reqCapBody (pr : BitVec 2) (s : State) : Except Status State := do
  let p ← reqProto pr s
  let a ← s.capAction
  let c ← (s.addressed p (s.transformed a) (s.cfg.defaultRepeat.at p) s.sets.pulse.written).accept s.cfg p
  .ok (s.accept (listSeq s p c (followUp c.action s.sets.pulse.val)))

/-- The meaning of `REQ.CAP`. -/
def execReqCap (pr : BitVec 2) (s : State) : Out := s.finish (reqCapBody pr s)

/-- `REQ.STEPS` (R362): `STEPS = 0` schedules nothing. -/
def reqStepsBody (pr : BitVec 2) (s : State) : Except Status State := do
  let p ← reqProto pr s
  s.hostTag
  let c ← (s.addressed p (s.transformed s.heldAction) 1#8 s.steps.written).accept s.cfg p
  if s.steps.val = 0#8 then .ok (s.accept s.seq) else .ok (s.accept (batchSeq s p c s.steps.val))

/-- The meaning of `REQ.STEPS`. -/
def execReqSteps (pr : BitVec 2) (s : State) : Out := s.finish (reqStepsBody pr s)

/-- `REQ.MY` (R366). -/
def reqMyBody (pr : BitVec 2) (s : State) : Except Status State := do
  let p ← reqProto pr s
  let c ← (s.addressed p (.put .idle) (s.cfg.myRepeat.at p) true).accept s.cfg p
  .ok (s.accept (listSeq s p c none))

/-- The meaning of `REQ.MY`. -/
def execReqMy (pr : BitVec 2) (s : State) : Out := s.finish (reqMyBody pr s)

/-- `REQ.PROG` (R367): the pairing schedule under Protocol-A, one `Program` frame otherwise. -/
def reqProgBody (pr : BitVec 2) (s : State) : Except Status State := do
  let p ← reqProto pr s
  let c ← (s.addressed p (.put .program) (s.cfg.defaultRepeat.at p) true).accept s.cfg p
  .ok (s.accept (if p = .a then pairSeq s c else listSeq s p c none))

/-- The meaning of `REQ.PROG`. -/
def execReqProg (pr : BitVec 2) (s : State) : Out := s.finish (reqProgBody pr s)

/-- `REQ.RAW` (R368): the command as held, `rollingCode` 0. -/
def reqRawBody (pr : BitVec 2) (s : State) : Except Status State := do
  let p ← reqProto pr s
  s.hostTag
  let c ← (s.rawOperand p).accept s.cfg p
  .ok (s.accept (listSeq s p c none))

/-- The meaning of `REQ.RAW`. -/
def execReqRaw (pr : BitVec 2) (s : State) : Out := s.finish (reqRawBody pr s)

end Sys2Proof.Machine
end

