-- ==== Sys2Proof/Machine/Dispatch.lean ====
section
/-! DEFINITION. The dispatch of an instruction to its meaning, one arm per constructor. -/

namespace Sys2Proof.Machine

def exec (i : Instr) (s : State) : Host.Outcome State Fault Refusal :=
  match i with
  | .i2b _ => Sys2Proof.Machine.execI2b s
  | .b2i _ => Sys2Proof.Machine.execB2i s
  | .bfIns _ => Sys2Proof.Machine.execBfIns s
  | .bfExt _ => Sys2Proof.Machine.execBfExt s
  | .csumNone => Sys2Proof.Machine.execCsumNone s
  | .csumAdd => Sys2Proof.Machine.execCsumAdd s
  | .csumXorn => Sys2Proof.Machine.execCsumXorn s
  | .chkNone => Sys2Proof.Machine.execChkNone s
  | .chkAdd => Sys2Proof.Machine.execChkAdd s
  | .chkXorn => Sys2Proof.Machine.execChkXorn s
  | .obf _ => Sys2Proof.Machine.execObf s
  | .deobf _ => Sys2Proof.Machine.execDeobf s
  | .encA => Sys2Proof.Machine.execEncA s
  | .encB => Sys2Proof.Machine.execEncB s
  | .encC => Sys2Proof.Machine.execEncC s
  | .decA => Sys2Proof.Machine.execDecA s
  | .decB => Sys2Proof.Machine.execDecB s
  | .decC => Sys2Proof.Machine.execDecC s
  | .identB => Sys2Proof.Machine.execIdentB s
  | .xfOut _ => Sys2Proof.Machine.execXfOut s
  | .xfIn _ => Sys2Proof.Machine.execXfIn s
  | .reqCap pr => Sys2Proof.Machine.execReqCap pr s
  | .reqSteps pr => Sys2Proof.Machine.execReqSteps pr s
  | .reqMy pr => Sys2Proof.Machine.execReqMy pr s
  | .reqProg pr => Sys2Proof.Machine.execReqProg pr s
  | .reqRaw pr => Sys2Proof.Machine.execReqRaw pr s
  | .rx pr => Sys2Proof.Machine.execRx pr s
  | .frameA address mask code7 => Sys2Proof.Machine.execFrameA address mask code7 s
  | .frameB address unit code4 flags csum => Sys2Proof.Machine.execFrameB address unit code4 flags csum s
  | .frameCShort mark0 nib csum rc address => Sys2Proof.Machine.execFrameCShort mark0 nib csum rc address s
  | .frameCExt mark0 nib csum rc address mark7 extCmd count check => Sys2Proof.Machine.execFrameCExt mark0 nib csum rc address mark7 extCmd count check s

end Sys2Proof.Machine
end

