-- ==== Sys2Proof/Machine/Sequencer.lean ====
section
/-! DEFINITION. The sequencer: `SEND`, `SEQ.FIRE`, `SEQ.EXPIRE` (45_transform.md R350 to R358), the pending
schedule as a list (10_state.md R43), and a reset inside `SEND` (70_reset_and_hazards.md R452). -/

namespace Sys2Proof.Machine

/-- The part of `SEND` before the `Transmit` call (R350): the state after the counter's update (Protocol-C
only, R351) and the lowered command that is encoded. -/
def State.prepare (p : Proto) (c : Command) (s : State) : Command × State :=
  let l := lower s.cfg p c
  match p with
  | .c => ({ l with rollingCode := s.rcc + 1#16 }, s.bumpRcc)
  | .a => (l, s)
  | .b => (l, s)

/-- `SEND(proto, c)` (R350), with the transceiver's answer to the `Transmit` call: `Skipped` is false,
`Sent` is true. -/
def State.send (p : Proto) (c : Command) (fails : Bool) (s : State) : Except Fault (Bool × State) :=
  match dryEncode s.cfg p c with
  | .error .unmapped => .ok (false, s)
  | .error _ => .error .sendUnencodable
  | .ok _ =>
    match encodeP s.cfg p (s.prepare p c).1 with
    | .error _ => .error .sendUnencodable
    | .ok bits => .ok (true, (s.prepare p c).2.transmit bits (s.prepare p c).1.repeatCount fails)

/-- The follow-up command (R347). -/
def followUpCmd (cfg : Cfg) (q : Seq) : Command :=
  { q.cmd with action := actionOf q.fuact 0#8, repeatCount := cfg.defaultRepeat.at q.proto }

/-- `min(15, REM)` (R357). -/
def burstOf (rem : BitVec 8) : BitVec 8 := if rem.toNat < 15 then rem else 15#8

/-- The item the next `SEQ.FIRE` sends (R356, R357): its protocol and command. Absent for a phase that no
rule produces. -/
def nextItem (cfg : Cfg) (q : Seq) : Option (Proto × Command) :=
  match q.kind with
  | .list => match q.ph.toNat with
    | 0 => some (q.proto, q.cmd)
    | 1 => some (q.proto, followUpCmd cfg q)
    | _ => none
  | .batch => some (q.proto, { q.cmd with repeatCount := burstOf q.rem })
  | .pair => match q.ph.toNat with
    | 0 => some (.a, { q.cmd with action := .pair })
    | 1 => some (.a, { q.cmd with action := .pair })
    | 2 => some (.a, { q.cmd with action := .up })
    | _ => none

/-- `SEQ.PH <- v`. -/
def State.setPhase (v : BitVec 2) (s : State) : State := { s with seq := { s.seq with ph := v } }

/-- `SEQ.REM <- v`. -/
def State.setRem (v : BitVec 8) (s : State) : State := { s with seq := { s.seq with rem := v } }

/-- What `SEQ.FIRE` does after `SEND` (R356, R357). -/
def State.afterSend (sent : Bool) (s : State) : State :=
  match s.seq.kind with
  | .list => if s.seq.ph = 0#2 ∧ s.seq.fuv = true then s.setPhase 1#2 else s.goIdle
  | .batch =>
    if sent then
      (s.setRem (s.seq.rem - burstOf s.seq.rem)).armTimer ((burstOf s.seq.rem).setWidth 16 * 100#16)
    else (s.setRem 0#8).goIdle
  | .pair =>
    if s.seq.ph.toNat < 2 then (s.setPhase (s.seq.ph + 1#2)).armTimer 1000#16 else s.goIdle

/-- `SEQ.FIRE` (R355), enabled iff `SEQ.ST = READY`; where it is not enabled nothing happens. -/
def seqFire (fails : Bool) (s : State) : Out :=
  if s.seq.st = .ready then
    match nextItem s.cfg s.seq with
    | none => .fault .seqUndefined
    | some (p, c) =>
      match s.send p c fails with
      | .error f => .fault f
      | .ok (sent, t) => .next (t.afterSend sent)
  else .next s

/-- `Expire` of the wait in progress and `SEQ.EXPIRE` (R358): the event, once for the wait (R435), then the
step, enabled iff `SEQ.ST = WAITING`. With no wait in progress there is no `Expire` to come (R55), and
nothing happens. -/
def seqExpire (s : State) : Out :=
  match s.timer with
  | none => .next s
  | some _ =>
    if s.seq.st = .waiting then
      match s.seq.kind with
      | .list => .fault .seqUndefined
      | .batch =>
        .next { s.timerReports with
          seq := { s.seq with st := if s.seq.rem = 0#8 then .idle else .ready } }
      | .pair => .next { s.timerReports with seq := { s.seq with st := .ready } }
    else .next s.timerReports

/-- Reset between `RcSet` and `Transmit` (R102, R452): the counter's update of the item about to be sent
happens where it is a mappable Protocol-C item, `Transmit` does not, and the block is reset. -/
def seqCrash (s : State) : State :=
  if s.seq.st = .ready then
    match nextItem s.cfg s.seq with
    | some (p, c) =>
      match dryEncode s.cfg p c with
      | .ok _ => (s.prepare p c).2.blockReset
      | .error _ => s.blockReset
    | none => s.blockReset
  else s.blockReset

/-- `Bursts(c, n)` (R43), on `fuel` bursts: 17 are enough for every step count. -/
def burstsFuel (c : Command) : Nat → Nat → List (Command × Nat)
  | 0, _ => []
  | fuel + 1, n =>
    if n = 0 then []
    else ({ c with repeatCount := BitVec.ofNat 8 (min 15 n) }, 100 * min 15 n) ::
      burstsFuel c fuel (n - min 15 n)

/-- `Bursts(c, n)` (R43). -/
def bursts (c : Command) (n : Nat) : List (Command × Nat) := burstsFuel c n n

/-- `Pending(SEQ)` (R43): the schedule items still to be sent, each with the delay after it. -/
def pending (cfg : Cfg) (q : Seq) : List (Command × Nat) :=
  if q.st = .idle then []
  else match q.kind with
    | .list =>
      if q.ph = 0#2 then (q.cmd, 0) :: (if q.fuv then [(followUpCmd cfg q, 0)] else [])
      else [(followUpCmd cfg q, 0)]
    | .batch => bursts q.cmd q.rem.toNat
    | .pair =>
      [({ q.cmd with action := .pair }, 1000), ({ q.cmd with action := .pair }, 1000),
        ({ q.cmd with action := .up }, 0)].drop q.ph.toNat

end Sys2Proof.Machine
end

