-- ==== Sys2Proof/Machine/Environment.lean ====
section
/-! DEFINITION. What the agents outside the block may do to it (60_exceptions.md R430 to R436): host
writes of operand registers (R431), reading the settings store (R53, R455), the pairing step (R456), a
change of a setting (R433). -/

namespace Sys2Proof.Machine

/-- A host write of one operand register or buffer cell (R431). -/
def State.hostWrite (w : HostWrite) (s : State) : State :=
  match w with
  | .action v => { s with cmd := { s.cmd with action := .put v } }
  | .custom v => { s with cmd := { s.cmd with custom := .put v } }
  | .rail v => { s with cmd := { s.cmd with rail := .put v } }
  | .addr v => { s with cmd := { s.cmd with addr := .put v } }
  | .chmask v => { s with cmd := { s.cmd with chmask := .put v } }
  | .unit v => { s with cmd := { s.cmd with unit := .put v } }
  | .rc v => { s with cmd := { s.cmd with rc := .put v } }
  | .rep v => { s with cmd := { s.cmd with rep := .put v } }
  | .extv v => { s with cmd := { s.cmd with extv := .put v } }
  | .extb v => { s with cmd := { s.cmd with extb := .put v } }
  | .rot v => { s with sets := { s.sets with rot := .put v } }
  | .inv v => { s with sets := { s.sets with inv := .put v } }
  | .pulse v => { s with sets := { s.sets with pulse := .put v } }
  | .cap v => { s with cap := .put v }
  | .capval v => { s with capval := .put v }
  | .steps v => { s with steps := .put v }
  | .value v => { s with value := .put v }
  | .base v => { s with base := .put v }
  | .wid v => { s with wid := .put v }
  | .pos v => { s with pos := .put v }
  | .ord v => { s with ord := .put v }
  | .off v => { s with off := .put v }
  | .bitCell i v => { s with bitbuf := writeAt s.bitbuf i.val [v] }
  | .bitbuf v => if v.length ≤ 80 then s.putBits v else s
  | .bitlen n => s.setBitLen n
  | .byteCell i v => { s with bytebuf := writeAt s.bytebuf i.val [v] }
  | .bytelen n => s.setByteLen n

/-- The host reads the settings store and writes `SET.ROT` (1 iff "180"), `SET.INV`, `SET.PULSE` (R53,
R455). -/
def State.readSettings (s : State) : State :=
  { s with sets := { rot := .put (s.store.rotated == .deg180), inv := .put s.store.invertTilt,
                     pulse := .put s.store.pulseMode } }

/-- The pairing step (R456): the store is set to 0, taken only while `SEQ.ST = IDLE`. -/
def State.pairStore (s : State) : State := if s.seq.st = .idle then { s with rcc := 0#16 } else s

end Sys2Proof.Machine
end

