-- ==== Sys2Proof/Machine/Fetch.lean ====
section
/-! DEFINITION. What one step does with one item of the agenda (60_exceptions.md R416, R430 to R436), and
what the block does on its own (45_transform.md R355, R358). -/

namespace Sys2Proof.Machine

/-- The host writes `OPR` (R32): the operation the word selects runs; a word that selects none ends with
`None(IllegalOp)` (R122, R408). -/
def request (w : BitVec 8) (s : State) : Out :=
  match decode (.opr w) with
  | .ok i => exec i { s with opr := w }
  | .error _ => { s with opr := w }.raise .illegalOp

/-- The transceiver delivers a payload (R432), which the host presents (R415): one in a table row's format
runs as that row's instruction; any other is presented all the same (R95, R471); one that `BITBUF` cannot
hold is not presented (log entry 8). -/
def deliverPayload (p : Proto) (bits : Bits) (s : State) : Out :=
  if bits.length ≤ 80 then
    match decode (.frame p bits) with
    | .ok i => exec i s
    | .error _ => receive p bits s
  else .next s

/-- One item of the agenda. -/
def perform (a : Input) (s : State) : Out :=
  match a with
  | .opr w => request w s
  | .host w => .next (s.hostWrite w)
  | .readSettings => .next s.readSettings
  | .frame p bits => deliverPayload p bits s
  | .fire fails => seqFire fails s
  | .expire => seqExpire s
  | .lateExpire => .next s.lateExpire
  | .reset => .next s.blockReset
  | .crash => .next (seqCrash s)
  | .pairStore => .next s.pairStore
  | .setting v => .next { s with store := v }

/-- With nothing on the agenda the block takes its own enabled step: `SEQ.FIRE` when READY (the transceiver
answers freely), `SEQ.EXPIRE` when WAITING (the wait elapses); an idle block waits for the host. The
`Expire` of an abandoned wait comes only where the agenda says so (log entry 13). -/
def autonomous (s : State) : Out :=
  match s.seq.st with
  | .ready => seqFire (Config.txFails s.txCalls) s
  | .waiting => seqExpire s
  | .idle => .next s

/-- The agenda item by which a word reaches the block. -/
def fetchItem : Incoming → Input
  | .opr w => .opr w
  | .frame p bits => .frame p bits

end Sys2Proof.Machine
end

