-- ==== Sys2Proof/Machine/Step.lean ====
section
/-! DEFINITION. One step of the machine (60_exceptions.md R416): the next item of the agenda, or, where the
agenda is empty, the sequencer step the block takes on its own. -/

namespace Sys2Proof.Machine

/-- One step. Log entry 7 says what the agenda is. -/
def step (s : State) : Host.Outcome State Fault Refusal :=
  match s.agenda with
  | [] => autonomous s
  | a :: rest => perform a { s with agenda := rest }

/-- Where `step` fetches its next instruction: the head of the agenda, so that the very next step is the
host's write of this request word (or the delivery of this payload) and runs exactly it. -/
def State.withFetchWord (s : State) (nbits w : Nat) : State :=
  { s with agenda := fetchItem (incomingOf nbits w) :: s.agenda }

end Sys2Proof.Machine
end

