-- ==== Sys2Proof/Safety.lean ====
section
/-! DEFINITION. What a safe run is, in the terms the statements use: the invariants of the sequencer
(10_state.md R42), of the status and of the timer, and that a pending schedule can be sent (45_transform.md
R352). -/

namespace Sys2Proof.Machine

/-- The clauses of R42 on the sequencer registers. -/
def SeqShape (q : Seq) : Prop :=
  (q.kind = .batch → q.st = .ready → q.rem ≠ 0#8) ∧
  (q.kind = .list → q.ph = 1#2 → q.fuv = true) ∧
  (q.kind = .pair → q.proto = .a) ∧
  (q.st = .waiting → q.kind = .batch ∨ q.kind = .pair)

/-- The phases the schedules use (R41): 0 and 1 for LIST; 0 to 2 for PAIR, 1 or 2 while its timer runs. -/
def PhaseShape (q : Seq) : Prop :=
  (q.kind = .list → q.st ≠ .idle → q.ph.toNat < 2) ∧
  (q.kind = .pair → q.st ≠ .idle → q.ph.toNat < 3)

/-- The encoder's answer is no refusal but `Unmapped` (R352). -/
def Sendable (cfg : Cfg) (p : Proto) (c : Command) : Prop :=
  (∃ bits, dryEncode cfg p c = .ok bits) ∨ dryEncode cfg p c = .error .unmapped

/-- The address of a pending schedule fits its protocol, a pending LIST primary can be sent, and a pending
follow-up is one R346 gives. -/
def ScheduleShape (cfg : Cfg) (q : Seq) : Prop :=
  q.st ≠ .idle →
    addressFits q.proto q.cmd.address = true ∧
    (q.kind = .list → Sendable cfg q.proto q.cmd) ∧
    (q.kind = .list → q.fuv = true → q.fuact = tagOf .idle ∨ q.fuact = tagOf .deepUp ∨ q.fuact = tagOf .deepDown)

/-- A timer is armed exactly while the sequencer waits, with the delay in `WAITMS` (R55, R425). -/
def TimerShape (s : State) : Prop :=
  s.timer = if s.seq.st = .waiting then some s.seq.waitms else none

/-- The event is `Wait(ms)`. -/
def isWait : Event → Bool
  | .wait _ => true
  | .rcGet _ | .rcSet _ | .transmit _ _ | .txFail | .expire | .deliver _ | .resp _ => false

/-- The event is `Expire`. -/
def isExpire : Event → Bool
  | .expire => true
  | .rcGet _ | .rcSet _ | .transmit _ _ | .txFail | .wait _ | .deliver _ | .resp _ => false

/-- Every `Wait` in the trace has had its one `Expire`, but for the wait in progress and those that a reset
abandoned (R55, R435). -/
def ExpiryShape (s : State) : Prop :=
  s.trace.countP isWait = s.trace.countP isExpire + (if s.timer.isSome then 1 else 0) + s.abandoned

/-- `VALID = 1` only with `SC = OK` (R39). -/
def StatusShape (s : State) : Prop := s.status.valid = true → s.status.sc = .ok

/-- The invariant of the machine. -/
def Inv (s : State) : Prop :=
  SeqShape s.seq ∧ PhaseShape s.seq ∧ ScheduleShape s.cfg s.seq ∧ TimerShape s ∧ StatusShape s

/-- A state in which the next step does not stop the machine. -/
def Safe (s : State) : Prop := ∃ t, step s = .next t

/-- `BITBUF` holds the sequence of `n` bits whose bit at index `k` is `g k` (R37). -/
def HoldsCells (s : State) (n : Nat) (g : Nat → Bool) : Prop :=
  s.bitlen.val = n ∧ ∀ k : Fin 80, k.val < n → s.bitbuf[k.val] = .put (g k.val)

/-- `BYTEBUF[0..BYTELEN-1]` holds the byte list `f` (R38). -/
def HoldsBytes (s : State) (f : List Byte) : Prop :=
  s.bytelen.val = f.length ∧ ∀ (j : Fin 10) (h : j.val < f.length), s.bytebuf[j.val] = .put f[j.val]

/-- Nothing has written any operand register or buffer cell: how the model holds what R60 leaves unspecified
(R48, log entry 3). -/
def NothingWritten (s : State) : Prop :=
  [s.cmd.custom.written, s.cmd.chmask.written, s.cmd.rep.written, s.cmd.extb.written,
    s.cmd.action.written, s.cmd.rail.written, s.cmd.addr.written, s.cmd.unit.written,
    s.cmd.rc.written, s.cmd.extv.written, s.sets.rot.written, s.sets.inv.written,
    s.sets.pulse.written, s.cap.written, s.capval.written, s.steps.written, s.value.written,
    s.base.written, s.wid.written, s.pos.written, s.ord.written, s.off.written] =
    List.replicate 22 false ∧
  (∀ k : Fin 80, s.bitbuf[k.val].written = false) ∧
  ∀ j : Fin 10, s.bytebuf[j.val].written = false

/-- What the table of R60 gives for a reset at state `s`: `SEQ.ST`, `STATUS`, `OPR`, the two lengths and the
timer cleared, the configuration and the settings store untouched; a wait that was in progress is among
those whose `Expire` is still to come (R435). -/
def ClearedFrom (s t : State) : Prop :=
  t.seq.st = .idle ∧ t.statusWord = 0#9 ∧ t.opr = 0#8 ∧ t.bitlen.val = 0 ∧ t.bytelen.val = 0 ∧
  t.timer = none ∧ t.cfg = s.cfg ∧ t.store = s.store ∧
  t.abandoned = s.abandoned + (if s.timer.isSome then 1 else 0)

/-- The bit of a value of width `w` that stands at an index of its serial form, and the index at which a
bit stands (the map is its own inverse): `w - 1 - i` in `MsbFirst` (R181), the same byte counted from
the other end and the same bit inside it in `PerByteReversed` (R182). -/
def serialIndex (reversed : Bool) (w i : Nat) : Nat :=
  if reversed then 8 * (w / 8 - 1 - i / 8) + i % 8 else w - 1 - i

/-- The sum of the bytes of a list, as an integer (R204). -/
def byteSum (f : List Byte) : Nat := (f.map (·.toNat)).sum

/-- The XOR of the high and the low nibble of every byte (R207). -/
def nibbleXor (f : List Byte) : BitVec 4 :=
  f.foldr (fun b acc => b.extractLsb' 4 4 ^^^ b.extractLsb' 0 4 ^^^ acc) 0#4

/-- The XOR of the bytes `0` to `j` of a list: byte `j` of its whitened form (R212). -/
def xorUpTo (f : List Byte) (j : Nat) : Byte := (f.take (j + 1)).foldr (· ^^^ ·) 0#8

/-- A byte list with bit `k` of byte `j` inverted. -/
def flipByteBit (f : List Byte) (j k : Nat) : List Byte :=
  f.set j (f.getD j 0#8 ^^^ BitVec.twoPow 8 k)

/-- Wire index `k` of a Protocol-A frame (R130). -/
def wireA (address : BitVec 24) (mask : BitVec 8) (code7 : BitVec 7) (k : Nat) : Bool :=
  if k < 24 then address.getLsbD (23 - k)
  else if k < 32 then mask.getLsbD (31 - k)
  else code7.getLsbD (38 - k)

/-- Wire index `k` of a byte list sent least significant bit first (R91, R141). -/
def wireRev (f : List Byte) (k : Nat) : Bool := (f.getD (k / 8) 0#8).getLsbD (k % 8)

/-- Wire index `k` of a plain Protocol-C frame: whitened, most significant bit first (R91, R151). -/
def wireC (p : List Byte) (k : Nat) : Bool := (xorUpTo p (k / 8)).getLsbD (7 - k % 8)

/-- The five bytes of a Protocol-B frame (R140), with the checksum of R204. -/
def frameBytesB (address : BitVec 24) (code4 : BitVec 4) (unit : BitVec 4) (rail3 tilt : Bool) : List Byte :=
  let f : List Byte := [address.extractLsb' 8 8, address.extractLsb' 0 8, code4 ++ unit,
    BitVec.ofBool rail3 ++ 0#2 ++ BitVec.ofBool tilt ++ 0#4]
  f ++ [BitVec.ofInt 8 (1 - byteSum f)]

/-- The seven bytes of a plain Protocol-C frame with a given checksum nibble (R150). -/
def plainBytesC (mark0 : Byte) (nib check : BitVec 4) (rc : BitVec 16) (address : BitVec 24) : List Byte :=
  [mark0, nib ++ check, rc.extractLsb' 8 8, rc.extractLsb' 0 8, address.extractLsb' 0 8,
    address.extractLsb' 8 8, address.extractLsb' 16 8]

/-- The seven bytes of a plain Protocol-C frame with the checksum nibble of R207 in its place. -/
def checkedBytesC (mark0 : Byte) (nib : BitVec 4) (rc : BitVec 16) (address : BitVec 24) : List Byte :=
  plainBytesC mark0 nib (nibbleXor (plainBytesC mark0 nib 0#4 rc address)) rc address

/-- The three bytes of the trailer (R296). -/
def trailerBytesC (mark7 extCmd : Byte) (count : BitVec 4) : List Byte :=
  [mark7, extCmd, count ++ (count ^^^ nibbleXor [mark7, extCmd])]

/-- `CMD.ACTION`, and `CMD.CUSTOM` where it matters, hold an action the host may request (R34, R420). -/
def HoldsAction (s : State) (a : Action) : Prop :=
  (tagOf a).toNat < 11 ∧ s.cmd.action = .put (tagOf a) ∧ ∀ v, a = .custom v → s.cmd.custom = .put v

/-- The registers by which a protocol addresses a receiver hold a command's addressing, and its unused
fields are at rail 1, mask 0, unit 0 (R47, R360). -/
def HoldsAddressing (s : State) (p : Proto) (c : Command) : Prop :=
  s.cmd.addr = .put c.address ∧
  match p with
  | .a => s.cmd.chmask = .put c.channelMask ∧ c.rail = 1#2 ∧ c.unit = 0#4
  | .b => s.cmd.rail = .put c.rail ∧ s.cmd.unit = .put c.unit ∧ c.channelMask = 0#8
  | .c => c.rail = 1#2 ∧ c.channelMask = 0#8 ∧ c.unit = 0#4

/-- The command a request builds from an action and a repeat count (R360, R362, R366, R367). -/
def Built (s : State) (p : Proto) (a : Action) (reps : BitVec 8) (c : Command) : Prop :=
  HoldsAddressing s p c ∧ c.action = a ∧ c.repeatCount = reps ∧ c.rollingCode = 0#16 ∧ c.extCmd = none

/-- The settings registers hold these values (R35). -/
def HoldsSettings (s : State) (rot inv : Bool) : Prop := s.sets.rot = .put rot ∧ s.sets.inv = .put inv

/-- The table of R335: what both transforms make of an action under the two settings. -/
def settingsTable (a : Action) (rot inv : Bool) : Action :=
  match a with
  | .up => if rot then .down else .up
  | .down => if rot then .up else .down
  | .tiltUp => if rot = inv then .tiltUp else .tiltDown
  | .tiltDown => if rot = inv then .tiltDown else .tiltUp
  | .deepUp => if rot then .deepDown else .deepUp
  | .deepDown => if rot then .deepUp else .deepDown
  | other => other

/-- The capability registers hold an event and its action (R35, R361). -/
def HoldsCapability (s : State) (a : Action) : Prop :=
  (s.cap = .put 0#2 ∧ s.capval = .put 0#2 ∧ a = .up) ∨
  (s.cap = .put 0#2 ∧ s.capval = .put 1#2 ∧ a = .idle) ∨
  (s.cap = .put 0#2 ∧ s.capval = .put 2#2 ∧ a = .down) ∨
  (s.cap = .put 1#2 ∧ a = .tiltUp) ∨
  (s.cap = .put 2#2 ∧ a = .tiltDown)

/-- The command that `REQ.RAW` sends: what `CMD` holds, `rollingCode` 0, with the registers written that
the protocol's encoder reads, and `REPEAT` (R47, R368). -/
def HeldRaw (s : State) (p : Proto) (c : Command) : Prop :=
  c = { s.heldCommand with rollingCode := 0#16 } ∧ HoldsAction s c.action ∧
  s.cmd.addr.written = true ∧ s.cmd.rep.written = true ∧
  match p with
  | .a => s.cmd.chmask.written = true
  | .b => s.cmd.rail.written = true ∧ s.cmd.unit.written = true
  | .c => s.cmd.extv.written = true ∧ (s.cmd.extv.val = true → s.cmd.extb.written = true)

/-- The command that a request presents to `Accept` under a protocol, with the operands it reads written
(R360, R362, R366 to R368). False of every instruction that is no request. -/
def Presents (s : State) (p : Proto) (c : Command) : Instr → Prop
  | .reqCap pr => protoOf pr = some p ∧ ∃ a rot inv pulse, HoldsCapability s a ∧
      HoldsSettings s rot inv ∧ s.sets.pulse = .put pulse ∧
      Built s p (settingsTable a rot inv) (s.cfg.defaultRepeat.at p) c
  | .reqSteps pr => protoOf pr = some p ∧ ∃ a rot inv, HoldsAction s a ∧ HoldsSettings s rot inv ∧
      s.steps.written = true ∧ Built s p (settingsTable a rot inv) 1#8 c
  | .reqMy pr => protoOf pr = some p ∧ Built s p .idle (s.cfg.myRepeat.at p) c
  | .reqProg pr => protoOf pr = some p ∧ Built s p .program (s.cfg.defaultRepeat.at p) c
  | .reqRaw pr => protoOf pr = some p ∧ HeldRaw s p c
  | _ => False

/-- The action registers are written: `CUSTOM` under tag 10 only (R33). -/
def ActionWritten (s : State) : Prop :=
  s.cmd.action.written = true ∧ (s.cmd.action.val = 10#4 → s.cmd.custom.written = true)

/-- The addressing registers of a protocol are written (R47). -/
def AddressingWritten (s : State) : Proto → Prop
  | .a => s.cmd.addr.written = true ∧ s.cmd.chmask.written = true
  | .b => s.cmd.rail.written = true ∧ s.cmd.addr.written = true ∧ s.cmd.unit.written = true
  | .c => s.cmd.addr.written = true

/-- `EXTV` is written, and `EXT` where it says that one is present (R33). -/
def ExtWritten (s : State) : Prop :=
  s.cmd.extv.written = true ∧ (s.cmd.extv.val = true → s.cmd.extb.written = true)

/-- The settings registers that the transforms read are written (R35). -/
def SettingsWritten (s : State) : Prop := s.sets.rot.written = true ∧ s.sets.inv.written = true

/-- The first `n` cells of `BITBUF` are written. -/
def CellsWritten (s : State) (n : Nat) : Prop := ∀ k : Fin 80, k.val < n → s.bitbuf[k.val].written = true

/-- Every operand that the table of R47 lists as read by an instruction is written, as far as the rule of
the instruction reads it: `CUSTOM` under tag 10, `EXT` and (`ENC.C`) `REPEAT` under `EXTV = 1`, `CAPVAL`
under `CAP = 0`. The cells of a frame row are written by the row itself. -/
def OperandsWritten (s : State) : Instr → Prop
  | .i2b _ => s.value.written = true ∧ s.wid.written = true ∧ s.ord.written = true ∧ s.off.written = true
  | .b2i _ => s.off.written = true ∧ s.wid.written = true ∧ s.ord.written = true ∧
      ∀ k : Fin 80, s.off.val.toNat ≤ k.val → k.val < s.off.val.toNat + s.wid.val.toNat →
        s.bitbuf[k.val].written = true
  | .bfIns _ => s.base.written = true ∧ s.value.written = true ∧ s.pos.written = true ∧ s.wid.written = true
  | .bfExt _ => s.value.written = true ∧ s.pos.written = true ∧ s.wid.written = true
  | .csumNone | .chkNone => True
  | .csumAdd | .csumXorn | .chkAdd | .chkXorn | .obf _ | .deobf _ =>
      ∀ j : Fin 10, j.val < s.bytelen.val → s.bytebuf[j.val].written = true
  | .encA => ActionWritten s ∧ AddressingWritten s .a
  | .encB => ActionWritten s ∧ AddressingWritten s .b
  | .encC => ActionWritten s ∧ AddressingWritten s .c ∧ s.cmd.rc.written = true ∧ ExtWritten s ∧
      (s.cmd.extv.val = true → s.cmd.rep.written = true)
  | .decA => CellsWritten s 39
  | .decB => CellsWritten s 40
  | .decC => CellsWritten s s.bitlen.val
  | .identB => s.cmd.addr.written = true ∧ s.cmd.unit.written = true
  | .xfOut _ | .xfIn _ => s.cmd.action.written = true ∧ SettingsWritten s
  | .reqCap pr => s.cap.written = true ∧ (s.cap.val = 0#2 → s.capval.written = true) ∧
      SettingsWritten s ∧ s.sets.pulse.written = true ∧ ∀ p, protoOf pr = some p → AddressingWritten s p
  | .reqSteps pr => ActionWritten s ∧ SettingsWritten s ∧ s.steps.written = true ∧
      ∀ p, protoOf pr = some p → AddressingWritten s p
  | .reqMy pr | .reqProg pr => ∀ p, protoOf pr = some p → AddressingWritten s p
  | .reqRaw pr => ActionWritten s ∧ s.cmd.rep.written = true ∧
      ∀ p, protoOf pr = some p → AddressingWritten s p ∧ (p = .c → ExtWritten s)
  | .rx pr => SettingsWritten s ∧
      ∀ p, protoOf pr = some p → ∀ n, wireLength p s.bitlen.val = some n → CellsWritten s n
  | .frameA _ _ _ | .frameB _ _ _ _ _ | .frameCShort _ _ _ _ _ | .frameCExt _ _ _ _ _ _ _ _ _ =>
      SettingsWritten s

/-- A register that holds what another one holds, or anything where that one holds nothing. -/
def Reg.Fills {α : Type} (r r' : Reg α) : Prop := r.written = true → r' = r

/-- The second state is the first with values of any kind in the operand registers and buffer cells that
nothing has written in the first. -/
def State.Fills (s t : State) : Prop :=
  t = { s with cmd := t.cmd, sets := t.sets, cap := t.cap, capval := t.capval, steps := t.steps,
               value := t.value, base := t.base, wid := t.wid, pos := t.pos, ord := t.ord, off := t.off,
               bitbuf := t.bitbuf, bytebuf := t.bytebuf } ∧
  (s.cmd.action.Fills t.cmd.action ∧ s.cmd.custom.Fills t.cmd.custom ∧ s.cmd.rail.Fills t.cmd.rail ∧
    s.cmd.addr.Fills t.cmd.addr ∧ s.cmd.chmask.Fills t.cmd.chmask ∧ s.cmd.unit.Fills t.cmd.unit ∧
    s.cmd.rc.Fills t.cmd.rc ∧ s.cmd.rep.Fills t.cmd.rep ∧ s.cmd.extv.Fills t.cmd.extv ∧
    s.cmd.extb.Fills t.cmd.extb) ∧
  (s.sets.rot.Fills t.sets.rot ∧ s.sets.inv.Fills t.sets.inv ∧ s.sets.pulse.Fills t.sets.pulse) ∧
  (s.cap.Fills t.cap ∧ s.capval.Fills t.capval ∧ s.steps.Fills t.steps ∧ s.value.Fills t.value ∧
    s.base.Fills t.base ∧ s.wid.Fills t.wid ∧ s.pos.Fills t.pos ∧ s.ord.Fills t.ord ∧ s.off.Fills t.off) ∧
  (∀ k : Fin 80, s.bitbuf[k.val].Fills t.bitbuf[k.val]) ∧
  ∀ j : Fin 10, s.bytebuf[j.val].Fills t.bytebuf[j.val]

/-- A request that was accepted: only `SEQ` is written, `TXFAIL` cleared, and the operation ends with `OK`
(R359). -/
def State.accepted (q : Seq) (s : State) : State :=
  { s with seq := q, status := { s.status with txfail := false } }.respond .ok

/-- The protocol's encoder maps the command (R350, R359). -/
def Mappable (cfg : Cfg) (p : Proto) (c : Command) : Prop := ∃ bits, dryEncode cfg p c = .ok bits

/-- The events of one `SEND` that transmits (R350): the counter's only under Protocol-C. -/
def sentEvents (s : State) (p : Proto) (bits : Bits) (reps : BitVec 8) (fails : Bool) : List Event :=
  (if p = .c then [.rcGet s.rcc, .rcSet (s.rcc + 1#16)] else []) ++ [.transmit bits reps] ++
    (if fails then [.txFail] else [])

/-- What a `SEND` that transmits leaves (R350): the counter, the trace, the sticky flag, and the model's
count of calls; nothing else. -/
def State.sent (p : Proto) (bits : Bits) (reps : BitVec 8) (fails : Bool) (s : State) : State :=
  { s with rcc := if p = .c then s.rcc + 1#16 else s.rcc,
           trace := s.trace ++ sentEvents s p bits reps fails,
           status := { s.status with txfail := s.status.txfail || fails },
           txCalls := s.txCalls + 1 }

/-- The lowered command as the table of R340 gives it, protocol by protocol. -/
def loweredTable (cfg : Cfg) (p : Proto) (c : Command) : Command :=
  match p with
  | .a => if c.action = .tiltUp then { c with action := .up }
      else if c.action = .tiltDown then { c with action := .down } else c
  | .b => c
  | .c => if c.action = .tiltUp ∨ c.action = .tiltDown then
        let t := if c.action = .tiltUp then cfg.tiltUpC else cfg.tiltDownC
        { c with action := .custom (0#4 ++ t.1), extCmd := some t.2 }
      else if tagOf c.action = 10#4 then c else { c with extCmd := none }

/-- The command whose bits a `SEND` transmits: lowered, with the next rolling code under Protocol-C
(R350). -/
def wireCommand (s : State) (p : Proto) (c : Command) : Command :=
  { lower s.cfg p c with
    rollingCode := if p = .c then s.rcc + 1#16 else (lower s.cfg p c).rollingCode }

/-- What an observer of the radio and of the timer sees of an event: a burst by its repetitions, a wait
by its delay, an expiry (R104). -/
inductive Seen where
  | burst (reps : Nat)
  | wait (ms : Nat)
  | expire
deriving DecidableEq, Repr

/-- The view of one event. -/
def seen : Event → Option Seen
  | .transmit _ reps => some (.burst reps.toNat)
  | .wait ms => some (.wait ms.toNat)
  | .expire => some .expire
  | .rcGet _ | .rcSet _ | .txFail | .deliver _ | .resp _ => none

/-- What a host write of one register or cell leaves of state `s` (R431): the register or cell named holds
the value and is written, and everything else is as it was. The whole-buffer write sets the length and
leaves the cells above it without a value (R83, R37), and so does a smaller length (log entry 4); a
sequence that `BITBUF` cannot hold writes nothing (log entry 8). -/
def Wrote (s t : State) : HostWrite → Prop
  | .action v => t = { s with cmd := { s.cmd with action := .put v } }
  | .custom v => t = { s with cmd := { s.cmd with custom := .put v } }
  | .rail v => t = { s with cmd := { s.cmd with rail := .put v } }
  | .addr v => t = { s with cmd := { s.cmd with addr := .put v } }
  | .chmask v => t = { s with cmd := { s.cmd with chmask := .put v } }
  | .unit v => t = { s with cmd := { s.cmd with unit := .put v } }
  | .rc v => t = { s with cmd := { s.cmd with rc := .put v } }
  | .rep v => t = { s with cmd := { s.cmd with rep := .put v } }
  | .extv v => t = { s with cmd := { s.cmd with extv := .put v } }
  | .extb v => t = { s with cmd := { s.cmd with extb := .put v } }
  | .rot v => t = { s with sets := { s.sets with rot := .put v } }
  | .inv v => t = { s with sets := { s.sets with inv := .put v } }
  | .pulse v => t = { s with sets := { s.sets with pulse := .put v } }
  | .cap v => t = { s with cap := .put v }
  | .capval v => t = { s with capval := .put v }
  | .steps v => t = { s with steps := .put v }
  | .value v => t = { s with value := .put v }
  | .base v => t = { s with base := .put v }
  | .wid v => t = { s with wid := .put v }
  | .pos v => t = { s with pos := .put v }
  | .ord v => t = { s with ord := .put v }
  | .off v => t = { s with off := .put v }
  | .bitCell i v => t = { s with bitbuf := t.bitbuf } ∧
      ∀ k : Fin 80, t.bitbuf[k.val] = if k = i then .put v else s.bitbuf[k.val]
  | .bitbuf b => (80 < b.length → t = s) ∧
      (b.length ≤ 80 → t = { s with bitbuf := t.bitbuf, bitlen := t.bitlen } ∧
        HoldsCells t b.length (fun k => b.getD k false) ∧
        ∀ k : Fin 80, b.length ≤ k.val → t.bitbuf[k.val].written = false)
  | .bitlen n => t = { s with bitbuf := t.bitbuf, bitlen := n } ∧
      ∀ k : Fin 80, (k.val < n.val ∨ s.bitlen.val ≤ n.val → t.bitbuf[k.val] = s.bitbuf[k.val]) ∧
        (n.val ≤ k.val → n.val < s.bitlen.val → t.bitbuf[k.val].written = false)
  | .byteCell i v => t = { s with bytebuf := t.bytebuf } ∧
      ∀ k : Fin 10, t.bytebuf[k.val] = if k = i then .put v else s.bytebuf[k.val]
  | .bytelen n => t = { s with bytebuf := t.bytebuf, bytelen := n } ∧
      ∀ k : Fin 10, (k.val < n.val ∨ s.bytelen.val ≤ n.val → t.bytebuf[k.val] = s.bytebuf[k.val]) ∧
        (n.val ≤ k.val → n.val < s.bytelen.val → t.bytebuf[k.val].written = false)

/-- The bursts of a step count: 15 repeats each, the last one the rest (R362). -/
def burstCounts (n : Nat) : List Nat :=
  List.replicate (n / 15) 15 ++ (if n % 15 = 0 then [] else [n % 15])

end Sys2Proof.Machine
end

