-- ==== Sys2Proof/Certificates/Slice0/Obligations.lean ====
section
/-! DEFINITION. The statements for the provers, one definition each. Each docstring names the rule of
spec/ it formalises, or says that it is derived and from what. -/

open Sys2Proof Sys2Proof.Machine

/-! ### Decoding and the step -/

/-- Derived from R121, R242, R262, R292, R305: request words written out from the table of operation
codes, and the four frames the spec prints bit by bit (R262's is the one of its example). -/
def Obligations.DecodesTheSpecsOwnWords : Prop :=
  decode (.opr 0b00000001#8) = .ok (.i2b 0#2) ∧
  decode (.opr 0b00000011#8) = .ok (.bfIns 0#2) ∧
  decode (.opr 0b00100101#8) = .ok .csumAdd ∧
  decode (.opr 0b01000110#8) = .ok .chkXorn ∧
  decode (.opr 0b00001001#8) = .ok .encA ∧
  decode (.opr 0b01001010#8) = .ok .decC ∧
  decode (.opr 0b00101011#8) = .ok .identB ∧
  decode (.opr 0b00001100#8) = .ok (.xfOut 0#2) ∧
  decode (.opr 0b00110001#8) = .ok (.reqSteps 1#2) ∧
  decode (.opr 0b01010101#8) = .ok (.rx 2#2) ∧
  decode (.frame .a (intToMsb 0b000000000000000000000001000000010001000 39)) =
    .ok (.frameA 0x000001#24 0x01#8 0b0001000#7) ∧
  decode (.frame .b (intToMsb 0b0100100000101100101010000000000001100101 40)) =
    .ok (.frameB 0x1234#16 5#4 1#4 0x00#8 0xA6#8) ∧
  decode (.frame .c (intToMsb 0b10100111100011101000111010001111110110011110110111111111 56)) =
    .ok (.frameCShort 0xA7#8 2#4 9#4 0x0001#16 0x123456#24) ∧
  decode (.frame .c (intToMsb
      0b10100111000101110001011100000111010100010110010101110111111101111111011000000000 80)) =
    .ok (.frameCExt 0xA7#8 0xB#4 0#4 0x0010#16 0x123456#24 0x80#8 0x01#8 15#4 6#4)

/-- Derived from R32, R40, R52, R415: the next item of the agenda is what the host does next; a write of
`OPR` runs the instruction the word decodes to, with `OPR` holding the word, and a delivered payload
runs the instruction its frame decodes to. The agenda is the model's choice (log entry 7), and that a
delivered payload runs a frame row its reading (log entry 10). Derived from R95, R144, R471: a payload of
at most 80 bits that is no row's instance is presented to `RX` all the same, standing in `BITBUF` (log
entry 17). -/
def Obligations.StepRunsThePresentedInstruction : Prop :=
  ∀ (s : State) (i : Instr) (rest : List Input),
    (∀ w, s.agenda = .opr w :: rest → decode (.opr w) = .ok i →
      step s = exec i { s with agenda := rest, opr := w }) ∧
    (∀ p bits, s.agenda = .frame p bits :: rest → decode (.frame p bits) = .ok i →
      step s = exec i { s with agenda := rest }) ∧
    (∀ p bits why, s.agenda = .frame p bits :: rest → decode (.frame p bits) = .error why →
      bits.length ≤ 80 → ∃ u, step s = exec (.rx (protoCode p)) u ∧
        HoldsCells u bits.length (fun k => bits.getD k false) ∧
        u = { s with agenda := rest, bitbuf := u.bitbuf, bitlen := u.bitlen,
                     opr := 0#1 ++ protoCode p ++ 0x15#5 })

/-- R122: which words select no operation, and that such a word ends with `None(IllegalOp)` and changes
nothing else; an operation code whose `PROTO` operand is 3 is one of them. -/
def Obligations.IllegalWordsAnswerIllegalOp : Prop :=
  ∀ (w : BitVec 8),
    let op := w.toNat % 32
    let proto := w.toNat / 32 % 4
    let illegal := op = 0x00 ∨ op = 0x0E ∨ op = 0x0F ∨ 0x16 ≤ op ∨ 128 ≤ w.toNat ∨
      (proto = 3 ∧ (op = 0x05 ∨ op = 0x06 ∨ op = 0x09 ∨ op = 0x0A ∨ 0x10 ≤ op)) ∨
      (op = 0x0B ∧ proto ≠ 1)
    (illegal → ∀ (s : State) (rest : List Input), s.agenda = .opr w :: rest →
      step s = .next ({ s with agenda := rest, opr := w }.respond .illegalOp)) ∧
    (¬ illegal → ∃ i, decode (.opr w) = .ok i)

/-- Derived from R120, R121, R130, R141, R151: what decodes is well formed and encodes back to the very
word or payload it was read from, so no two words decode alike. -/
def Obligations.DecodedWordsReencode : Prop :=
  ∀ (c : Incoming) (i : Instr), decode c = .ok i → i.wellFormed = true ∧ encode i = c

/-- Derived from R120, R121, R130, R140, R141, R150, R151: decoding inverts encoding, for every
well-formed instruction and every value of every operand. -/
def Obligations.DecodeInvertsEncode : Prop :=
  ∀ i : Instr, i.wellFormed = true → decode (encode i) = .ok i

/-! ### Reset and the invariant -/

/-- Derived from R450 with the table of R60: reset, taken at any state: the sequencer, the status, `OPR`
and the two lengths are cleared, no timer is armed, the configuration and the external stores are
untouched, no event is emitted, and the block then waits for the host. Derived from R451: nothing of the
schedule is left, and the `Expire` of a wait armed before the reset is ignored; that it is appended to
the trace, and comes only where the agenda says so, is the model's reading (log entry 13). That every
operand register is unwritten is the model's reading of "unspecified" (R48, log entries 2 and 3). -/
def Obligations.ResetClearsTheBlock : Prop :=
  ∀ (s : State) (rest : List Input), s.agenda = .reset :: rest →
    ∃ t, step s = .next t ∧ ClearedFrom s t ∧ NothingWritten t ∧ t.rcc = s.rcc ∧
      t.trace = s.trace ∧ t.agenda = rest ∧ pending t.cfg t.seq = [] ∧
      (rest = [] → step t = .next t) ∧
      (∀ later, rest = .expire :: later → step t = .next { t with agenda := later }) ∧
      (∀ later, rest = .lateExpire :: later → s.timer.isSome = true →
        step t = .next { t with agenda := later, trace := t.trace ++ [.expire],
                                abandoned := s.abandoned })

/-- Derived from R60 (its stated values) and R51 (the counter is 0 at pairing), on the state right after
reset; that the configuration is the reference one is the model's choice (log entry 1). Derived from R39
with the codes of R400: what the word `STATUS` holds, bit by bit, in every state. -/
def Obligations.ResetStateHoldsTheSpecsValues : Prop :=
  State.reset.seq.st = .idle ∧ State.reset.statusWord = 0#9 ∧ State.reset.opr = 0x00#8 ∧
  State.reset.bitlen = 0 ∧ State.reset.bytelen = 0 ∧ State.reset.timer = none ∧
  State.reset.rcc = 0#16 ∧ State.reset.trace = [] ∧ State.reset.cfg = cfgRef ∧
  admissible State.reset.cfg = true ∧
  ∀ s : State,
    (s.statusWord.extractLsb' 0 4).toNat = (match s.status.sc with
      | .ok => 0 | .unmapped => 1 | .checksum => 2 | .unknownCode => 3 | .malformed => 4
      | .badLength => 5 | .busy => 6 | .illegalOp => 7 | .precond => 8) ∧
    s.statusWord[4] = s.status.valid ∧ s.statusWord[5] = s.status.group ∧
    s.statusWord[6] = s.status.tilt ∧ (s.statusWord[7] = true ↔ s.seq.st ≠ .idle) ∧
    s.statusWord[8] = s.status.txfail

/-- Derived from R39, R42, R55, R60: the invariant holds right after reset, and no `Expire` is to come. -/
def Obligations.InvariantHoldsAtReset : Prop := Inv State.reset ∧ ExpiryShape State.reset

/-- Derived from R39, R42, R45, R55, R425, R435: every step keeps the invariant of the sequencer, of the
timer and of the status, for every admissible configuration and whatever the outside world does; every
step from there keeps the balance of one `Expire` for each `Wait`, and never before it; and no step
changes the configuration. -/
def Obligations.InvariantKeptByEveryStep : Prop :=
  ∀ s t : State, admissible s.cfg = true → Inv s → step s = .next t →
    Inv t ∧ t.cfg = s.cfg ∧ (ExpiryShape s → ExpiryShape t)

/-- Derived from R352, R411: from every state that keeps the invariant the step answers a next state:
the encoder does not fail inside `SEND` for a reason other than `Unmapped`, and a sequencer step reports
no status. -/
def Obligations.NoStepStopsUnderTheInvariant : Prop :=
  ∀ s : State, admissible s.cfg = true → Inv s → Safe s

/-! ### What every operation does -/

/-- Derived from R400: every operation, whatever the state, answers a next state, writes `SC` and
`VALID`, and ends the trace with its one `Resp`; the only event before it is the `Deliver` of a
successful `RX`, which always has one (a frame row is such an `RX`: log entry 10). -/
def Obligations.OperationsEndWithOneResponse : Prop :=
  ∀ (i : Instr) (s : State), ∃ t st, exec i s = .next t ∧ t.status.sc = st ∧
    t.status.valid = (st == .ok) ∧
    match i with
    | .rx _ | .frameA _ _ _ | .frameB _ _ _ _ _ | .frameCShort _ _ _ _ _ | .frameCExt _ _ _ _ _ _ _ _ _ =>
        (st ≠ .ok ∧ t.trace = s.trace ++ [.resp st]) ∨
        (st = .ok ∧ ∃ c, t.trace = s.trace ++ [.deliver c, .resp .ok])
    | _ => t.trace = s.trace ++ [.resp st]

/-- Derived from R411: an operation that reports a status other than `OK` leaves everything else as it
was: for a request word, the state it started from; for a delivered payload, the state in which the host
had placed it in `BITBUF` and written `OPR` (that a frame row does so is the model's reading: log entry
10, and log entry 4 for the cells above the payload). -/
def Obligations.FailedOperationsChangeOnlyTheStatus : Prop :=
  ∀ (i : Instr) (s t : State), exec i s = .next t → t.status.sc ≠ .ok →
    match encode i with
    | .opr _ => t = s.respond t.status.sc
    | .frame p bits => t = (s.place p bits).respond t.status.sc

/-- Derived from R47, R359, R370: no operation writes `RCC`, the settings store, the timer or the
configuration, and none but a `REQ.*` writes `SEQ` or `TXFAIL`; only decoding operations write `GROUP`
and `TILT`. -/
def Obligations.OnlyRequestsTouchTheSequencer : Prop :=
  ∀ (i : Instr) (s t : State), exec i s = .next t →
    t.rcc = s.rcc ∧ t.store = s.store ∧ t.timer = s.timer ∧ t.abandoned = s.abandoned ∧ t.cfg = s.cfg ∧
    t.agenda = s.agenda ∧ t.txCalls = s.txCalls ∧
    match i with
    | .reqCap _ | .reqSteps _ | .reqMy _ | .reqProg _ | .reqRaw _ =>
        t.status.group = s.status.group ∧ t.status.tilt = s.status.tilt ∧ t.cmd = s.cmd
    | .decA | .decB | .decC | .rx _ | .frameA _ _ _ | .frameB _ _ _ _ _ | .frameCShort _ _ _ _ _
    | .frameCExt _ _ _ _ _ _ _ _ _ => t.seq = s.seq ∧ t.status.txfail = s.status.txfail
    | _ => t.seq = s.seq ∧ t.status.txfail = s.status.txfail ∧ t.status.group = s.status.group ∧
        t.status.tilt = s.status.tilt

/-- Derived from R47 (the columns of what each operation writes): an operation changes no register, no
cell and no flag but those the table lists for it, `SC`, `VALID` and the trace: `I2B` no cell of
`BITBUF` outside its slice, `OBF` and `DEOBF` no byte at or above `BYTELEN`. The table does not list the
frame rows: that they write `BITBUF` and `OPR` as well, for the host, is the model's reading (log entry
10). -/
def Obligations.OperationsWriteOnlyTheirRegisters : Prop :=
  ∀ (i : Instr) (s t : State), exec i s = .next t →
    let status := { s.status with sc := t.status.sc, valid := t.status.valid }
    match i with
    | .i2b _ =>
        t = { s with bitbuf := t.bitbuf, bitlen := t.bitlen, status := status, trace := t.trace } ∧
        ∀ k : Fin 80, ¬ (s.off.val.toNat ≤ k.val ∧ k.val < s.off.val.toNat + s.wid.val.toNat) →
          t.bitbuf[k.val] = s.bitbuf[k.val]
    | .encA | .encB | .encC =>
        t = { s with bitbuf := t.bitbuf, bitlen := t.bitlen, status := status, trace := t.trace }
    | .b2i _ | .bfIns _ | .bfExt _ | .csumNone | .csumAdd | .csumXorn | .chkNone | .chkAdd | .chkXorn
    | .identB => t = { s with res := t.res, status := status, trace := t.trace }
    | .obf _ | .deobf _ => t = { s with bytebuf := t.bytebuf, status := status, trace := t.trace } ∧
        ∀ j : Fin 10, s.bytelen.val ≤ j.val → t.bytebuf[j.val] = s.bytebuf[j.val]
    | .decA | .decB | .decC | .rx _ =>
        t = { s with cmd := t.cmd, trace := t.trace,
                     status := { status with group := t.status.group, tilt := t.status.tilt } }
    | .xfOut _ | .xfIn _ =>
        t = { s with cmd := { s.cmd with action := t.cmd.action }, status := status, trace := t.trace }
    | .reqCap _ | .reqSteps _ | .reqMy _ | .reqProg _ | .reqRaw _ =>
        t = { s with seq := t.seq, trace := t.trace,
                     status := { status with txfail := t.status.txfail } }
    | .frameA _ _ _ | .frameB _ _ _ _ _ | .frameCShort _ _ _ _ _ | .frameCExt _ _ _ _ _ _ _ _ _ =>
        t = { s with opr := t.opr, bitbuf := t.bitbuf, bitlen := t.bitlen, cmd := t.cmd,
                     trace := t.trace,
                     status := { status with group := t.status.group, tilt := t.status.tilt } }

/-- Derived from R48, R409, R454 and the order of R405 (how an unwritten register is held, and that a
check holds only where the registers it reads are written: log entry 3). An operation completes only
where every operand it reads is written. One whose operands are not all written ends with `Precond`
wherever it would complete with values in the registers nothing has written, so that no earlier
condition of R405 holds; an operation whose only refusal before its operands are read is `Precond` ends
with it in any case. `Malformed` and `Unmapped` come first where the registers they rest on are written.
-/
def Obligations.UnwrittenOperandsArePreconditionFailures : Prop :=
  (∀ (i : Instr) (s t : State), exec i s = .next t → t.status.sc = .ok → OperandsWritten s i) ∧
  (∀ (i : Instr) (s full t : State), s.Fills full → exec i full = .next t → t.status.sc = .ok →
    ¬ OperandsWritten s i → ∃ u, exec i s = .next u ∧ u.status.sc = .precond) ∧
  (∀ (s : State) (pr : BitVec 2) (i : Instr),
    i = .i2b pr ∨ i = .b2i pr ∨ i = .bfIns pr ∨ i = .bfExt pr ∨ i = .csumAdd ∨ i = .csumXorn ∨
      i = .chkAdd ∨ i = .chkXorn ∨ i = .obf pr ∨ i = .deobf pr ∨ i = .xfOut pr ∨ i = .xfIn pr →
    ¬ OperandsWritten s i → exec i s = .next (s.respond .precond)) ∧
  (∀ (s : State) (address : BitVec 24), s.cmd.addr = .put address → 2 ^ 16 ≤ address.toNat →
    exec .identB s = .next (s.respond .malformed) ∧
    ((s.cmd.action.written = true → s.cmd.action.val.toNat < 11) →
      exec .encB s = .next (s.respond .malformed))) ∧
  (∀ (s : State) (a : Action), HoldsAction s a →
    (tableAt s.cfg.codeA a = none → exec .encA s = .next (s.respond .unmapped)) ∧
    (∀ rail, s.cmd.rail = .put rail → tableAt s.cfg.code4B (baseB a, rail) = none →
      (s.cmd.addr.written = true → s.cmd.addr.val.toNat < 2 ^ 16) →
      exec .encB s = .next (s.respond .unmapped)) ∧
    (tableAt s.cfg.codeC a = none → isCustom a = false → exec .encC s = .next (s.respond .unmapped)))

/-! ### Bit vectors and bit fields -/

/-- R183: `I2B` on written operands: the bits of the value in the serial order, at `OFF`, everything else
as it was; or `Precond` where a check fails. -/
def Obligations.I2bWritesTheSerializedBits : Prop :=
  ∀ (pr : BitVec 2) (s : State) (w : BitVec 6) (v : Word) (o : BitVec 7) (d : Bool),
    s.wid = .put w → s.value = .put v → s.off = .put o → s.ord = .put d →
    let legal := 1 ≤ w.toNat ∧ w.toNat ≤ 32 ∧ v.toNat < 2 ^ w.toNat ∧
      (d = true → w.toNat % 8 = 0) ∧ o.toNat ≤ s.bitlen.val ∧ o.toNat + w.toNat ≤ 80
    (legal → ∃ buf len, exec (.i2b pr) s = .next ({ s with bitbuf := buf, bitlen := len }.respond .ok) ∧
      len.val = max s.bitlen.val (o.toNat + w.toNat) ∧
      ∀ k : Fin 80, buf[k.val] = if o.toNat ≤ k.val ∧ k.val < o.toNat + w.toNat
        then .put (v.getLsbD (serialIndex d w.toNat (k.val - o.toNat))) else s.bitbuf[k.val]) ∧
    (¬ legal → exec (.i2b pr) s = .next (s.respond .precond))

/-- R185: `B2I` on written operands: `RES` is the integer whose bits stand in the slice, and nothing else
changes; or `Precond` where a check fails. -/
def Obligations.B2iReadsTheSerializedBits : Prop :=
  ∀ (pr : BitVec 2) (s : State) (w : BitVec 6) (o : BitVec 7) (d : Bool) (b : Nat → Bool),
    s.wid = .put w → s.off = .put o → s.ord = .put d →
    let legal := 1 ≤ w.toNat ∧ w.toNat ≤ 32 ∧ (d = true → w.toNat % 8 = 0) ∧
      o.toNat + w.toNat ≤ s.bitlen.val
    (legal → (∀ k : Fin 80, o.toNat ≤ k.val → k.val < o.toNat + w.toNat →
        s.bitbuf[k.val] = .put (b (k.val - o.toNat))) →
      ∃ r, exec (.b2i pr) s = .next ({ s with res := r }.respond .ok) ∧
        ∀ i, i < 32 → r.getLsbD i = (decide (i < w.toNat) && b (serialIndex d w.toNat i))) ∧
    (¬ legal → exec (.b2i pr) s = .next (s.respond .precond))

/-- R188, R189: `BF.INS` replaces the field and keeps every other bit of `BASE`; `BF.EXT` reads the field,
zero-extended; a field that does not fit is `Precond` in both. -/
def Obligations.BitFieldsAreInsertedAndExtracted : Prop :=
  ∀ (pr : BitVec 2) (s : State) (w : BitVec 6) (p : BitVec 5) (b v : Word),
    s.wid = .put w → s.pos = .put p → s.base = .put b → s.value = .put v →
    let fits := 1 ≤ w.toNat ∧ p.toNat + w.toNat ≤ 32
    (fits → ∃ r, exec (.bfIns pr) s = .next ({ s with res := r }.respond .ok) ∧
      ∀ i, i < 32 → r.getLsbD i =
        if p.toNat ≤ i ∧ i < p.toNat + w.toNat then v.getLsbD (i - p.toNat) else b.getLsbD i) ∧
    (fits → ∃ r, exec (.bfExt pr) s = .next ({ s with res := r }.respond .ok) ∧
      ∀ i, i < 32 → r.getLsbD i = (decide (i < w.toNat) && v.getLsbD (p.toNat + i))) ∧
    (¬ fits → exec (.bfIns pr) s = .next (s.respond .precond) ∧
      exec (.bfExt pr) s = .next (s.respond .precond))

/-- Derived from R186: the two conversion functions invert each other in both orders, and the two orders
of a byte are each other's reverse. -/
def Obligations.SerializerRoundTrips : Prop :=
  (∀ (v w : Nat) (o : BitOrder), 1 ≤ w → w ≤ 32 → v < 2 ^ w → (o = .perByteReversed → w % 8 = 0) →
    bitsToInt (intToBits v w o) o = v) ∧
  (∀ (f : Bits) (o : BitOrder), 1 ≤ f.length → f.length ≤ 32 →
    (o = .perByteReversed → f.length % 8 = 0) → intToBits (bitsToInt f o) f.length o = f) ∧
  (∀ v : Nat, v < 256 → intToBits v 8 .perByteReversed = (intToBits v 8 .msbFirst).reverse) ∧
  (∀ (f : List Byte) (j k : Nat), j < f.length → k < 8 →
    (bytesToBits .perByteReversed f)[8 * j + k]? = some ((f.getD j 0#8).getLsbD k) ∧
    (bytesToBits .msbFirst f)[8 * j + k]? = some ((f.getD j 0#8).getLsbD (7 - k)))

/-- Derived from R190: `BF.EXT` of the word that `BF.INS` made, moved by the host from `RES` to `VAL`,
gives back the low bits that were inserted. -/
def Obligations.ExtractAfterInsertGivesTheField : Prop :=
  ∀ (pr : BitVec 2) (s : State) (w : BitVec 6) (p : BitVec 5) (b v : Word),
    s.wid = .put w → s.pos = .put p → s.base = .put b → s.value = .put v → 1 ≤ w.toNat →
    p.toNat + w.toNat ≤ 32 →
    ∃ t u, exec (.bfIns pr) s = .next t ∧ exec (.bfExt pr) { t with value := .put t.res } = .next u ∧
      u.res.toNat = v.toNat % 2 ^ w.toNat ∧
      ∀ i, i < 32 → (i < p.toNat ∨ p.toNat + w.toNat ≤ i) → t.res.getLsbD i = b.getLsbD i

/-! ### Checksums and whitening -/

/-- R201, R202: Protocol-A has no checksum: the generator answers 0 and the check 1, examining nothing. -/
def Obligations.ProtocolAHasNoChecksum : Prop :=
  ∀ s : State, exec .csumNone s = .next ({ s with res := 0#32 }.respond .ok) ∧
    exec .chkNone s = .next ({ s with res := 1#32 }.respond .ok)

/-- R203, R205 (in the closed form the spec infers as R204): `CSUM.ADD` answers `(1 - sum) mod 256`;
`CHK.ADD` passes iff the sum of all the bytes, the received checksum included, is 1 mod 256, and refuses
an empty buffer. -/
def Obligations.AdditiveChecksumIsOneMinusTheSum : Prop :=
  ∀ (s : State) (f : List Byte), HoldsBytes s f →
    exec .csumAdd s =
      .next ({ s with res := BitVec.ofInt 32 ((1 - byteSum f) % 256) }.respond .ok) ∧
    (f = [] → exec .chkAdd s = .next (s.respond .precond)) ∧
    (f ≠ [] → byteSum f % 256 = 1 → exec .chkAdd s = .next ({ s with res := 1#32 }.respond .ok)) ∧
    (f ≠ [] → byteSum f % 256 ≠ 1 → exec .chkAdd s = .next (s.respond .checksum))

/-- Derived from R206: a 5-byte frame that passes `CHK.ADD` fails it with any single bit flipped, and
passes it with the same bit position flipped in two bytes in opposite directions. -/
def Obligations.SingleBitFlipsFailTheAdditiveCheck : Prop :=
  ∀ (s : State) (f : List Byte), HoldsBytes s f → f.length = 5 →
    exec .chkAdd s = .next ({ s with res := 1#32 }.respond .ok) →
    (∀ (t : State) (j k : Nat), j < 5 → k < 8 → HoldsBytes t (flipByteBit f j k) →
      exec .chkAdd t = .next (t.respond .checksum)) ∧
    (∀ (t : State) (i j k : Nat), i < 5 → j < 5 → k < 8 →
      (f.getD i 0#8).getLsbD k = true → (f.getD j 0#8).getLsbD k = false →
      HoldsBytes t (flipByteBit (flipByteBit f i k) j k) →
      exec .chkAdd t = .next ({ t with res := 1#32 }.respond .ok))

/-- Derived from R207, R209 and the zero-sum form R208, which the spec infers: `CSUM.XORN` answers the
XOR of all nibbles, `CHK.XORN` passes iff it is 0, and a frame with that XOR put into the empty low
nibble of byte 1 passes. -/
def Obligations.NibbleChecksumIsTheXorOfTheNibbles : Prop :=
  (∀ (s : State) (f : List Byte), HoldsBytes s f →
    exec .csumXorn s = .next ({ s with res := (nibbleXor f).setWidth 32 }.respond .ok) ∧
    (f = [] → exec .chkXorn s = .next (s.respond .precond)) ∧
    (f ≠ [] → nibbleXor f = 0#4 → exec .chkXorn s = .next ({ s with res := 1#32 }.respond .ok)) ∧
    (f ≠ [] → nibbleXor f ≠ 0#4 → exec .chkXorn s = .next (s.respond .checksum))) ∧
  (∀ (s : State) (f : List Byte), 2 ≤ f.length → (f.getD 1 0#8).extractLsb' 0 4 = 0#4 →
    HoldsBytes s (f.set 1 (f.getD 1 0#8 ||| (nibbleXor f).setWidth 8)) →
    exec .chkXorn s = .next ({ s with res := 1#32 }.respond .ok))

/-- R212, R213: `OBF` puts the XOR of bytes 0 to `j` into byte `j`; `DEOBF` XORs each byte after the first
with the byte before it as received; neither touches a byte outside the list. -/
def Obligations.WhiteningFollowsItsChains : Prop :=
  ∀ (pr : BitVec 2) (s : State) (f : List Byte), HoldsBytes s f →
    (∃ buf, exec (.obf pr) s = .next ({ s with bytebuf := buf }.respond .ok) ∧
      ∀ j : Fin 10, buf[j.val] = if j.val < f.length then .put (xorUpTo f j.val) else s.bytebuf[j.val]) ∧
    (∃ buf, exec (.deobf pr) s = .next ({ s with bytebuf := buf }.respond .ok) ∧
      ∀ j : Fin 10, buf[j.val] =
        if j.val = 0 ∧ 0 < f.length then .put (f.getD 0 0#8)
        else if j.val < f.length then .put (f.getD j.val 0#8 ^^^ f.getD (j.val - 1) 0#8)
        else s.bytebuf[j.val])

/-- Derived from R214: the two whitening operations undo each other on every byte list, whitening is not
its own inverse, and byte 0 is never changed. -/
def Obligations.WhiteningOperationsUndoEachOther : Prop :=
  (∀ (pr : BitVec 2) (s : State) (f : List Byte), HoldsBytes s f →
    (∃ t u, exec (.obf pr) s = .next t ∧ exec (.deobf pr) t = .next u ∧ u.bytebuf = s.bytebuf ∧
      t.bytebuf[0] = s.bytebuf[0]) ∧
    (∃ t u, exec (.deobf pr) s = .next t ∧ exec (.obf pr) t = .next u ∧ u.bytebuf = s.bytebuf ∧
      t.bytebuf[0] = s.bytebuf[0])) ∧
  (∃ (s t u : State) (f : List Byte), HoldsBytes s f ∧ exec (.obf 0#2) s = .next t ∧
    exec (.obf 0#2) t = .next u ∧ u.bytebuf ≠ s.bytebuf)

/-! ### Protocol-A -/

/-- R232: `ENC.A` writes the 39 bits of the frame, or ends with `Unmapped`: the tag check first, then the
code table. -/
def Obligations.EncAWritesTheFrame : Prop :=
  (∀ (s : State) (a : Action) (address : BitVec 24) (mask : BitVec 8),
    HoldsAction s a → s.cmd.addr = .put address → s.cmd.chmask = .put mask →
    (∀ code, tableAt s.cfg.codeA a = some code →
      ∃ buf, exec .encA s = .next ({ s with bitbuf := buf, bitlen := 39 }.respond .ok) ∧
        ∀ k : Fin 80, k.val < 39 → buf[k.val] = .put (wireA address mask (code.extractLsb' 1 7) k.val)) ∧
    (tableAt s.cfg.codeA a = none → exec .encA s = .next (s.respond .unmapped))) ∧
  (∀ (s : State) (tag : BitVec 4), s.cmd.action = .put tag → 11 ≤ tag.toNat →
    exec .encA s = .next (s.respond .unmapped))

/-- R236: `DEC.A` on 39 or 40 bits: the command, the group flag and the tilt tag of a frame whose code is
known; `UnknownCode` for any other code; `BadLength` for any other length. -/
def Obligations.DecAReadsTheFrame : Prop :=
  (∀ (s : State) (address : BitVec 24) (mask : BitVec 8) (code7 : BitVec 7), admissible s.cfg = true →
    (s.bitlen.val = 39 ∨ s.bitlen.val = 40) →
    (∀ k : Fin 80, k.val < 39 → s.bitbuf[k.val] = .put (wireA address mask code7 k.val)) →
    (∀ a code, (a, code) ∈ s.cfg.codeA → code.extractLsb' 1 7 = code7 →
      exec .decA s = .next ({ s with
        cmd := cmdRegsOf { action := a, rail := 1#2, address := address, channelMask := mask,
                           unit := 0#4, rollingCode := 0#16, repeatCount := 1#8, extCmd := none },
        status := { s.status with group := mask == 0#8,
                                  tilt := a == Action.up || a == Action.down } }.respond .ok)) ∧
    ((∀ e ∈ s.cfg.codeA, e.2.extractLsb' 1 7 ≠ code7) →
      exec .decA s = .next (s.respond .unknownCode))) ∧
  (∀ s : State, s.bitlen.val ≠ 39 → s.bitlen.val ≠ 40 → exec .decA s = .next (s.respond .badLength))

/-- Derived from R240: the round trip of Protocol-A in both directions, and that the internal action
`Pair` encodes but does not decode. Derived from R420, R20: no decoder of any protocol ever produces
`Pair`, nor a reserved tag, in `CMD` or in what `RX` delivers (that an admissible `ACT_B` and `CODE_C`
name none is the model's reading: log entry 24). -/
def Obligations.ProtocolARoundTrips : Prop :=
  (∀ (s : State) (a : Action) (code : BitVec 8) (address : BitVec 24) (mask : BitVec 8),
    admissible s.cfg = true → HoldsAction s a → tableAt s.cfg.codeA a = some code →
    s.cmd.addr = .put address → s.cmd.chmask = .put mask →
    ∃ t u, exec .encA s = .next t ∧ exec .decA t = .next u ∧ u.status.sc = .ok ∧ HoldsAction u a ∧
      u.cmd.addr = .put address ∧ u.cmd.chmask = .put mask) ∧
  (∀ (cfg : Cfg) (c : Command), admissible cfg = true → c.action = .pair →
    ∃ bits, encodeA cfg c = .ok bits ∧ decodeA cfg bits = .error .unknownCode) ∧
  (∀ (s t : State) (n : Nat) (g : Nat → Bool), admissible s.cfg = true → HoldsCells s n g →
    exec .decA s = .next t → t.status.sc = .ok →
    ∃ u, exec .encA t = .next u ∧ u.status.sc = .ok ∧ HoldsCells u 39 g) ∧
  (∀ (i : Instr) (s t : State), admissible s.cfg = true → exec i s = .next t → t.status.sc = .ok →
    match i with
    | .decA | .decB | .decC => t.cmd.action.val.toNat < 11
    | .rx _ | .frameA _ _ _ | .frameB _ _ _ _ _ | .frameCShort _ _ _ _ _ | .frameCExt _ _ _ _ _ _ _ _ _ =>
        t.cmd.action.val.toNat < 11 ∧
        ∀ new c, t.trace = s.trace ++ new → .deliver c ∈ new → (tagOf c.action).toNat < 11
    | _ => True)

/-! ### Protocol-B -/

/-- R262: `ENC.B` writes the 40 bits of the five bytes, each least significant bit first, or ends with
`Unmapped` for a host tag above 10, `Malformed` for an address wider than 16 bits, `Unmapped` for a
pair the table lacks, in that order. -/
def Obligations.EncBWritesTheFrame : Prop :=
  (∀ (s : State) (a : Action) (rail : BitVec 2) (address : BitVec 24) (unit : BitVec 4),
    HoldsAction s a → s.cmd.rail = .put rail → s.cmd.addr = .put address → s.cmd.unit = .put unit →
    (2 ^ 16 ≤ address.toNat → exec .encB s = .next (s.respond .malformed)) ∧
    (address.toNat < 2 ^ 16 → ∀ code, tableAt s.cfg.code4B (baseB a, rail) = some code →
      ∃ buf, exec .encB s = .next ({ s with bitbuf := buf, bitlen := 40 }.respond .ok) ∧
        ∀ k : Fin 80, k.val < 40 → buf[k.val] = .put (wireRev (frameBytesB address code unit
          (rail == 3#2) (isTiltB a)) k.val)) ∧
    (address.toNat < 2 ^ 16 → tableAt s.cfg.code4B (baseB a, rail) = none →
      exec .encB s = .next (s.respond .unmapped))) ∧
  (∀ (s : State) (tag : BitVec 4), s.cmd.action = .put tag → 11 ≤ tag.toNat →
    exec .encB s = .next (s.respond .unmapped))

/-- R265: `DEC.B` on 40 bits: checksum, then the command value (an addition), then the
action, the rail and the tilt marker; any other length is `BadLength`. -/
def Obligations.DecBReadsTheFrame : Prop :=
  (∀ (s : State) (f0 f1 f2 f3 f4 : Byte), HoldsCells s 40 (wireRev [f0, f1, f2, f3, f4]) →
    let cv := BitVec.ofNat 9 (f2.toNat / 16 + if 0x80 ≤ f3.toNat then f3.toNat else 0)
    (byteSum [f0, f1, f2, f3, f4] % 256 ≠ 1 → exec .decB s = .next (s.respond .checksum)) ∧
    (byteSum [f0, f1, f2, f3, f4] % 256 = 1 → tableAt s.cfg.actB cv = none →
      exec .decB s = .next (s.respond .unknownCode)) ∧
    (byteSum [f0, f1, f2, f3, f4] % 256 = 1 → ∀ a, tableAt s.cfg.actB cv = some a →
      exec .decB s = .next ({ s with
        cmd := cmdRegsOf {
          action := if f3.toNat / 16 = 1 then tiltOf a else a,
          rail := (tableAt s.cfg.railB cv).getD 1#2, address := 0#8 ++ f0 ++ f1, channelMask := 0#8,
          unit := f2.extractLsb' 0 4, rollingCode := 0#16, repeatCount := 1#8, extCmd := none },
        status := { s.status with group := f2.extractLsb' 0 4 == 0#4, tilt := false } }.respond .ok))) ∧
  (∀ s : State, s.bitlen.val ≠ 40 → exec .decB s = .next (s.respond .badLength))

/-- Derived from R270: the round trip of Protocol-B for every command `EncB` maps, and that every
single-bit corruption of its 40 bits is `None(Checksum)`. -/
def Obligations.ProtocolBRoundTripsAndDetectsFlips : Prop :=
  ∀ (s : State) (a : Action) (rail : BitVec 2) (address : BitVec 24) (unit code : BitVec 4),
    admissible s.cfg = true → HoldsAction s a → s.cmd.rail = .put rail → s.cmd.addr = .put address →
    s.cmd.unit = .put unit → address.toNat < 2 ^ 16 →
    tableAt s.cfg.code4B (baseB a, rail) = some code →
    ∃ t u g, exec .encB s = .next t ∧ exec .decB t = .next u ∧ u.status.sc = .ok ∧ HoldsAction u a ∧
      u.cmd.rail = .put rail ∧ u.cmd.addr = .put address ∧ u.cmd.unit = .put unit ∧
      u.status.group = (unit == 0#4) ∧ HoldsCells t 40 g ∧
      ∀ (i : Nat) (x : State), i < 40 → HoldsCells x 40 (fun k => if k = i then !g k else g k) →
        exec .decB x = .next (x.respond .checksum)

/-- Derived from R272: `IDENT.B` answers `(address << 4) | unit`, or `Malformed`. -/
def Obligations.IdentBIsAddressThenUnit : Prop :=
  ∀ (s : State) (address : BitVec 24) (unit : BitVec 4), s.cmd.addr = .put address →
    s.cmd.unit = .put unit →
    (address.toNat < 2 ^ 16 →
      exec .identB s =
        .next ({ s with res := BitVec.ofNat 32 (16 * address.toNat + unit.toNat) }.respond .ok)) ∧
    (2 ^ 16 ≤ address.toNat → exec .identB s = .next (s.respond .malformed))

/-! ### Protocol-C -/

/-- R291, R292: `ENC.C` writes the whitened short frame of a named action, the whitened extended frame
of `Custom(v)`, or ends with `Unmapped` or, for an extended count outside 1 to 15, `Precond`. -/
def Obligations.EncCWritesTheFrame : Prop :=
  (∀ (s : State) (a : Action) (address : BitVec 24) (rc : BitVec 16),
    HoldsAction s a → s.cmd.addr = .put address → s.cmd.rc = .put rc →
    (s.cmd.extv = .put false → ∀ nib, tableAt s.cfg.codeC a = some nib →
      ∃ buf, exec .encC s = .next ({ s with bitbuf := buf, bitlen := 56 }.respond .ok) ∧
        ∀ k : Fin 80, k.val < 56 →
          buf[k.val] = .put (wireC (checkedBytesC s.cfg.markC0 nib rc address) k.val)) ∧
    (s.cmd.extv = .put false → tableAt s.cfg.codeC a = none →
      exec .encC s = .next (s.respond .unmapped)) ∧
    (∀ e, s.cmd.extv = .put true → s.cmd.extb = .put e →
      ∀ v, a = .custom v → v.toNat < 16 → (∀ x ∈ s.cfg.codeC, x.2 ≠ v.setWidth 4) →
      ∀ n, s.cmd.rep = .put n →
      (1 ≤ n.toNat ∧ n.toNat ≤ 15 →
        ∃ buf, exec .encC s = .next ({ s with bitbuf := buf, bitlen := 80 }.respond .ok) ∧
          ∀ k : Fin 80, buf[k.val] = .put (wireC (checkedBytesC s.cfg.markC0 (v.setWidth 4) rc address ++
            trailerBytesC s.cfg.markC7 e (n.setWidth 4)) k.val)) ∧
      (¬ (1 ≤ n.toNat ∧ n.toNat ≤ 15) → exec .encC s = .next (s.respond .precond))) ∧
    (∀ e, s.cmd.extv = .put true → s.cmd.extb = .put e →
      (∀ v, a = .custom v → 16 ≤ v.toNat ∨ ∃ x ∈ s.cfg.codeC, x.2 = v.setWidth 4) →
      exec .encC s = .next (s.respond .unmapped))) ∧
  (∀ (s : State) (tag : BitVec 4), s.cmd.action = .put tag → 11 ≤ tag.toNat →
    exec .encC s = .next (s.respond .unmapped))

/-- R300: `DEC.C` on 56 or 80 bits, given as the whitened form of plain bytes: the main check, then for
the short frame the code table, for the extended one the trailer check; any other length is `BadLength`.
-/
def Obligations.DecCReadsTheFrame : Prop :=
  (∀ (s : State) (m0 : Byte) (nib chk : BitVec 4) (rc : BitVec 16) (address : BitVec 24),
    admissible s.cfg = true → HoldsCells s 56 (wireC (plainBytesC m0 nib chk rc address)) →
    (nibbleXor (plainBytesC m0 nib chk rc address) ≠ 0#4 →
      exec .decC s = .next (s.respond .checksum)) ∧
    (nibbleXor (plainBytesC m0 nib chk rc address) = 0#4 → (∀ e ∈ s.cfg.codeC, e.2 ≠ nib) →
      exec .decC s = .next (s.respond .unknownCode)) ∧
    (nibbleXor (plainBytesC m0 nib chk rc address) = 0#4 → ∀ a, (a, nib) ∈ s.cfg.codeC →
      exec .decC s = .next ({ s with
        cmd := cmdRegsOf { action := a, rail := 1#2, address := address, channelMask := 0#8,
                           unit := 0#4, rollingCode := rc, repeatCount := 1#8, extCmd := none },
        status := { s.status with group := false, tilt := false } }.respond .ok))) ∧
  (∀ (s : State) (m0 m7 e : Byte) (nib chk count chk2 : BitVec 4) (rc : BitVec 16)
      (address : BitVec 24),
    HoldsCells s 80 (wireC (plainBytesC m0 nib chk rc address ++ [m7, e, count ++ chk2])) →
    (nibbleXor (plainBytesC m0 nib chk rc address) ≠ 0#4 ∨ chk2 ≠ count ^^^ nibbleXor [m7, e] →
      exec .decC s = .next (s.respond .checksum)) ∧
    (nibbleXor (plainBytesC m0 nib chk rc address) = 0#4 → chk2 = count ^^^ nibbleXor [m7, e] →
      exec .decC s = .next ({ s with
        cmd := cmdRegsOf { action := .custom (0#4 ++ nib), rail := 1#2, address := address,
                           channelMask := 0#8, unit := 0#4, rollingCode := rc,
                           repeatCount := 0#4 ++ count, extCmd := some e },
        status := { s.status with group := false, tilt := false } }.respond .ok))) ∧
  (∀ s : State, s.bitlen.val ≠ 56 → s.bitlen.val ≠ 80 → exec .decC s = .next (s.respond .badLength))

/-- Derived from R303: the round trip of Protocol-C for every command `ENC.C` accepts, and that different
rolling codes give different bits for otherwise equal commands. -/
def Obligations.ProtocolCRoundTrips : Prop :=
  (∀ (s t : State) (a : Action) (address : BitVec 24) (rc : BitVec 16), admissible s.cfg = true →
    HoldsAction s a → s.cmd.addr = .put address → s.cmd.rc = .put rc → exec .encC s = .next t →
    t.status.sc = .ok →
    ∃ u, exec .decC t = .next u ∧ u.status.sc = .ok ∧ HoldsAction u a ∧ u.cmd.addr = .put address ∧
      u.cmd.rc = .put rc ∧ u.cmd.extv = s.cmd.extv ∧
      (s.cmd.extv.val = true → u.cmd.extb = s.cmd.extb ∧ u.cmd.rep = s.cmd.rep)) ∧
  (∀ (cfg : Cfg) (c : Command) (rc : BitVec 16) (x y : Bits), encodeC cfg c = .ok x →
    encodeC cfg { c with rollingCode := rc } = .ok y → x = y → rc = c.rollingCode)

/-- Derived from R216: on the wire of a short frame that passes its check, a single flipped bit in wire
bytes 0 to 5 still passes the check (it is refused only as an unknown code), and one in byte 6 does not.
-/
def Obligations.ShortFrameFlipsBeforeTheLastByteGoUnseen : Prop :=
  ∀ (s x : State) (p : List Byte) (i : Nat), p.length = 7 → nibbleXor p = 0#4 → i < 56 →
    HoldsCells s 56 (wireC p) →
    HoldsCells x 56 (fun k => if k = i then !wireC p k else wireC p k) →
    exec .decC s ≠ .next (s.respond .checksum) ∧
    (exec .decC x = .next (x.respond .checksum) ↔ 48 ≤ i)

/-! ### The transforms -/

/-- Derived from R333, R334 and R335, which the spec infers from them: both transforms write the action
the table gives, whatever the tag, and nothing else; each undoes the other. -/
def Obligations.TransformsFollowTheSettingsTable : Prop :=
  ∀ (pr : BitVec 2) (s : State) (tag : BitVec 4) (rot inv : Bool), s.cmd.action = .put tag →
    HoldsSettings s rot inv →
    let after := { s with cmd := { s.cmd with
      action := .put (tagOf (settingsTable (actionOf tag s.cmd.custom.val) rot inv)) } }.respond .ok
    exec (.xfOut pr) s = .next after ∧ exec (.xfIn pr) s = .next after ∧
    (∃ t, exec (.xfIn pr) after = .next t ∧ t.cmd = s.cmd) ∧
    (∃ t, exec (.xfOut pr) after = .next t ∧ t.cmd = s.cmd)

/-! ### The requests -/

/-- Derived from R360, R361, R346: `REQ.CAP` schedules the transformed action as a LIST, with the
follow-up of the rule; a reserved capability is `Precond`. -/
def Obligations.ReqCapSchedulesTheEvent : Prop :=
  (∀ (pr : BitVec 2) (p : Proto) (s : State) (a : Action) (rot inv pulse : Bool) (c : Command),
    protoOf pr = some p → s.seq.st = .idle → HoldsCapability s a → HoldsSettings s rot inv →
    s.sets.pulse = .put pulse → Built s p (settingsTable a rot inv) (s.cfg.defaultRepeat.at p) c →
    Mappable s.cfg p c → c.repeatCount ≠ 0#8 →
    ∃ q, exec (.reqCap pr) s = .next (s.accepted q) ∧ q.st = .ready ∧ q.kind = .list ∧ q.ph = 0#2 ∧
      q.cmd = c ∧ q.proto = p ∧
      (pulse = true → q.fuv = false) ∧
      (pulse = false → match c.action with
        | .tiltUp | .tiltDown => q.fuv = true ∧ q.fuact = tagOf .idle
        | .up => q.fuv = true ∧ q.fuact = tagOf .deepUp
        | .down => q.fuv = true ∧ q.fuact = tagOf .deepDown
        | _ => q.fuv = false)) ∧
  (∀ (pr : BitVec 2) (p : Proto) (s : State), protoOf pr = some p → s.seq.st = .idle →
    s.cap = .put 3#2 ∨ (s.cap = .put 0#2 ∧ s.capval = .put 3#2) →
    exec (.reqCap pr) s = .next (s.respond .precond))

/-- Derived from R362: `REQ.STEPS` schedules the transformed action as a BATCH of the step count; a
count of 0 schedules nothing and leaves `SEQ` as it is. -/
def Obligations.ReqStepsSchedulesTheBatch : Prop :=
  ∀ (pr : BitVec 2) (p : Proto) (s : State) (a : Action) (rot inv : Bool) (n : BitVec 8) (c : Command),
    protoOf pr = some p → s.seq.st = .idle → HoldsAction s a → HoldsSettings s rot inv →
    s.steps = .put n → Built s p (settingsTable a rot inv) 1#8 c → Mappable s.cfg p c →
    (n = 0#8 → exec (.reqSteps pr) s = .next (s.accepted s.seq)) ∧
    (n ≠ 0#8 → ∃ q, exec (.reqSteps pr) s = .next (s.accepted q) ∧ q.st = .ready ∧ q.kind = .batch ∧
      q.rem = n ∧ q.cmd = c ∧ q.proto = p)

/-- Derived from R366: `REQ.MY` schedules one `Idle` with the inflated repeat count and no follow-up. -/
def Obligations.ReqMySchedulesTheHeldIdle : Prop :=
  ∀ (pr : BitVec 2) (p : Proto) (s : State) (c : Command),
    protoOf pr = some p → s.seq.st = .idle → Built s p .idle (s.cfg.myRepeat.at p) c →
    Mappable s.cfg p c → c.repeatCount ≠ 0#8 →
    ∃ q, exec (.reqMy pr) s = .next (s.accepted q) ∧ q.st = .ready ∧ q.kind = .list ∧ q.ph = 0#2 ∧
      q.fuv = false ∧ q.cmd = c ∧ q.proto = p

/-- Derived from R367: `REQ.PROG` schedules the pairing sequence under Protocol-A and one `Program`
otherwise. -/
def Obligations.ReqProgSchedulesPairing : Prop :=
  ∀ (pr : BitVec 2) (p : Proto) (s : State) (c : Command),
    protoOf pr = some p → s.seq.st = .idle → Built s p .program (s.cfg.defaultRepeat.at p) c →
    Mappable s.cfg p c → c.repeatCount ≠ 0#8 →
    ∃ q, exec (.reqProg pr) s = .next (s.accepted q) ∧ q.st = .ready ∧ q.ph = 0#2 ∧ q.cmd = c ∧
      q.proto = p ∧ (p = .a → q.kind = .pair) ∧ (p ≠ .a → q.kind = .list ∧ q.fuv = false)

/-- Derived from R368: `REQ.RAW` schedules the command as held, rolling code 0, with no follow-up. That the
fields which the protocol's encoder does not read are copied unchecked is the model's choice (log entry
23). -/
def Obligations.ReqRawSchedulesTheHeldCommand : Prop :=
  ∀ (pr : BitVec 2) (p : Proto) (s : State) (c : Command),
    protoOf pr = some p → s.seq.st = .idle → HeldRaw s p c → Mappable s.cfg p c →
    c.repeatCount ≠ 0#8 →
    ∃ q, exec (.reqRaw pr) s = .next (s.accepted q) ∧ q.st = .ready ∧ q.kind = .list ∧ q.ph = 0#2 ∧
      q.fuv = false ∧ q.cmd = c ∧ q.proto = p

/-- R407 (`PROTO = 3` is checked first, R405): a request issued while a schedule is pending ends with
`Busy`; `PROTO = 3` comes first. -/
def Obligations.RequestsWhileBusyAreDropped : Prop :=
  ∀ (pr : BitVec 2) (i : Instr) (s : State),
    i = .reqCap pr ∨ i = .reqSteps pr ∨ i = .reqMy pr ∨ i = .reqProg pr ∨ i = .reqRaw pr →
    (pr = 3#2 → exec i s = .next (s.respond .illegalOp)) ∧
    (pr ≠ 3#2 → s.seq.st ≠ .idle → exec i s = .next (s.respond .busy))

/-- Derived from R359, R404, R405: a request whose command the encoder refuses in the dry run ends with
the encoder's reason, an address wider than the protocol's with `Malformed` before any other, a mapped
command with a repeat count of 0 with `Precond`, and a host tag above 10 with `Unmapped` before all. -/
def Obligations.RefusedRequestsReportTheReason : Prop :=
  (∀ (i : Instr) (p : Proto) (s : State) (c : Command), Presents s p c i → s.seq.st = .idle →
    (2 ^ addressWidth p ≤ c.address.toNat → exec i s = .next (s.respond .malformed)) ∧
    (∀ e, dryEncode s.cfg p c = .error e → exec i s = .next (s.respond e)) ∧
    (Mappable s.cfg p c → c.repeatCount = 0#8 → exec i s = .next (s.respond .precond))) ∧
  (∀ (pr : BitVec 2) (s : State) (tag : BitVec 4), pr ≠ 3#2 → s.seq.st = .idle →
    s.cmd.action = .put tag → 11 ≤ tag.toNat →
    exec (.reqSteps pr) s = .next (s.respond .unmapped) ∧
    exec (.reqRaw pr) s = .next (s.respond .unmapped))

/-! ### The incoming path -/

/-- Derived from R370: `RX` does what the protocol's decode does, then raises and transforms the decoded
command, writes `CMD` and delivers it; a frame that does not decode ends with the decoder's reason and
delivers nothing; `PROTO = 3` is `IllegalOp`. That `CUSTOM` and `EXT` are 0 in a delivered command that
has neither is the model's reading (log entry 12). -/
def Obligations.RxDeliversTheDecodedCommand : Prop :=
  ∀ (s : State) (rot inv : Bool), HoldsSettings s rot inv →
    exec (.rx 3#2) s = .next (s.respond .illegalOp) ∧
    (∀ (pr : BitVec 2) (p : Proto) (dec : Instr),
      (pr = 0#2 ∧ p = .a ∧ dec = .decA) ∨ (pr = 1#2 ∧ p = .b ∧ dec = .decB) ∨
        (pr = 2#2 ∧ p = .c ∧ dec = .decC) →
      ∀ u, exec dec s = .next u →
      (u.status.sc ≠ .ok → exec (.rx pr) s = .next u) ∧
      (u.status.sc = .ok →
        let c := raiseTilt s.cfg p u.heldCommand u.status.tilt
        let d := { c with action := settingsTable c.action rot inv }
        exec (.rx pr) s =
          .next { u with cmd := cmdRegsOf d, trace := s.trace ++ [.deliver d, .resp .ok] }))

/-- Derived from R370 with R236, R265, R300, R335, R341: `RX` completes on every frame whose code and
checks are right: `CMD` holds the delivered command, the decoder's flags stand, one `Deliver` precedes
the `Resp`, and nothing else changes (what `CMD.CUSTOM` and `CMD.EXT` then hold where the command has
neither: log entry 12). -/
def Obligations.RxCompletesOnAGoodFrame : Prop :=
  ∀ (s : State) (rot inv : Bool), admissible s.cfg = true → HoldsSettings s rot inv →
    let delivered := fun (d : Command) (group tilt : Bool) =>
      { s with
        cmd := cmdRegsOf d, trace := s.trace ++ [.deliver d, .resp .ok],
        status := { s.status with sc := .ok, valid := true, group := group, tilt := tilt } }
    (∀ address mask code7 a code, s.bitlen.val = 39 ∨ s.bitlen.val = 40 →
      (∀ k : Fin 80, k.val < 39 → s.bitbuf[k.val] = .put (wireA address mask code7 k.val)) →
      (a, code) ∈ s.cfg.codeA → code.extractLsb' 1 7 = code7 →
      exec (.rx 0#2) s = .next (delivered {
        action := settingsTable (tiltOf a) rot inv, rail := 1#2, address := address, channelMask := mask,
        unit := 0#4, rollingCode := 0#16, repeatCount := 1#8, extCmd := none }
        (mask == 0#8) (a == Action.up || a == Action.down))) ∧
    (∀ (f0 f1 f2 f3 f4 : Byte) (a : Action), HoldsCells s 40 (wireRev [f0, f1, f2, f3, f4]) →
      let cv := BitVec.ofNat 9 (f2.toNat / 16 + if 0x80 ≤ f3.toNat then f3.toNat else 0)
      byteSum [f0, f1, f2, f3, f4] % 256 = 1 → tableAt s.cfg.actB cv = some a →
      exec (.rx 1#2) s = .next (delivered {
        action := settingsTable (if f3.toNat / 16 = 1 then tiltOf a else a) rot inv,
        rail := (tableAt s.cfg.railB cv).getD 1#2, address := 0#8 ++ f0 ++ f1, channelMask := 0#8,
        unit := f2.extractLsb' 0 4, rollingCode := 0#16, repeatCount := 1#8, extCmd := none }
        (f2.extractLsb' 0 4 == 0#4) false)) ∧
    (∀ m0 nib chk rc address a, HoldsCells s 56 (wireC (plainBytesC m0 nib chk rc address)) →
      nibbleXor (plainBytesC m0 nib chk rc address) = 0#4 → (a, nib) ∈ s.cfg.codeC →
      exec (.rx 2#2) s = .next (delivered {
        action := settingsTable a rot inv, rail := 1#2, address := address, channelMask := 0#8,
        unit := 0#4, rollingCode := rc, repeatCount := 1#8, extCmd := none } false false)) ∧
    (∀ m0 nib chk rc address m7 e count,
      HoldsCells s 80 (wireC (plainBytesC m0 nib chk rc address ++
        [m7, e, count ++ (count ^^^ nibbleXor [m7, e])])) →
      nibbleXor (plainBytesC m0 nib chk rc address) = 0#4 →
      let tilt : Option Action := if (nib, e) = s.cfg.tiltUpC then some .tiltUp
        else if (nib, e) = s.cfg.tiltDownC then some .tiltDown else none
      exec (.rx 2#2) s = .next (delivered {
        action := settingsTable (tilt.getD (.custom (0#4 ++ nib))) rot inv, rail := 1#2,
        address := address, channelMask := 0#8, unit := 0#4, rollingCode := rc,
        repeatCount := 0#4 ++ count, extCmd := if tilt.isSome then none else some e } false false))

/-- Derived from R52, R130, R140, R150, R151, R415 (that a frame row stands for the host's presenting the
payload is the model's reading: log entry 10): a frame instruction is `RX` under its protocol, on the
state in which `BITBUF` holds its wire bits and `OPR` the request word of `RX`. -/
def Obligations.FrameRowsPresentTheirBitsToRx : Prop :=
  ∀ s : State,
    (∀ address mask code7, ∃ u, exec (.frameA address mask code7) s = exec (.rx 0#2) u ∧
      HoldsCells u 39 (wireA address mask code7) ∧
      u = { s with bitbuf := u.bitbuf, bitlen := 39, opr := 0x15#8 }) ∧
    (∀ (address : BitVec 16) (unit code4 : BitVec 4) (flags csum : Byte),
      ∃ u, exec (.frameB address unit code4 flags csum) s = exec (.rx 1#2) u ∧
      HoldsCells u 40 (wireRev [address.extractLsb' 8 8, address.extractLsb' 0 8, code4 ++ unit, flags,
        csum]) ∧
      u = { s with bitbuf := u.bitbuf, bitlen := 40, opr := 0x35#8 }) ∧
    (∀ m0 nib chk rc address, ∃ u, exec (.frameCShort m0 nib chk rc address) s = exec (.rx 2#2) u ∧
      HoldsCells u 56 (wireC (plainBytesC m0 nib chk rc address)) ∧
      u = { s with bitbuf := u.bitbuf, bitlen := 56, opr := 0x55#8 }) ∧
    (∀ (m0 : Byte) (nib chk : BitVec 4) (rc : BitVec 16) (address : BitVec 24) (m7 e : Byte)
        (count chk2 : BitVec 4),
      ∃ u, exec (.frameCExt m0 nib chk rc address m7 e count chk2) s = exec (.rx 2#2) u ∧
      HoldsCells u 80 (wireC (plainBytesC m0 nib chk rc address ++ [m7, e, count ++ chk2])) ∧
      u = { s with bitbuf := u.bitbuf, bitlen := 80, opr := 0x55#8 })

/-- Derived from R370 with R236, R265, R300, R341, R335: what each kind of received frame delivers when
its code and its checks are right. A Protocol-A `Up` or `Down` arrives as a tilt. That a frame row is
placed and received by `RX` in one step is the model's reading (log entry 10). -/
def Obligations.FramesDeliverTheirCommand : Prop :=
  ∀ (s : State) (rot inv : Bool), admissible s.cfg = true → HoldsSettings s rot inv →
    (∀ address mask code7 a code, (a, code) ∈ s.cfg.codeA → code.extractLsb' 1 7 = code7 →
      ∃ t, exec (.frameA address mask code7) s = .next t ∧ t.status.group = (mask == 0#8) ∧
        t.trace = s.trace ++ [.deliver {
          action := settingsTable (tiltOf a) rot inv,
          rail := 1#2, address := address, channelMask := mask, unit := 0#4, rollingCode := 0#16,
          repeatCount := 1#8, extCmd := none }, .resp .ok]) ∧
    (∀ (address : BitVec 16) (unit code4 : BitVec 4) (flags csum : Byte) (a : Action),
      let cv := BitVec.ofNat 9 (code4.toNat + if 0x80 ≤ flags.toNat then flags.toNat else 0)
      byteSum [address.extractLsb' 8 8, address.extractLsb' 0 8, code4 ++ unit, flags, csum] % 256 = 1 →
      tableAt s.cfg.actB cv = some a →
      ∃ t, exec (.frameB address unit code4 flags csum) s = .next t ∧ t.status.group = (unit == 0#4) ∧
        t.trace = s.trace ++ [.deliver {
          action := settingsTable (if flags.toNat / 16 = 1 then tiltOf a else a) rot inv,
          rail := (tableAt s.cfg.railB cv).getD 1#2, address := 0#8 ++ address, channelMask := 0#8,
          unit := unit, rollingCode := 0#16, repeatCount := 1#8, extCmd := none }, .resp .ok]) ∧
    (∀ m0 nib chk rc address a, nibbleXor (plainBytesC m0 nib chk rc address) = 0#4 →
      (a, nib) ∈ s.cfg.codeC →
      ∃ t, exec (.frameCShort m0 nib chk rc address) s = .next t ∧
        t.trace = s.trace ++ [.deliver {
          action := settingsTable a rot inv, rail := 1#2, address := address, channelMask := 0#8,
          unit := 0#4, rollingCode := rc, repeatCount := 1#8, extCmd := none }, .resp .ok]) ∧
    (∀ m0 nib chk rc address m7 e count chk2, nibbleXor (plainBytesC m0 nib chk rc address) = 0#4 →
      chk2 = count ^^^ nibbleXor [m7, e] →
      let tilt : Option Action := if (nib, e) = s.cfg.tiltUpC then some .tiltUp
        else if (nib, e) = s.cfg.tiltDownC then some .tiltDown else none
      ∃ t, exec (.frameCExt m0 nib chk rc address m7 e count chk2) s = .next t ∧
        t.trace = s.trace ++ [.deliver {
          action := settingsTable (tilt.getD (.custom (0#4 ++ nib))) rot inv, rail := 1#2,
          address := address, channelMask := 0#8, unit := 0#4, rollingCode := rc,
          repeatCount := 0#4 ++ count,
          extCmd := if tilt.isSome then none else some e }, .resp .ok])

/-! ### The sequencer -/

/-- Derived from R355, R358, R416 (the agenda: log entry 7): the step takes `SEQ.FIRE` or `SEQ.EXPIRE`
where the agenda says so, and of itself where the agenda is empty; a block that is idle stays. -/
def Obligations.StepTakesTheEnabledSequencerStep : Prop :=
  ∀ (s : State) (rest : List Input),
    (∀ fails, s.agenda = .fire fails :: rest → step s = seqFire fails { s with agenda := rest }) ∧
    (s.agenda = .expire :: rest → step s = seqExpire { s with agenda := rest }) ∧
    (s.agenda = .lateExpire :: rest → step s = .next { s with agenda := rest }.lateExpire) ∧
    (s.agenda = [] → s.seq.st = .ready → step s = seqFire (Config.txFails s.txCalls) s) ∧
    (s.agenda = [] → s.seq.st = .waiting → step s = seqExpire s) ∧
    (s.agenda = [] → s.seq.st = .idle → step s = .next s) ∧
    (∀ fails, s.seq.st ≠ .ready → seqFire fails s = .next s)

/-- Derived from R350, R351, R353: `SEND` of an unmappable command does nothing; of a mappable one it
updates the counter (Protocol-C only), transmits the bits of the lowered command, and records a failed
call in `TXFAIL` and in `TxFail` only. The lowered command is that of the table of R340
(`loweredTable`), and so it is in the dry run and in `wireCommand`, by which other statements speak of
it. -/
def Obligations.SendTransmitsOrSkips : Prop :=
  ∀ (s : State) (p : Proto) (c : Command) (fails : Bool),
    let l := loweredTable s.cfg p c
    let wire := if p = .c then { l with rollingCode := s.rcc + 1#16 } else l
    dryEncode s.cfg p c = encodeP s.cfg p { l with rollingCode := 0#16 } ∧ wireCommand s p c = wire ∧
    (encodeP s.cfg p { l with rollingCode := 0#16 } = .error .unmapped →
      s.send p c fails = .ok (false, s)) ∧
    (∀ dry, encodeP s.cfg p { l with rollingCode := 0#16 } = .ok dry →
      ∃ bits, encodeP s.cfg p wire = .ok bits ∧
        s.send p c fails = .ok (true, s.sent p bits c.repeatCount fails))

/-- R356: `SEQ.FIRE` of a LIST: the primary, then the follow-up on the next step without a wait. -/
def Obligations.FirePlaysTheList : Prop :=
  ∀ (s u : State) (fails sent : Bool), s.seq.st = .ready → s.seq.kind = .list →
    (s.seq.ph = 0#2 → s.send s.seq.proto s.seq.cmd fails = .ok (sent, u) →
      seqFire fails s = .next { u with seq := if s.seq.fuv then { s.seq with ph := 1#2 }
                                              else { s.seq with st := .idle } }) ∧
    (s.seq.ph = 1#2 →
      s.send s.seq.proto { s.seq.cmd with action := actionOf s.seq.fuact 0#8,
                                          repeatCount := s.cfg.defaultRepeat.at s.seq.proto } fails =
        .ok (sent, u) →
      seqFire fails s = .next { u with seq := { s.seq with st := .idle } })

/-- R357: `SEQ.FIRE` of a BATCH sends at most 15 steps and arms 100 ms for each, or drops an unmappable
batch; of a PAIR it sends the pairing code twice, each with a wait of 1000 ms, then `Up`. -/
def Obligations.FirePlaysTheBatchAndThePairing : Prop :=
  ∀ (s u : State) (fails sent : Bool), s.seq.st = .ready →
    (s.seq.kind = .batch →
      let r := min 15 s.seq.rem.toNat
      s.send s.seq.proto { s.seq.cmd with repeatCount := BitVec.ofNat 8 r } fails = .ok (sent, u) →
      (sent = true → seqFire fails s = .next { u with
        seq := { s.seq with st := .waiting, rem := s.seq.rem - BitVec.ofNat 8 r,
                            waitms := BitVec.ofNat 16 (100 * r) },
        timer := some (BitVec.ofNat 16 (100 * r)),
        trace := u.trace ++ [.wait (BitVec.ofNat 16 (100 * r))] }) ∧
      (sent = false → seqFire fails s = .next { u with seq := { s.seq with st := .idle, rem := 0#8 } })) ∧
    (s.seq.kind = .pair → s.seq.ph = 0#2 ∨ s.seq.ph = 1#2 →
      s.send .a { s.seq.cmd with action := .pair } fails = .ok (sent, u) →
      seqFire fails s = .next { u with
        seq := { s.seq with st := .waiting, ph := s.seq.ph + 1#2, waitms := 1000#16 },
        timer := some 1000#16, trace := u.trace ++ [.wait 1000#16] }) ∧
    (s.seq.kind = .pair → s.seq.ph = 2#2 →
      s.send .a { s.seq.cmd with action := .up } fails = .ok (sent, u) →
      seqFire fails s = .next { u with seq := { s.seq with st := .idle } })

/-- Derived from R358, R435: the `Expire` of the wait in progress ends a batch whose steps are sent, makes
the next item of any other waiting schedule ready, and is the last of that wait; with no wait in progress
there is none. Derived from R60, R451: the `Expire` of a wait that a reset abandoned is ignored, whatever
the block does then, and comes once. That an `Expire` the sequencer ignores still stands in the trace is
the model's reading (log entry 13). -/
def Obligations.ExpireResumesTheSchedule : Prop :=
  ∀ s : State,
    (∀ ms, s.timer = some ms →
      (s.seq.st = .waiting → s.seq.kind = .batch →
        seqExpire s = .next { s with
          seq := { s.seq with st := if s.seq.rem = 0#8 then .idle else .ready },
          timer := none, trace := s.trace ++ [.expire] }) ∧
      (s.seq.st = .waiting → s.seq.kind = .pair →
        seqExpire s = .next { s with seq := { s.seq with st := .ready }, timer := none,
                                     trace := s.trace ++ [.expire] }) ∧
      (s.seq.st ≠ .waiting →
        seqExpire s = .next { s with timer := none, trace := s.trace ++ [.expire] })) ∧
    (s.timer = none → seqExpire s = .next s) ∧
    (∀ rest, s.agenda = .lateExpire :: rest →
      (s.abandoned = 0 → step s = .next { s with agenda := rest }) ∧
      (s.abandoned ≠ 0 → step s = .next { s with
        agenda := rest, trace := s.trace ++ [.expire], abandoned := s.abandoned - 1 }))

/-- Derived from R43, R104, R356, R357: a `SEQ.FIRE` whose head item is mappable transmits that item
with its repeat count, waits its delay where it has one, and leaves the rest of the pending list; a
`SEQ.EXPIRE` leaves the list as it is. -/
def Obligations.FirePopsThePendingList : Prop :=
  ∀ (s : State) (fails : Bool) (c : Command) (d : Nat) (tail : List (Command × Nat)),
    admissible s.cfg = true → Inv s →
    (s.seq.st = .ready → pending s.cfg s.seq = (c, d) :: tail → Mappable s.cfg s.seq.proto c →
      ∃ t bits, seqFire fails s = .next t ∧ pending t.cfg t.seq = tail ∧
        encodeP s.cfg s.seq.proto (wireCommand s s.seq.proto c) = .ok bits ∧
        t.trace = s.trace ++ sentEvents s s.seq.proto bits c.repeatCount fails ++
          (if d = 0 then [] else [.wait (BitVec.ofNat 16 d)]) ∧
        (t.seq.st = .waiting ↔ d ≠ 0)) ∧
    (s.seq.st = .waiting → ∃ t, seqExpire s = .next t ∧ pending t.cfg t.seq = pending s.cfg s.seq)

/-- Derived from R362, R357, R104: with nothing on the agenda, an accepted batch of `n` steps plays its
bursts in order, 15 repeats each but the last, each followed by its wait of 100 ms per repeat and the
expiry, and then the block is idle. What an empty agenda does is the model's choice (log entry 7). -/
def Obligations.BatchesPlayInBurstsOfFifteen : Prop :=
  ∀ s : State, admissible s.cfg = true → Inv s → s.agenda = [] → s.seq.st = .ready →
    s.seq.kind = .batch →
    (∀ r, 1 ≤ r → r ≤ 15 →
      Mappable s.cfg s.seq.proto { s.seq.cmd with repeatCount := BitVec.ofNat 8 r }) →
    ∃ t new, Sys2Proof.core.run (2 * (burstCounts s.seq.rem.toNat).length) s = .next t ∧
      t.seq.st = .idle ∧ t.trace = s.trace ++ new ∧
      new.filterMap seen = (burstCounts s.seq.rem.toNat).flatMap fun r =>
        [.burst r, .wait (100 * r), .expire]

/-- Derived from R243, R367: with nothing on the agenda, an accepted pairing request transmits the
pairing code, waits 1000 ms, transmits it again, waits 1000 ms, transmits `Up`, and the block is idle.
What an empty agenda does is the model's choice (log entry 7). -/
def Obligations.PairingPlaysItsThreeSends : Prop :=
  ∀ s : State, admissible s.cfg = true → Inv s → s.agenda = [] → s.seq.st = .ready →
    s.seq.kind = .pair → s.seq.ph = 0#2 →
    ∃ t new pairBits upBits, Sys2Proof.core.run 5 s = .next t ∧ t.seq.st = .idle ∧
      encodeA s.cfg { s.seq.cmd with action := .pair } = .ok pairBits ∧
      encodeA s.cfg { s.seq.cmd with action := .up } = .ok upBits ∧
      t.trace = s.trace ++ new ∧ t.rcc = s.rcc ∧
      new.filter (fun e => e ≠ .txFail) =
        [.transmit pairBits s.seq.cmd.repeatCount, .wait 1000#16, .expire,
          .transmit pairBits s.seq.cmd.repeatCount, .wait 1000#16, .expire,
          .transmit upBits s.seq.cmd.repeatCount]

/-- Derived from R100, R102, R351, R434: over every step the trace only grows, and the counter changes
only in a Protocol-C `SEND`, by exactly 1, its two events followed at once by the `Transmit` (or, at a
crash, by the reset), or in the pairing step, to 0. Derived from R456: the pairing step, taken while
`SEQ.ST` is IDLE, sets the counter to 0 and changes nothing else; that it emits no event, and that an
agenda which names it at another time changes nothing, is the model's choice (log entry 15). -/
def Obligations.OnlySendsAndPairingWriteTheCounter : Prop :=
  (∀ (s : State) (rest : List Input), s.agenda = .pairStore :: rest →
    (s.seq.st = .idle → step s = .next { s with agenda := rest, rcc := 0#16 }) ∧
    (s.seq.st ≠ .idle → step s = .next { s with agenda := rest })) ∧
  ∀ s t : State, step s = .next t → ∃ new, t.trace = s.trace ++ new ∧
    ((t.rcc = s.rcc ∧ ∀ v, Event.rcSet v ∉ new) ∨
     (∃ bits reps more, s.seq.st = .ready ∧ s.seq.proto = .c ∧ t.rcc = s.rcc + 1#16 ∧
        new = [.rcGet s.rcc, .rcSet (s.rcc + 1#16), .transmit bits reps] ++ more ∧
        ∀ v, Event.rcSet v ∉ more) ∨
     (∃ rest, s.agenda = .crash :: rest ∧ s.seq.st = .ready ∧ s.seq.proto = .c ∧
        t.rcc = s.rcc + 1#16 ∧ new = [.rcGet s.rcc, .rcSet (s.rcc + 1#16)] ∧ t.seq.st = .idle) ∨
     (∃ rest, s.agenda = .pairStore :: rest ∧ s.seq.st = .idle ∧ t.rcc = 0#16 ∧ new = []))

/-- Derived from R452: reset inside a Protocol-C `SEND`: the counter is advanced and durable, nothing is
transmitted, and the block is as reset leaves it, in the fields whose values R60 gives (that the others
hold nothing is the model's reading: log entries 2 and 3). The head of the pending schedule is the item
that was being sent; of a LIST, whose phase is 0 or 1 (R41). -/
def Obligations.CrashBurnsOneRollingCode : Prop :=
  ∀ (s : State) (rest : List Input) (c : Command) (d : Nat) (tail : List (Command × Nat)),
    s.agenda = .crash :: rest → s.seq.st = .ready → s.seq.proto = .c → s.seq.kind ≠ .pair →
    (s.seq.kind = .list → s.seq.ph.toNat < 2) → pending s.cfg s.seq = (c, d) :: tail →
    Mappable s.cfg .c c →
    ∃ t, step s = .next t ∧ t.rcc = s.rcc + 1#16 ∧
      t.trace = s.trace ++ [.rcGet s.rcc, .rcSet (s.rcc + 1#16)] ∧ ClearedFrom s t ∧ NothingWritten t ∧
      t.agenda = rest ∧ t.txCalls = s.txCalls

/-- Derived from R431 (with R83, R37 for the buffers; log entries 4 and 8): a host write gives the
register or cell it names its value and reaches nothing else: neither `SEQ` nor `STATUS` nor `RES` nor
the stores, and it emits no event. R53: reading the settings store writes `SET.*` only. R433: a change
of a setting reaches nothing but the store; that it emits no event is the model's choice (log entry 15).
-/
def Obligations.HostWritesReachOnlyOperands : Prop :=
  ∀ (s : State) (rest : List Input),
    (∀ w, s.agenda = .host w :: rest → ∃ t, step s = .next t ∧ Wrote { s with agenda := rest } t w) ∧
    (∀ v, s.agenda = .setting v :: rest → step s = .next { s with agenda := rest, store := v }) ∧
    (s.agenda = .readSettings :: rest → step s = .next { s with
      agenda := rest,
      sets := { rot := .put (s.store.rotated == .deg180), inv := .put s.store.invertTilt,
                pulse := .put s.store.pulseMode } })
end

