-- ==== Sys2Proof/Laws/Ops.lean ====
section
/-! SUPPORT. What each shared operation can do, said once: registers, cells, buffers, and the way an
operation ends. -/

namespace Sys2Proof.Machine

/-! ### Sequencing of checks -/

theorem bind_eq_ok {ε α β : Type} {x : Except ε α} {f : α → Except ε β} {b : β} :
    (x >>= f) = .ok b ↔ ∃ a, x = .ok a ∧ f a = .ok b := by
  cases x <;> simp [bind, Except.bind]

theorem bind_eq_error {ε α β : Type} {x : Except ε α} {f : α → Except ε β} {e : ε} :
    (x >>= f) = .error e ↔ x = .error e ∨ ∃ a, x = .ok a ∧ f a = .error e := by
  cases x <;> simp [bind, Except.bind]

@[simp] theorem ok_bind {ε α β : Type} (a : α) (f : α → Except ε β) :
    ((.ok a : Except ε α) >>= f) = f a := rfl

@[simp] theorem error_bind {ε α β : Type} (e : ε) (f : α → Except ε β) :
    ((.error e : Except ε α) >>= f) = .error e := rfl

/-! ### Registers -/

@[simp] theorem Reg.get_put {α : Type} (v : α) : (Reg.put v).get = .ok v := rfl

@[simp] theorem Reg.put_val {α : Type} (v : α) : (Reg.put v).val = v := rfl

@[simp] theorem Reg.put_written {α : Type} (v : α) : (Reg.put v).written = true := rfl

theorem Reg.get_eq_ok {α : Type} {r : Reg α} {v : α} : r.get = .ok v ↔ r = .put v := by
  cases r with
  | mk val written => cases written <;> simp [Reg.get, Reg.put]

theorem Reg.get_of_unwritten {α : Type} {r : Reg α} (h : r.written = false) : r.get = .error .precond := by
  simp [Reg.get, h]

theorem Reg.get_of_written {α : Type} {r : Reg α} (h : r.written = true) : r.get = .ok r.val := by
  simp [Reg.get, h]

theorem Reg.eq_put_of_written {α : Type} {r : Reg α} (h : r.written = true) : r = .put r.val := by
  cases r; simp_all [Reg.put]

/-! ### Cells -/

theorem readCells_eq_ok {α : Type} {l : List (Reg α)} {vs : List α} :
    readCells l = .ok vs ↔ l = vs.map .put := by
  induction l generalizing vs with
  | nil => cases vs <;> simp [readCells]
  | cons x xs ih =>
    obtain ⟨v, w⟩ := x
    cases vs with
    | nil => simp only [readCells]; split <;> simp
    | cons y ys =>
      have := @ih ys
      cases w <;> simp_all [readCells, Reg.put]
      split <;> simp_all

theorem readCells_map_put {α : Type} (vs : List α) : readCells (vs.map .put) = .ok vs :=
  readCells_eq_ok.mpr rfl

theorem readCells_of_unwritten {α : Type} {l : List (Reg α)} {x : Reg α} (h : x ∈ l)
    (hx : x.written = false) : readCells l = .error .precond := by
  have : l.all (·.written) = false := by
    simp only [List.all_eq_false]; exact ⟨x, h, by simp [hx]⟩
  simp [readCells, this]

/-- Reading cells fails with `Precond` or answers values. -/
theorem readCells_error {α : Type} {l : List (Reg α)} {e : Status} (h : readCells l = .error e) :
    e = .precond := by
  simp only [readCells] at h; split at h <;> simp_all

theorem overlay_getElem {α : Type} (l : List (Reg α)) (a : Nat) (vs : List α) (k : Nat)
    (hk : k < l.length) :
    (overlay l a vs)[k]'(by simpa [overlay_length] using hk) =
      if h : a ≤ k ∧ k - a < vs.length then .put vs[k - a] else l[k] := by
  induction l, a, vs using overlay.induct generalizing k with
  | case1 => simp at hk
  | case2 x xs => simp [overlay]
  | case3 x xs v vs ih =>
    cases k with
    | zero => simp [overlay]
    | succ k => simpa [overlay] using ih k (by simpa using hk)
  | case4 x xs a vs ih =>
    cases k with
    | zero => simp [overlay]
    | succ k => simpa [overlay] using ih k (by simpa using hk)

theorem forgetFrom_getElem {α : Type} (l : List (Reg α)) (n k : Nat) (hk : k < l.length) :
    (forgetFrom l n)[k]'(by simpa [forgetFrom_length] using hk) =
      if k < n then l[k] else ⟨l[k].val, false⟩ := by
  induction l, n using forgetFrom.induct generalizing k with
  | case1 => simp at hk
  | case2 x xs ih =>
    cases k with
    | zero => simp [forgetFrom]
    | succ k => simpa [forgetFrom] using ih k (by simpa using hk)
  | case3 x xs n ih =>
    cases k with
    | zero => simp [forgetFrom]
    | succ k => simpa [forgetFrom] using ih k (by simpa using hk)

/-- A slice write puts its values at its cells and leaves every other cell alone. -/
theorem writeAt_getElem {α : Type} {n : Nat} (v : Vector (Reg α) n) (a : Nat) (vs : List α) (k : Nat)
    (hk : k < n) :
    (writeAt v a vs)[k] = if h : a ≤ k ∧ k - a < vs.length then .put vs[k - a] else v[k] := by
  have h := overlay_getElem v.toArray.toList a vs k (by simpa using hk)
  simpa [writeAt, Vector.getElem_mk] using h

/-- Cells at and above a length lose their value, the cells below keep theirs. -/
theorem truncAt_getElem {α : Type} {n : Nat} (v : Vector (Reg α) n) (m k : Nat) (hk : k < n) :
    (truncAt v m)[k] = if k < m then v[k] else ⟨v[k].val, false⟩ := by
  have h := forgetFrom_getElem v.toArray.toList m k (by simpa using hk)
  simpa [truncAt, Vector.getElem_mk] using h

/-! ### Buffers -/

/-- The cells of a buffer from `a` on, as a list. -/
theorem vector_slice_eq {α : Type} {n : Nat} {v : Vector α n} {a m : Nat} {g : Nat → α}
    (hm : a + m ≤ n) (h : ∀ k (hk : k < m), v[a + k]'(by omega) = g k) :
    (v.toArray.toList.drop a).take m = (List.range m).map g := by
  apply List.ext_getElem
  · simp; omega
  · intro i h1 h2
    have hi : i < m := by simp at h2; exact h2
    have := h i hi
    simp only [List.getElem_take, List.getElem_drop, List.getElem_map, List.getElem_range]
    simpa using this

/-- Reading a slice whose cells hold values answers them. -/
theorem State.readBits_eq_ok {s : State} {a n : Nat} {g : Nat → Bool} (hn : a + n ≤ s.bitlen.val)
    (h : ∀ k : Fin 80, a ≤ k.val → k.val < a + n → s.bitbuf[k.val] = .put (g (k.val - a))) :
    s.readBits a n = .ok ((List.range n).map g) := by
  have hlen := s.bitlen.isLt
  have hs := vector_slice_eq (v := s.bitbuf) (a := a) (m := n) (g := fun k => Reg.put (g k)) (by omega)
    (fun k hk => by simpa using h ⟨a + k, by omega⟩ (by simp) (by simpa using hk))
  simp only [State.readBits, if_pos hn, hs]
  rw [← readCells_map_put ((List.range n).map g)]; simp [Function.comp_def]

/-- A slice read that answers read cells that hold the answer. -/
theorem State.readBits_ok_inv {s : State} {a n : Nat} {v : Bits} (h : s.readBits a n = .ok v) :
    a + n ≤ s.bitlen.val ∧ v.length = n ∧
      ∀ k (hk : k < v.length) (h80 : a + k < 80), s.bitbuf[a + k] = .put v[k] := by
  simp only [State.readBits] at h
  split at h
  · rename_i hn
    have hlen := s.bitlen.isLt
    have he := readCells_eq_ok.mp h
    have hl : v.length = n := by
      have := congrArg List.length he; simp at this; omega
    refine ⟨hn, hl, fun k hk h80 => ?_⟩
    have h1 : ((s.bitbuf.toArray.toList.drop a).take n)[k]? = (v.map Reg.put)[k]? := by rw [he]
    simp [hl ▸ hk, h80, hk] at h1
    simpa using h1
  · simp at h

/-- A slice read fails with `Precond` only. -/
theorem State.readBits_error {s : State} {a n : Nat} {e : Status} (h : s.readBits a n = .error e) :
    e = .precond := by
  simp only [State.readBits] at h
  split at h
  · exact readCells_error h
  · simpa using h.symm

/-- The byte operand, where its cells hold values. -/
theorem State.readBytes_eq_ok {s : State} {f : List Byte} (hn : s.bytelen.val = f.length)
    (h : ∀ (j : Fin 10) (hj : j.val < f.length), s.bytebuf[j.val] = .put f[j.val]) :
    s.readBytes = .ok f := by
  have hlen := s.bytelen.isLt
  refine readCells_eq_ok.mpr (List.ext_getElem ?_ ?_)
  · simp; omega
  · intro i h1 h2
    have hi : i < f.length := by simpa using h2
    simpa using h ⟨i, by omega⟩ hi

/-- A byte operand that was read stands in its cells. -/
theorem State.readBytes_ok_inv {s : State} {f : List Byte} (h : s.readBytes = .ok f) :
    s.bytelen.val = f.length ∧ ∀ (j : Fin 10) (hj : j.val < f.length), s.bytebuf[j.val] = .put f[j.val] := by
  have hlen := s.bytelen.isLt
  have he := readCells_eq_ok.mp h
  have hl : s.bytelen.val = f.length := by
    have := congrArg List.length he; simp at this; omega
  refine ⟨hl, fun j hj => ?_⟩
  have h1 : (s.bytebuf.toArray.toList.take s.bytelen.val)[j.val]? = (f.map Reg.put)[j.val]? := by rw [he]
  simpa [List.getElem?_take, hl, hj, List.getElem?_map] using h1

/-- The byte operand fails with `Precond` only. -/
theorem State.readBytes_error {s : State} {e : Status} (h : s.readBytes = .error e) : e = .precond :=
  readCells_error h

/-! ### How an operation ends -/

@[simp] theorem State.finish_ok (s t : State) : s.finish (.ok t) = .next (t.respond .ok) := rfl

@[simp] theorem State.finish_error (s : State) (e : Status) :
    s.finish (.error e) = .next (s.respond e) := rfl

/-- An operation answers a next state: what its body made, with `OK`, or the state as it was, with the
status raised. -/
theorem State.finish_cases (s : State) (r : Except Status State) :
    (∃ t, r = .ok t ∧ s.finish r = .next (t.respond .ok)) ∨
      ∃ e, r = .error e ∧ s.finish r = .next (s.respond e) := by
  cases r <;> simp

/-- An operation that ended in a state: by its body or by a status. -/
theorem State.finish_eq_next {s t : State} {r : Except Status State} (h : s.finish r = .next t) :
    (∃ u, r = .ok u ∧ t = u.respond .ok) ∨ ∃ e, r = .error e ∧ t = s.respond e := by
  cases r <;> simp_all [eq_comm]

end Sys2Proof.Machine
end

