-- ==== Sys2Proof/Laws/Serial.lean ====
section
/-! SUPPORT. The serializer, bit by bit: lengths, the bit at each index, and that the conversions of
40_bitvector.md invert each other. -/

namespace Sys2Proof.Machine

/-! ### The two orders -/

@[simp] theorem intToMsb_length (v w : Nat) : (intToMsb v w).length = w := by simp [intToMsb]

@[simp] theorem intToMsb_getElem (v w i : Nat) (h : i < (intToMsb v w).length) :
    (intToMsb v w)[i] = v.testBit (w - 1 - i) := by simp [intToMsb]

theorem msbToInt_append (s : Bits) (b : Bool) : msbToInt (s ++ [b]) = 2 * msbToInt s + b.toNat := by
  simp [msbToInt]

/-- Bit `i` of the integer of a sequence is the bit that stands `i` places before its end. -/
theorem msbToInt_testBit (s : Bits) (i : Nat) :
    (msbToInt s).testBit i = if h : i < s.length then s[s.length - 1 - i] else false := by
  induction s using List.reverseRecOn generalizing i with
  | nil => simp [msbToInt]
  | append_singleton s b ih =>
    rw [msbToInt_append]
    cases i with
    | zero =>
      simp only [List.length_append, List.length_cons, List.length_nil, Nat.zero_add]
      have : (2 * msbToInt s + b.toNat).testBit 0 = b := by
        cases b <;> simp
      simp [this]
    | succ i =>
      have : (2 * msbToInt s + b.toNat).testBit (i + 1) = (msbToInt s).testBit i := by
        rw [Nat.testBit_succ]; congr 1; cases b <;> simp; omega
      rw [this, ih]
      by_cases h : i < s.length
      · have h2 : i + 1 < (s ++ [b]).length := by simpa using h
        rw [dif_pos h, dif_pos h2, List.getElem_append_left (by simp; omega)]
        congr 1; simp; omega
      · have h2 : ¬ i + 1 < (s ++ [b]).length := by simpa using h
        rw [dif_neg h, dif_neg h2]

theorem msbToInt_lt (s : Bits) : msbToInt s < 2 ^ s.length := by
  induction s using List.reverseRecOn with
  | nil => simp [msbToInt]
  | append_singleton s b ih =>
    rw [msbToInt_append]; simp [Nat.pow_succ]; cases b <;> simp <;> omega

/-- `BitsToInt(IntToBits(v, w), w) = v` in `MsbFirst` (R186). -/
theorem msbToInt_intToMsb (v w : Nat) (h : v < 2 ^ w) : msbToInt (intToMsb v w) = v := by
  apply Nat.eq_of_testBit_eq
  intro i
  rw [msbToInt_testBit]
  by_cases hi : i < w
  · rw [dif_pos (by simpa using hi), intToMsb_getElem]
    congr 1; simp; omega
  · rw [dif_neg (by simpa using hi), Nat.testBit_lt_two_pow]
    exact lt_of_lt_of_le h (Nat.pow_le_pow_right (by omega) (by omega))

/-- `IntToBits(BitsToInt(s), len(s)) = s` in `MsbFirst` (R186). -/
theorem intToMsb_msbToInt (s : Bits) : intToMsb (msbToInt s) s.length = s := by
  apply List.ext_getElem (by simp)
  intro i h1 h2
  rw [intToMsb_getElem, msbToInt_testBit, dif_pos (by omega)]
  congr 1; omega

@[simp] theorem revGroups_length (s : Bits) : (revGroups s).length = s.length := by
  fun_induction revGroups <;> simp_all

theorem revGroups_cons8 (b0 b1 b2 b3 b4 b5 b6 b7 : Bool) (t : Bits) :
    revGroups (b0 :: b1 :: b2 :: b3 :: b4 :: b5 :: b6 :: b7 :: t) =
      b7 :: b6 :: b5 :: b4 :: b3 :: b2 :: b1 :: b0 :: revGroups t := by rw [revGroups]

/-- Reversing groups of eight moves the bit at index `8 j + k` to `8 j + 7 - k`. -/
theorem revGroups_getElem (s : Bits) (hs : s.length % 8 = 0) (i : Nat) (h : i < s.length) :
    (revGroups s)[i]'(by simpa using h) = s[8 * (i / 8) + (7 - i % 8)]'(by omega) := by
  fun_induction revGroups generalizing i with
  | case1 b0 b1 b2 b3 b4 b5 b6 b7 t ih =>
    by_cases hi : i < 8
    · simp only [revGroups_cons8]
      interval_cases i <;> rfl
    · obtain ⟨j, rfl⟩ : ∃ j, i = j + 8 := ⟨i - 8, by omega⟩
      have hj : j < t.length := by simp at h; omega
      have := ih (by simp at hs; omega) j hj
      have e : 8 * ((j + 8) / 8) + (7 - (j + 8) % 8) = (8 * (j / 8) + (7 - j % 8)) + 8 := by omega
      simp only [e]
      simp only [revGroups_cons8]
      exact this
  | case2 s hshort =>
    exfalso
    match s, hs, h, hshort with
    | [], _, h, _ => simp at h
    | [_], hs, _, _ => simp at hs
    | [_, _], hs, _, _ => simp at hs
    | [_, _, _], hs, _, _ => simp at hs
    | [_, _, _, _], hs, _, _ => simp at hs
    | [_, _, _, _, _], hs, _, _ => simp at hs
    | [_, _, _, _, _, _], hs, _, _ => simp at hs
    | [_, _, _, _, _, _, _], hs, _, _ => simp at hs
    | b0 :: b1 :: b2 :: b3 :: b4 :: b5 :: b6 :: b7 :: t, _, _, hn =>
      exact hn b0 b1 b2 b3 b4 b5 b6 b7 t rfl

/-- Reversing groups of eight twice changes nothing. -/
theorem revGroups_revGroups (s : Bits) (hs : s.length % 8 = 0) : revGroups (revGroups s) = s := by
  apply List.ext_getElem (by simp)
  intro i h1 h2
  rw [revGroups_getElem _ (by simpa using hs) i (by simpa using h2),
    revGroups_getElem _ hs _ (by omega)]
  congr 1; omega

/-! ### The serial form of an integer, and the integer of a sequence -/

/-- Whether an order takes a width (R93). -/
def fits (o : BitOrder) (w : Nat) : Prop := o = .perByteReversed → w % 8 = 0

@[simp] theorem intToBits_length (v w : Nat) (o : BitOrder) : (intToBits v w o).length = w := by
  cases o <;> simp [intToBits]

/-- The bit at index `i` of the serial form of `v` is bit `serialIndex` of `v` (R181, R182). -/
theorem intToBits_getElem (v w : Nat) (o : BitOrder) (hf : fits o w) (i : Nat)
    (h : i < (intToBits v w o).length) :
    (intToBits v w o)[i] = v.testBit (serialIndex (o == .perByteReversed) w i) := by
  have hi : i < w := by simpa using h
  cases o with
  | msbFirst => simp [intToBits, serialIndex]
  | perByteReversed =>
    have h8 : w % 8 = 0 := hf rfl
    simp only [intToBits]
    rw [revGroups_getElem _ (by simpa using h8) i (by simpa using hi), intToMsb_getElem]
    simp [serialIndex]; congr 1; omega

/-- Bit `i` of the integer of a sequence is the element at `serialIndex` (R181, R182). -/
theorem bitsToInt_testBit (s : Bits) (o : BitOrder) (hf : fits o s.length) (i : Nat) :
    (bitsToInt s o).testBit i =
      if i < s.length then (s[serialIndex (o == .perByteReversed) s.length i]?).getD false else false := by
  cases o with
  | msbFirst =>
    simp only [bitsToInt, msbToInt_testBit, serialIndex]
    by_cases h : i < s.length
    · have : s.length - 1 - i < s.length := by omega
      simp [h, this]
    · simp [h]
  | perByteReversed =>
    have h8 : s.length % 8 = 0 := hf rfl
    simp only [bitsToInt, msbToInt_testBit, serialIndex]
    by_cases h : i < s.length
    · have e : 8 * (s.length / 8 - 1 - i / 8) + i % 8 < s.length := by omega
      rw [dif_pos (by simpa using h), if_pos h]
      rw [revGroups_getElem _ h8 _ (by simp; omega)]
      simp only [revGroups_length, beq_self_eq_true, if_true, List.getElem?_eq_getElem e, Option.getD_some]
      congr 1; omega
    · rw [dif_neg (by simpa using h), if_neg h]

theorem bitsToInt_lt (s : Bits) (o : BitOrder) : bitsToInt s o < 2 ^ s.length := by
  cases o with
  | msbFirst => exact msbToInt_lt s
  | perByteReversed => simpa [bitsToInt] using msbToInt_lt (revGroups s)

/-- The conversions invert each other, from the integer's side (R186). -/
theorem bitsToInt_intToBits (v w : Nat) (o : BitOrder) (hv : v < 2 ^ w) (hf : fits o w) :
    bitsToInt (intToBits v w o) o = v := by
  cases o with
  | msbFirst => exact msbToInt_intToMsb v w hv
  | perByteReversed =>
    simp only [intToBits, bitsToInt]
    rw [revGroups_revGroups _ (by simpa using hf rfl), msbToInt_intToMsb v w hv]

/-- The conversions invert each other, from the sequence's side (R186). -/
theorem intToBits_bitsToInt (s : Bits) (o : BitOrder) (hf : fits o s.length) :
    intToBits (bitsToInt s o) s.length o = s := by
  cases o with
  | msbFirst => exact intToMsb_msbToInt s
  | perByteReversed =>
    have h := intToMsb_msbToInt (revGroups s)
    simp only [revGroups_length] at h
    simp only [intToBits, bitsToInt, h, revGroups_revGroups s (hf rfl)]

/-! ### Byte lists -/

theorem bytesToBits_nil (o : BitOrder) : bytesToBits o [] = [] := rfl

theorem bytesToBits_cons (o : BitOrder) (b : Byte) (f : List Byte) :
    bytesToBits o (b :: f) = intToBits b.toNat 8 o ++ bytesToBits o f := rfl

theorem bytesToBits_append (o : BitOrder) (f g : List Byte) :
    bytesToBits o (f ++ g) = bytesToBits o f ++ bytesToBits o g := by
  simp [bytesToBits]

@[simp] theorem bytesToBits_length (o : BitOrder) (f : List Byte) :
    (bytesToBits o f).length = 8 * f.length := by
  induction f with
  | nil => rfl
  | cons b t ih => rw [bytesToBits_cons]; simp [ih]; omega

/-- The eight bits of a byte: index `k` is bit `7 - k` in `MsbFirst`, bit `k` in `PerByteReversed`. -/
theorem byte_bit (o : BitOrder) (b : Byte) (k : Nat) (hk : k < 8) :
    (intToBits b.toNat 8 o)[k]? =
      some (b.getLsbD (if o = .perByteReversed then k else 7 - k)) := by
  rw [List.getElem?_eq_getElem (by simpa using hk), intToBits_getElem _ _ _ (by simp [fits])]
  cases o with
  | msbFirst => simp [serialIndex, BitVec.testBit_toNat]
  | perByteReversed =>
    have : 8 * (8 / 8 - 1 - k / 8) + k % 8 = k := by omega
    simp [serialIndex, BitVec.testBit_toNat, Nat.mod_eq_of_lt hk]

/-- Wire index `8 j + k` of a byte list holds a bit of byte `j` (R91, R186). -/
theorem bytesToBits_getElem? (o : BitOrder) (f : List Byte) (j k : Nat) (hj : j < f.length) (hk : k < 8) :
    (bytesToBits o f)[8 * j + k]? =
      some ((f.getD j 0#8).getLsbD (if o = .perByteReversed then k else 7 - k)) := by
  induction f generalizing j with
  | nil => simp at hj
  | cons b t ih =>
    rw [bytesToBits_cons]
    cases j with
    | zero =>
      rw [List.getElem?_append_left (by simpa using hk)]
      simpa using byte_bit o b k hk
    | succ j =>
      rw [List.getElem?_append_right (by simp; omega)]
      have e : 8 * (j + 1) + k - (intToBits b.toNat 8 o).length = 8 * j + k := by simp; omega
      rw [e, ih j (by simpa using hj)]
      simp

/-- The bytes of the wire bits of a byte list are the list (R91). -/
theorem bitsToBytes_bytesToBits (o : BitOrder) (f : List Byte) : bitsToBytes o (bytesToBits o f) = f := by
  induction f with
  | nil => simp [bitsToBytes, bytesToBits]
  | cons b t ih =>
    have hl : (bytesToBits o (b :: t)).length / 8 = t.length + 1 := by simp
    rw [bitsToBytes, hl, List.range_succ_eq_map, List.map_cons, List.map_map]
    congr 1
    · rw [bytesToBits_cons]
      have : ((intToBits b.toNat 8 o ++ bytesToBits o t).drop (8 * 0)).take 8 = intToBits b.toNat 8 o := by
        rw [Nat.mul_zero, List.drop_zero]
        exact List.take_left' (by simp)
      rw [this, bitsToInt_intToBits _ _ _ b.isLt (by simp [fits])]
      simp
    · conv_rhs => rw [← ih]
      rw [bitsToBytes, bytesToBits_length]
      have : 8 * t.length / 8 = t.length := by omega
      rw [this]
      apply List.map_congr_left
      intro j _
      simp only [Function.comp, bytesToBits_cons]
      rw [show 8 * Nat.succ j = (intToBits b.toNat 8 o).length + 8 * j by simp; omega,
        List.drop_length_add_append]

theorem bitsToBytes_length (o : BitOrder) (s : Bits) : (bitsToBytes o s).length = s.length / 8 := by
  simp [bitsToBytes]

/-- A sequence of whole bytes is the wire form of its bytes (R91). -/
theorem bytesToBits_bitsToBytes (o : BitOrder) (s : Bits) (h : s.length % 8 = 0) :
    bytesToBits o (bitsToBytes o s) = s := by
  apply List.ext_getElem?
  intro i
  by_cases hi : i < s.length
  · have hj : i / 8 < (bitsToBytes o s).length := by rw [bitsToBytes_length]; omega
    have e := bytesToBits_getElem? o (bitsToBytes o s) (i / 8) (i % 8) hj (by omega)
    rw [show 8 * (i / 8) + i % 8 = i by omega] at e
    rw [e]
    have hb : (bitsToBytes o s).getD (i / 8) 0#8 =
        BitVec.ofNat 8 (bitsToInt ((s.drop (8 * (i / 8))).take 8) o) := by
      rw [List.getD_eq_getElem?_getD, List.getElem?_eq_getElem hj]
      simp [bitsToBytes]
    have hl : ((s.drop (8 * (i / 8))).take 8).length = 8 := by simp; omega
    rw [hb, BitVec.getLsbD_ofNat, bitsToInt_testBit _ _ (by simp [fits, hl]), hl,
      List.getElem?_eq_getElem hi]
    cases o with
    | msbFirst =>
      have h7 : 7 - i % 8 < 8 := by omega
      have h8 : 8 - 1 - (7 - i % 8) < 8 := by omega
      simp only [serialIndex, reduceCtorEq, if_false, h7, decide_true, Bool.true_and, if_true,
        BEq.beq]
      rw [List.getElem?_take, if_pos (by simp; omega), List.getElem?_drop]
      simp
      rw [List.getElem?_eq_getElem (by omega)]
      simp; congr 1; omega
    | perByteReversed =>
      have h7 : i % 8 < 8 := by omega
      simp only [serialIndex, if_true, h7, decide_true, Bool.true_and, beq_self_eq_true]
      rw [List.getElem?_take, if_pos (by omega), List.getElem?_drop]
      rw [List.getElem?_eq_getElem (by omega)]
      simp; congr 1; omega
  · have h1 : (bytesToBits o (bitsToBytes o s))[i]? = none := by
      simp [bitsToBytes_length]; omega
    have h2 : s[i]? = none := by simp; omega
    rw [h1, h2]

end Sys2Proof.Machine
end

