-- ==== Sys2Proof/Laws/Sums.lean ====
section
/-! SUPPORT. The checksums and the whitening chain in closed form (41_checksum.md R204, R207, R212, R213). -/

namespace Sys2Proof.Machine

/-! ### The additive checksum -/

theorem csStep_eq (acc : Nat) (b : Byte) (h : acc < 256) : csStep acc b = (acc + 256 - b.toNat) % 256 := by
  have hb := b.isLt
  have h1 : 0x100 ||| acc = 256 + acc := by
    have := Nat.two_pow_add_eq_or_of_lt (i := 8) (b := acc) h 1
    simpa [Nat.or_comm] using this.symm
  have h2 : ∀ n : Nat, n &&& 0xFF = n % 256 := fun n => Nat.and_two_pow_sub_one_eq_mod n 8
  rw [csStep, h1, h2]; congr 1; omega

theorem csFold_spec (f : List Byte) (acc : Nat) (h : acc < 256) :
    f.foldl csStep acc < 256 ∧ ((f.foldl csStep acc : Nat) : Int) = ((acc : Int) - byteSum f) % 256 := by
  induction f generalizing acc with
  | nil => exact ⟨h, by simp [byteSum]; omega⟩
  | cons b t ih =>
    have hb := b.isLt
    have hs := csStep_eq acc b h
    have hlt : csStep acc b < 256 := by omega
    have := ih (csStep acc b) hlt
    refine ⟨this.1, ?_⟩
    simp only [List.foldl_cons, this.2, byteSum, List.map_cons, List.sum_cons]
    omega

/-- `CsB` as a natural number: `(1 - sum) mod 256` (R204). -/
theorem csB_toNat (f : List Byte) : ((csB f).toNat : Int) = (1 - (byteSum f : Int)) % 256 := by
  have := csFold_spec f 1 (by omega)
  simp only [csB, BitVec.toNat_ofNat]
  rw [Nat.mod_eq_of_lt this.1, this.2]; simp

theorem csB_eq_ofInt (f : List Byte) : csB f = BitVec.ofInt 8 (1 - byteSum f) := by
  apply BitVec.eq_of_toNat_eq
  have := csB_toNat f
  simp only [BitVec.toNat_ofInt]
  omega

@[simp] theorem byteSum_nil : byteSum [] = 0 := rfl

@[simp] theorem byteSum_cons (b : Byte) (f : List Byte) : byteSum (b :: f) = b.toNat + byteSum f := rfl

@[simp] theorem byteSum_append (f g : List Byte) : byteSum (f ++ g) = byteSum f + byteSum g := by
  simp [byteSum]

/-- A received checksum byte is right iff the sum of the whole frame is 1 mod 256 (R204). -/
theorem csB_eq_iff (f : List Byte) (b : Byte) : csB f = b ↔ (byteSum f + b.toNat) % 256 = 1 := by
  have h := csB_toNat f
  have hb := b.isLt
  have hc := (csB f).isLt
  constructor
  · intro e; subst e; omega
  · intro e
    apply BitVec.eq_of_toNat_eq; omega

/-! ### The nibble checksum -/

@[simp] theorem nibbleXor_nil : nibbleXor [] = 0#4 := rfl

theorem nibbleXor_cons (b : Byte) (f : List Byte) :
    nibbleXor (b :: f) = b.extractLsb' 4 4 ^^^ b.extractLsb' 0 4 ^^^ nibbleXor f := rfl

theorem nibbleXor_append (f g : List Byte) : nibbleXor (f ++ g) = nibbleXor f ^^^ nibbleXor g := by
  induction f with
  | nil => simp
  | cons b t ih => simp [nibbleXor_cons, ih, BitVec.xor_assoc]

theorem foldStep_low (acc b : Byte) :
    (acc ^^^ b ^^^ (b >>> 4)).setWidth 4 =
      acc.setWidth 4 ^^^ (b.extractLsb' 4 4 ^^^ b.extractLsb' 0 4) := by
  apply BitVec.eq_of_getLsbD_eq
  intro i hi
  simp [hi, show i < 8 by omega, Bool.xor_comm, Bool.xor_left_comm]

theorem foldAcc_low (f : List Byte) (acc : Byte) :
    (f.foldl (fun (acc b : Byte) => acc ^^^ b ^^^ (b >>> 4)) acc).setWidth 4 =
      acc.setWidth 4 ^^^ nibbleXor f := by
  induction f generalizing acc with
  | nil => simp
  | cons b t ih => rw [List.foldl_cons, ih, foldStep_low, nibbleXor_cons]; simp [BitVec.xor_assoc]

/-- `Fold` is the XOR of the high and the low nibble of every byte (R207). -/
theorem fold_eq_nibbleXor (f : List Byte) : fold f = nibbleXor f := by
  simpa [fold, foldAcc] using foldAcc_low f 0#8

/-! ### Whitening -/

theorem obfFrom_length (prev : Byte) (f : List Byte) : (obfFrom prev f).length = f.length := by
  induction f generalizing prev with
  | nil => rfl
  | cons b t ih => simp [obfFrom, ih]

@[simp] theorem obf_length (f : List Byte) : (obf f).length = f.length := by
  cases f <;> simp [obf, obfFrom_length]

theorem deobfFrom_length (prev : Byte) (f : List Byte) : (deobfFrom prev f).length = f.length := by
  induction f generalizing prev with
  | nil => rfl
  | cons b t ih => simp [deobfFrom, ih]

@[simp] theorem deobf_length (f : List Byte) : (deobf f).length = f.length := by
  cases f <;> simp [deobf, deobfFrom_length]

theorem xorUpTo_cons_succ (b : Byte) (f : List Byte) (j : Nat) :
    xorUpTo (b :: f) (j + 1) = b ^^^ xorUpTo f j := rfl

theorem obfFrom_getElem (prev : Byte) (f : List Byte) (j : Nat) (h : j < f.length) :
    (obfFrom prev f)[j]'(by simpa [obfFrom_length] using h) = prev ^^^ xorUpTo f j := by
  induction f generalizing prev j with
  | nil => simp at h
  | cons b t ih =>
    cases j with
    | zero => simp [obfFrom, xorUpTo, BitVec.xor_comm]
    | succ j =>
      simp only [obfFrom, List.getElem_cons_succ]
      rw [ih _ _ (by simpa using h), xorUpTo_cons_succ, BitVec.xor_comm b prev, BitVec.xor_assoc]

/-- Whitened byte `j` is the XOR of plain bytes 0 to `j` (R212). -/
theorem obf_getElem (f : List Byte) (j : Nat) (h : j < f.length) :
    (obf f)[j]'(by simpa using h) = xorUpTo f j := by
  cases f with
  | nil => simp at h
  | cons b t =>
    cases j with
    | zero => simp [obf, xorUpTo]
    | succ j =>
      simp only [obf, List.getElem_cons_succ]
      rw [obfFrom_getElem _ _ _ (by simpa using h), xorUpTo_cons_succ]

theorem deobfFrom_getElem (prev : Byte) (f : List Byte) (j : Nat) (h : j < f.length) :
    (deobfFrom prev f)[j]'(by simpa [deobfFrom_length] using h) =
      f[j] ^^^ (if j = 0 then prev else f.getD (j - 1) 0#8) := by
  induction f generalizing prev j with
  | nil => simp at h
  | cons b t ih =>
    cases j with
    | zero => simp [deobfFrom]
    | succ j =>
      simp only [deobfFrom, List.getElem_cons_succ]
      rw [ih b j (by simpa using h)]
      cases j <;> simp

/-- Plain byte `j` is raw byte `j` XOR the raw byte before it (R213). -/
theorem deobf_getElem (f : List Byte) (j : Nat) (h : j < f.length) :
    (deobf f)[j]'(by simpa using h) = if j = 0 then f[j] else f[j] ^^^ f.getD (j - 1) 0#8 := by
  cases f with
  | nil => simp at h
  | cons b t =>
    cases j with
    | zero => simp [deobf]
    | succ j =>
      simp only [deobf, List.getElem_cons_succ]
      rw [deobfFrom_getElem b t j (by simpa using h)]
      cases j <;> simp

theorem deobfFrom_obfFrom (prev : Byte) (f : List Byte) : deobfFrom prev (obfFrom prev f) = f := by
  induction f generalizing prev with
  | nil => rfl
  | cons b t ih => simp [obfFrom, deobfFrom, ih]

theorem obfFrom_deobfFrom (prev : Byte) (f : List Byte) : obfFrom prev (deobfFrom prev f) = f := by
  induction f generalizing prev with
  | nil => rfl
  | cons b t ih => simp [obfFrom, deobfFrom, ih]

/-- `Deobf(Obf(p)) = p`. -/
theorem deobf_obf (f : List Byte) : deobf (obf f) = f := by
  cases f <;> simp [obf, deobf, deobfFrom_obfFrom]

/-- `Obf(Deobf(w)) = w`. -/
theorem obf_deobf (f : List Byte) : obf (deobf f) = f := by
  cases f <;> simp [obf, deobf, obfFrom_deobfFrom]

/-! ### Nibbles -/

theorem nibbles_eq (hi lo : BitVec 4) : nibbles hi lo = hi ++ lo := by
  apply BitVec.eq_of_getLsbD_eq
  intro i h
  simp only [nibbles, BitVec.getLsbD_or, BitVec.getLsbD_shiftLeft, BitVec.getLsbD_setWidth,
    BitVec.getLsbD_append]
  by_cases h4 : i < 4
  · simp [h4, h]
  · have := lo.getLsbD_of_ge i (by omega)
    simp [h4, h, this, show i - 4 < 8 by omega]

theorem hiNib_eq (b : Byte) : hiNib b = b.extractLsb' 4 4 := by
  apply BitVec.eq_of_getLsbD_eq
  intro i h; simp [hiNib, h]

theorem loNib_eq (b : Byte) : loNib b = b.extractLsb' 0 4 := by
  apply BitVec.eq_of_getLsbD_eq
  intro i h; simp [loNib, h]

@[simp] theorem hiNib_nibbles (hi lo : BitVec 4) : hiNib (nibbles hi lo) = hi := by
  rw [nibbles_eq, hiNib_eq]
  apply BitVec.eq_of_getLsbD_eq
  intro i h
  rw [BitVec.getLsbD_extractLsb', BitVec.getLsbD_append]; simp [h]

@[simp] theorem loNib_nibbles (hi lo : BitVec 4) : loNib (nibbles hi lo) = lo := by
  rw [nibbles_eq, loNib_eq]
  apply BitVec.eq_of_getLsbD_eq
  intro i h
  rw [BitVec.getLsbD_extractLsb', BitVec.getLsbD_append]; simp [h]

@[simp] theorem nibbles_hiNib_loNib (b : Byte) : nibbles (hiNib b) (loNib b) = b := by
  rw [nibbles_eq, hiNib_eq, loNib_eq]
  apply BitVec.eq_of_getLsbD_eq
  intro i h
  simp only [BitVec.getLsbD_append, BitVec.getLsbD_extractLsb']
  by_cases h4 : i < 4
  · simp [h4]
  · simp [h4, show i - 4 < 4 by omega, show 4 + (i - 4) = i by omega]

end Sys2Proof.Machine
end

