-- ==== Sys2Proof/Laws/Bodies.lean ====
section
/-! SUPPORT. What the body of each operation can make of a state when it succeeds, one lemma each, and
`exec` as a body followed by `finish`. -/

namespace Sys2Proof.Machine

/-- A slice write changes the two fields of the buffer, and no cell outside the slice (R83). -/
theorem writeBits_inv {s u a v} (h : State.writeBits a v s = .ok u) :
    ∃ b n, u = { s with bitbuf := b, bitlen := n } ∧
      ∀ k : Fin 80, ¬ (a ≤ k.val ∧ k.val < a + v.length) → b[k.val] = s.bitbuf[k.val] := by
  simp only [State.writeBits] at h; split at h
  · cases h
    refine ⟨_, _, rfl, fun k hk => ?_⟩
    rw [writeAt_getElem _ _ _ _ k.isLt, dif_neg (by omega)]
  · simp at h

theorem i2b_inv {s u} (h : i2bBody s = .ok u) :
    ∃ b n, u = { s with bitbuf := b, bitlen := n } ∧ ∀ k : Fin 80,
      ¬ (s.off.val.toNat ≤ k.val ∧ k.val < s.off.val.toNat + s.wid.val.toNat) →
        b[k.val] = s.bitbuf[k.val] := by
  simp only [i2bBody, bind_eq_ok, Reg.get_eq_ok] at h
  obtain ⟨w, hw, v, _, o, ho, h⟩ := h
  split at h
  · cases h
  split at h
  · cases h
  simp only [bind_eq_ok] at h
  obtain ⟨d, _, h⟩ := h
  split at h
  · cases h
  obtain ⟨b, n, e, hb⟩ := writeBits_inv h
  refine ⟨b, n, e, fun k hk => hb k ?_⟩
  rw [intToBits_length]
  simpa [hw, ho] using hk

theorem b2i_inv {s u} (h : b2iBody s = .ok u) : ∃ r, u = { s with res := r } := by
  simp only [b2iBody, bind_eq_ok] at h
  obtain ⟨_, _, _, _, h⟩ := h
  split at h
  · cases h
  simp only [bind_eq_ok] at h
  obtain ⟨_, _, h⟩ := h
  split at h
  · cases h
  simp only [bind_eq_ok] at h
  obtain ⟨_, _, h⟩ := h
  cases h; exact ⟨_, rfl⟩

theorem bfIns_inv {s u} (h : bfInsBody s = .ok u) : ∃ r, u = { s with res := r } := by
  simp only [bfInsBody, bind_eq_ok] at h
  obtain ⟨_, _, _, _, h⟩ := h
  split at h
  · cases h
  simp only [bind_eq_ok] at h
  obtain ⟨_, _, _, _, h⟩ := h
  cases h; exact ⟨_, rfl⟩

theorem bfExt_inv {s u} (h : bfExtBody s = .ok u) : ∃ r, u = { s with res := r } := by
  simp only [bfExtBody, bind_eq_ok] at h
  obtain ⟨_, _, _, _, h⟩ := h
  split at h
  · cases h
  simp only [bind_eq_ok] at h
  obtain ⟨_, _, h⟩ := h
  cases h; exact ⟨_, rfl⟩

theorem csumAdd_inv {s u} (h : csumAddBody s = .ok u) : ∃ r, u = { s with res := r } := by
  simp only [csumAddBody, bind_eq_ok] at h
  obtain ⟨_, _, h⟩ := h
  cases h; exact ⟨_, rfl⟩

theorem csumXorn_inv {s u} (h : csumXornBody s = .ok u) : ∃ r, u = { s with res := r } := by
  simp only [csumXornBody, bind_eq_ok] at h
  obtain ⟨_, _, h⟩ := h
  cases h; exact ⟨_, rfl⟩

theorem chkAdd_inv {s u} (h : chkAddBody s = .ok u) : ∃ r, u = { s with res := r } := by
  simp only [chkAddBody, bind_eq_ok] at h
  obtain ⟨_, _, h⟩ := h
  split at h
  · cases h
  split at h
  · cases h; exact ⟨_, rfl⟩
  · cases h

theorem chkXorn_inv {s u} (h : chkXornBody s = .ok u) : ∃ r, u = { s with res := r } := by
  simp only [chkXornBody, bind_eq_ok] at h
  obtain ⟨_, _, h⟩ := h
  split at h
  · cases h
  split at h
  · cases h; exact ⟨_, rfl⟩
  · cases h

theorem obf_inv {s u} (h : obfBody s = .ok u) :
    ∃ b, u = { s with bytebuf := b } ∧
      ∀ j : Fin 10, s.bytelen.val ≤ j.val → b[j.val] = s.bytebuf[j.val] := by
  simp only [obfBody, bind_eq_ok] at h
  obtain ⟨f, hf, h⟩ := h
  cases h
  have hl := (State.readBytes_ok_inv hf).1
  refine ⟨_, rfl, fun j hj => ?_⟩
  rw [writeAt_getElem _ _ _ _ j.isLt, dif_neg (by rw [obf_length]; omega)]

theorem deobf_inv {s u} (h : deobfBody s = .ok u) :
    ∃ b, u = { s with bytebuf := b } ∧
      ∀ j : Fin 10, s.bytelen.val ≤ j.val → b[j.val] = s.bytebuf[j.val] := by
  simp only [deobfBody, bind_eq_ok] at h
  obtain ⟨f, hf, h⟩ := h
  cases h
  have hl := (State.readBytes_ok_inv hf).1
  refine ⟨_, rfl, fun j hj => ?_⟩
  rw [writeAt_getElem _ _ _ _ j.isLt, dif_neg (by rw [deobf_length]; omega)]

theorem identB_inv {s u} (h : identBBody s = .ok u) : ∃ r, u = { s with res := r } := by
  simp only [identBBody, bind_eq_ok] at h
  obtain ⟨_, _, h⟩ := h
  split at h
  · cases h
  simp only [bind_eq_ok] at h
  obtain ⟨_, _, h⟩ := h
  cases h; exact ⟨_, rfl⟩

theorem encA_inv {s u} (h : encABody s = .ok u) : ∃ b n, u = { s with bitbuf := b, bitlen := n } := by
  simp only [encABody, bind_eq_ok] at h
  obtain ⟨_, _, _, _, _, _, h⟩ := h
  cases h; exact ⟨_, _, rfl⟩

theorem encB_inv {s u} (h : encBBody s = .ok u) : ∃ b n, u = { s with bitbuf := b, bitlen := n } := by
  simp only [encBBody, bind_eq_ok] at h
  obtain ⟨_, _, _, _, _, _, h⟩ := h
  cases h; exact ⟨_, _, rfl⟩

theorem encC_inv {s u} (h : encCBody s = .ok u) : ∃ b n, u = { s with bitbuf := b, bitlen := n } := by
  simp only [encCBody, bind_eq_ok] at h
  obtain ⟨_, _, _, _, _, _, h⟩ := h
  cases h; exact ⟨_, _, rfl⟩

theorem decA_inv {s u} (h : decABody s = .ok u) : ∃ d, u = s.writeDecoded d := by
  simp only [decABody, bind_eq_ok] at h
  obtain ⟨_, _, d, _, h⟩ := h
  cases h; exact ⟨_, rfl⟩

theorem decB_inv {s u} (h : decBBody s = .ok u) : ∃ d, u = s.writeDecoded d := by
  simp only [decBBody, bind_eq_ok] at h
  obtain ⟨_, _, d, _, h⟩ := h
  cases h; exact ⟨_, rfl⟩

theorem decC_inv {s u} (h : decCBody s = .ok u) : ∃ d, u = s.writeDecoded d := by
  simp only [decCBody, bind_eq_ok] at h
  obtain ⟨_, _, d, _, h⟩ := h
  cases h; exact ⟨_, rfl⟩

theorem xfOut_inv {s u} (h : xfOutBody s = .ok u) : ∃ t, u = s.setActionTag t := by
  simp only [xfOutBody, bind_eq_ok] at h
  obtain ⟨_, _, _, _, _, _, h⟩ := h
  cases h; exact ⟨_, rfl⟩

theorem xfIn_inv {s u} (h : xfInBody s = .ok u) : ∃ t, u = s.setActionTag t := by
  simp only [xfInBody, bind_eq_ok] at h
  obtain ⟨_, _, _, _, _, _, h⟩ := h
  cases h; exact ⟨_, rfl⟩

theorem reqCap_inv {pr s u} (h : reqCapBody pr s = .ok u) : ∃ q, u = s.accept q := by
  simp only [reqCapBody, bind_eq_ok] at h
  obtain ⟨_, _, _, _, _, _, h⟩ := h
  cases h; exact ⟨_, rfl⟩

theorem reqSteps_inv {pr s u} (h : reqStepsBody pr s = .ok u) : ∃ q, u = s.accept q := by
  simp only [reqStepsBody, bind_eq_ok] at h
  obtain ⟨_, _, _, _, _, _, h⟩ := h
  split at h <;> (cases h; exact ⟨_, rfl⟩)

theorem reqMy_inv {pr s u} (h : reqMyBody pr s = .ok u) : ∃ q, u = s.accept q := by
  simp only [reqMyBody, bind_eq_ok] at h
  obtain ⟨_, _, _, _, h⟩ := h
  cases h; exact ⟨_, rfl⟩

theorem reqProg_inv {pr s u} (h : reqProgBody pr s = .ok u) : ∃ q, u = s.accept q := by
  simp only [reqProgBody, bind_eq_ok] at h
  obtain ⟨_, _, _, _, h⟩ := h
  cases h; exact ⟨_, rfl⟩

theorem reqRaw_inv {pr s u} (h : reqRawBody pr s = .ok u) : ∃ q, u = s.accept q := by
  simp only [reqRawBody, bind_eq_ok] at h
  obtain ⟨_, _, _, _, _, _, h⟩ := h
  cases h; exact ⟨_, rfl⟩

theorem rx_inv {p s u} (h : rxBody p s = .ok u) :
    ∃ d c, u = (s.writeDecoded d).emit (.deliver c) := by
  simp only [rxBody, bind_eq_ok] at h
  obtain ⟨_, _, _, _, _, _, _, _, h⟩ := h
  cases h; exact ⟨_, _, rfl⟩

theorem rxOp_inv {pr s u} (h : rxOp pr s = .ok u) :
    ∃ d c, u = (s.writeDecoded d).emit (.deliver c) := by
  simp only [rxOp] at h; split at h
  · simp at h
  · exact rx_inv h

/-- The body of an instruction. -/
def bodyOf : Instr → State → Except Status State
  | .i2b _ => i2bBody
  | .b2i _ => b2iBody
  | .bfIns _ => bfInsBody
  | .bfExt _ => bfExtBody
  | .csumNone => fun s => .ok (s.setRes 0#32)
  | .csumAdd => csumAddBody
  | .csumXorn => csumXornBody
  | .chkNone => fun s => .ok (s.setRes 1#32)
  | .chkAdd => chkAddBody
  | .chkXorn => chkXornBody
  | .obf _ => obfBody
  | .deobf _ => deobfBody
  | .encA => encABody
  | .encB => encBBody
  | .encC => encCBody
  | .decA => decABody
  | .decB => decBBody
  | .decC => decCBody
  | .identB => identBBody
  | .xfOut _ => xfOutBody
  | .xfIn _ => xfInBody
  | .reqCap pr => reqCapBody pr
  | .reqSteps pr => reqStepsBody pr
  | .reqMy pr => reqMyBody pr
  | .reqProg pr => reqProgBody pr
  | .reqRaw pr => reqRawBody pr
  | .rx pr => rxOp pr
  | .frameA _ _ _ => rxBody .a
  | .frameB _ _ _ _ _ => rxBody .b
  | .frameCShort _ _ _ _ _ => rxBody .c
  | .frameCExt _ _ _ _ _ _ _ _ _ => rxBody .c

/-- The state an instruction's body runs on: as it is for a request word, with the payload placed for a
frame row. -/
def startOf (i : Instr) (s : State) : State :=
  match encode i with
  | .opr _ => s
  | .frame p b => s.place p b

/-- Every instruction is its body, run on its starting state and ended by `finish`. -/
theorem exec_eq (i : Instr) (s : State) : exec i s = (startOf i s).finish (bodyOf i (startOf i s)) := by
  cases i <;> rfl

end Sys2Proof.Machine
end

