-- ==== Sys2Proof/Laws/State.lean ====
section
/-! SUPPORT. One lemma per field of the state and per update of it, each true by definition, so that no proof
unfolds a record update. -/

namespace Sys2Proof.Machine
namespace State

variable (s : State)

@[simp] theorem emit_opr (e : Event) : (s.emit e).opr = s.opr := rfl
@[simp] theorem emit_cmd (e : Event) : (s.emit e).cmd = s.cmd := rfl
@[simp] theorem emit_sets (e : Event) : (s.emit e).sets = s.sets := rfl
@[simp] theorem emit_cap (e : Event) : (s.emit e).cap = s.cap := rfl
@[simp] theorem emit_capval (e : Event) : (s.emit e).capval = s.capval := rfl
@[simp] theorem emit_steps (e : Event) : (s.emit e).steps = s.steps := rfl
@[simp] theorem emit_value (e : Event) : (s.emit e).value = s.value := rfl
@[simp] theorem emit_base (e : Event) : (s.emit e).base = s.base := rfl
@[simp] theorem emit_wid (e : Event) : (s.emit e).wid = s.wid := rfl
@[simp] theorem emit_pos (e : Event) : (s.emit e).pos = s.pos := rfl
@[simp] theorem emit_ord (e : Event) : (s.emit e).ord = s.ord := rfl
@[simp] theorem emit_off (e : Event) : (s.emit e).off = s.off := rfl
@[simp] theorem emit_res (e : Event) : (s.emit e).res = s.res := rfl
@[simp] theorem emit_bitbuf (e : Event) : (s.emit e).bitbuf = s.bitbuf := rfl
@[simp] theorem emit_bitlen (e : Event) : (s.emit e).bitlen = s.bitlen := rfl
@[simp] theorem emit_bytebuf (e : Event) : (s.emit e).bytebuf = s.bytebuf := rfl
@[simp] theorem emit_bytelen (e : Event) : (s.emit e).bytelen = s.bytelen := rfl
@[simp] theorem emit_status (e : Event) : (s.emit e).status = s.status := rfl
@[simp] theorem emit_seq (e : Event) : (s.emit e).seq = s.seq := rfl
@[simp] theorem emit_cfg (e : Event) : (s.emit e).cfg = s.cfg := rfl
@[simp] theorem emit_rcc (e : Event) : (s.emit e).rcc = s.rcc := rfl
@[simp] theorem emit_store (e : Event) : (s.emit e).store = s.store := rfl
@[simp] theorem emit_timer (e : Event) : (s.emit e).timer = s.timer := rfl
@[simp] theorem emit_abandoned (e : Event) : (s.emit e).abandoned = s.abandoned := rfl
@[simp] theorem emit_trace (e : Event) : (s.emit e).trace = s.trace ++ [e] := rfl
@[simp] theorem emit_agenda (e : Event) : (s.emit e).agenda = s.agenda := rfl
@[simp] theorem emit_txCalls (e : Event) : (s.emit e).txCalls = s.txCalls := rfl

@[simp] theorem respond_opr (st : Status) : (s.respond st).opr = s.opr := rfl
@[simp] theorem respond_cmd (st : Status) : (s.respond st).cmd = s.cmd := rfl
@[simp] theorem respond_sets (st : Status) : (s.respond st).sets = s.sets := rfl
@[simp] theorem respond_cap (st : Status) : (s.respond st).cap = s.cap := rfl
@[simp] theorem respond_capval (st : Status) : (s.respond st).capval = s.capval := rfl
@[simp] theorem respond_steps (st : Status) : (s.respond st).steps = s.steps := rfl
@[simp] theorem respond_value (st : Status) : (s.respond st).value = s.value := rfl
@[simp] theorem respond_base (st : Status) : (s.respond st).base = s.base := rfl
@[simp] theorem respond_wid (st : Status) : (s.respond st).wid = s.wid := rfl
@[simp] theorem respond_pos (st : Status) : (s.respond st).pos = s.pos := rfl
@[simp] theorem respond_ord (st : Status) : (s.respond st).ord = s.ord := rfl
@[simp] theorem respond_off (st : Status) : (s.respond st).off = s.off := rfl
@[simp] theorem respond_res (st : Status) : (s.respond st).res = s.res := rfl
@[simp] theorem respond_bitbuf (st : Status) : (s.respond st).bitbuf = s.bitbuf := rfl
@[simp] theorem respond_bitlen (st : Status) : (s.respond st).bitlen = s.bitlen := rfl
@[simp] theorem respond_bytebuf (st : Status) : (s.respond st).bytebuf = s.bytebuf := rfl
@[simp] theorem respond_bytelen (st : Status) : (s.respond st).bytelen = s.bytelen := rfl
@[simp] theorem respond_status (st : Status) : (s.respond st).status = { s.status with sc := st, valid := validOf st } := rfl
@[simp] theorem respond_seq (st : Status) : (s.respond st).seq = s.seq := rfl
@[simp] theorem respond_cfg (st : Status) : (s.respond st).cfg = s.cfg := rfl
@[simp] theorem respond_rcc (st : Status) : (s.respond st).rcc = s.rcc := rfl
@[simp] theorem respond_store (st : Status) : (s.respond st).store = s.store := rfl
@[simp] theorem respond_timer (st : Status) : (s.respond st).timer = s.timer := rfl
@[simp] theorem respond_abandoned (st : Status) : (s.respond st).abandoned = s.abandoned := rfl
@[simp] theorem respond_trace (st : Status) : (s.respond st).trace = s.trace ++ [.resp st] := rfl
@[simp] theorem respond_agenda (st : Status) : (s.respond st).agenda = s.agenda := rfl
@[simp] theorem respond_txCalls (st : Status) : (s.respond st).txCalls = s.txCalls := rfl

@[simp] theorem setRes_opr (v : Word) : (s.setRes v).opr = s.opr := rfl
@[simp] theorem setRes_cmd (v : Word) : (s.setRes v).cmd = s.cmd := rfl
@[simp] theorem setRes_sets (v : Word) : (s.setRes v).sets = s.sets := rfl
@[simp] theorem setRes_cap (v : Word) : (s.setRes v).cap = s.cap := rfl
@[simp] theorem setRes_capval (v : Word) : (s.setRes v).capval = s.capval := rfl
@[simp] theorem setRes_steps (v : Word) : (s.setRes v).steps = s.steps := rfl
@[simp] theorem setRes_value (v : Word) : (s.setRes v).value = s.value := rfl
@[simp] theorem setRes_base (v : Word) : (s.setRes v).base = s.base := rfl
@[simp] theorem setRes_wid (v : Word) : (s.setRes v).wid = s.wid := rfl
@[simp] theorem setRes_pos (v : Word) : (s.setRes v).pos = s.pos := rfl
@[simp] theorem setRes_ord (v : Word) : (s.setRes v).ord = s.ord := rfl
@[simp] theorem setRes_off (v : Word) : (s.setRes v).off = s.off := rfl
@[simp] theorem setRes_res (v : Word) : (s.setRes v).res = v := rfl
@[simp] theorem setRes_bitbuf (v : Word) : (s.setRes v).bitbuf = s.bitbuf := rfl
@[simp] theorem setRes_bitlen (v : Word) : (s.setRes v).bitlen = s.bitlen := rfl
@[simp] theorem setRes_bytebuf (v : Word) : (s.setRes v).bytebuf = s.bytebuf := rfl
@[simp] theorem setRes_bytelen (v : Word) : (s.setRes v).bytelen = s.bytelen := rfl
@[simp] theorem setRes_status (v : Word) : (s.setRes v).status = s.status := rfl
@[simp] theorem setRes_seq (v : Word) : (s.setRes v).seq = s.seq := rfl
@[simp] theorem setRes_cfg (v : Word) : (s.setRes v).cfg = s.cfg := rfl
@[simp] theorem setRes_rcc (v : Word) : (s.setRes v).rcc = s.rcc := rfl
@[simp] theorem setRes_store (v : Word) : (s.setRes v).store = s.store := rfl
@[simp] theorem setRes_timer (v : Word) : (s.setRes v).timer = s.timer := rfl
@[simp] theorem setRes_abandoned (v : Word) : (s.setRes v).abandoned = s.abandoned := rfl
@[simp] theorem setRes_trace (v : Word) : (s.setRes v).trace = s.trace := rfl
@[simp] theorem setRes_agenda (v : Word) : (s.setRes v).agenda = s.agenda := rfl
@[simp] theorem setRes_txCalls (v : Word) : (s.setRes v).txCalls = s.txCalls := rfl

@[simp] theorem putBits_opr (v : Bits) : (s.putBits v).opr = s.opr := rfl
@[simp] theorem putBits_cmd (v : Bits) : (s.putBits v).cmd = s.cmd := rfl
@[simp] theorem putBits_sets (v : Bits) : (s.putBits v).sets = s.sets := rfl
@[simp] theorem putBits_cap (v : Bits) : (s.putBits v).cap = s.cap := rfl
@[simp] theorem putBits_capval (v : Bits) : (s.putBits v).capval = s.capval := rfl
@[simp] theorem putBits_steps (v : Bits) : (s.putBits v).steps = s.steps := rfl
@[simp] theorem putBits_value (v : Bits) : (s.putBits v).value = s.value := rfl
@[simp] theorem putBits_base (v : Bits) : (s.putBits v).base = s.base := rfl
@[simp] theorem putBits_wid (v : Bits) : (s.putBits v).wid = s.wid := rfl
@[simp] theorem putBits_pos (v : Bits) : (s.putBits v).pos = s.pos := rfl
@[simp] theorem putBits_ord (v : Bits) : (s.putBits v).ord = s.ord := rfl
@[simp] theorem putBits_off (v : Bits) : (s.putBits v).off = s.off := rfl
@[simp] theorem putBits_res (v : Bits) : (s.putBits v).res = s.res := rfl
@[simp] theorem putBits_bitbuf (v : Bits) : (s.putBits v).bitbuf = truncAt (writeAt s.bitbuf 0 v) v.length := rfl
@[simp] theorem putBits_bitlen (v : Bits) : (s.putBits v).bitlen = ⟨min v.length 80, by omega⟩ := rfl
@[simp] theorem putBits_bytebuf (v : Bits) : (s.putBits v).bytebuf = s.bytebuf := rfl
@[simp] theorem putBits_bytelen (v : Bits) : (s.putBits v).bytelen = s.bytelen := rfl
@[simp] theorem putBits_status (v : Bits) : (s.putBits v).status = s.status := rfl
@[simp] theorem putBits_seq (v : Bits) : (s.putBits v).seq = s.seq := rfl
@[simp] theorem putBits_cfg (v : Bits) : (s.putBits v).cfg = s.cfg := rfl
@[simp] theorem putBits_rcc (v : Bits) : (s.putBits v).rcc = s.rcc := rfl
@[simp] theorem putBits_store (v : Bits) : (s.putBits v).store = s.store := rfl
@[simp] theorem putBits_timer (v : Bits) : (s.putBits v).timer = s.timer := rfl
@[simp] theorem putBits_abandoned (v : Bits) : (s.putBits v).abandoned = s.abandoned := rfl
@[simp] theorem putBits_trace (v : Bits) : (s.putBits v).trace = s.trace := rfl
@[simp] theorem putBits_agenda (v : Bits) : (s.putBits v).agenda = s.agenda := rfl
@[simp] theorem putBits_txCalls (v : Bits) : (s.putBits v).txCalls = s.txCalls := rfl

@[simp] theorem putBytes_opr (f : List Byte) : (s.putBytes f).opr = s.opr := rfl
@[simp] theorem putBytes_cmd (f : List Byte) : (s.putBytes f).cmd = s.cmd := rfl
@[simp] theorem putBytes_sets (f : List Byte) : (s.putBytes f).sets = s.sets := rfl
@[simp] theorem putBytes_cap (f : List Byte) : (s.putBytes f).cap = s.cap := rfl
@[simp] theorem putBytes_capval (f : List Byte) : (s.putBytes f).capval = s.capval := rfl
@[simp] theorem putBytes_steps (f : List Byte) : (s.putBytes f).steps = s.steps := rfl
@[simp] theorem putBytes_value (f : List Byte) : (s.putBytes f).value = s.value := rfl
@[simp] theorem putBytes_base (f : List Byte) : (s.putBytes f).base = s.base := rfl
@[simp] theorem putBytes_wid (f : List Byte) : (s.putBytes f).wid = s.wid := rfl
@[simp] theorem putBytes_pos (f : List Byte) : (s.putBytes f).pos = s.pos := rfl
@[simp] theorem putBytes_ord (f : List Byte) : (s.putBytes f).ord = s.ord := rfl
@[simp] theorem putBytes_off (f : List Byte) : (s.putBytes f).off = s.off := rfl
@[simp] theorem putBytes_res (f : List Byte) : (s.putBytes f).res = s.res := rfl
@[simp] theorem putBytes_bitbuf (f : List Byte) : (s.putBytes f).bitbuf = s.bitbuf := rfl
@[simp] theorem putBytes_bitlen (f : List Byte) : (s.putBytes f).bitlen = s.bitlen := rfl
@[simp] theorem putBytes_bytebuf (f : List Byte) : (s.putBytes f).bytebuf = writeAt s.bytebuf 0 f := rfl
@[simp] theorem putBytes_bytelen (f : List Byte) : (s.putBytes f).bytelen = s.bytelen := rfl
@[simp] theorem putBytes_status (f : List Byte) : (s.putBytes f).status = s.status := rfl
@[simp] theorem putBytes_seq (f : List Byte) : (s.putBytes f).seq = s.seq := rfl
@[simp] theorem putBytes_cfg (f : List Byte) : (s.putBytes f).cfg = s.cfg := rfl
@[simp] theorem putBytes_rcc (f : List Byte) : (s.putBytes f).rcc = s.rcc := rfl
@[simp] theorem putBytes_store (f : List Byte) : (s.putBytes f).store = s.store := rfl
@[simp] theorem putBytes_timer (f : List Byte) : (s.putBytes f).timer = s.timer := rfl
@[simp] theorem putBytes_abandoned (f : List Byte) : (s.putBytes f).abandoned = s.abandoned := rfl
@[simp] theorem putBytes_trace (f : List Byte) : (s.putBytes f).trace = s.trace := rfl
@[simp] theorem putBytes_agenda (f : List Byte) : (s.putBytes f).agenda = s.agenda := rfl
@[simp] theorem putBytes_txCalls (f : List Byte) : (s.putBytes f).txCalls = s.txCalls := rfl

@[simp] theorem accept_opr (q : Seq) : (s.accept q).opr = s.opr := rfl
@[simp] theorem accept_cmd (q : Seq) : (s.accept q).cmd = s.cmd := rfl
@[simp] theorem accept_sets (q : Seq) : (s.accept q).sets = s.sets := rfl
@[simp] theorem accept_cap (q : Seq) : (s.accept q).cap = s.cap := rfl
@[simp] theorem accept_capval (q : Seq) : (s.accept q).capval = s.capval := rfl
@[simp] theorem accept_steps (q : Seq) : (s.accept q).steps = s.steps := rfl
@[simp] theorem accept_value (q : Seq) : (s.accept q).value = s.value := rfl
@[simp] theorem accept_base (q : Seq) : (s.accept q).base = s.base := rfl
@[simp] theorem accept_wid (q : Seq) : (s.accept q).wid = s.wid := rfl
@[simp] theorem accept_pos (q : Seq) : (s.accept q).pos = s.pos := rfl
@[simp] theorem accept_ord (q : Seq) : (s.accept q).ord = s.ord := rfl
@[simp] theorem accept_off (q : Seq) : (s.accept q).off = s.off := rfl
@[simp] theorem accept_res (q : Seq) : (s.accept q).res = s.res := rfl
@[simp] theorem accept_bitbuf (q : Seq) : (s.accept q).bitbuf = s.bitbuf := rfl
@[simp] theorem accept_bitlen (q : Seq) : (s.accept q).bitlen = s.bitlen := rfl
@[simp] theorem accept_bytebuf (q : Seq) : (s.accept q).bytebuf = s.bytebuf := rfl
@[simp] theorem accept_bytelen (q : Seq) : (s.accept q).bytelen = s.bytelen := rfl
@[simp] theorem accept_status (q : Seq) : (s.accept q).status = { s.status with txfail := false } := rfl
@[simp] theorem accept_seq (q : Seq) : (s.accept q).seq = q := rfl
@[simp] theorem accept_cfg (q : Seq) : (s.accept q).cfg = s.cfg := rfl
@[simp] theorem accept_rcc (q : Seq) : (s.accept q).rcc = s.rcc := rfl
@[simp] theorem accept_store (q : Seq) : (s.accept q).store = s.store := rfl
@[simp] theorem accept_timer (q : Seq) : (s.accept q).timer = s.timer := rfl
@[simp] theorem accept_abandoned (q : Seq) : (s.accept q).abandoned = s.abandoned := rfl
@[simp] theorem accept_trace (q : Seq) : (s.accept q).trace = s.trace := rfl
@[simp] theorem accept_agenda (q : Seq) : (s.accept q).agenda = s.agenda := rfl
@[simp] theorem accept_txCalls (q : Seq) : (s.accept q).txCalls = s.txCalls := rfl

@[simp] theorem goIdle_opr : (s.goIdle).opr = s.opr := rfl
@[simp] theorem goIdle_cmd : (s.goIdle).cmd = s.cmd := rfl
@[simp] theorem goIdle_sets : (s.goIdle).sets = s.sets := rfl
@[simp] theorem goIdle_cap : (s.goIdle).cap = s.cap := rfl
@[simp] theorem goIdle_capval : (s.goIdle).capval = s.capval := rfl
@[simp] theorem goIdle_steps : (s.goIdle).steps = s.steps := rfl
@[simp] theorem goIdle_value : (s.goIdle).value = s.value := rfl
@[simp] theorem goIdle_base : (s.goIdle).base = s.base := rfl
@[simp] theorem goIdle_wid : (s.goIdle).wid = s.wid := rfl
@[simp] theorem goIdle_pos : (s.goIdle).pos = s.pos := rfl
@[simp] theorem goIdle_ord : (s.goIdle).ord = s.ord := rfl
@[simp] theorem goIdle_off : (s.goIdle).off = s.off := rfl
@[simp] theorem goIdle_res : (s.goIdle).res = s.res := rfl
@[simp] theorem goIdle_bitbuf : (s.goIdle).bitbuf = s.bitbuf := rfl
@[simp] theorem goIdle_bitlen : (s.goIdle).bitlen = s.bitlen := rfl
@[simp] theorem goIdle_bytebuf : (s.goIdle).bytebuf = s.bytebuf := rfl
@[simp] theorem goIdle_bytelen : (s.goIdle).bytelen = s.bytelen := rfl
@[simp] theorem goIdle_status : (s.goIdle).status = s.status := rfl
@[simp] theorem goIdle_seq : (s.goIdle).seq = { s.seq with st := .idle } := rfl
@[simp] theorem goIdle_cfg : (s.goIdle).cfg = s.cfg := rfl
@[simp] theorem goIdle_rcc : (s.goIdle).rcc = s.rcc := rfl
@[simp] theorem goIdle_store : (s.goIdle).store = s.store := rfl
@[simp] theorem goIdle_timer : (s.goIdle).timer = s.timer := rfl
@[simp] theorem goIdle_abandoned : (s.goIdle).abandoned = s.abandoned := rfl
@[simp] theorem goIdle_trace : (s.goIdle).trace = s.trace := rfl
@[simp] theorem goIdle_agenda : (s.goIdle).agenda = s.agenda := rfl
@[simp] theorem goIdle_txCalls : (s.goIdle).txCalls = s.txCalls := rfl

@[simp] theorem setPhase_opr (v : BitVec 2) : (s.setPhase v).opr = s.opr := rfl
@[simp] theorem setPhase_cmd (v : BitVec 2) : (s.setPhase v).cmd = s.cmd := rfl
@[simp] theorem setPhase_sets (v : BitVec 2) : (s.setPhase v).sets = s.sets := rfl
@[simp] theorem setPhase_cap (v : BitVec 2) : (s.setPhase v).cap = s.cap := rfl
@[simp] theorem setPhase_capval (v : BitVec 2) : (s.setPhase v).capval = s.capval := rfl
@[simp] theorem setPhase_steps (v : BitVec 2) : (s.setPhase v).steps = s.steps := rfl
@[simp] theorem setPhase_value (v : BitVec 2) : (s.setPhase v).value = s.value := rfl
@[simp] theorem setPhase_base (v : BitVec 2) : (s.setPhase v).base = s.base := rfl
@[simp] theorem setPhase_wid (v : BitVec 2) : (s.setPhase v).wid = s.wid := rfl
@[simp] theorem setPhase_pos (v : BitVec 2) : (s.setPhase v).pos = s.pos := rfl
@[simp] theorem setPhase_ord (v : BitVec 2) : (s.setPhase v).ord = s.ord := rfl
@[simp] theorem setPhase_off (v : BitVec 2) : (s.setPhase v).off = s.off := rfl
@[simp] theorem setPhase_res (v : BitVec 2) : (s.setPhase v).res = s.res := rfl
@[simp] theorem setPhase_bitbuf (v : BitVec 2) : (s.setPhase v).bitbuf = s.bitbuf := rfl
@[simp] theorem setPhase_bitlen (v : BitVec 2) : (s.setPhase v).bitlen = s.bitlen := rfl
@[simp] theorem setPhase_bytebuf (v : BitVec 2) : (s.setPhase v).bytebuf = s.bytebuf := rfl
@[simp] theorem setPhase_bytelen (v : BitVec 2) : (s.setPhase v).bytelen = s.bytelen := rfl
@[simp] theorem setPhase_status (v : BitVec 2) : (s.setPhase v).status = s.status := rfl
@[simp] theorem setPhase_seq (v : BitVec 2) : (s.setPhase v).seq = { s.seq with ph := v } := rfl
@[simp] theorem setPhase_cfg (v : BitVec 2) : (s.setPhase v).cfg = s.cfg := rfl
@[simp] theorem setPhase_rcc (v : BitVec 2) : (s.setPhase v).rcc = s.rcc := rfl
@[simp] theorem setPhase_store (v : BitVec 2) : (s.setPhase v).store = s.store := rfl
@[simp] theorem setPhase_timer (v : BitVec 2) : (s.setPhase v).timer = s.timer := rfl
@[simp] theorem setPhase_abandoned (v : BitVec 2) : (s.setPhase v).abandoned = s.abandoned := rfl
@[simp] theorem setPhase_trace (v : BitVec 2) : (s.setPhase v).trace = s.trace := rfl
@[simp] theorem setPhase_agenda (v : BitVec 2) : (s.setPhase v).agenda = s.agenda := rfl
@[simp] theorem setPhase_txCalls (v : BitVec 2) : (s.setPhase v).txCalls = s.txCalls := rfl

@[simp] theorem setRem_opr (v : BitVec 8) : (s.setRem v).opr = s.opr := rfl
@[simp] theorem setRem_cmd (v : BitVec 8) : (s.setRem v).cmd = s.cmd := rfl
@[simp] theorem setRem_sets (v : BitVec 8) : (s.setRem v).sets = s.sets := rfl
@[simp] theorem setRem_cap (v : BitVec 8) : (s.setRem v).cap = s.cap := rfl
@[simp] theorem setRem_capval (v : BitVec 8) : (s.setRem v).capval = s.capval := rfl
@[simp] theorem setRem_steps (v : BitVec 8) : (s.setRem v).steps = s.steps := rfl
@[simp] theorem setRem_value (v : BitVec 8) : (s.setRem v).value = s.value := rfl
@[simp] theorem setRem_base (v : BitVec 8) : (s.setRem v).base = s.base := rfl
@[simp] theorem setRem_wid (v : BitVec 8) : (s.setRem v).wid = s.wid := rfl
@[simp] theorem setRem_pos (v : BitVec 8) : (s.setRem v).pos = s.pos := rfl
@[simp] theorem setRem_ord (v : BitVec 8) : (s.setRem v).ord = s.ord := rfl
@[simp] theorem setRem_off (v : BitVec 8) : (s.setRem v).off = s.off := rfl
@[simp] theorem setRem_res (v : BitVec 8) : (s.setRem v).res = s.res := rfl
@[simp] theorem setRem_bitbuf (v : BitVec 8) : (s.setRem v).bitbuf = s.bitbuf := rfl
@[simp] theorem setRem_bitlen (v : BitVec 8) : (s.setRem v).bitlen = s.bitlen := rfl
@[simp] theorem setRem_bytebuf (v : BitVec 8) : (s.setRem v).bytebuf = s.bytebuf := rfl
@[simp] theorem setRem_bytelen (v : BitVec 8) : (s.setRem v).bytelen = s.bytelen := rfl
@[simp] theorem setRem_status (v : BitVec 8) : (s.setRem v).status = s.status := rfl
@[simp] theorem setRem_seq (v : BitVec 8) : (s.setRem v).seq = { s.seq with rem := v } := rfl
@[simp] theorem setRem_cfg (v : BitVec 8) : (s.setRem v).cfg = s.cfg := rfl
@[simp] theorem setRem_rcc (v : BitVec 8) : (s.setRem v).rcc = s.rcc := rfl
@[simp] theorem setRem_store (v : BitVec 8) : (s.setRem v).store = s.store := rfl
@[simp] theorem setRem_timer (v : BitVec 8) : (s.setRem v).timer = s.timer := rfl
@[simp] theorem setRem_abandoned (v : BitVec 8) : (s.setRem v).abandoned = s.abandoned := rfl
@[simp] theorem setRem_trace (v : BitVec 8) : (s.setRem v).trace = s.trace := rfl
@[simp] theorem setRem_agenda (v : BitVec 8) : (s.setRem v).agenda = s.agenda := rfl
@[simp] theorem setRem_txCalls (v : BitVec 8) : (s.setRem v).txCalls = s.txCalls := rfl

@[simp] theorem armTimer_opr (ms : BitVec 16) : (s.armTimer ms).opr = s.opr := rfl
@[simp] theorem armTimer_cmd (ms : BitVec 16) : (s.armTimer ms).cmd = s.cmd := rfl
@[simp] theorem armTimer_sets (ms : BitVec 16) : (s.armTimer ms).sets = s.sets := rfl
@[simp] theorem armTimer_cap (ms : BitVec 16) : (s.armTimer ms).cap = s.cap := rfl
@[simp] theorem armTimer_capval (ms : BitVec 16) : (s.armTimer ms).capval = s.capval := rfl
@[simp] theorem armTimer_steps (ms : BitVec 16) : (s.armTimer ms).steps = s.steps := rfl
@[simp] theorem armTimer_value (ms : BitVec 16) : (s.armTimer ms).value = s.value := rfl
@[simp] theorem armTimer_base (ms : BitVec 16) : (s.armTimer ms).base = s.base := rfl
@[simp] theorem armTimer_wid (ms : BitVec 16) : (s.armTimer ms).wid = s.wid := rfl
@[simp] theorem armTimer_pos (ms : BitVec 16) : (s.armTimer ms).pos = s.pos := rfl
@[simp] theorem armTimer_ord (ms : BitVec 16) : (s.armTimer ms).ord = s.ord := rfl
@[simp] theorem armTimer_off (ms : BitVec 16) : (s.armTimer ms).off = s.off := rfl
@[simp] theorem armTimer_res (ms : BitVec 16) : (s.armTimer ms).res = s.res := rfl
@[simp] theorem armTimer_bitbuf (ms : BitVec 16) : (s.armTimer ms).bitbuf = s.bitbuf := rfl
@[simp] theorem armTimer_bitlen (ms : BitVec 16) : (s.armTimer ms).bitlen = s.bitlen := rfl
@[simp] theorem armTimer_bytebuf (ms : BitVec 16) : (s.armTimer ms).bytebuf = s.bytebuf := rfl
@[simp] theorem armTimer_bytelen (ms : BitVec 16) : (s.armTimer ms).bytelen = s.bytelen := rfl
@[simp] theorem armTimer_status (ms : BitVec 16) : (s.armTimer ms).status = s.status := rfl
@[simp] theorem armTimer_seq (ms : BitVec 16) : (s.armTimer ms).seq = { s.seq with st := .waiting, waitms := ms } := rfl
@[simp] theorem armTimer_cfg (ms : BitVec 16) : (s.armTimer ms).cfg = s.cfg := rfl
@[simp] theorem armTimer_rcc (ms : BitVec 16) : (s.armTimer ms).rcc = s.rcc := rfl
@[simp] theorem armTimer_store (ms : BitVec 16) : (s.armTimer ms).store = s.store := rfl
@[simp] theorem armTimer_timer (ms : BitVec 16) : (s.armTimer ms).timer = some ms := rfl
@[simp] theorem armTimer_abandoned (ms : BitVec 16) : (s.armTimer ms).abandoned = s.abandoned := rfl
@[simp] theorem armTimer_trace (ms : BitVec 16) : (s.armTimer ms).trace = s.trace ++ [.wait ms] := rfl
@[simp] theorem armTimer_agenda (ms : BitVec 16) : (s.armTimer ms).agenda = s.agenda := rfl
@[simp] theorem armTimer_txCalls (ms : BitVec 16) : (s.armTimer ms).txCalls = s.txCalls := rfl

@[simp] theorem timerReports_opr : (s.timerReports).opr = s.opr := rfl
@[simp] theorem timerReports_cmd : (s.timerReports).cmd = s.cmd := rfl
@[simp] theorem timerReports_sets : (s.timerReports).sets = s.sets := rfl
@[simp] theorem timerReports_cap : (s.timerReports).cap = s.cap := rfl
@[simp] theorem timerReports_capval : (s.timerReports).capval = s.capval := rfl
@[simp] theorem timerReports_steps : (s.timerReports).steps = s.steps := rfl
@[simp] theorem timerReports_value : (s.timerReports).value = s.value := rfl
@[simp] theorem timerReports_base : (s.timerReports).base = s.base := rfl
@[simp] theorem timerReports_wid : (s.timerReports).wid = s.wid := rfl
@[simp] theorem timerReports_pos : (s.timerReports).pos = s.pos := rfl
@[simp] theorem timerReports_ord : (s.timerReports).ord = s.ord := rfl
@[simp] theorem timerReports_off : (s.timerReports).off = s.off := rfl
@[simp] theorem timerReports_res : (s.timerReports).res = s.res := rfl
@[simp] theorem timerReports_bitbuf : (s.timerReports).bitbuf = s.bitbuf := rfl
@[simp] theorem timerReports_bitlen : (s.timerReports).bitlen = s.bitlen := rfl
@[simp] theorem timerReports_bytebuf : (s.timerReports).bytebuf = s.bytebuf := rfl
@[simp] theorem timerReports_bytelen : (s.timerReports).bytelen = s.bytelen := rfl
@[simp] theorem timerReports_status : (s.timerReports).status = s.status := rfl
@[simp] theorem timerReports_seq : (s.timerReports).seq = s.seq := rfl
@[simp] theorem timerReports_cfg : (s.timerReports).cfg = s.cfg := rfl
@[simp] theorem timerReports_rcc : (s.timerReports).rcc = s.rcc := rfl
@[simp] theorem timerReports_store : (s.timerReports).store = s.store := rfl
@[simp] theorem timerReports_timer : (s.timerReports).timer = none := rfl
@[simp] theorem timerReports_abandoned : (s.timerReports).abandoned = s.abandoned := rfl
@[simp] theorem timerReports_trace : (s.timerReports).trace = s.trace ++ [.expire] := rfl
@[simp] theorem timerReports_agenda : (s.timerReports).agenda = s.agenda := rfl
@[simp] theorem timerReports_txCalls : (s.timerReports).txCalls = s.txCalls := rfl

@[simp] theorem transmit_opr (bits : Bits) (reps : BitVec 8) (fails : Bool) : (s.transmit bits reps fails).opr = s.opr := rfl
@[simp] theorem transmit_cmd (bits : Bits) (reps : BitVec 8) (fails : Bool) : (s.transmit bits reps fails).cmd = s.cmd := rfl
@[simp] theorem transmit_sets (bits : Bits) (reps : BitVec 8) (fails : Bool) : (s.transmit bits reps fails).sets = s.sets := rfl
@[simp] theorem transmit_cap (bits : Bits) (reps : BitVec 8) (fails : Bool) : (s.transmit bits reps fails).cap = s.cap := rfl
@[simp] theorem transmit_capval (bits : Bits) (reps : BitVec 8) (fails : Bool) : (s.transmit bits reps fails).capval = s.capval := rfl
@[simp] theorem transmit_steps (bits : Bits) (reps : BitVec 8) (fails : Bool) : (s.transmit bits reps fails).steps = s.steps := rfl
@[simp] theorem transmit_value (bits : Bits) (reps : BitVec 8) (fails : Bool) : (s.transmit bits reps fails).value = s.value := rfl
@[simp] theorem transmit_base (bits : Bits) (reps : BitVec 8) (fails : Bool) : (s.transmit bits reps fails).base = s.base := rfl
@[simp] theorem transmit_wid (bits : Bits) (reps : BitVec 8) (fails : Bool) : (s.transmit bits reps fails).wid = s.wid := rfl
@[simp] theorem transmit_pos (bits : Bits) (reps : BitVec 8) (fails : Bool) : (s.transmit bits reps fails).pos = s.pos := rfl
@[simp] theorem transmit_ord (bits : Bits) (reps : BitVec 8) (fails : Bool) : (s.transmit bits reps fails).ord = s.ord := rfl
@[simp] theorem transmit_off (bits : Bits) (reps : BitVec 8) (fails : Bool) : (s.transmit bits reps fails).off = s.off := rfl
@[simp] theorem transmit_res (bits : Bits) (reps : BitVec 8) (fails : Bool) : (s.transmit bits reps fails).res = s.res := rfl
@[simp] theorem transmit_bitbuf (bits : Bits) (reps : BitVec 8) (fails : Bool) : (s.transmit bits reps fails).bitbuf = s.bitbuf := rfl
@[simp] theorem transmit_bitlen (bits : Bits) (reps : BitVec 8) (fails : Bool) : (s.transmit bits reps fails).bitlen = s.bitlen := rfl
@[simp] theorem transmit_bytebuf (bits : Bits) (reps : BitVec 8) (fails : Bool) : (s.transmit bits reps fails).bytebuf = s.bytebuf := rfl
@[simp] theorem transmit_bytelen (bits : Bits) (reps : BitVec 8) (fails : Bool) : (s.transmit bits reps fails).bytelen = s.bytelen := rfl
@[simp] theorem transmit_status (bits : Bits) (reps : BitVec 8) (fails : Bool) : (s.transmit bits reps fails).status = { s.status with txfail := s.status.txfail || fails } := rfl
@[simp] theorem transmit_seq (bits : Bits) (reps : BitVec 8) (fails : Bool) : (s.transmit bits reps fails).seq = s.seq := rfl
@[simp] theorem transmit_cfg (bits : Bits) (reps : BitVec 8) (fails : Bool) : (s.transmit bits reps fails).cfg = s.cfg := rfl
@[simp] theorem transmit_rcc (bits : Bits) (reps : BitVec 8) (fails : Bool) : (s.transmit bits reps fails).rcc = s.rcc := rfl
@[simp] theorem transmit_store (bits : Bits) (reps : BitVec 8) (fails : Bool) : (s.transmit bits reps fails).store = s.store := rfl
@[simp] theorem transmit_timer (bits : Bits) (reps : BitVec 8) (fails : Bool) : (s.transmit bits reps fails).timer = s.timer := rfl
@[simp] theorem transmit_abandoned (bits : Bits) (reps : BitVec 8) (fails : Bool) : (s.transmit bits reps fails).abandoned = s.abandoned := rfl
@[simp] theorem transmit_trace (bits : Bits) (reps : BitVec 8) (fails : Bool) : (s.transmit bits reps fails).trace = s.trace ++ (.transmit bits reps :: if fails then [.txFail] else []) := rfl
@[simp] theorem transmit_agenda (bits : Bits) (reps : BitVec 8) (fails : Bool) : (s.transmit bits reps fails).agenda = s.agenda := rfl
@[simp] theorem transmit_txCalls (bits : Bits) (reps : BitVec 8) (fails : Bool) : (s.transmit bits reps fails).txCalls = s.txCalls + 1 := rfl

@[simp] theorem bumpRcc_opr : (s.bumpRcc).opr = s.opr := rfl
@[simp] theorem bumpRcc_cmd : (s.bumpRcc).cmd = s.cmd := rfl
@[simp] theorem bumpRcc_sets : (s.bumpRcc).sets = s.sets := rfl
@[simp] theorem bumpRcc_cap : (s.bumpRcc).cap = s.cap := rfl
@[simp] theorem bumpRcc_capval : (s.bumpRcc).capval = s.capval := rfl
@[simp] theorem bumpRcc_steps : (s.bumpRcc).steps = s.steps := rfl
@[simp] theorem bumpRcc_value : (s.bumpRcc).value = s.value := rfl
@[simp] theorem bumpRcc_base : (s.bumpRcc).base = s.base := rfl
@[simp] theorem bumpRcc_wid : (s.bumpRcc).wid = s.wid := rfl
@[simp] theorem bumpRcc_pos : (s.bumpRcc).pos = s.pos := rfl
@[simp] theorem bumpRcc_ord : (s.bumpRcc).ord = s.ord := rfl
@[simp] theorem bumpRcc_off : (s.bumpRcc).off = s.off := rfl
@[simp] theorem bumpRcc_res : (s.bumpRcc).res = s.res := rfl
@[simp] theorem bumpRcc_bitbuf : (s.bumpRcc).bitbuf = s.bitbuf := rfl
@[simp] theorem bumpRcc_bitlen : (s.bumpRcc).bitlen = s.bitlen := rfl
@[simp] theorem bumpRcc_bytebuf : (s.bumpRcc).bytebuf = s.bytebuf := rfl
@[simp] theorem bumpRcc_bytelen : (s.bumpRcc).bytelen = s.bytelen := rfl
@[simp] theorem bumpRcc_status : (s.bumpRcc).status = s.status := rfl
@[simp] theorem bumpRcc_seq : (s.bumpRcc).seq = s.seq := rfl
@[simp] theorem bumpRcc_cfg : (s.bumpRcc).cfg = s.cfg := rfl
@[simp] theorem bumpRcc_rcc : (s.bumpRcc).rcc = s.rcc + 1#16 := rfl
@[simp] theorem bumpRcc_store : (s.bumpRcc).store = s.store := rfl
@[simp] theorem bumpRcc_timer : (s.bumpRcc).timer = s.timer := rfl
@[simp] theorem bumpRcc_abandoned : (s.bumpRcc).abandoned = s.abandoned := rfl
@[simp] theorem bumpRcc_trace : (s.bumpRcc).trace = s.trace ++ [.rcGet s.rcc, .rcSet (s.rcc + 1#16)] := rfl
@[simp] theorem bumpRcc_agenda : (s.bumpRcc).agenda = s.agenda := rfl
@[simp] theorem bumpRcc_txCalls : (s.bumpRcc).txCalls = s.txCalls := rfl

@[simp] theorem writeDecoded_opr (d : Decoded) : (s.writeDecoded d).opr = s.opr := rfl
@[simp] theorem writeDecoded_cmd (d : Decoded) : (s.writeDecoded d).cmd = cmdRegsOf d.cmd := rfl
@[simp] theorem writeDecoded_sets (d : Decoded) : (s.writeDecoded d).sets = s.sets := rfl
@[simp] theorem writeDecoded_cap (d : Decoded) : (s.writeDecoded d).cap = s.cap := rfl
@[simp] theorem writeDecoded_capval (d : Decoded) : (s.writeDecoded d).capval = s.capval := rfl
@[simp] theorem writeDecoded_steps (d : Decoded) : (s.writeDecoded d).steps = s.steps := rfl
@[simp] theorem writeDecoded_value (d : Decoded) : (s.writeDecoded d).value = s.value := rfl
@[simp] theorem writeDecoded_base (d : Decoded) : (s.writeDecoded d).base = s.base := rfl
@[simp] theorem writeDecoded_wid (d : Decoded) : (s.writeDecoded d).wid = s.wid := rfl
@[simp] theorem writeDecoded_pos (d : Decoded) : (s.writeDecoded d).pos = s.pos := rfl
@[simp] theorem writeDecoded_ord (d : Decoded) : (s.writeDecoded d).ord = s.ord := rfl
@[simp] theorem writeDecoded_off (d : Decoded) : (s.writeDecoded d).off = s.off := rfl
@[simp] theorem writeDecoded_res (d : Decoded) : (s.writeDecoded d).res = s.res := rfl
@[simp] theorem writeDecoded_bitbuf (d : Decoded) : (s.writeDecoded d).bitbuf = s.bitbuf := rfl
@[simp] theorem writeDecoded_bitlen (d : Decoded) : (s.writeDecoded d).bitlen = s.bitlen := rfl
@[simp] theorem writeDecoded_bytebuf (d : Decoded) : (s.writeDecoded d).bytebuf = s.bytebuf := rfl
@[simp] theorem writeDecoded_bytelen (d : Decoded) : (s.writeDecoded d).bytelen = s.bytelen := rfl
@[simp] theorem writeDecoded_status (d : Decoded) : (s.writeDecoded d).status = { s.status with group := d.group, tilt := d.tilt } := rfl
@[simp] theorem writeDecoded_seq (d : Decoded) : (s.writeDecoded d).seq = s.seq := rfl
@[simp] theorem writeDecoded_cfg (d : Decoded) : (s.writeDecoded d).cfg = s.cfg := rfl
@[simp] theorem writeDecoded_rcc (d : Decoded) : (s.writeDecoded d).rcc = s.rcc := rfl
@[simp] theorem writeDecoded_store (d : Decoded) : (s.writeDecoded d).store = s.store := rfl
@[simp] theorem writeDecoded_timer (d : Decoded) : (s.writeDecoded d).timer = s.timer := rfl
@[simp] theorem writeDecoded_abandoned (d : Decoded) : (s.writeDecoded d).abandoned = s.abandoned := rfl
@[simp] theorem writeDecoded_trace (d : Decoded) : (s.writeDecoded d).trace = s.trace := rfl
@[simp] theorem writeDecoded_agenda (d : Decoded) : (s.writeDecoded d).agenda = s.agenda := rfl
@[simp] theorem writeDecoded_txCalls (d : Decoded) : (s.writeDecoded d).txCalls = s.txCalls := rfl

@[simp] theorem setActionTag_opr (t : BitVec 4) : (s.setActionTag t).opr = s.opr := rfl
@[simp] theorem setActionTag_cmd (t : BitVec 4) : (s.setActionTag t).cmd = { s.cmd with action := .put t } := rfl
@[simp] theorem setActionTag_sets (t : BitVec 4) : (s.setActionTag t).sets = s.sets := rfl
@[simp] theorem setActionTag_cap (t : BitVec 4) : (s.setActionTag t).cap = s.cap := rfl
@[simp] theorem setActionTag_capval (t : BitVec 4) : (s.setActionTag t).capval = s.capval := rfl
@[simp] theorem setActionTag_steps (t : BitVec 4) : (s.setActionTag t).steps = s.steps := rfl
@[simp] theorem setActionTag_value (t : BitVec 4) : (s.setActionTag t).value = s.value := rfl
@[simp] theorem setActionTag_base (t : BitVec 4) : (s.setActionTag t).base = s.base := rfl
@[simp] theorem setActionTag_wid (t : BitVec 4) : (s.setActionTag t).wid = s.wid := rfl
@[simp] theorem setActionTag_pos (t : BitVec 4) : (s.setActionTag t).pos = s.pos := rfl
@[simp] theorem setActionTag_ord (t : BitVec 4) : (s.setActionTag t).ord = s.ord := rfl
@[simp] theorem setActionTag_off (t : BitVec 4) : (s.setActionTag t).off = s.off := rfl
@[simp] theorem setActionTag_res (t : BitVec 4) : (s.setActionTag t).res = s.res := rfl
@[simp] theorem setActionTag_bitbuf (t : BitVec 4) : (s.setActionTag t).bitbuf = s.bitbuf := rfl
@[simp] theorem setActionTag_bitlen (t : BitVec 4) : (s.setActionTag t).bitlen = s.bitlen := rfl
@[simp] theorem setActionTag_bytebuf (t : BitVec 4) : (s.setActionTag t).bytebuf = s.bytebuf := rfl
@[simp] theorem setActionTag_bytelen (t : BitVec 4) : (s.setActionTag t).bytelen = s.bytelen := rfl
@[simp] theorem setActionTag_status (t : BitVec 4) : (s.setActionTag t).status = s.status := rfl
@[simp] theorem setActionTag_seq (t : BitVec 4) : (s.setActionTag t).seq = s.seq := rfl
@[simp] theorem setActionTag_cfg (t : BitVec 4) : (s.setActionTag t).cfg = s.cfg := rfl
@[simp] theorem setActionTag_rcc (t : BitVec 4) : (s.setActionTag t).rcc = s.rcc := rfl
@[simp] theorem setActionTag_store (t : BitVec 4) : (s.setActionTag t).store = s.store := rfl
@[simp] theorem setActionTag_timer (t : BitVec 4) : (s.setActionTag t).timer = s.timer := rfl
@[simp] theorem setActionTag_abandoned (t : BitVec 4) : (s.setActionTag t).abandoned = s.abandoned := rfl
@[simp] theorem setActionTag_trace (t : BitVec 4) : (s.setActionTag t).trace = s.trace := rfl
@[simp] theorem setActionTag_agenda (t : BitVec 4) : (s.setActionTag t).agenda = s.agenda := rfl
@[simp] theorem setActionTag_txCalls (t : BitVec 4) : (s.setActionTag t).txCalls = s.txCalls := rfl

@[simp] theorem place_opr (p : Proto) (bits : Bits) : (s.place p bits).opr = rxWord p := rfl
@[simp] theorem place_cmd (p : Proto) (bits : Bits) : (s.place p bits).cmd = s.cmd := rfl
@[simp] theorem place_sets (p : Proto) (bits : Bits) : (s.place p bits).sets = s.sets := rfl
@[simp] theorem place_cap (p : Proto) (bits : Bits) : (s.place p bits).cap = s.cap := rfl
@[simp] theorem place_capval (p : Proto) (bits : Bits) : (s.place p bits).capval = s.capval := rfl
@[simp] theorem place_steps (p : Proto) (bits : Bits) : (s.place p bits).steps = s.steps := rfl
@[simp] theorem place_value (p : Proto) (bits : Bits) : (s.place p bits).value = s.value := rfl
@[simp] theorem place_base (p : Proto) (bits : Bits) : (s.place p bits).base = s.base := rfl
@[simp] theorem place_wid (p : Proto) (bits : Bits) : (s.place p bits).wid = s.wid := rfl
@[simp] theorem place_pos (p : Proto) (bits : Bits) : (s.place p bits).pos = s.pos := rfl
@[simp] theorem place_ord (p : Proto) (bits : Bits) : (s.place p bits).ord = s.ord := rfl
@[simp] theorem place_off (p : Proto) (bits : Bits) : (s.place p bits).off = s.off := rfl
@[simp] theorem place_res (p : Proto) (bits : Bits) : (s.place p bits).res = s.res := rfl
@[simp] theorem place_bitbuf (p : Proto) (bits : Bits) : (s.place p bits).bitbuf = truncAt (writeAt s.bitbuf 0 bits) bits.length := rfl
@[simp] theorem place_bitlen (p : Proto) (bits : Bits) : (s.place p bits).bitlen = ⟨min bits.length 80, by omega⟩ := rfl
@[simp] theorem place_bytebuf (p : Proto) (bits : Bits) : (s.place p bits).bytebuf = s.bytebuf := rfl
@[simp] theorem place_bytelen (p : Proto) (bits : Bits) : (s.place p bits).bytelen = s.bytelen := rfl
@[simp] theorem place_status (p : Proto) (bits : Bits) : (s.place p bits).status = s.status := rfl
@[simp] theorem place_seq (p : Proto) (bits : Bits) : (s.place p bits).seq = s.seq := rfl
@[simp] theorem place_cfg (p : Proto) (bits : Bits) : (s.place p bits).cfg = s.cfg := rfl
@[simp] theorem place_rcc (p : Proto) (bits : Bits) : (s.place p bits).rcc = s.rcc := rfl
@[simp] theorem place_store (p : Proto) (bits : Bits) : (s.place p bits).store = s.store := rfl
@[simp] theorem place_timer (p : Proto) (bits : Bits) : (s.place p bits).timer = s.timer := rfl
@[simp] theorem place_abandoned (p : Proto) (bits : Bits) : (s.place p bits).abandoned = s.abandoned := rfl
@[simp] theorem place_trace (p : Proto) (bits : Bits) : (s.place p bits).trace = s.trace := rfl
@[simp] theorem place_agenda (p : Proto) (bits : Bits) : (s.place p bits).agenda = s.agenda := rfl
@[simp] theorem place_txCalls (p : Proto) (bits : Bits) : (s.place p bits).txCalls = s.txCalls := rfl

@[simp] theorem blockReset_opr : (s.blockReset).opr = reset.opr := rfl
@[simp] theorem blockReset_cmd : (s.blockReset).cmd = reset.cmd := rfl
@[simp] theorem blockReset_sets : (s.blockReset).sets = reset.sets := rfl
@[simp] theorem blockReset_cap : (s.blockReset).cap = reset.cap := rfl
@[simp] theorem blockReset_capval : (s.blockReset).capval = reset.capval := rfl
@[simp] theorem blockReset_steps : (s.blockReset).steps = reset.steps := rfl
@[simp] theorem blockReset_value : (s.blockReset).value = reset.value := rfl
@[simp] theorem blockReset_base : (s.blockReset).base = reset.base := rfl
@[simp] theorem blockReset_wid : (s.blockReset).wid = reset.wid := rfl
@[simp] theorem blockReset_pos : (s.blockReset).pos = reset.pos := rfl
@[simp] theorem blockReset_ord : (s.blockReset).ord = reset.ord := rfl
@[simp] theorem blockReset_off : (s.blockReset).off = reset.off := rfl
@[simp] theorem blockReset_res : (s.blockReset).res = reset.res := rfl
@[simp] theorem blockReset_bitbuf : (s.blockReset).bitbuf = reset.bitbuf := rfl
@[simp] theorem blockReset_bitlen : (s.blockReset).bitlen = reset.bitlen := rfl
@[simp] theorem blockReset_bytebuf : (s.blockReset).bytebuf = reset.bytebuf := rfl
@[simp] theorem blockReset_bytelen : (s.blockReset).bytelen = reset.bytelen := rfl
@[simp] theorem blockReset_status : (s.blockReset).status = reset.status := rfl
@[simp] theorem blockReset_seq : (s.blockReset).seq = reset.seq := rfl
@[simp] theorem blockReset_cfg : (s.blockReset).cfg = s.cfg := rfl
@[simp] theorem blockReset_rcc : (s.blockReset).rcc = s.rcc := rfl
@[simp] theorem blockReset_store : (s.blockReset).store = s.store := rfl
@[simp] theorem blockReset_timer : (s.blockReset).timer = reset.timer := rfl
@[simp] theorem blockReset_abandoned : (s.blockReset).abandoned = if s.timer.isSome then s.abandoned + 1 else s.abandoned := rfl
@[simp] theorem blockReset_trace : (s.blockReset).trace = s.trace := rfl
@[simp] theorem blockReset_agenda : (s.blockReset).agenda = s.agenda := rfl
@[simp] theorem blockReset_txCalls : (s.blockReset).txCalls = s.txCalls := rfl

/-- A late `Expire` that is outstanding: the event, and one fewer to come (R451). -/
theorem lateExpire_of_pos (h : s.abandoned ≠ 0) :
    s.lateExpire = { s with trace := s.trace ++ [.expire], abandoned := s.abandoned - 1 } := by
  rw [lateExpire, if_neg h]; rfl

/-- With none outstanding no late `Expire` comes (R435). -/
theorem lateExpire_of_zero (h : s.abandoned = 0) : s.lateExpire = s := by rw [lateExpire, if_pos h]

/-- What a late `Expire` changes: the trace and the count of those to come. -/
theorem lateExpire_frame : s.lateExpire =
    { s with trace := (s.lateExpire).trace, abandoned := (s.lateExpire).abandoned } := by
  by_cases h : s.abandoned = 0
  · rw [lateExpire_of_zero s h]
  · rw [lateExpire_of_pos s h]

end State
end Sys2Proof.Machine
end

