-- ==== Sys2Proof/Laws/Wire.lean ====
section
/-! SUPPORT. The three frames index by index (30_encoding.md R130, R141, R151), and what a buffer holds
after it was written whole. -/

namespace Sys2Proof.Machine

/-! ### Frames as sequences -/

theorem eq_range_map {α : Type} {s : List α} {n : Nat} {g : Nat → α} (hn : s.length = n)
    (h : ∀ k, k < n → s[k]? = some (g k)) : s = (List.range n).map g := by
  apply List.ext_getElem?
  intro k
  by_cases hk : k < n
  · rw [h k hk]; simp [hk]
  · have h1 : s[k]? = none := by simp; omega
    rw [h1]; simp; omega

theorem intToMsb_bv_getElem? {n : Nat} (v : BitVec n) (k : Nat) (h : k < n) :
    (intToMsb v.toNat n)[k]? = some (v.getLsbD (n - 1 - k)) := by
  rw [List.getElem?_eq_getElem (by simpa using h), intToMsb_getElem, BitVec.testBit_toNat]

/-- The 39 bits of a Protocol-A frame are those of R130. -/
theorem frameBitsA_eq (address : BitVec 24) (mask : BitVec 8) (code7 : BitVec 7) :
    frameBitsA address mask code7 = (List.range 39).map (wireA address mask code7) := by
  apply eq_range_map (by simp [frameBitsA])
  intro k hk
  simp only [frameBitsA, wireA]
  by_cases h24 : k < 24
  · rw [List.getElem?_append_left (by simp; omega), List.getElem?_append_left (by simpa using h24),
      intToMsb_bv_getElem? _ _ h24, if_pos h24]
  · by_cases h32 : k < 32
    · rw [List.getElem?_append_left (by simp; omega), List.getElem?_append_right (by simp; omega),
        intToMsb_length, intToMsb_bv_getElem? _ _ (by omega), if_neg h24, if_pos h32]
      congr 2; omega
    · rw [List.getElem?_append_right (by simp; omega)]
      simp only [List.length_append, intToMsb_length]
      rw [intToMsb_bv_getElem? _ _ (by omega), if_neg h24, if_neg h32]
      congr 2; omega

/-- A byte list sent least significant bit first (R141). -/
theorem bytesToBits_rev_eq (f : List Byte) :
    bytesToBits .perByteReversed f = (List.range (8 * f.length)).map (wireRev f) := by
  apply eq_range_map (by simp)
  intro k hk
  have := bytesToBits_getElem? .perByteReversed f (k / 8) (k % 8) (by omega) (by omega)
  rw [show 8 * (k / 8) + k % 8 = k by omega] at this
  simpa [wireRev] using this

/-- The wire bits of a plain Protocol-C frame (R151). -/
theorem wireBitsC_eq (p : List Byte) : wireBitsC p = (List.range (8 * p.length)).map (wireC p) := by
  apply eq_range_map (by simp [wireBitsC])
  intro k hk
  have hj : k / 8 < p.length := by omega
  have := bytesToBits_getElem? .msbFirst (obf p) (k / 8) (k % 8) (by simpa using hj) (by omega)
  rw [show 8 * (k / 8) + k % 8 = k by omega] at this
  rw [wireBitsC, this, if_neg (by simp)]
  have e : (obf p).getD (k / 8) 0#8 = xorUpTo p (k / 8) := by
    rw [List.getD_eq_getElem?_getD, List.getElem?_eq_getElem (by simpa using hj), Option.getD_some,
      obf_getElem p _ hj]
  rw [e, wireC]

/-- The de-whitened bytes of the wire bits of a plain frame are the frame (R151, R214). -/
theorem deobf_bitsToBytes_wireBitsC (p : List Byte) : deobf (bitsToBytes .msbFirst (wireBitsC p)) = p := by
  rw [wireBitsC, bitsToBytes_bytesToBits, deobf_obf]

/-- The seven bits sent of a code (R132). -/
theorem trunc7_eq (code : BitVec 8) : trunc7 code = intToMsb (codeBits code).toNat 7 := by
  apply List.ext_getElem?
  intro k
  by_cases hk : k < 7
  · rw [intToMsb_bv_getElem? _ _ hk, trunc7, List.getElem?_take, if_pos hk]
    simp only [intToBits]
    rw [intToMsb_bv_getElem? code k (by omega)]
    simp [codeBits, show 7 - 1 - k < 7 by omega]; congr 1; omega
  · have h1 : (trunc7 code)[k]? = none := by simp [trunc7]; omega
    have h2 : (intToMsb (codeBits code).toNat 7)[k]? = none := by simp; omega
    rw [h1, h2]

theorem trunc7_inj {x : BitVec 8} {c : BitVec 7} : trunc7 x = intToMsb c.toNat 7 ↔ codeBits x = c := by
  rw [trunc7_eq]
  constructor
  · intro h
    apply BitVec.eq_of_toNat_eq
    rw [← msbToInt_intToMsb (codeBits x).toNat 7 (codeBits x).isLt, h, msbToInt_intToMsb _ _ c.isLt]
  · intro h; rw [h]

/-! ### Fields of the Protocol-A frame -/

theorem fieldAt_prefix {n : Nat} (v : BitVec n) (t : Bits) : fieldAt n (intToMsb v.toNat n ++ t) 0 = v := by
  have : slice (intToMsb v.toNat n ++ t) 0 n = intToMsb v.toNat n := by
    simp only [slice, List.drop_zero]; exact List.take_left' (by simp)
  rw [fieldAt, this, msbToInt_intToMsb _ _ v.isLt]; simp

theorem slice_append (x t : Bits) (a n : Nat) : slice (x ++ t) (x.length + a) n = slice t a n := by
  simp [slice, List.drop_length_add_append]

theorem fieldAt_append {n : Nat} (x t : Bits) (a : Nat) :
    fieldAt n (x ++ t) (x.length + a) = fieldAt n t a := by
  simp [fieldAt, slice_append]

theorem frameBitsA_address (address : BitVec 24) (mask : BitVec 8) (code7 : BitVec 7) :
    fieldAt 24 (frameBitsA address mask code7) 0 = address := by
  rw [frameBitsA, List.append_assoc]; exact fieldAt_prefix _ _

theorem frameBitsA_mask (address : BitVec 24) (mask : BitVec 8) (code7 : BitVec 7) :
    fieldAt 8 (frameBitsA address mask code7) 24 = mask := by
  rw [frameBitsA, List.append_assoc]
  have := fieldAt_append (n := 8) (intToMsb address.toNat 24) (intToMsb mask.toNat 8 ++ intToMsb code7.toNat 7) 0
  rw [intToMsb_length] at this
  rw [this]; exact fieldAt_prefix _ _

theorem frameBitsA_slice (address : BitVec 24) (mask : BitVec 8) (code7 : BitVec 7) :
    slice (frameBitsA address mask code7) 32 7 = intToMsb code7.toNat 7 := by
  rw [frameBitsA]
  have := slice_append (intToMsb address.toNat 24 ++ intToMsb mask.toNat 8) (intToMsb code7.toNat 7) 0 7
  simp only [List.length_append, intToMsb_length, Nat.add_zero] at this
  rw [this, slice, List.drop_zero, List.take_of_length_le (by simp)]

theorem frameBitsA_code (address : BitVec 24) (mask : BitVec 8) (code7 : BitVec 7) :
    fieldAt 7 (frameBitsA address mask code7) 32 = code7 := by
  rw [fieldAt, frameBitsA_slice, msbToInt_intToMsb _ _ code7.isLt]; simp

/-! ### Bytes of a word -/

theorem beWord_byteOf (x : BitVec 16) : beWord (byteOf 1 x) (byteOf 0 x) = x := by
  apply BitVec.eq_of_getLsbD_eq
  intro i h
  simp only [beWord, byteOf, BitVec.getLsbD_or, BitVec.getLsbD_shiftLeft, BitVec.getLsbD_setWidth,
    BitVec.getLsbD_extractLsb']
  by_cases h8 : i < 8
  · simp [h8, h]
  · simp [h8, h, show i - 8 < 8 by omega, show 8 + (i - 8) = i by omega]; omega

@[simp] theorem byteOf_one_beWord (x y : Byte) : byteOf 1 (beWord x y) = x := by
  apply BitVec.eq_of_getLsbD_eq
  intro i h
  simp only [beWord, byteOf, BitVec.getLsbD_or, BitVec.getLsbD_shiftLeft, BitVec.getLsbD_setWidth,
    BitVec.getLsbD_extractLsb']
  simp [h, show 8 + i < 16 by omega, show i < 16 by omega]

@[simp] theorem byteOf_zero_beWord (x y : Byte) : byteOf 0 (beWord x y) = y := by
  apply BitVec.eq_of_getLsbD_eq
  intro i h
  simp only [beWord, byteOf, BitVec.getLsbD_or, BitVec.getLsbD_shiftLeft, BitVec.getLsbD_setWidth,
    BitVec.getLsbD_extractLsb']
  simp [h, show i < 16 by omega]

theorem leAddr_getLsbD (x y z : Byte) (i : Nat) (h : i < 24) :
    (leAddr x y z).getLsbD i =
      if i < 8 then x.getLsbD i else if i < 16 then y.getLsbD (i - 8) else z.getLsbD (i - 16) := by
  simp only [leAddr, BitVec.getLsbD_or, BitVec.getLsbD_shiftLeft, BitVec.getLsbD_setWidth]
  by_cases h8 : i < 8
  · simp [h8, h, show i < 16 by omega]
  · by_cases h16 : i < 16
    · have := x.getLsbD_of_ge i (by omega)
      simp [h8, h16, h, this]; omega
    · have h1 := x.getLsbD_of_ge i (by omega)
      have h2 := y.getLsbD_of_ge (i - 8) (by omega)
      simp [h8, h16, h, h1, h2]; omega

theorem leAddr_byteOf (x : BitVec 24) : leAddr (byteOf 0 x) (byteOf 1 x) (byteOf 2 x) = x := by
  apply BitVec.eq_of_getLsbD_eq
  intro i h
  rw [leAddr_getLsbD _ _ _ _ h]
  simp only [byteOf, BitVec.getLsbD_extractLsb']
  split
  · rename_i h8; simp [h8]
  · split
    · rename_i h8 h16; simp [show i - 8 < 8 by omega, show 8 + (i - 8) = i by omega]
    · rename_i h8 h16; simp [show i - 16 < 8 by omega, show 16 + (i - 16) = i by omega]

@[simp] theorem byteOf_leAddr (x y z : Byte) :
    byteOf 0 (leAddr x y z) = x ∧ byteOf 1 (leAddr x y z) = y ∧ byteOf 2 (leAddr x y z) = z := by
  refine ⟨?_, ?_, ?_⟩ <;> apply BitVec.eq_of_getLsbD_eq <;> intro i h <;>
    simp only [byteOf, BitVec.getLsbD_extractLsb', h, decide_true, Bool.true_and] <;>
    rw [leAddr_getLsbD _ _ _ _ (by omega)]
  · simp [h]
  · simp [h, show 8 + i < 16 by omega]
  · simp [show ¬ 16 + i < 8 by omega, show ¬ 16 + i < 16 by omega]

/-! ### Buffers written whole, and received sequences -/

/-- What the cells hold after a whole-buffer write (R83, R37). -/
theorem State.putBits_getElem (s : State) (v : Bits) (k : Nat) (hk : k < 80) :
    (s.putBits v).bitbuf[k] =
      if h : k < v.length then .put v[k] else ⟨s.bitbuf[k].val, false⟩ := by
  simp only [State.putBits, truncAt_getElem, writeAt_getElem]
  by_cases h : k < v.length
  · simp [h]
  · simp [h]

theorem State.putBits_bitlen_val (s : State) (v : Bits) (hv : v.length ≤ 80) :
    (s.putBits v).bitlen.val = v.length := by
  simp [State.putBits, hv]

theorem State.holdsCells_putBits (s : State) (n : Nat) (g : Nat → Bool) (hn : n ≤ 80) :
    HoldsCells (s.putBits ((List.range n).map g)) n g := by
  refine ⟨by rw [State.putBits_bitlen_val] <;> simp [hn], fun k hk => ?_⟩
  rw [State.putBits_getElem _ _ _ k.isLt, dif_pos (by simpa using hk)]
  simp

/-- A sequence of a length the protocol takes is read as it stands in `BITBUF`. -/
theorem State.received_of_cells {s : State} {p : Proto} {m : Nat} {g : Nat → Bool}
    (hl : wireLength p s.bitlen.val = some m) (hm : m ≤ s.bitlen.val)
    (h : ∀ k : Fin 80, k.val < m → s.bitbuf[k.val] = .put (g k.val)) :
    s.received p = .ok ((List.range m).map g) := by
  simp only [State.received, hl]
  exact State.readBits_eq_ok (by omega) (fun k _ hk => by simpa using h k (by omega))

/-- A sequence of any other length is `BadLength` (R95). -/
theorem State.received_badLength {s : State} {p : Proto} (hl : wireLength p s.bitlen.val = none) :
    s.received p = .error .badLength := by
  simp [State.received, hl]

end Sys2Proof.Machine
end

