-- ==== Sys2Proof/Laws/Operands.lean ====
section
/-! SUPPORT. The lookups in a configuration, what an admissible configuration gives, and the reads of the
operand registers. -/

namespace Sys2Proof.Machine

/-! ### Tables -/

/-- A key found belongs to an entry whose value passes the test. -/
theorem keyWhere_mem {α β : Type} {ok : β → Bool} {l : List (α × β)} {a : α}
    (h : keyWhere ok l = some a) : ∃ b, (a, b) ∈ l ∧ ok b = true := by
  induction l with
  | nil => simp [keyWhere] at h
  | cons x t ih =>
    obtain ⟨k, v⟩ := x
    simp only [keyWhere] at h
    split at h
    · simp at h; subst h; exact ⟨v, by simp, by assumption⟩
    · obtain ⟨b, hb, ho⟩ := ih h; exact ⟨b, by simp [hb], ho⟩

/-- No key is found iff no value passes the test. -/
theorem keyWhere_none {α β : Type} {ok : β → Bool} {l : List (α × β)} :
    keyWhere ok l = none ↔ ∀ e ∈ l, ok e.2 = false := by
  induction l with
  | nil => simp [keyWhere]
  | cons x t ih =>
    obtain ⟨k, v⟩ := x
    simp only [keyWhere]
    split
    · simp_all
    · simp_all

/-- A value looked up stands in the table. -/
theorem tableAt_mem {α β : Type} [DecidableEq α] {l : List (α × β)} {a : α} {b : β}
    (h : tableAt l a = some b) : (a, b) ∈ l := by
  induction l with
  | nil => simp [tableAt] at h
  | cons x t ih =>
    obtain ⟨k, v⟩ := x
    simp only [tableAt] at h
    split at h
    · simp at h; simp_all
    · simp [ih h]

/-- Where no key stands twice, every entry is found. -/
theorem tableAt_of_mem {α β : Type} [DecidableEq α] {l : List (α × β)} {a : α} {b : β}
    (hn : (l.map (·.1)).Nodup) (h : (a, b) ∈ l) : tableAt l a = some b := by
  induction l with
  | nil => simp at h
  | cons x t ih =>
    obtain ⟨k, v⟩ := x
    simp only [List.map_cons, List.nodup_cons] at hn
    simp only [List.mem_cons, Prod.mk.injEq] at h
    simp only [tableAt]
    rcases h with ⟨rfl, rfl⟩ | h
    · simp
    · have : k ≠ a := by rintro rfl; exact hn.1 (List.mem_map.mpr ⟨_, h, rfl⟩)
      rw [if_neg this]; exact ih hn.2 h

/-- The clauses of R10 on the Protocol-A tables. -/
theorem admissible_a {cfg : Cfg} (h : admissible cfg = true) :
    (cfg.codeA.map (·.1)).Nodup ∧
    (codeBits cfg.pairA :: cfg.codeA.map (fun e => codeBits e.2)).Nodup ∧
    (∀ e ∈ cfg.codeA, e.1 ∈ keysA ∨ isCustom e.1 = true) ∧
    tableAt cfg.codeA .up = some 0x11#8 ∧ ∀ a ∈ keysA, (tableAt cfg.codeA a).isSome := by
  simp only [admissible, admissibleA, Bool.and_eq_true, decide_eq_true_eq, List.all_eq_true,
    Bool.or_eq_true, List.contains_iff_mem, beq_iff_eq] at h
  exact ⟨h.1.1.1.1.2, h.1.1.1.2, h.1.1.1.1.1.2, h.1.1.1.1.1.1.1, h.1.1.1.1.1.1.2⟩

/-- The clauses of R268 on one entry of `CODE4_B`. -/
theorem admissible_b {cfg : Cfg} (h : admissible cfg = true) :
    ∀ e ∈ cfg.code4B, e.1.2 ≠ 0#2 ∧ e.1.1 ≠ .tiltUp ∧ e.1.1 ≠ .tiltDown ∧
      admissibleEntryB cfg e false = true ∧
      (e.1.1 = .up ∨ e.1.1 = .down → admissibleEntryB cfg e true = true) := by
  intro e he
  simp only [admissible, admissibleB, Bool.and_eq_true, List.all_eq_true] at h
  have := h.1.1.2.1.1.1.1.1 e he
  simp only [bne_iff_ne] at this
  refine ⟨this.1.1.1.1, this.1.1.1.2, this.1.1.2, this.1.2, fun hh => ?_⟩
  have h2 := this.2
  have h3 : (decide (e.1.1 = Action.up) || decide (e.1.1 = Action.down)) = true := by
    simpa using hh
  rw [if_pos h3] at h2; exact h2

/-- The actions that `ACT_B` names (R20, R420). -/
theorem admissible_actB {cfg : Cfg} (h : admissible cfg = true) : ∀ e ∈ cfg.actB, isCodable e.2 = true := by
  simp only [admissible, admissibleB, Bool.and_eq_true, List.all_eq_true] at h
  exact h.1.1.2.2

/-- What the decoder finds under the `commandValue` of an entry (R268). -/
theorem admissibleEntryB_spec {cfg : Cfg} {e : (Action × BitVec 2) × BitVec 4} {t : Bool}
    (h : admissibleEntryB cfg e t = true) :
    tableAt cfg.actB (commandValueOf e.2 e.1.2 t) =
      some (if e.1.2 = 3#2 ∧ t = true then tiltOf e.1.1 else e.1.1) ∧
    (tableAt cfg.railB (commandValueOf e.2 e.1.2 t)).getD 1#2 = e.1.2 := by
  simp only [admissibleEntryB, Bool.and_eq_true, beq_iff_eq, decide_eq_true_eq] at h
  refine ⟨h.1, ?_⟩
  rw [h.2]; split <;> simp_all

/-- The clauses of R10 on the Protocol-C tables. -/
theorem admissible_c {cfg : Cfg} (h : admissible cfg = true) :
    (cfg.codeC.map (·.1)).Nodup ∧ (cfg.codeC.map (·.2)).Nodup ∧
    (∀ e ∈ cfg.codeC, isCustom e.1 = false ∧ isCodable e.1 = true ∧ e.1 ≠ .tiltUp ∧ e.1 ≠ .tiltDown) ∧
    cfg.tiltUpC ≠ cfg.tiltDownC ∧ inRangeC cfg cfg.tiltUpC.1 = false ∧
    inRangeC cfg cfg.tiltDownC.1 = false := by
  simp only [admissible, admissibleC, Bool.and_eq_true, decide_eq_true_eq, List.all_eq_true,
    Bool.not_eq_true', bne_iff_ne, ne_eq] at h
  refine ⟨h.1.2.1.1.1.1.1, h.1.2.1.1.1.1.2, fun e he => ?_, h.1.2.1.1.2, h.1.2.1.2, h.1.2.2⟩
  have := h.1.2.1.1.1.2 e he
  exact ⟨this.1.1.1, this.1.1.2, this.1.2, this.2⟩

/-! ### Action tags and operands -/

/-- An action that a table may name has a tag of its own below that of `Pair` (R34). -/
theorem isCodable_iff {a : Action} : isCodable a = true ↔ (tagOf a).toNat < 11 := by
  cases a <;> simp [isCodable, tagOf]
  case reserved t => revert t; decide

theorem isCodable_tiltOf {a : Action} (h : isCodable a = true) : isCodable (tiltOf a) = true := by
  cases a <;> simp_all [isCodable, tiltOf]

theorem isCodable_raiseTilt {cfg : Cfg} {p : Proto} {c : Command} {t : Bool}
    (h : isCodable c.action = true) : isCodable (raiseTilt cfg p c t).action = true := by
  unfold raiseTilt
  split <;> (try split) <;> (try split) <;> first | rfl | exact h

theorem isCodable_xfInAction {a : Action} {rot inv : Bool} (h : isCodable a = true) :
    isCodable (xfInAction a rot inv) = true := by
  cases a <;> cases rot <;> cases inv <;> simp_all [isCodable, xfInAction, invAction, rotAction]

/-- An action is given back by its tag and payload (R34). -/
theorem actionOf_tagOf (a : Action) : actionOf (tagOf a) (payloadOf a) = a := by
  cases a <;> try rfl
  case reserved t => revert t; decide

/-- The action a state holds, as the operations read it. -/
theorem heldAction_holds {s : State} {a : Action} (h : HoldsAction s a) : s.heldAction = .put a := by
  obtain ⟨h1, h2, h3⟩ := h
  cases a <;> simp only [State.heldAction, h2, Reg.put] <;> try rfl
  case custom v =>
    rw [h3 v rfl]; rfl
  case reserved t => exact absurd h1 ((by decide : ∀ t, ¬ (tagOf (Action.reserved t)).toNat < 11) t)

/-- The tag check refuses exactly a written tag 11 to 15 (R420). -/
theorem hostTag_cases (s : State) :
    (s.cmd.action.written = true ∧ 11 ≤ s.cmd.action.val.toNat ∧ s.hostTag = .error .unmapped) ∨
    ((s.cmd.action.written = true → s.cmd.action.val.toNat < 11) ∧ s.hostTag = .ok ()) := by
  simp only [State.hostTag]
  by_cases h : s.cmd.action.written = true ∧ 11 ≤ s.cmd.action.val.toNat
  · exact .inl ⟨h.1, h.2, by simp [h]⟩
  · refine .inr ⟨fun hw => by by_contra hh; exact h ⟨hw, by omega⟩, ?_⟩
    rw [if_neg (by simpa using h)]

/-- A tag 11 to 15 in a host operation is `Unmapped` (R420). -/
theorem hostTag_high {s : State} {tag : BitVec 4} (h : s.cmd.action = .put tag) (h2 : 11 ≤ tag.toNat) :
    s.hostTag = .error .unmapped := by
  simp [State.hostTag, h, h2]

/-- An action the host may request passes the tag check. -/
theorem hostTag_holds {s : State} {a : Action} (h : HoldsAction s a) : s.hostTag = .ok () := by
  simp only [State.hostTag, h.2.1, Reg.put_val, Reg.put_written, Bool.true_and]
  rw [if_neg (by simpa using h.1)]

/-- The command held, given the action and the address. -/
theorem heldCommand_eq {s : State} {a : Action} {ad : BitVec 24} (h : HoldsAction s a)
    (ha : s.cmd.addr = .put ad) : s.heldCommand = { s.heldCommand with action := a, address := ad } := by
  have h1 : s.heldCommand.action = a := congrArg Reg.val (heldAction_holds h)
  have h2 : s.heldCommand.address = ad := congrArg Reg.val ha
  rw [← h1, ← h2]

/-! ### The checks on a presented command -/

/-- The check passes exactly where every register is written, the address fits and there is a code. -/
theorem Presented.check_eq_ok {o : Presented} {p : Proto} {u : Command → Bool} {c : Command} :
    o.check p u = .ok c ↔ c = o.cmd ∧ o.addr = true ∧ o.key = true ∧ o.rest = true ∧
      addressFits p o.cmd.address = true ∧ u o.cmd = false := by
  simp only [Presented.check]
  cases o.addr <;> cases o.key <;> cases o.rest <;> cases addressFits p o.cmd.address <;>
    cases u o.cmd <;> simp [eq_comm]

/-- An address too wide is `Malformed`, whatever the other registers are. -/
theorem Presented.check_malformed {o : Presented} {p : Proto} (u : Command → Bool) (h : o.addr = true)
    (hf : addressFits p o.cmd.address = false) : o.check p u = .error .malformed := by
  simp [Presented.check, h, hf]

/-- A code the table lacks is `Unmapped`, whatever the other registers are, unless the address is seen to be
too wide. -/
theorem Presented.check_unmapped {o : Presented} {p : Proto} {u : Command → Bool}
    (ha : o.addr = true → addressFits p o.cmd.address = true) (h : o.key = true) (hu : u o.cmd = true) :
    o.check p u = .error .unmapped := by
  cases h' : o.addr <;> simp_all [Presented.check]

/-- An unwritten register is `Precond` where no earlier condition holds. -/
theorem Presented.check_precond {o : Presented} {p : Proto} {u : Command → Bool}
    (ha : o.addr = true → addressFits p o.cmd.address = true) (hk : o.key = true → u o.cmd = false)
    (h : ¬ (o.addr = true ∧ o.key = true ∧ o.rest = true)) : o.check p u = .error .precond := by
  simp only [Presented.check]
  cases h1 : o.addr <;> cases h2 : o.key <;> cases h3 : o.rest <;> simp_all

/-- Where every register is written, the check and the encoder together are the encoder: the check refuses
what the encoder refuses, with its reasons. -/
theorem Presented.check_bind_encodeP {o : Presented} {α : Type} (p : Proto)
    (u : Command → Bool) (k : Command → Except Status α) (ha : o.addr = true) (hk : o.key = true)
    (hr : o.rest = true)
    (hm : addressFits p o.cmd.address = false → k o.cmd = .error .malformed)
    (hu : addressFits p o.cmd.address = true → u o.cmd = true → k o.cmd = .error .unmapped) :
    (o.check p u >>= k) = k o.cmd := by
  cases hf : addressFits p o.cmd.address with
  | false => rw [o.check_malformed u ha hf, hm hf]; rfl
  | true =>
    cases hv : u o.cmd with
    | true => rw [Presented.check_unmapped (fun _ => hf) hk hv, hu hf hv]; rfl
    | false => rw [Presented.check_eq_ok.mpr ⟨rfl, ha, hk, hr, hf, hv⟩]; rfl

/-- `EncA` refuses a code the table lacks. -/
theorem encodeA_unmapped {cfg : Cfg} {c : Command} (hf : addressFits .a c.address = true)
    (h : unmappedA cfg c = true) : encodeA cfg c = .error .unmapped := by
  simp only [unmappedA, Option.isNone_iff_eq_none] at h
  simp [encodeA, hf, h]

/-- `EncB` refuses a code the table lacks. -/
theorem encodeB_unmapped {cfg : Cfg} {c : Command} (hf : addressFits .b c.address = true)
    (h : unmappedB cfg c = true) : encodeB cfg c = .error .unmapped := by
  simp only [unmappedB, Option.isNone_iff_eq_none] at h
  simp [encodeB, hf, h]

/-- `EncC` refuses a command without a frame. -/
theorem encodeC_unmapped {cfg : Cfg} {c : Command} (hf : addressFits .c c.address = true)
    (h : unmappedC cfg c = true) : encodeC cfg c = .error .unmapped := by
  simp only [unmappedC, Option.isNone_iff_eq_none] at h
  simp [encodeC, hf, h]

/-- Every encoder refuses an address that does not fit. -/
theorem encodeP_malformed {cfg : Cfg} {p : Proto} {c : Command} (h : addressFits p c.address = false) :
    encodeP cfg p c = .error .malformed := by
  cases p <;> simp [encodeP, encodeA, encodeB, encodeC, h]

/-- `LOWER` keeps the address. -/
theorem lower_address (cfg : Cfg) (p : Proto) (c : Command) : (lower cfg p c).address = c.address := by
  unfold lower; split <;> rfl

/-- The dry run refuses an address that does not fit (R359). -/
theorem dryEncode_malformed {cfg : Cfg} {p : Proto} {c : Command} (h : addressFits p c.address = false) :
    dryEncode cfg p c = .error .malformed :=
  encodeP_malformed (by rw [show (_ : BitVec 24) = c.address from lower_address cfg p c]; exact h)

/-- The dry run refuses a command without a code (R359). -/
theorem dryEncode_unmapped {cfg : Cfg} {p : Proto} {c : Command} (hf : addressFits p c.address = true)
    (h : unmappedP cfg p c = true) : dryEncode cfg p c = .error .unmapped := by
  have hl : addressFits p { lower cfg p c with rollingCode := 0#16 }.address = true := by
    rw [show (_ : BitVec 24) = c.address from lower_address cfg p c]; exact hf
  cases p
  · exact encodeA_unmapped hl h
  · exact encodeB_unmapped hl h
  · exact encodeC_unmapped hl h

/-- A presented command whose registers are all written is accepted exactly as the dry run says. -/
theorem Presented.accept_of_written {o : Presented} {cfg : Cfg} {p : Proto} (ha : o.addr = true)
    (hk : o.key = true) (hr : o.rest = true) :
    o.accept cfg p = (dryRun cfg p o.cmd >>= fun _ => .ok o.cmd) :=
  o.check_bind_encodeP p _ (fun c => dryRun cfg p c >>= fun _ => .ok c) ha hk hr
    (fun h => by simp [dryRun, dryEncode_malformed h]) fun h h2 => by
      simp [dryRun, dryEncode_unmapped h h2]

/-- What an accepted command is (R359). -/
theorem Presented.accept_eq_ok {o : Presented} {cfg : Cfg} {p : Proto} {c : Command}
    (h : o.accept cfg p = .ok c) :
    c = o.cmd ∧ o.addr = true ∧ o.key = true ∧ o.rest = true ∧ dryRun cfg p c = .ok () := by
  simp only [Presented.accept, bind_eq_ok] at h
  obtain ⟨d, h1, _, h2, h3⟩ := h
  cases h3
  obtain ⟨e1, e2, e3, e4, _, _⟩ := Presented.check_eq_ok.mp h1
  exact ⟨e1, e2, e3, e4, h2⟩

/-! ### The encoding operations on written registers -/

/-- `ENC.A` on written operands is `EncA` (R232). -/
theorem encABody_eq {s : State} {a : Action} {ad : BitVec 24} {m : BitVec 8} (h : HoldsAction s a)
    (ha : s.cmd.addr = .put ad) (hm : s.cmd.chmask = .put m) :
    encABody s = (encodeA s.cfg { s.heldCommand with action := a, address := ad, channelMask := m } >>=
      fun bits => .ok (s.putBits bits)) := by
  have hc : s.heldCommand = { s.heldCommand with action := a, address := ad, channelMask := m } := by
    rw [show m = s.heldCommand.channelMask from (congrArg Reg.val hm).symm]; exact heldCommand_eq h ha
  simp only [encABody, hostTag_holds h, ok_bind]
  rw [← hc]
  refine Presented.check_bind_encodeP .a _
    (fun c => encodeA s.cfg c >>= fun bits => .ok (s.putBits bits)) ?_ ?_ ?_ ?_ ?_
  · simp [State.encOperand, ha]
  · simp [State.encOperand, heldAction_holds h]
  · simp [State.encOperand, hm]
  · intro hf; simp [show encodeA _ _ = _ from encodeP_malformed (p := .a) hf]
  · intro hf hu; simp [encodeA_unmapped hf hu]

/-- `ENC.B` on written operands is `EncB` (R262). -/
theorem encBBody_eq {s : State} {a : Action} {ad : BitVec 24} {r : BitVec 2} {u : BitVec 4}
    (h : HoldsAction s a) (hr : s.cmd.rail = .put r) (ha : s.cmd.addr = .put ad)
    (hu : s.cmd.unit = .put u) :
    encBBody s = (encodeB s.cfg { s.heldCommand with action := a, address := ad, rail := r, unit := u } >>=
      fun bits => .ok (s.putBits bits)) := by
  have hc : s.heldCommand = { s.heldCommand with action := a, address := ad, rail := r, unit := u } := by
    rw [show r = s.heldCommand.rail from (congrArg Reg.val hr).symm,
      show u = s.heldCommand.unit from (congrArg Reg.val hu).symm]
    exact heldCommand_eq h ha
  simp only [encBBody, hostTag_holds h, ok_bind]
  rw [← hc]
  refine Presented.check_bind_encodeP .b _
    (fun c => encodeB s.cfg c >>= fun bits => .ok (s.putBits bits)) ?_ ?_ ?_ ?_ ?_
  · simp [State.encOperand, ha]
  · simp [State.encOperand, heldAction_holds h, hr]
  · simp [State.encOperand, hu]
  · intro hf; simp [show encodeB _ _ = _ from encodeP_malformed (p := .b) hf]
  · intro hf hu; simp [encodeB_unmapped hf hu]

theorem addressFits_b (ad : BitVec 24) :
    addressFits .b ad = decide (ad.toNat < 2 ^ 16) := rfl

/-- What a whole-buffer write changes. -/
theorem State.putBits_frame (s : State) (v : Bits) (n : Fin 81) (h : v.length = n.val) :
    s.putBits v = { s with bitbuf := (s.putBits v).bitbuf, bitlen := n } := by
  have hb : (s.putBits v).bitlen = n :=
    Fin.ext (by rw [State.putBits_bitlen_val _ _ (by omega), h])
  conv_lhs => rw [State.putBits]
  rw [State.putBits_bitbuf]; congr 1

theorem State.received_of_holdsCells {s : State} {p : Proto} {n : Nat} {g : Nat → Bool}
    (h : HoldsCells s n g) (hw : wireLength p n = some n) :
    s.received p = .ok ((List.range n).map g) := by
  refine State.received_of_cells (by rw [h.1]; exact hw) (by rw [h.1]) (fun k hk => h.2 k hk)

theorem addressFits_c (ad : BitVec 24) : addressFits .c ad = true := by
  have : addressFits .c ad = decide (ad.toNat < 2 ^ 24) := rfl
  rw [this]; exact decide_eq_true ad.isLt

/-- `ENC.C` on written operands without `extCmd` is `EncC` (R292). -/
theorem encCBody_short {s : State} {a : Action} {ad : BitVec 24} {rc : BitVec 16} (h : HoldsAction s a)
    (ha : s.cmd.addr = .put ad) (hc : s.cmd.rc = .put rc) (hv : s.cmd.extv = .put false) :
    encCBody s = (encodeC s.cfg { s.heldCommand with
      action := a, address := ad, rollingCode := rc, extCmd := none } >>= fun bits => .ok (s.putBits bits)) := by
  have e : s.heldCommand =
      { s.heldCommand with action := a, address := ad, rollingCode := rc, extCmd := none } := by
    have h1 : s.heldCommand.extCmd = none := by simp [State.heldCommand, hv]
    rw [show rc = s.heldCommand.rollingCode from (congrArg Reg.val hc).symm, ← h1]
    exact heldCommand_eq h ha
  simp only [encCBody, hostTag_holds h, ok_bind]
  rw [← e]
  refine Presented.check_bind_encodeP .c _
    (fun c => encodeC s.cfg c >>= fun bits => .ok (s.putBits bits)) ?_ ?_ ?_ ?_ ?_
  · simp [State.encOperand, ha]
  · simp [State.encOperand, heldAction_holds h, hv]
  · simp [State.encOperand, State.extWritten, hv, hc]
  · intro hf; simp [show encodeC _ _ = _ from encodeP_malformed (p := .c) hf]
  · intro hf hu; simp [encodeC_unmapped hf hu]

/-- `ENC.C` on written operands with `extCmd` is `EncC` (R292). -/
theorem encCBody_ext {s : State} {a : Action} {ad : BitVec 24} {rc : BitVec 16} {x : Byte} {n : BitVec 8}
    (h : HoldsAction s a) (ha : s.cmd.addr = .put ad) (hc : s.cmd.rc = .put rc)
    (hv : s.cmd.extv = .put true) (he : s.cmd.extb = .put x) (hn : s.cmd.rep = .put n) :
    encCBody s = (encodeC s.cfg { s.heldCommand with
      action := a, address := ad, rollingCode := rc, extCmd := some x, repeatCount := n } >>= fun bits => .ok (s.putBits bits)) := by
  have e : s.heldCommand = { s.heldCommand with
      action := a, address := ad, rollingCode := rc, extCmd := some x, repeatCount := n } := by
    have h1 : s.heldCommand.extCmd = some x := by simp [State.heldCommand, hv, he]
    rw [show rc = s.heldCommand.rollingCode from (congrArg Reg.val hc).symm,
      show n = s.heldCommand.repeatCount from (congrArg Reg.val hn).symm, ← h1]
    exact heldCommand_eq h ha
  simp only [encCBody, hostTag_holds h, ok_bind]
  rw [← e]
  refine Presented.check_bind_encodeP .c _
    (fun c => encodeC s.cfg c >>= fun bits => .ok (s.putBits bits)) ?_ ?_ ?_ ?_ ?_
  · simp [State.encOperand, ha]
  · simp [State.encOperand, heldAction_holds h, hv]
  · simp [State.encOperand, State.extWritten, hv, hc, he, hn]
  · intro hf; simp [show encodeC _ _ = _ from encodeP_malformed (p := .c) hf]
  · intro hf hu; simp [encodeC_unmapped hf hu]

/-- `ENC.C` ends with `Unmapped` where no frame carries the action with an `extCmd`, whatever `RC`, `EXT`
and `REPEAT` hold (R291, R292). -/
theorem encCBody_unmapped {s : State} {a : Action} (h : HoldsAction s a)
    (hk : s.cmd.extv.written = true ∨ ((tableAt s.cfg.codeC a).isSome || isCustom a) = false)
    (hu : unmappedC s.cfg s.heldCommand = true) : encCBody s = .error .unmapped := by
  simp only [encCBody, hostTag_holds h, ok_bind]
  rw [Presented.check_unmapped (o := s.encOperand .c) (fun _ => addressFits_c _) ?_ hu]
  · rfl
  · simp only [State.encOperand, heldAction_holds h, Reg.put_written, Reg.put_val, Bool.true_and]
    rcases hk with hk | hk <;> simp [hk]

/-- A tag is given back by the action it names (R34). -/
theorem tagOf_actionOf (tag : BitVec 4) (v : BitVec 8) : tagOf (actionOf tag v) = tag := by
  have h : tagOf (actionOf tag v) = tagOf (actionOf tag 0#8) := by
    simp only [actionOf]; split <;> rfl
  rw [h]; clear h; revert tag; decide

/-- The command presented by a request whose operands are written (R360). -/
theorem addressed_of_built {s : State} {p : Proto} {a : Action} {reps : BitVec 8} {c : Command}
    (h : Built s p a reps c) :
    s.addressed p (.put a) reps true = { cmd := c, addr := true, key := true, rest := true } := by
  obtain ⟨⟨hadr, hm⟩, ha, hr, hrc, he⟩ := h
  cases c
  cases p <;> simp only at hm ha hr hrc he hadr <;>
    simp_all [State.addressed, State.railWritten, State.receiverWritten]

/-- `CapAction` on the registers (R361). -/
theorem capAction_of_holds {s : State} {a : Action} (h : HoldsCapability s a) :
    s.capAction = .ok (.put a) := by
  rcases h with ⟨h1, h2, rfl⟩ | ⟨h1, h2, rfl⟩ | ⟨h1, h2, rfl⟩ | ⟨h1, rfl⟩ | ⟨h1, rfl⟩ <;>
    simp [State.capAction, capActionOf, Reg.put, *]

/-- A reserved capability (R360). -/
theorem capAction_reserved {s : State} (h : s.cap = .put 3#2 ∨ (s.cap = .put 0#2 ∧ s.capval = .put 3#2)) :
    s.capAction = .error .precond := by
  rcases h with h | ⟨h, h2⟩ <;> simp [State.capAction, capActionOf, *]

/-- An action under written settings (R333). -/
theorem transformed_of_holds {s : State} {rot inv : Bool} (a : Action) (h : HoldsSettings s rot inv) :
    s.transformed (.put a) = .put (xfOutAction a rot inv) := by
  simp [State.transformed, h.1, h.2, Reg.put]

/-- The operand of `REQ.RAW` (R368). -/
theorem rawOperand_of_heldRaw {s : State} {p : Proto} {c : Command} (h : HeldRaw s p c) :
    s.rawOperand p = { cmd := c, addr := true, key := true, rest := true } := by
  obtain ⟨hc, ha, hadr, hrep, hp⟩ := h
  have hw : s.heldAction.written = true := by rw [heldAction_holds ha]; rfl
  cases p
  · simp [State.rawOperand, hw, hadr, hrep, hp, hc]
  · simp [State.rawOperand, hw, hadr, hrep, hp.1, hp.2, hc]
  · have he : s.extWritten = true := by
      simp only [State.extWritten, hp.1, Bool.true_and]
      cases hv : s.cmd.extv.val with
      | false => rfl
      | true => simp [hp.2 hv]
    simp [State.rawOperand, hw, hadr, hrep, hp.1, he, hc]

theorem protoOf_isSome {pr : BitVec 2} (h : pr ≠ 3#2) : ∃ p, protoOf pr = some p := by
  rw [← Option.isSome_iff_exists]; revert pr; decide

/-- The truth table of R335, for `XfOut`. -/
theorem xfOutAction_eq_table (a : Action) (rot inv : Bool) :
    xfOutAction a rot inv = settingsTable a rot inv := by
  cases a <;> cases rot <;> cases inv <;> rfl

/-- The truth table of R335, for `XfIn`. -/
theorem xfInAction_eq_table (a : Action) (rot inv : Bool) :
    xfInAction a rot inv = settingsTable a rot inv := by
  cases a <;> cases rot <;> cases inv <;> rfl

theorem settingsTable_undo (a : Action) (rot inv : Bool) :
    settingsTable (settingsTable a rot inv) rot inv = a := by
  cases a <;> cases rot <;> cases inv <;> rfl

/-- `CMD` holds the decoded command after a decode (R236). -/
theorem State.writeDecoded_heldCommand (s : State) (d : Decoded) :
    (s.writeDecoded d).heldCommand = d.cmd := by
  simp only [State.writeDecoded, State.heldCommand, cmdRegsOf, Reg.put_val, actionOf_tagOf]
  cases d with | mk c g t =>
  cases c with | mk a r ad m u rc rp e =>
  cases e <;> rfl

end Sys2Proof.Machine
end

