-- ==== Sys2Proof/Laws/LoopBack.lean ====
section
/-! SUPPORT. The loop-back law of 45_transform.md R371 at the level of the transforms: what `RAISE` and
`XfIn` make of what `XfOut` and `LOWER` made of an action. It holds but for two corners (log entry 20), and
there no receiver can keep it: the law asks for two actions of one and the same lowered command. -/

namespace Sys2Proof.Machine

/-- The action that `RX` delivers for a lowered command, with the tilt tag of its decoder (R238, R341,
R370). -/
def deliveredAction (cfg : Cfg) (p : Proto) (l : Command) (rot inv : Bool) : Action :=
  xfInAction (raiseTilt cfg p l (match p with | .a => tiltA l.action | .b | .c => false)).action rot inv

/-- R371 under Protocol-A, for every action but `Up` and `Down`. -/
theorem loopBack_a (cfg : Cfg) (c : Command) (a : Action) (rot inv : Bool) (h : a ≠ .up ∧ a ≠ .down) :
    deliveredAction cfg .a (lower cfg .a { c with action := xfOutAction a rot inv }) rot inv = a := by
  cases a <;> cases rot <;> cases inv <;> first | rfl | simp at h

/-- R371 under Protocol-A, for `Up` and `Down` with `invertTilt` off. -/
theorem loopBack_a_motion (cfg : Cfg) (c : Command) (a : Action) (rot : Bool) (h : a = .up ∨ a = .down) :
    deliveredAction cfg .a (lower cfg .a { c with action := xfOutAction a rot false }) rot false =
      tiltOf a := by
  rcases h with rfl | rfl <;> cases rot <;> rfl

/-- The steps of R341 and R370 on an `Up` or `Down` with `invertTilt` on: the raised tilt is inverted. -/
theorem loopBack_a_inverted (cfg : Cfg) (c : Command) (a : Action) (rot : Bool) (h : a = .up ∨ a = .down) :
    deliveredAction cfg .a (lower cfg .a { c with action := xfOutAction a rot true }) rot true =
      invAction (tiltOf a) := by
  rcases h with rfl | rfl <;> cases rot <;> rfl

/-- R371 under Protocol-B. -/
theorem loopBack_b (cfg : Cfg) (c : Command) (a : Action) (rot inv : Bool) :
    deliveredAction cfg .b (lower cfg .b { c with action := xfOutAction a rot inv }) rot inv = a := by
  cases a <;> cases rot <;> cases inv <;> rfl

/-- R371 under Protocol-C, but for a `Custom` action that carries the nibble and the `extCmd` of a tilt. -/
theorem loopBack_c {cfg : Cfg} (hcfg : admissible cfg = true) (c : Command) (a : Action) (rot inv : Bool)
    (h : ∀ v e, a = .custom v → c.extCmd = some e → (v, e) ≠ (cfg.tiltUpC.1.setWidth 8, cfg.tiltUpC.2) ∧
      (v, e) ≠ (cfg.tiltDownC.1.setWidth 8, cfg.tiltDownC.2)) :
    deliveredAction cfg .c (lower cfg .c { c with action := xfOutAction a rot inv }) rot inv = a := by
  have hne : (cfg.tiltDownC.1.setWidth 8, cfg.tiltDownC.2) ≠ (cfg.tiltUpC.1.setWidth 8, cfg.tiltUpC.2) := by
    have hinj : ∀ n m : BitVec 4, n.setWidth 8 = m.setWidth 8 → n = m := by decide
    intro heq
    obtain ⟨h1, h2⟩ := Prod.mk.injEq .. ▸ heq
    exact (admissible_c hcfg).2.2.2.1 (Prod.ext (hinj _ _ h1.symm) h2.symm)
  cases a
  case custom v =>
    have hx : xfOutAction (.custom v) rot inv = .custom v := by cases rot <;> cases inv <;> rfl
    have hi : xfInAction (.custom v) rot inv = .custom v := by cases rot <;> cases inv <;> rfl
    rw [hx]
    cases he : c.extCmd with
    | none => simp [deliveredAction, lower, raiseTilt, hi]
    | some e =>
      obtain ⟨h1, h2⟩ := h v e rfl he
      simp [deliveredAction, lower, raiseTilt, hi, h1, h2]
  all_goals
    cases rot <;> cases inv <;>
      simp [deliveredAction, lower, raiseTilt, xfOutAction, xfInAction, rotAction, invAction, hne]

/-- R371 asks of `RX`, with `invertTilt` on, to deliver `TiltDown` for the one command below and `TiltUp` for
the other; their lowered commands, and so their bits, are the same. -/
theorem loopBack_a_conflict (cfg : Cfg) (c : Command) :
    lower cfg .a { c with action := xfOutAction .tiltDown false true } =
      lower cfg .a { c with action := xfOutAction .up false true } := rfl

/-- R371 asks of `RX` to deliver `TiltUp` for the one command below and the `Custom` action for the other;
their lowered commands, and so their bits, are the same. -/
theorem loopBack_c_conflict (cfg : Cfg) (c : Command) :
    lower cfg .c { c with action := xfOutAction .tiltUp false false } =
      lower cfg .c { c with action := xfOutAction (.custom (cfg.tiltUpC.1.setWidth 8)) false false,
                            extCmd := some cfg.tiltUpC.2 } := rfl

/-- No receiver at all, whatever it computes from the payload and the settings, keeps R371 under Protocol-A. -/
theorem loopBack_unsatisfiable (rx : Bits → Bool → Bool → Action) :
    ¬ ∀ (c : Command) (a : Action) (rot inv : Bool) (bits : Bits),
      encodeP cfgRef .a (lower cfgRef .a { c with action := xfOutAction a rot inv }) = .ok bits →
      rx bits rot inv = if a = .up ∨ a = .down then tiltOf a else a := by
  intro h
  have hd := h Command.zero .tiltDown false true _ rfl
  have hu := h Command.zero .up false true _ rfl
  exact absurd (hd.symm.trans hu) (by decide)

end Sys2Proof.Machine
end

