-- ==== Sys2Proof/Laws/PerInstr.lean ====
section
/-! SUPPORT. Statements made once per instruction, about the instruction as syntax. -/

/-- The format of an instruction's row (30_encoding.md R120, R130, R140, R150): a request is one word with
bit 7 clear; a frame has one of the lengths its protocol sends. -/
def Sys2Proof.Laws.RowFormat.Statement (i : Sys2Proof.Instr) : Prop :=
  match Sys2Proof.encode i with
  | .opr w => w.getLsbD 7 = false
  | .frame .a bits => bits.length = 39
  | .frame .b bits => bits.length = 40
  | .frame .c bits => bits.length = 56 ∨ bits.length = 80

namespace Sys2Proof.Laws.RowFormat

open Sys2Proof Sys2Proof.Machine

/-- `OPR[7]` of a request word is 0 (R120). -/
theorem oprWord_bit7 (pr : BitVec 2) (op : BitVec 5) : (oprWord pr op).getLsbD 7 = false := by
  revert pr op; decide

theorem i2b (pr : BitVec 2) : Statement (.i2b pr) := oprWord_bit7 _ _

theorem b2i (pr : BitVec 2) : Statement (.b2i pr) := oprWord_bit7 _ _

theorem bfIns (pr : BitVec 2) : Statement (.bfIns pr) := oprWord_bit7 _ _

theorem bfExt (pr : BitVec 2) : Statement (.bfExt pr) := oprWord_bit7 _ _

theorem csumNone : Statement .csumNone := oprWord_bit7 _ _

theorem csumAdd : Statement .csumAdd := oprWord_bit7 _ _

theorem csumXorn : Statement .csumXorn := oprWord_bit7 _ _

theorem chkNone : Statement .chkNone := oprWord_bit7 _ _

theorem chkAdd : Statement .chkAdd := oprWord_bit7 _ _

theorem chkXorn : Statement .chkXorn := oprWord_bit7 _ _

theorem obf (pr : BitVec 2) : Statement (.obf pr) := oprWord_bit7 _ _

theorem deobf (pr : BitVec 2) : Statement (.deobf pr) := oprWord_bit7 _ _

theorem encA : Statement .encA := oprWord_bit7 _ _

theorem encB : Statement .encB := oprWord_bit7 _ _

theorem encC : Statement .encC := oprWord_bit7 _ _

theorem decA : Statement .decA := oprWord_bit7 _ _

theorem decB : Statement .decB := oprWord_bit7 _ _

theorem decC : Statement .decC := oprWord_bit7 _ _

theorem identB : Statement .identB := oprWord_bit7 _ _

theorem xfOut (pr : BitVec 2) : Statement (.xfOut pr) := oprWord_bit7 _ _

theorem xfIn (pr : BitVec 2) : Statement (.xfIn pr) := oprWord_bit7 _ _

theorem reqCap (pr : BitVec 2) : Statement (.reqCap pr) := oprWord_bit7 _ _

theorem reqSteps (pr : BitVec 2) : Statement (.reqSteps pr) := oprWord_bit7 _ _

theorem reqMy (pr : BitVec 2) : Statement (.reqMy pr) := oprWord_bit7 _ _

theorem reqProg (pr : BitVec 2) : Statement (.reqProg pr) := oprWord_bit7 _ _

theorem reqRaw (pr : BitVec 2) : Statement (.reqRaw pr) := oprWord_bit7 _ _

theorem rx (pr : BitVec 2) : Statement (.rx pr) := oprWord_bit7 _ _

theorem frameA (address : BitVec 24) (mask : BitVec 8) (code7 : BitVec 7) :
    Statement (.frameA address mask code7) := by simp [Statement, encode, frameBitsA]

theorem frameB (address : BitVec 16) (unit code4 : BitVec 4) (flags csum : Byte) :
    Statement (.frameB address unit code4 flags csum) := by simp [Statement, encode, frameBitsB]

theorem frameCShort (mark0 : Byte) (nib csum : BitVec 4) (rc : BitVec 16) (address : BitVec 24) :
    Statement (.frameCShort mark0 nib csum rc address) := by
  simp [Statement, encode, wireBitsC, plainC, obf_length]

theorem frameCExt (mark0 : Byte) (nib csum : BitVec 4) (rc : BitVec 16) (address : BitVec 24)
    (mark7 extCmd : Byte) (count check : BitVec 4) :
    Statement (.frameCExt mark0 nib csum rc address mark7 extCmd count check) := by
  simp [Statement, encode, wireBitsC, plainC, obf_length]

end Sys2Proof.Laws.RowFormat
end

