-- ==== Sys2Proof/Laws/Sequencer.lean ====
section
/-! SUPPORT. What `LOWER`, `SEND`, the burst list and a host write can do. -/

namespace Sys2Proof.Machine

/-- `LOWER` is the table of R340. -/
theorem loweredTable_eq (cfg : Cfg) (p : Proto) (c : Command) : loweredTable cfg p c = lower cfg p c := by
  have hz : ∀ n : BitVec 4, 0#4 ++ n = n.setWidth 8 := by decide
  have hr : ∀ t : BitVec 2, 3#2 ++ t ≠ 10#4 := by decide
  obtain ⟨a, _, _, _, _, _, _, _⟩ := c
  cases p <;> cases a <;> simp [loweredTable, lower, tagOf, hz, hr]

/-- `LOWER` keeps the repeat count. -/
theorem lower_repeatCount (cfg : Cfg) (p : Proto) (c : Command) :
    (lower cfg p c).repeatCount = c.repeatCount := by
  unfold lower; split <;> rfl

/-- Whether `EncC` succeeds does not depend on the rolling code (R352). -/
theorem encodeC_any_code {cfg : Cfg} {c : Command} {b : Bits} {r : BitVec 16}
    (h : encodeP cfg .c { c with rollingCode := r } = .ok b) (r' : BitVec 16) :
    ∃ b', encodeP cfg .c { c with rollingCode := r' } = .ok b' := by
  simp only [encodeP, encodeC] at h ⊢
  rw [show selectC cfg { c with rollingCode := r' } =
    selectC cfg { c with rollingCode := r } from rfl]
  split at h
  · cases h
  · rename_i ha
    rw [if_neg ha]
    split at h
    · cases h
    · exact ⟨_, rfl⟩
    · split at h
      · cases h
      · rename_i hr; rw [if_neg hr]; exact ⟨_, rfl⟩

/-- The second encode of `SEND` succeeds where the test did (R352). -/
theorem encode_wireCommand {s : State} {p : Proto} {c : Command} (hm : Mappable s.cfg p c) :
    ∃ bits, encodeP s.cfg p (wireCommand s p c) = .ok bits := by
  obtain ⟨b, hb⟩ := hm
  cases p
  · exact ⟨b, hb⟩
  · exact ⟨b, hb⟩
  · exact encodeC_any_code (r := 0#16) hb (s.rcc + 1#16)

theorem prepare_cmd (s : State) (p : Proto) (c : Command) :
    (s.prepare p c).1 = wireCommand s p c := by
  cases p <;> rfl

/-- A burst is the rest or 15, the smaller. -/
theorem burstOf_eq (r : BitVec 8) : burstOf r = BitVec.ofNat 8 (min 15 r.toNat) := by
  revert r; decide +kernel

/-- The wait of a burst is 100 ms per repeat. -/
theorem burstOf_wait (r : BitVec 8) :
    (burstOf r).setWidth 16 * 100#16 = BitVec.ofNat 16 (100 * min 15 r.toNat) := by
  revert r; decide +kernel

/-- Fuel above the step count does not matter. -/
theorem burstsFuel_eq (c : Command) :
    ∀ f f' n : Nat, n ≤ f → n ≤ f' → burstsFuel c f n = burstsFuel c f' n := by
  intro f
  induction f with
  | zero => intro f' n h1 h2; cases f' <;> simp [burstsFuel, show n = 0 by omega]
  | succ f ih =>
    intro f' n h1 h2
    by_cases h : n = 0
    · cases f' <;> simp [burstsFuel, h]
    · cases f' with
      | zero => omega
      | succ f' =>
        simp only [burstsFuel, if_neg h]
        rw [ih f' _ (by omega) (by omega)]

/-- `Bursts` unfolded once (R43). -/
theorem bursts_step (c : Command) (n : Nat) (h : n ≠ 0) :
    bursts c n = ({ c with repeatCount := BitVec.ofNat 8 (min 15 n) }, 100 * min 15 n) ::
      bursts c (n - min 15 n) := by
  unfold bursts
  cases n with
  | zero => exact absurd rfl h
  | succ k =>
    rw [burstsFuel, if_neg h, burstsFuel_eq c k (k + 1 - min 15 (k+1)) _ (by omega) (by omega)]

/-- What is left after a burst. -/
theorem rem_sub_burst (r : BitVec 8) :
    (r - BitVec.ofNat 8 (min 15 r.toNat)).toNat = r.toNat - min 15 r.toNat := by
  revert r; decide +kernel

theorem phase_lt_two (b : BitVec 2) (h : b.toNat < 2) : b = 0#2 ∨ b = 1#2 := by revert b; decide

theorem phase_lt_three (b : BitVec 2) (h : b.toNat < 3) : b = 0#2 ∨ b = 1#2 ∨ b = 2#2 := by
  revert b; decide

theorem pending_batch (cfg : Cfg) (q : Seq) (h : q.st ≠ .idle) (hk : q.kind = .batch) :
    pending cfg q = bursts q.cmd q.rem.toNat := by
  simp [pending, h, hk]

/-- What `SEND` leaves alone (R350). -/
theorem send_frame {s u : State} {p : Proto} {c : Command} {f b : Bool}
    (h : s.send p c f = .ok (b, u)) :
    u.seq = s.seq ∧ u.cfg = s.cfg ∧ u.timer = s.timer ∧ u.status.sc = s.status.sc ∧
      u.status.valid = s.status.valid ∧ u.agenda = s.agenda := by
  simp only [State.send] at h
  split at h
  · cases h; simp
  · cases h
  · split at h
    · cases h
    · cases h
      cases p <;> simp [State.prepare, State.transmit, State.bumpRcc]

theorem prepare_cfg (p : Proto) (c : Command) (s : State) : (s.prepare p c).2.cfg = s.cfg := by
  cases p <;> rfl

/-- The item sent is under the latched protocol, or a pairing item under Protocol-A (R356, R357). -/
theorem nextItem_proto {cfg : Cfg} {q : Seq} {p : Proto} {c : Command}
    (h : nextItem cfg q = some (p, c)) : p = q.proto ∨ p = .a := by
  simp only [nextItem] at h
  split at h
  · split at h <;> simp at h <;> exact .inl h.1.symm
  · simp at h; exact .inl h.1.symm
  · split at h <;> simp at h <;> exact .inr h.1.symm

end Sys2Proof.Machine
end

