-- ==== Sys2Proof/Laws/Written.lean ====
section
/-! SUPPORT. What a read that succeeds says of the registers it read, what an operation's operands say when
they are all written, and what two states that differ in unwritten registers only agree on (R48, R409). -/

namespace Sys2Proof.Machine

/-! ### Reads that succeed -/

theorem Reg.get_written {α : Type} {r : Reg α} {v : α} (h : r.get = .ok v) : r.written = true := by
  rw [Reg.get_eq_ok.mp h]; rfl

theorem State.readBits_written {s : State} {a n : Nat} {v : Bits} (h : s.readBits a n = .ok v) (k : Fin 80)
    (h1 : a ≤ k.val) (h2 : k.val < a + n) : s.bitbuf[k.val].written = true := by
  simp only [State.readBits] at h
  split at h
  · by_contra hw
    have hw : s.bitbuf[k.val].written = false := by simpa using hw
    have : readCells ((s.bitbuf.toArray.toList.drop a).take n) = .error .precond := by
      refine readCells_of_unwritten (x := s.bitbuf[k.val]) ?_ hw
      rw [List.mem_take_iff_getElem]
      exact ⟨k.val - a, by simp; omega, by simp [show a + (k.val - a) = k.val by omega]⟩
    rw [this] at h; cases h
  · cases h

theorem State.readBytes_written {s : State} {f : List Byte} (h : s.readBytes = .ok f) (j : Fin 10)
    (hj : j.val < s.bytelen.val) : s.bytebuf[j.val].written = true := by
  have hf := State.readBytes_ok_inv h
  rw [hf.2 j (by omega)]; rfl

theorem State.readBytes_precond {s : State}
    (h : ¬ ∀ j : Fin 10, j.val < s.bytelen.val → s.bytebuf[j.val].written = true) :
    s.readBytes = .error .precond := by
  cases hr : s.readBytes with
  | ok f => exact absurd (fun j hj => State.readBytes_written hr j hj) h
  | error e => rw [State.readBytes_error hr]

theorem State.received_written {s : State} {p : Proto} {v : Bits} (h : s.received p = .ok v) :
    ∃ n, wireLength p s.bitlen.val = some n ∧ CellsWritten s n := by
  simp only [State.received] at h
  split at h
  · cases h
  · rename_i n hn
    exact ⟨n, hn, fun k hk => State.readBits_written h k (by omega) (by omega)⟩

theorem State.received_error {s : State} {p : Proto} {e : Status} (h : s.received p = .error e)
    (hn : wireLength p s.bitlen.val ≠ none) : e = .precond := by
  simp only [State.received] at h
  split at h
  · contradiction
  · exact State.readBits_error h

/-! ### The operands of the encoders and requests -/

theorem State.heldAction_written {s : State} : s.heldAction.written = true ↔ ActionWritten s := by
  simp only [State.heldAction, ActionWritten, Bool.and_eq_true, Bool.or_eq_true, bne_iff_ne, ne_eq]
  exact and_congr_right fun _ => ⟨fun h2 h => h2.resolve_left (· h), fun h2 => or_iff_not_imp_left.mpr
    fun h => h2 (not_not.mp h)⟩

theorem State.extWritten_iff {s : State} : s.extWritten = true ↔ ExtWritten s := by
  simp only [State.extWritten, ExtWritten, Bool.and_eq_true, Bool.or_eq_true, Bool.not_eq_true']
  cases s.cmd.extv.val <;> simp

theorem State.transformed_written {s : State} {a : Reg Action} :
    (s.transformed a).written = true ↔ a.written = true ∧ SettingsWritten s := by
  simp [State.transformed, SettingsWritten, and_assoc]

theorem State.addressed_written {s : State} {p : Proto} {a : Reg Action} {reps : BitVec 8} {others : Bool} :
    let c := s.addressed p a reps others
    c.addr = true ∧ c.key = true ∧ c.rest = true ↔
      AddressingWritten s p ∧ a.written = true ∧ others = true := by
  cases p <;> simp [State.addressed, AddressingWritten, State.railWritten, State.receiverWritten] <;> tauto

theorem State.capAction_written {s : State} {r : Reg Action} (h : s.capAction = .ok r)
    (hw : r.written = true) : s.cap.written = true ∧ (s.cap.val = 0#2 → s.capval.written = true) := by
  simp only [State.capAction] at h
  split at h
  · cases h
    simp only [Bool.and_eq_true, Bool.or_eq_true, bne_iff_ne, ne_eq] at hw
    exact ⟨hw.1, fun h => hw.2.resolve_left (· h)⟩
  · split at h <;> cases h
    cases hw

/-- A presented command that would be complete with more registers written, and the registers that are
written say nothing else: the read of the missing one is `Precond`. -/
theorem Presented.check_incomplete {o o' : Presented} {p : Proto} {u : Command → Bool} {c : Command}
    (hok : o'.check p u = .ok c)
    (ha : o.addr = true → addressFits p o'.cmd.address = true → addressFits p o.cmd.address = true)
    (hk : o.key = true → u o'.cmd = false → u o.cmd = false)
    (hn : ¬ (o.addr = true ∧ o.key = true ∧ o.rest = true)) : o.check p u = .error .precond := by
  obtain ⟨_, _, _, _, h1, h2⟩ := Presented.check_eq_ok.mp hok
  exact Presented.check_precond (fun h => ha h h1) (fun h => hk h h2) hn

/-- The same of `Accept`. -/
theorem Presented.accept_incomplete {o o' : Presented} {cfg : Cfg} {p : Proto} {c : Command}
    (hok : o'.accept cfg p = .ok c)
    (ha : o.addr = true → addressFits p o'.cmd.address = true → addressFits p o.cmd.address = true)
    (hk : o.key = true → unmappedP cfg p o'.cmd = false → unmappedP cfg p o.cmd = false)
    (hn : ¬ (o.addr = true ∧ o.key = true ∧ o.rest = true)) : o.accept cfg p = .error .precond := by
  simp only [Presented.accept, bind_eq_ok] at hok
  obtain ⟨d, h1, _⟩ := hok
  simp only [Presented.accept, Presented.check_incomplete h1 ha hk hn]; rfl

/-! ### What selects the code -/

theorem unmappedC_congr {cfg : Cfg} {c c' : Command} (h1 : c'.action = c.action)
    (h2 : c'.extCmd.isSome = c.extCmd.isSome) : unmappedC cfg c' = unmappedC cfg c := by
  unfold unmappedC selectC
  rw [h1]
  cases e : c.extCmd <;> cases e' : c'.extCmd <;> simp [e, e'] at h2
  · simp
  · cases c.action <;> simp
    split <;> rfl

/-- Whether a command has a code rests on its action, on the rail under Protocol-B, and under Protocol-C on
`extCmd` being present, of a `Custom` action only. -/
theorem unmappedP_congr {cfg : Cfg} {p : Proto} {c c' : Command} (h1 : c'.action = c.action)
    (h2 : p = .b → c'.rail = c.rail)
    (h3 : p = .c → isCustom c.action = true → c'.extCmd.isSome = c.extCmd.isSome) :
    unmappedP cfg p c' = unmappedP cfg p c := by
  cases p
  · have : (lower cfg .a c').action = (lower cfg .a c).action := by
      simp only [lower, h1]; cases c.action <;> first | rfl | exact h1
    simp only [unmappedP, unmappedA, this]
  · simp only [unmappedP, unmappedB, lower, h1, h2 rfl]
  · have ha : (lower cfg .c c').action = (lower cfg .c c).action := by
      simp only [lower, h1]; cases hh : c.action <;> first | rfl | (rw [hh] at h1; simp [h1, hh])
    refine unmappedC_congr ha ?_
    simp only [lower, h1]
    cases hh : c.action <;> try rfl
    exact h3 rfl (by rw [hh]; rfl)

/-- An action that is neither `Custom` nor a key of `CODE_C` has no frame, whatever `EXTV` holds. -/
theorem unmappedC_of_noKey {cfg : Cfg} {c : Command}
    (h : ((tableAt cfg.codeC c.action).isSome || isCustom c.action) = false) : unmappedC cfg c = true := by
  simp only [Bool.or_eq_false_iff, Option.isSome_eq_false_iff] at h
  unfold unmappedC selectC
  cases e : c.extCmd with
  | none => simp at h ⊢; exact h.1
  | some x => cases hc : c.action <;> simp [isCustom, hc] at h ⊢

/-! ### Filled registers -/

theorem Reg.Fills_val {α : Type} {r r' : Reg α} (h : r.Fills r') (hw : r.written = true) : r'.val = r.val := by
  rw [h hw]

theorem State.Fills_hostTag {s t : State} (h : s.Fills t) (ht : t.hostTag = .ok ()) : s.hostTag = .ok () := by
  rcases hostTag_cases s with ⟨h1, h2, _⟩ | ⟨_, h2⟩
  · simp [State.hostTag, h.2.1.1 h1, h1, h2] at ht
  · exact h2

theorem State.Fills_heldAction {s t : State} (h : s.Fills t) (hw : s.heldAction.written = true) :
    t.heldAction.val = s.heldAction.val := by
  obtain ⟨h1, h2⟩ := State.heldAction_written.mp hw
  simp only [State.heldAction, Reg.Fills_val h.2.1.1 h1]
  by_cases hc : s.cmd.action.val = 10#4
  · rw [Reg.Fills_val h.2.1.2.1 (h2 hc)]
  · have : s.cmd.action.val.toNat ≠ 10 := fun hh => hc (BitVec.eq_of_toNat_eq hh)
    simp only [actionOf]; split <;> first | rfl | omega

theorem State.Fills_received {s t : State} (h : s.Fills t) {p : Proto} {v : Bits} (hr : s.received p = .ok v) :
    t.received p = .ok v := by
  have hl : t.bitlen = s.bitlen := by rw [h.1]
  obtain ⟨n, hn, hw⟩ := State.received_written hr
  simp only [State.received, hn] at hr
  simp only [State.received, hl, hn]
  simp only [State.readBits] at hr ⊢
  rw [hl]
  split at hr
  · rename_i hle
    rw [if_pos hle, ← hr]
    congr 1
    apply List.ext_getElem
    · simp
    · intro i h1 h2
      have h1' : i < n ∧ i < 80 := by simpa using h1
      simp only [List.drop_zero, List.getElem_take]
      exact h.2.2.2.2.1 ⟨i, h1'.2⟩ (hw ⟨i, h1'.2⟩ h1'.1)
  · cases hr

end Sys2Proof.Machine
end

