-- ==== Sys2Proof/Tests/Slice0.lean ====
section
/-! SUPPORT. The model's own tests: ill-formed terms refused, every constructor's word decoded, one step of
every instruction on a value of spec/95_test_vectors.md (its row is named in the docstring), and, for each
obligation that has hypotheses, a state and operands that meet them. -/

namespace Sys2Proof.Tests

open Sys2Proof Sys2Proof.Machine

/-- The block after reset and the given host writes. -/
def fromHost (l : List HostWrite) : State := l.foldl (fun s w => s.hostWrite w) State.reset

/-- The block after reset, with a byte list in `BYTEBUF`. -/
def withBytes (f : List Byte) : State :=
  { State.reset with bytebuf := writeAt State.reset.bytebuf 0 f, bytelen := ⟨min f.length 10, by omega⟩ }

/-- The block after reset, with the `n` bits of `v` in `BITBUF`, and some host writes. -/
def withBits (n v : Nat) (l : List HostWrite) : State := (fromHost l).putBits (intToMsb v n)

/-- The block after reset, with these items on the agenda. -/
def facing (l : List Input) : State := { State.reset with agenda := l }

/-- The state a step answers, where it answers one. -/
def after (o : Out) : State :=
  match o with
  | .next t => t
  | .fault _ => State.reset
  | .refused _ => State.reset

/-- The bits `BITBUF` holds. -/
def held (s : State) : Bits := (s.bitbuf.toArray.toList.take s.bitlen.val).map (·.val)

/-- The bytes `BYTEBUF` holds. -/
def heldBytes (s : State) : List Byte := (s.bytebuf.toArray.toList.take s.bytelen.val).map (·.val)

/-! ### WellFormed refuses -/

theorem test_wf_req_proto3 : (Instr.reqCap 3#2).wellFormed = false ∧ (Instr.reqSteps 3#2).wellFormed = false ∧
    (Instr.reqMy 3#2).wellFormed = false ∧ (Instr.reqProg 3#2).wellFormed = false ∧
    (Instr.reqRaw 3#2).wellFormed = false := by decide

theorem test_wf_rx_proto3 : (Instr.rx 3#2).wellFormed = false := by decide

theorem test_wf_frameB_flags : (Instr.frameB 0x1234#16 5#4 1#4 0x2F#8 0x77#8).wellFormed = false := by decide

/-! ### Decoding: words written out from the tables of 30_encoding.md -/

/-- R121: bits 7 to 0 are `0`, `PROTO`, `OP`. -/
theorem test_decode_bitvector :
    decode (.opr 0b01100001#8) = .ok (.i2b 3#2) ∧ decode (.opr 0b00000010#8) = .ok (.b2i 0#2) ∧
    decode (.opr 0b00100011#8) = .ok (.bfIns 1#2) ∧ decode (.opr 0b01000100#8) = .ok (.bfExt 2#2) := by
  decide

theorem test_decode_checksum :
    decode (.opr 0b00000101#8) = .ok .csumNone ∧ decode (.opr 0b00100101#8) = .ok .csumAdd ∧
    decode (.opr 0b01000101#8) = .ok .csumXorn ∧ decode (.opr 0b00000110#8) = .ok .chkNone ∧
    decode (.opr 0b00100110#8) = .ok .chkAdd ∧ decode (.opr 0b01000110#8) = .ok .chkXorn ∧
    decode (.opr 0b00000111#8) = .ok (.obf 0#2) ∧ decode (.opr 0b00101000#8) = .ok (.deobf 1#2) := by
  decide

theorem test_decode_codecs :
    decode (.opr 0b00001001#8) = .ok .encA ∧ decode (.opr 0b00101001#8) = .ok .encB ∧
    decode (.opr 0b01001001#8) = .ok .encC ∧ decode (.opr 0b00001010#8) = .ok .decA ∧
    decode (.opr 0b00101010#8) = .ok .decB ∧ decode (.opr 0b01001010#8) = .ok .decC ∧
    decode (.opr 0b00101011#8) = .ok .identB := by decide

theorem test_decode_pipeline :
    decode (.opr 0b00001100#8) = .ok (.xfOut 0#2) ∧ decode (.opr 0b01101101#8) = .ok (.xfIn 3#2) ∧
    decode (.opr 0b00110000#8) = .ok (.reqCap 1#2) ∧ decode (.opr 0b01010001#8) = .ok (.reqSteps 2#2) ∧
    decode (.opr 0b01010010#8) = .ok (.reqMy 2#2) ∧ decode (.opr 0b00010011#8) = .ok (.reqProg 0#2) ∧
    decode (.opr 0b00110100#8) = .ok (.reqRaw 1#2) ∧ decode (.opr 0b01010101#8) = .ok (.rx 2#2) := by
  decide

/-- R130: the frame of S1. -/
theorem test_decode_frameA :
    decode (.frame .a (intToMsb 0b000000000000000000000001000000010001000 39)) =
      .ok (.frameA 0x000001#24 0x01#8 0b0001000#7) := by decide

/-- R140, R141: vectors B1 and B7. -/
theorem test_decode_frameB :
    decode (.frame .b (intToMsb 0b0100100000101100101010000000000001100101 40)) =
      .ok (.frameB 0x1234#16 5#4 1#4 0x00#8 0xA6#8) ∧
    decode (.frame .b (intToMsb 0b0100100000101100101010000000100101101000 40)) =
      .ok (.frameB 0x1234#16 5#4 1#4 0x90#8 0x16#8) := by decide

/-- R150, R151: vectors C6 and X3. -/
theorem test_decode_frameC :
    decode (.frame .c (intToMsb 0b10100111111010111111100111001101001000101110111101000100 56)) =
      .ok (.frameCShort 0xA7#8 4#4 0xC#4 0x1234#16 0xABCDEF#24) ∧
    decode (.frame .c (intToMsb
        0b10100111000101010001010100000111010100010110010101110111111101111111011010001000 80)) =
      .ok (.frameCExt 0xA7#8 0xB#4 2#4 0x0012#16 0x123456#24 0x80#8 0x01#8 7#4 0xE#4) := by decide

/-- R122: vector T28, each word under its name. -/
theorem test_decode_rejects :
    decode (.opr 0x00#8) = .error .undefinedOp ∧ decode (.opr 0x0E#8) = .error .undefinedOp ∧
    decode (.opr 0x16#8) = .error .undefinedOp ∧ decode (.opr 0x89#8) = .error .reservedBit ∧
    decode (.opr 0x69#8) = .error .reservedProto ∧ decode (.opr 0x75#8) = .error .reservedProto ∧
    decode (.opr 0x0B#8) = .error .identProto ∧
    decode (.frame .a (intToMsb 0 38)) = .error .frameLength ∧
    decode (.frame .b (intToMsb 0b0100100000101100101010001111010011101110 40)) = .error .frameReserved := by
  decide

theorem test_table_word_request : decodeTableWord 8 0x45 = some .csumXorn := by decide

theorem test_table_word_frameB :
    decodeTableWord 40 0b0100100000101100101010000000000001100101 =
      some (.frameB 0x1234#16 5#4 1#4 0x00#8 0xA6#8) := by decide

/-- The plain pattern of the short frame, vector C1, is presented whitened. -/
theorem test_table_word_frameC :
    decodeTableWord 56 0xA7290001563412 = some (.frameCShort 0xA7#8 2#4 9#4 0x0001#16 0x123456#24) := by
  decide

/-- The next step after reset runs the word: `CHK.NONE` answers 1. -/
theorem test_fetch_word_runs : (after (step (State.reset.withFetchWord 8 0x06))).res = 1#32 ∧
    (after (step (State.reset.withFetchWord 8 0x06))).trace = [.resp .ok] := by decide

/-! ### One step of every instruction -/

/-- V7 and V3. -/
theorem test_i2b : held (after (exec (.i2b 0#2) (fromHost
      [.value 0xFFFFFFFF#32, .wid 32#6, .ord false, .off 0#7]))) = List.replicate 32 true ∧
    held (after (exec (.i2b 0#2) (fromHost [.value 0x1234#32, .wid 16#6, .ord true, .off 0#7]))) =
      intToMsb 0b0100100000101100 16 := by decide

/-- V8 (append at the end) and V10. -/
theorem test_i2b_append : held (after (exec (.i2b 0#2) (withBits 3 0b101
      [.value 0#32, .wid 1#6, .ord false, .off 3#7]))) = intToMsb 0b1010 4 ∧
    (after (exec (.i2b 0#2) (fromHost [.value 1#32, .wid 12#6, .ord true, .off 0#7]))).status.sc =
      .precond := by decide

/-- V13 and V17. -/
theorem test_b2i : (after (exec (.b2i 0#2) (withBits 8 0b00000001 [.off 0#7, .wid 8#6, .ord true]))).res =
      0x80#32 ∧
    (after (exec (.b2i 0#2) (withBits 39 0 [.off 30#7, .wid 16#6, .ord false]))).status.sc = .precond := by
  decide

/-- F1 and F3. -/
theorem test_bfIns : (after (exec (.bfIns 0#2) (fromHost
      [.base 0x05#32, .value 0xC#32, .pos 4#5, .wid 4#6]))).res = 0xC5#32 ∧
    (after (exec (.bfIns 0#2) (fromHost
      [.base 0xFFFFFFFF#32, .value 0#32, .pos 8#5, .wid 8#6]))).res = 0xFFFF00FF#32 := by decide

/-- F10 and F11. -/
theorem test_bfExt : (after (exec (.bfExt 0#2) (fromHost
      [.value 0x80000000#32, .pos 31#5, .wid 1#6]))).res = 1#32 ∧
    (after (exec (.bfExt 0#2) (fromHost [.value 1#32, .pos 31#5, .wid 2#6]))).status.sc = .precond := by
  decide

/-- K1 and K2. -/
theorem test_csumNone : (after (exec .csumNone { withBytes [0x12#8, 0x34#8] with res := 7#32 })).res =
    0#32 := by decide

theorem test_chkNone : (after (exec .chkNone State.reset)).res = 1#32 := by decide

/-- S2 and K5. -/
theorem test_csumAdd : (after (exec .csumAdd (withBytes [0x00#8, 0x01#8, 0xC0#8, 0x01#8]))).res = 0x3F#32 ∧
    (after (exec .csumAdd (withBytes [0xFF#8, 0xFF#8, 0xFF#8, 0xFF#8]))).res = 0x05#32 := by decide

/-- K13. -/
theorem test_csumXorn : (after (exec .csumXorn (withBytes
    [0xA7#8, 0x20#8, 0x00#8, 0x01#8, 0x56#8, 0x34#8, 0x12#8]))).res = 0x9#32 := by decide

/-- K9 and K10. -/
theorem test_chkAdd : (after (exec .chkAdd (withBytes [0x00#8, 0x01#8, 0xC0#8, 0x01#8, 0x3F#8]))).res =
      1#32 ∧
    (after (exec .chkAdd (withBytes [0x00#8, 0x01#8, 0xC0#8, 0x01#8, 0x3E#8]))).status.sc = .checksum := by
  decide

/-- K16 and K17. -/
theorem test_chkXorn : (after (exec .chkXorn (withBytes
      [0xA7#8, 0x29#8, 0x00#8, 0x01#8, 0x56#8, 0x34#8, 0x12#8]))).res = 1#32 ∧
    (after (exec .chkXorn (withBytes
      [0xA7#8, 0x29#8, 0x00#8, 0x01#8, 0x56#8, 0x34#8, 0x13#8]))).status.sc = .checksum := by decide

/-- K19. -/
theorem test_obf : heldBytes (after (exec (.obf 0#2) (withBytes
      [0xA7#8, 0xB0#8, 0x00#8, 0x10#8, 0x56#8, 0x34#8, 0x12#8, 0x80#8, 0x01#8, 0xF6#8]))) =
    [0xA7#8, 0x17#8, 0x17#8, 0x07#8, 0x51#8, 0x65#8, 0x77#8, 0xF7#8, 0xF6#8, 0x00#8] := by decide

/-- K21 and K22. -/
theorem test_deobf : heldBytes (after (exec (.deobf 0#2) (withBytes [0xFF#8, 0x00#8, 0xFF#8]))) =
      [0xFF#8, 0xFF#8, 0xFF#8] ∧
    heldBytes (after (exec (.deobf 0#2) (withBytes
      [0xA7#8, 0x8E#8, 0x8E#8, 0x8F#8, 0xD9#8, 0xED#8, 0xFF#8]))) =
      [0xA7#8, 0x29#8, 0x00#8, 0x01#8, 0x56#8, 0x34#8, 0x12#8] := by decide

/-- A2 and A7. -/
theorem test_encA : held (after (exec .encA (fromHost [.action 1#4, .addr 0x123456#24, .chmask 0x05#8]))) =
      intToMsb 0b000100100011010001010110000001010011001 39 ∧
    held (after (exec .encA (fromHost [.action 2#4, .addr 0xABCDEF#24, .chmask 0x00#8]))) =
      intToMsb 0b101010111100110111101111000000000101010 39 := by decide

/-- A14 and A15. -/
theorem test_encA_unmapped : (after (exec .encA (fromHost
      [.action 6#4, .addr 0x123456#24, .chmask 0x05#8]))).status.sc = .unmapped ∧
    (after (exec .encA (fromHost [.action 11#4]))).status.sc = .unmapped := by decide

/-- B7 and B10. -/
theorem test_encB : held (after (exec .encB (fromHost
      [.action 3#4, .rail 3#2, .addr 0x1234#24, .unit 5#4]))) =
      intToMsb 0b0100100000101100101010000000100101101000 40 ∧
    held (after (exec .encB (fromHost [.action 6#4, .rail 2#2, .addr 0x8001#24, .unit 2#4]))) =
      intToMsb 0b0000000110000000010000010000000001111111 40 := by decide

/-- B21 (rail 0) and B22 (the address is checked first). -/
theorem test_encB_refuses : (after (exec .encB (fromHost
      [.action 0#4, .rail 0#2, .addr 0x1234#24, .unit 5#4]))).status.sc = .unmapped ∧
    (after (exec .encB (fromHost
      [.action 8#4, .rail 1#2, .addr 0x012345#24, .unit 5#4]))).status.sc = .malformed := by decide

/-- C6 and X4. -/
theorem test_encC : held (after (exec .encC (fromHost
      [.action 1#4, .addr 0xABCDEF#24, .rc 0x1234#16, .extv false]))) =
      intToMsb 0b10100111111010111111100111001101001000101110111101000100 56 ∧
    held (after (exec .encC (fromHost
      [.action 10#4, .custom 0x0B#8, .addr 0x123456#24, .rc 0x0001#16, .extv true, .extb 0x02#8,
        .rep 1#8]))) =
      intToMsb 0b10100111000101110001011100010110010000000111010001100110111001101110010011111111 80 := by
  decide

/-- C20 (`Custom(2)` with `extCmd`) and C21 (a count of 16). -/
theorem test_encC_refuses : (after (exec .encC (fromHost
      [.action 10#4, .custom 0x02#8, .addr 0x123456#24, .rc 0x0001#16, .extv true, .extb 0x01#8]))).status.sc =
      .unmapped ∧
    (after (exec .encC (fromHost
      [.action 10#4, .custom 0x0B#8, .addr 0x123456#24, .rc 0x0001#16, .extv true, .extb 0x01#8,
        .rep 16#8]))).status.sc = .precond := by decide

/-- A9, and A10: a 40th bit is ignored. -/
theorem test_decA : (let t := after (exec .decA (withBits 39 0b101010111100110111101111000000000101010 []));
      (t.cmd.action.val, t.cmd.addr.val, t.cmd.chmask.val, t.statusWord)) =
      (2#4, 0xABCDEF#24, 0x00#8, 0b000110000#9) ∧
    (let t := after (exec .decA (withBits 40 0b0001001000110100010101100000010100010001 []));
      (t.cmd.action.val, t.cmd.addr.val, t.cmd.chmask.val, t.statusWord)) =
      (0#4, 0x123456#24, 0x05#8, 0b001010000#9) := by decide

/-- A11: the pairing frame, and A13. -/
theorem test_decA_refuses :
    (after (exec .decA (withBits 39 0b000100100011010001010110000001010111010 []))).status.sc = .unknownCode ∧
    (after (exec .decA (withBits 38 0 []))).status.sc = .badLength := by decide

/-- B16 and B5. -/
theorem test_decB : (let t := after (exec .decB (withBits 40 0b0100100000101100101010001111010011101110 []));
      (t.cmd.action.val, t.cmd.rail.val, t.cmd.addr.val, t.cmd.unit.val)) = (0#4, 1#2, 0x1234#24, 5#4) ∧
    (let t := after (exec .decB (withBits 40 0b0100100000101100101000100000100001100110 []));
      (t.cmd.action.val, t.cmd.rail.val, t.cmd.addr.val, t.cmd.unit.val)) = (4#4, 2#2, 0x1234#24, 5#4) := by
  decide

/-- B13 and B15. -/
theorem test_decB_refuses :
    (after (exec .decB (withBits 40 0b1100100000101100101010000000000001100101 []))).status.sc = .checksum ∧
    (after (exec .decB (withBits 40 0b0100100000101100101011010000000001100000 []))).status.sc =
      .unknownCode := by decide

/-- C6 and X3, decoded. -/
theorem test_decC : (let t := after (exec .decC (withBits 56
        0b10100111111010111111100111001101001000101110111101000100 []));
      (t.cmd.action.val, t.cmd.rc.val, t.cmd.addr.val, t.cmd.extv.val)) = (1#4, 0x1234#16, 0xABCDEF#24, false) ∧
    (let t := after (exec .decC (withBits 80
        0b10100111000101010001010100000111010100010110010101110111111101111111011010001000 []));
      (t.cmd.custom.val, t.cmd.rc.val, t.cmd.extb.val, t.cmd.rep.val)) = (0xB#8, 0x0012#16, 0x01#8, 7#8) := by
  decide

/-- C14 (the main check) and C17 (the trailer). -/
theorem test_decC_refuses :
    (after (exec .decC (withBits 56
      0b10100111100011101000111010001111110110011110110101111111 []))).status.sc = .checksum ∧
    (after (exec .decC (withBits 80
      0b10100111000101110001011100000111010100010110010101110111111101111111011010000000 []))).status.sc =
      .checksum := by decide

/-- B23 and B24. -/
theorem test_identB : (after (exec .identB (fromHost [.addr 0x1234#24, .unit 5#4]))).res = 0x12345#32 ∧
    (after (exec .identB (fromHost [.addr 0x010000#24, .unit 5#4]))).status.sc = .malformed := by decide

/-- T1 and T2. -/
theorem test_xfOut : (after (exec (.xfOut 0#2) (fromHost [.action 0#4, .rot true, .inv false]))).cmd.action.val =
      1#4 ∧
    (after (exec (.xfOut 0#2) (fromHost [.action 3#4, .rot true, .inv true]))).cmd.action.val = 3#4 := by
  decide

/-- T6 and T7. -/
theorem test_xfIn : (after (exec (.xfIn 0#2) (fromHost [.action 4#4, .rot true, .inv false]))).cmd.action.val =
      3#4 ∧
    (after (exec (.xfIn 0#2) (fromHost [.action 0#4, .rot false, .inv true]))).cmd.action.val = 0#4 := by
  decide

/-- The Protocol-A request of P1: `Down` with the follow-up `DeepDown`. -/
def requestA : List HostWrite :=
  [.rot true, .inv false, .pulse false, .addr 0x000001#24, .chmask 0x01#8, .cap 0#2, .capval 0#2]

theorem test_reqCap : (let q := (after (exec (.reqCap 0#2) (fromHost requestA))).seq;
      (q.st, q.cmd.action, q.fuv, q.fuact)) = (.ready, .down, true, 9#4) ∧
    (after (exec (.reqCap 0#2) (fromHost [.cap 3#2]))).status.sc = .precond := by decide

/-- P2, accepted: 37 tilt steps under Protocol-C. -/
def stepsC : State := fromHost [.rot false, .inv false, .addr 0x123456#24, .action 3#4, .steps 37#8]

theorem test_reqSteps : (let q := (after (exec (.reqSteps 2#2) stepsC)).seq;
      (q.st, q.kind, q.rem, q.cmd.action)) = (.ready, .batch, 37#8, .tiltUp) := by decide

/-- T14 and T15: the repeat counts 20 and 45. -/
theorem test_reqMy : (after (exec (.reqMy 0#2) (fromHost [.addr 0xFFFFFF#24, .chmask 0x1F#8]))).seq.cmd.repeatCount =
      20#8 ∧
    (after (exec (.reqMy 2#2) (fromHost [.addr 0x123456#24]))).seq.cmd.repeatCount = 45#8 := by decide

/-- P3 and, under Protocol-C, a plain list. -/
theorem test_reqProg : (after (exec (.reqProg 0#2) (fromHost [.addr 0x000001#24, .chmask 0x01#8]))).seq.kind =
      .pair ∧
    (after (exec (.reqProg 2#2) (fromHost [.addr 0x123456#24]))).seq.kind = .list := by decide

/-- T20 and T21. -/
theorem test_reqRaw : (after (exec (.reqRaw 1#2) (fromHost
      [.action 6#4, .rail 2#2, .addr 0x8001#24, .unit 2#4, .rep 3#8]))).seq.cmd.action = .setLimit ∧
    (after (exec (.reqRaw 1#2) (fromHost
      [.action 0#4, .rail 1#2, .addr 0x1234#24, .unit 5#4, .rep 0#8]))).status.sc = .precond := by decide

/-- The action of the last command delivered, and how many events there are. -/
def deliveredAction (s : State) : Option Action × Nat :=
  (s.trace.head?.bind fun e => match e with
    | .deliver c => some c.action
    | .rcGet _ | .rcSet _ | .transmit _ _ | .txFail | .wait _ | .expire | .resp _ => none, s.trace.length)

/-- T23, and T26. -/
theorem test_rx : deliveredAction (after (exec (.rx 0#2) (withBits 39
      0b000000000000000000000001000000010001000 [.rot true, .inv false]))) = (some .tiltDown, 2) ∧
    deliveredAction (after (exec (.rx 2#2) (withBits 80
      0b10100111000101110001011100010110010000000111010001100110111001101110010011111111
      [.rot false, .inv true]))) = (some .tiltUp, 2) := by decide

/-- T27 and T28. -/
theorem test_rx_refuses : deliveredAction (after (exec (.rx 1#2) (withBits 40
      0b1100100000101100101010000000000001100101 [.rot false, .inv false]))) = (none, 1) ∧
    (after (exec (.rx 3#2) (fromHost []))).status.sc = .illegalOp := by decide

/-- T24. -/
theorem test_frameA : deliveredAction (after (exec (.frameA 0x123456#24 0x05#8 0b0001111#7)
    (fromHost [.rot false, .inv false]))) = (some .deepUp, 2) := by decide

/-- P4: bytes `12 34 15 10 96`, with both settings on, then with inversion off. -/
theorem test_frameB : deliveredAction (after (exec (.frameB 0x1234#16 5#4 1#4 0x10#8 0x96#8)
      (fromHost [.rot true, .inv true]))) = (some .tiltUp, 2) ∧
    deliveredAction (after (exec (.frameB 0x1234#16 5#4 1#4 0x10#8 0x96#8)
      (fromHost [.rot true, .inv false]))) = (some .tiltDown, 2) := by decide

/-- C1, received. -/
theorem test_frameCShort : deliveredAction (after (exec
    (.frameCShort 0xA7#8 2#4 9#4 0x0001#16 0x123456#24) (fromHost [.rot true, .inv false]))) =
    (some .down, 2) := by decide

/-- T25. -/
theorem test_frameCExt : deliveredAction (after (exec
    (.frameCExt 0xA7#8 0xB#4 0#4 0x0010#16 0x123456#24 0x80#8 0x01#8 15#4 6#4)
    (fromHost [.rot false, .inv false]))) = (some .tiltUp, 2) := by decide

/-! ### One step of the sequencer and of the outside world -/

/-- P1: the primary, `Transmit(..., 1)` of the `Down` frame. -/
theorem test_fire_list : (after (seqFire false (after (exec (.reqCap 0#2) (fromHost requestA))))).trace =
    [.resp .ok, .transmit (intToMsb 0b000000000000000000000001000000010011001 39) 1#8] := by decide

/-- P2, from `RCC = 0x000F`: the first burst, with the bits X1. -/
theorem test_fire_batch :
    (after (seqFire false (after (exec (.reqSteps 2#2) { stepsC with rcc := 0x000F#16 })))).trace =
      [.resp .ok, .rcGet 0x000F#16, .rcSet 0x0010#16, .transmit (intToMsb
        0b10100111000101110001011100000111010100010110010101110111111101111111011000000000 80) 15#8,
        .wait 1500#16] := by decide

/-- P3: the pairing frame, and the wait of 1000 ms. -/
theorem test_fire_pair :
    (after (seqFire false (after (exec (.reqProg 0#2) (fromHost [.addr 0x000001#24, .chmask 0x01#8]))))).trace =
      [.resp .ok, .transmit (intToMsb 0b000000000000000000000001000000010111010 39) 1#8,
        .wait 1000#16] := by decide

/-- T29: a failed call is `TxFail` and the sticky flag. -/
theorem test_fire_txfail :
    (let t := after (seqFire true (after (exec (.reqMy 0#2) (fromHost [.addr 0xFFFFFF#24, .chmask 0x1F#8]))));
      (t.status.txfail, t.trace.drop 1)) = (true,
      [.transmit (intToMsb 0b111111111111111111111111000111110101010 39) 20#8, .txFail]) := by decide

/-- R452: the counter is advanced and nothing is transmitted. -/
theorem test_crash : (let t := seqCrash (after (exec (.reqMy 2#2) (fromHost [.addr 0x123456#24])));
    (t.rcc, t.seq.st, t.trace)) = (1#16, .idle, [.resp .ok, .rcGet 0#16, .rcSet 1#16]) := by decide

/-- R38: lowering the length leaves the bytes above it without a value. -/
theorem test_lower_bytelen : (after (exec .csumAdd
    (((withBytes [1#8, 2#8]).hostWrite (.bytelen 1)).hostWrite (.bytelen 2)))).status.sc = .precond := by decide

/-! ### For each obligation with hypotheses, a state and operands that meet them -/

/-- A batch just accepted (P2), under Protocol-C. -/
def readyBatch : State := after (exec (.reqSteps 2#2) stepsC)

/-- A list with its follow-up just accepted (P1), under Protocol-A. -/
def readyList : State := after (exec (.reqCap 0#2) (fromHost requestA))

/-- A pairing just accepted (P3). -/
def readyPair : State := after (exec (.reqProg 0#2) (fromHost [.addr 0x000001#24, .chmask 0x01#8]))

/-- One `Idle` just accepted, under Protocol-C. -/
def readyMyC : State := after (exec (.reqMy 2#2) (fromHost [.addr 0x123456#24]))

/-- The batch while its first wait runs. -/
def waitingBatch : State := after (seqFire false readyBatch)

/-- R405, items 6 to 8: `Malformed` before the read of an unwritten `UNIT`, `Unmapped` before that of `RC` or
`REPEAT` (R292, R359), `Precond` where neither holds. -/
theorem test_order_of_checks :
    (after (exec .encB (fromHost [.action 0#4, .rail 1#2, .addr 0x010000#24]))).status.sc = .malformed ∧
    (after (exec .encC (fromHost [.action 8#4, .addr 0x123456#24, .extv false]))).status.sc = .unmapped ∧
    (after (exec (.reqRaw 1#2) (fromHost [.action 8#4, .rail 1#2, .addr 0x1234#24, .unit 5#4]))).status.sc =
      .unmapped ∧
    (after (exec .encC (fromHost [.action 0#4, .addr 0x123456#24, .extv false]))).status.sc = .precond ∧
    (after (exec (.reqRaw 1#2) (fromHost [.action 0#4, .rail 1#2, .addr 0x1234#24, .unit 5#4]))).status.sc =
      .precond := by decide

/-- After the end of a wait, with a second `Expire` listed. -/
def expiredOnce : State := after (step { waitingBatch with agenda := [.expire, .expire] })

/-- R55, R435: no `Expire` before a `Wait`, and one for each. -/
theorem test_expire_once :
    step (facing [.expire]) = .next (facing []) ∧ expiredOnce.seq.st = .ready ∧
    step expiredOnce = .next { expiredOnce with agenda := [] } := ⟨rfl, by decide, rfl⟩

/-- R60, R451: the `Expire` of a wait that a reset abandoned does not end a later wait. -/
theorem test_late_expire :
    (let s : State := { waitingBatch with abandoned := waitingBatch.blockReset.abandoned, agenda := [.lateExpire] };
      let t := after (step s);
      t.seq.st = .waiting ∧ t.timer = some 1500#16 ∧ t.abandoned = 0 ∧ t.trace = s.trace ++ [.expire]) := by
  decide

theorem witness_admissible : admissible cfgRef = true := by decide

/-- R420, R20: a table through which a decoder would produce `Pair`, or a reserved tag, is not admissible. -/
theorem test_no_table_names_pair :
    admissible { cfgRef with actB := (0x00F#9, .pair) :: cfgRef.actB } = false ∧
    admissible { cfgRef with actB := (0x00F#9, .reserved 1#2) :: cfgRef.actB } = false ∧
    admissible { cfgRef with actB := (0x00F#9, .deepUp) :: cfgRef.actB } = true ∧
    admissible { cfgRef with codeC := (.reserved 0#2, 0xE#4) :: cfgRef.codeC } = false := by decide

/-- Log entry 3: an unwritten address cell beside a code slice that matches no code is `Precond`. -/
theorem test_dec_reads_every_cell :
    (after (exec .decA (fromHost (.bitlen 39 :: [32, 33, 34, 35, 36, 37, 38].map (.bitCell · true))))).status.sc = .precond ∧
    (after (exec .decA (withBits 39 0x7F []))).status.sc = .unknownCode := by decide

/-- The pairing step before a request and while a batch waits (R456). -/
theorem witness_OnlySendsAndPairingWriteTheCounter :
    ((facing [.pairStore]).agenda = .pairStore :: [] ∧ (facing [.pairStore]).seq.st = .idle) ∧
    (({ waitingBatch with agenda := [.pairStore] } : State).agenda = .pairStore :: [] ∧
      waitingBatch.seq.st ≠ .idle) ∧
    ∃ t, step waitingBatch = .next t := ⟨by decide, by decide, _, rfl⟩

theorem witness_inv_batch : Inv readyBatch := by
  refine ⟨by unfold SeqShape; decide, by unfold PhaseShape; decide, fun _ => ⟨by decide, ?_, ?_⟩,
    by unfold TimerShape; decide, by unfold StatusShape; decide⟩
  · exact fun h => absurd h (by decide)
  · exact fun h => absurd h (by decide)

theorem witness_inv_list : Inv readyList := by
  refine ⟨by unfold SeqShape; decide, by unfold PhaseShape; decide, fun _ => ⟨by decide, ?_, by decide⟩,
    by unfold TimerShape; decide, by unfold StatusShape; decide⟩
  exact fun _ => .inl ⟨intToMsb 0b000000000000000000000001000000010011001 39, by decide⟩

theorem witness_inv_pair : Inv readyPair := by
  refine ⟨by unfold SeqShape; decide, by unfold PhaseShape; decide, fun _ => ⟨by decide, ?_, ?_⟩,
    by unfold TimerShape; decide, by unfold StatusShape; decide⟩
  · exact fun h => absurd h (by decide)
  · exact fun h => absurd h (by decide)

theorem witness_inv_waiting : Inv waitingBatch := by
  refine ⟨by unfold SeqShape; decide, by unfold PhaseShape; decide, fun _ => ⟨by decide, ?_, ?_⟩,
    by unfold TimerShape; decide, by unfold StatusShape; decide⟩
  · exact fun h => absurd h (by decide)
  · exact fun h => absurd h (by decide)

/-- A request word, a payload of a row, and payloads of no row: 40 bits under Protocol-A, a reserved bit of
`f[3]`, no bit at all, 80 bits under Protocol-B. -/
theorem witness_StepRunsThePresentedInstruction :
    (facing [.opr 0x06#8]).agenda = .opr 0x06#8 :: [] ∧ decode (.opr 0x06#8) = .ok .chkNone ∧
    (facing [.frame .a (intToMsb 0x88 39)]).agenda = .frame .a (intToMsb 0x88 39) :: [] ∧
    decode (.frame .a (intToMsb 0x88 39)) = .ok (.frameA 0#24 1#8 8#7) ∧
    (∀ c ∈ [(Proto.a, intToMsb 0x88 40), (.b, intToMsb 0x0000008000 40), (.c, []), (.b, intToMsb 0 80)],
      (facing [.frame c.1 c.2]).agenda = .frame c.1 c.2 :: [] ∧ c.2.length ≤ 80 ∧
      (decode (.frame c.1 c.2)).isOk = false) := by decide

/-- Each way to be illegal at its edges, and the legal words next to them. -/
theorem witness_IllegalWordsAnswerIllegalOp :
    (facing [.opr 0x0B#8]).agenda = .opr 0x0B#8 :: [] ∧
    [0x00#8, 0x0E#8, 0x0F#8, 0x16#8, 0x1F#8, 0x80#8, 0xFF#8, 0x65#8, 0x6A#8, 0x70#8, 0x75#8, 0x0B#8,
      0x4B#8, 0x6B#8].all (fun w =>
        let op := w.toNat % 32
        let proto := w.toNat / 32 % 4
        decide (op = 0x00 ∨ op = 0x0E ∨ op = 0x0F ∨ 0x16 ≤ op ∨ 128 ≤ w.toNat ∨
          (proto = 3 ∧ (op = 0x05 ∨ op = 0x06 ∨ op = 0x09 ∨ op = 0x0A ∨ 0x10 ≤ op)) ∨
          (op = 0x0B ∧ proto ≠ 1)) && decide (decodeOpr w ≠ .ok .chkNone)) = true ∧
    [0x01#8, 0x61#8, 0x0D#8, 0x10#8, 0x15#8, 0x55#8, 0x2B#8, 0x6D#8].all (fun w =>
        let op := w.toNat % 32
        let proto := w.toNat / 32 % 4
        decide (op = 0x00 ∨ op = 0x0E ∨ op = 0x0F ∨ 0x16 ≤ op ∨ 128 ≤ w.toNat ∨
          (proto = 3 ∧ (op = 0x05 ∨ op = 0x06 ∨ op = 0x09 ∨ op = 0x0A ∨ 0x10 ≤ op)) ∨
          (op = 0x0B ∧ proto ≠ 1))) = false := by decide

theorem witness_DecodedWordsReencode : decode (.opr 0x61#8) = .ok (.i2b 3#2) ∧
    decode (.frame .b (intToMsb 0 40)) = .ok (.frameB 0#16 0#4 0#4 0#8 0#8) := by decide

theorem witness_DecodeInvertsEncode : (Instr.rx 2#2).wellFormed = true ∧
    (Instr.frameB 0xFFFF#16 15#4 15#4 0x90#8 0xFF#8).wellFormed = true := by decide

/-- A reset, one during a wait with an `Expire` item after it, and one with the `Expire` of the abandoned wait. -/
theorem witness_ResetClearsTheBlock : ({ readyBatch with agenda := [.reset] } : State).agenda = .reset :: [] ∧
    ({ waitingBatch with agenda := [.reset, .expire] } : State).agenda = .reset :: .expire :: [] ∧
    ({ waitingBatch with agenda := [.reset, .lateExpire] } : State).agenda = .reset :: .lateExpire :: [] ∧
    waitingBatch.timer.isSome = true := by decide

/-- Also of `NoStepStopsUnderTheInvariant`: before a wait and in one. -/
theorem witness_InvariantKeptByEveryStep :
    (admissible readyBatch.cfg = true ∧ Inv readyBatch ∧ ExpiryShape readyBatch ∧ ∃ t, step readyBatch = .next t) ∧
    (admissible waitingBatch.cfg = true ∧ Inv waitingBatch ∧ ExpiryShape waitingBatch ∧
      ∃ t, step waitingBatch = .next t) :=
  ⟨⟨by decide, witness_inv_batch, by unfold ExpiryShape; decide, _, rfl⟩,
    by decide, witness_inv_waiting, by unfold ExpiryShape; decide, _, rfl⟩

theorem witness_FailedOperationsChangeOnlyTheStatus :
    (∃ t, exec .chkAdd State.reset = .next t ∧ t.status.sc ≠ .ok) ∧
    ∃ t, exec (.frameA 0#24 1#8 0b1111111#7) State.reset = .next t ∧ t.status.sc ≠ .ok :=
  ⟨⟨_, rfl, by decide⟩, _, rfl, by decide⟩

/-- Also of `OperationsWriteOnlyTheirRegisters`: one instruction of each kind. -/
theorem witness_OnlyRequestsTouchTheSequencer :
    (∃ t, exec .csumNone State.reset = .next t) ∧ (∃ t, exec (.obf 0#2) State.reset = .next t) ∧
    (∃ t, exec .encA (fromHost [.action 1#4, .addr 1#24, .chmask 1#8]) = .next t) ∧
    (∃ t, exec .decA (withBits 39 0x88 []) = .next t) ∧
    (∃ t, exec (.xfOut 0#2) (fromHost [.action 0#4, .rot true, .inv false]) = .next t) ∧
    (∃ t, exec (.reqSteps 2#2) stepsC = .next t) ∧
    ∃ t, exec (.frameA 1#24 1#8 8#7) (fromHost [.rot true, .inv false]) = .next t :=
  ⟨⟨_, rfl⟩, ⟨_, rfl⟩, ⟨_, rfl⟩, ⟨_, rfl⟩, ⟨_, rfl⟩, ⟨_, rfl⟩, _, rfl⟩

/-- `ENC.A` with `CHMASK` written, and the same without it; `RX` without `SET.INV`. -/
def encAFull : State := fromHost [.action 0#4, .addr 0x000001#24, .chmask 0x01#8]
def encALess : State := fromHost [.action 0#4, .addr 0x000001#24]
def rxFull : State := withBits 39 0x88 [.rot false, .inv false]
def rxLess : State := withBits 39 0x88 [.rot false]

/-- A completion; an operand missing that a value would complete, before and after a decode; operands missing
of `I2B`, `B2I`, `CHK.ADD` and `XF.OUT`; an address of 2 to the 16; actions that no table has. -/
theorem witness_UnwrittenOperandsArePreconditionFailures :
    (∃ t, exec .encA encAFull = .next t ∧ t.status.sc = .ok) ∧
    (encALess.Fills encAFull ∧ ¬ OperandsWritten encALess .encA) ∧
    (rxLess.Fills rxFull ∧ (∃ t, exec (.rx 0#2) rxFull = .next t ∧ t.status.sc = .ok) ∧
      ¬ OperandsWritten rxLess (.rx 0#2)) ∧
    (¬ OperandsWritten State.reset (.i2b 0#2) ∧ ¬ OperandsWritten State.reset (.xfOut 0#2) ∧
      ¬ OperandsWritten (fromHost [.bitlen 8, .wid 8#6, .off 0#7, .ord false]) (.b2i 0#2) ∧
      ¬ OperandsWritten (fromHost [.bytelen 10]) .chkAdd) ∧
    ((fromHost [.addr 0x010000#24]).cmd.addr = .put 0x010000#24 ∧ 2 ^ 16 ≤ (0x010000#24).toNat ∧
      ((fromHost [.addr 0x010000#24, .action 10#4]).cmd.action.val.toNat < 11)) ∧
    (HoldsAction (fromHost [.action 7#4]) .confirm ∧ tableAt cfgRef.codeA .confirm = none ∧
      tableAt cfgRef.codeC .confirm = none ∧ isCustom .confirm = false) ∧
    (HoldsAction (fromHost [.action 9#4, .rail 1#2]) .deepDown ∧
      (fromHost [.action 9#4, .rail 1#2]).cmd.rail = .put 1#2 ∧
      tableAt cfgRef.code4B (baseB .deepDown, 1#2) = none ∧
      (fromHost [.action 9#4, .rail 1#2]).cmd.addr.written = false) := by
  refine ⟨⟨_, rfl, by decide⟩, ⟨⟨by decide, ?_, ?_, ?_, fun _ _ => rfl, fun _ _ => rfl⟩, ?_⟩,
    ⟨⟨by decide, ?_, ?_, ?_, fun _ _ => rfl, fun _ _ => rfl⟩, ⟨_, rfl, by decide⟩, ?_⟩, ⟨?_, ?_, ?_, ?_⟩,
    by decide, ⟨⟨by decide, by decide, by simp⟩, by decide, by decide, by decide⟩,
    ⟨by decide, by decide, by simp⟩, by decide, by decide, by decide⟩
  all_goals first
    | (unfold Reg.Fills; decide)
    | exact fun h => absurd h.2.2 (by decide)
    | exact fun h => absurd h.1.2 (by decide)
    | (simp only [OperandsWritten]; decide)

/-- The operands of `I2B` and `B2I`. -/
def serialState (len : Fin 81) (w : BitVec 6) (v : Word) (o : BitVec 7) (d : Bool) : State :=
  fromHost [.bitlen len, .wid w, .value v, .off o, .ord d]

/-- Legal: width 32 at 0, the last byte of the buffer. Not legal: width 0 and 33, a value too large, a width
that is no multiple of 8, a gap, past the end. -/
theorem witness_I2bWritesTheSerializedBits :
    (∀ len w v o d, (serialState len w v o d).wid = .put w ∧ (serialState len w v o d).value = .put v ∧
      (serialState len w v o d).off = .put o ∧ (serialState len w v o d).ord = .put d ∧
      (serialState len w v o d).bitlen = len) ∧
    (1 ≤ 32 ∧ 32 ≤ 32 ∧ 0xFFFFFFFF < 2 ^ 32 ∧ (true = true → 32 % 8 = 0) ∧ 0 ≤ 0 ∧ 0 + 32 ≤ 80) ∧
    (1 ≤ 8 ∧ 8 ≤ 32 ∧ 0xA6 < 2 ^ 8 ∧ (true = true → 8 % 8 = 0) ∧ 72 ≤ 72 ∧ 72 + 8 ≤ 80) ∧
    ¬ (1 ≤ 0) ∧ ¬ (33 ≤ 32) ∧ ¬ (8 < 2 ^ 3) ∧ ¬ (true = true → 12 % 8 = 0) ∧ ¬ (5 ≤ 3) ∧ ¬ (76 + 8 ≤ 80) :=
  ⟨fun _ _ _ _ _ => ⟨rfl, rfl, rfl, rfl, rfl⟩, by decide⟩

theorem witness_B2iReadsTheSerializedBits :
    (let s := withBits 80 0x01 [.wid 8#6, .off 72#7, .ord true];
      s.wid = .put 8#6 ∧ s.off = .put 72#7 ∧ s.ord = .put true ∧ 72 + 8 ≤ s.bitlen.val ∧
      ∀ k : Fin 80, 72 ≤ k.val → k.val < 72 + 8 → s.bitbuf[k.val] = .put (decide (k.val - 72 = 7))) ∧
    (let s := withBits 39 0 [.wid 16#6, .off 30#7, .ord false];
      s.wid = .put 16#6 ∧ s.off = .put 30#7 ∧ s.ord = .put false ∧ ¬ (30 + 16 ≤ s.bitlen.val)) := by decide

/-- The field at the two ends of the word, and one that does not fit. -/
theorem witness_BitFieldsAreInsertedAndExtracted :
    (let s := fromHost [.wid 32#6, .pos 0#5, .base 5#32, .value 9#32];
      s.wid = .put 32#6 ∧ s.pos = .put 0#5 ∧ s.base = .put 5#32 ∧ s.value = .put 9#32) ∧
    (1 ≤ (32#6).toNat ∧ (0#5).toNat + (32#6).toNat ≤ 32) ∧ (1 ≤ (1#6).toNat ∧ (31#5).toNat + (1#6).toNat ≤ 32) ∧
    ¬ ((31#5).toNat + (2#6).toNat ≤ 32) ∧ ¬ (1 ≤ (0#6).toNat) := by decide

theorem witness_SerializerRoundTrips :
    (1 ≤ 32 ∧ 32 ≤ 32 ∧ 0xFFFFFFFF < 2 ^ 32 ∧ (BitOrder.perByteReversed = .perByteReversed → 32 % 8 = 0)) ∧
    (1 ≤ (intToMsb 5 3).length ∧ (intToMsb 5 3).length ≤ 32 ∧
      (BitOrder.msbFirst = .perByteReversed → (intToMsb 5 3).length % 8 = 0)) ∧
    255 < 256 ∧ 1 < [0x12#8, 0x34#8].length ∧ 7 < 8 := by decide

theorem witness_ExtractAfterInsertGivesTheField :
    (let s := fromHost [.wid 8#6, .pos 24#5, .base 0xFFFFFFFF#32, .value 0x1FF#32];
      s.wid = .put 8#6 ∧ s.pos = .put 24#5 ∧ s.base = .put 0xFFFFFFFF#32 ∧ s.value = .put 0x1FF#32) ∧
    1 ≤ (8#6).toNat ∧ (24#5).toNat + (8#6).toNat ≤ 32 := by decide

/-- The bytes of S2 with their checksum. -/
def goodB : List Byte := [0x00#8, 0x01#8, 0xC0#8, 0x01#8, 0x3F#8]

theorem witness_AdditiveChecksumIsOneMinusTheSum :
    HoldsBytes State.reset [] ∧ (HoldsBytes (withBytes goodB) goodB ∧ goodB ≠ [] ∧ byteSum goodB % 256 = 1) ∧
    HoldsBytes (withBytes [0x02#8]) [0x02#8] ∧ byteSum [0x02#8] % 256 ≠ 1 :=
  ⟨⟨by decide, by decide⟩, ⟨⟨by decide, by decide⟩, by decide, by decide⟩, ⟨by decide, by decide⟩, by decide⟩

theorem witness_SingleBitFlipsFailTheAdditiveCheck :
    HoldsBytes (withBytes goodB) goodB ∧ goodB.length = 5 ∧
    exec .chkAdd (withBytes goodB) = .next ({ withBytes goodB with res := 1#32 }.respond .ok) ∧
    HoldsBytes (withBytes (flipByteBit goodB 4 7)) (flipByteBit goodB 4 7) ∧
    ((goodB.getD 2 0#8).getLsbD 7 = true ∧ (goodB.getD 0 0#8).getLsbD 7 = false ∧
      HoldsBytes (withBytes (flipByteBit (flipByteBit goodB 2 7) 0 7)) (flipByteBit (flipByteBit goodB 2 7) 0 7)) :=
  ⟨⟨by decide, by decide⟩, rfl, rfl, ⟨by decide, by decide⟩, by decide, by decide, by decide, by decide⟩

/-- The plain bytes of C1. -/
def plainC1 : List Byte := [0xA7#8, 0x29#8, 0x00#8, 0x01#8, 0x56#8, 0x34#8, 0x12#8]

/-- The plain bytes of C1 before the checksum is put in. -/
def bareC1 : List Byte := [0xA7#8, 0x20#8, 0x00#8, 0x01#8, 0x56#8, 0x34#8, 0x12#8]

theorem witness_NibbleChecksumIsTheXorOfTheNibbles :
    HoldsBytes State.reset [] ∧ (HoldsBytes (withBytes plainC1) plainC1 ∧ plainC1 ≠ [] ∧ nibbleXor plainC1 = 0#4) ∧
    (HoldsBytes (withBytes bareC1) bareC1 ∧ nibbleXor bareC1 ≠ 0#4) ∧
    2 ≤ bareC1.length ∧ (bareC1.getD 1 0#8).extractLsb' 0 4 = 0#4 ∧
    HoldsBytes (withBytes plainC1) (bareC1.set 1 (bareC1.getD 1 0#8 ||| (nibbleXor bareC1).setWidth 8)) :=
  ⟨⟨by decide, by decide⟩, ⟨⟨by decide, by decide⟩, by decide, by decide⟩,
    ⟨⟨by decide, by decide⟩, by decide⟩, by decide, by decide, by decide, by decide⟩

/-- Also of `WhiteningOperationsUndoEachOther`: no byte, and ten. -/
theorem witness_WhiteningFollowsItsChains : HoldsBytes State.reset [] ∧
    HoldsBytes (withBytes (List.replicate 10 0xA7#8)) (List.replicate 10 0xA7#8) :=
  ⟨⟨by decide, by decide⟩, by decide, by decide⟩

/-- A known action, `Custom`, which `CODE_A` lacks, and a tag above 10. -/
theorem witness_EncAWritesTheFrame :
    (let s := fromHost [.action 9#4, .addr 0xFFFFFF#24, .chmask 0#8];
      HoldsAction s .deepDown ∧ s.cmd.addr = .put 0xFFFFFF#24 ∧ s.cmd.chmask = .put 0#8 ∧
      tableAt s.cfg.codeA .deepDown = some 0x3C#8) ∧
    (let s := fromHost [.action 10#4, .custom 7#8, .addr 1#24, .chmask 5#8];
      HoldsAction s (.custom 7#8) ∧ tableAt s.cfg.codeA (.custom 7#8) = none) ∧
    ((fromHost [.action 11#4]).cmd.action = .put 11#4 ∧ 11 ≤ (11#4).toNat) :=
  ⟨⟨⟨by decide, by decide, fun _ h => nomatch h⟩, by decide, by decide, by decide⟩,
    ⟨⟨by decide, by decide, fun _ h => by cases h; rfl⟩, by decide⟩, by decide⟩

/-- 39 bits with a known code, 40 bits with an unknown one, 38 and 41 bits. -/
theorem witness_DecAReadsTheFrame :
    (let s := withBits 39 0b000100100011010001010110000001010001111 [];
      s.bitlen.val = 39 ∧ (∀ k : Fin 80, k.val < 39 →
        s.bitbuf[k.val] = .put (wireA 0x123456#24 0x05#8 0b0001111#7 k.val)) ∧
      (.deepUp, 0x1E#8) ∈ s.cfg.codeA ∧ (0x1E#8).extractLsb' 1 7 = 0b0001111#7) ∧
    (let s := withBits 40 0b0001001000110100010101100000010111111110 [];
      s.bitlen.val = 40 ∧ (∀ k : Fin 80, k.val < 39 →
        s.bitbuf[k.val] = .put (wireA 0x123456#24 0x05#8 0b1111111#7 k.val)) ∧
      ∀ e ∈ s.cfg.codeA, e.2.extractLsb' 1 7 ≠ 0b1111111#7) ∧
    ((withBits 38 0 []).bitlen.val ≠ 39 ∧ (withBits 38 0 []).bitlen.val ≠ 40) ∧
    (withBits 41 0 []).bitlen.val ≠ 40 := by decide

theorem witness_ProtocolARoundTrips :
    (let s := fromHost [.action 9#4, .addr 0xFFFFFF#24, .chmask 0#8];
      admissible s.cfg = true ∧ HoldsAction s .deepDown ∧ tableAt s.cfg.codeA .deepDown = some 0x3C#8 ∧
      s.cmd.addr = .put 0xFFFFFF#24 ∧ s.cmd.chmask = .put 0#8) ∧
    ({ Command.zero with action := .pair } : Command).action = .pair ∧
    (let s := withBits 39 0x88 [];
      HoldsCells s 39 (wireA 0#24 1#8 8#7)) ∧
    (∃ t, exec .decA (withBits 39 0x88 []) = .next t ∧ t.status.sc = .ok) ∧
    ∃ t, exec (.rx 0#2) (withBits 39 0x88 [.rot false, .inv false]) = .next t ∧ t.status.sc = .ok ∧
      t.trace = [.deliver { Command.zero with action := .tiltUp, rail := 1#2, channelMask := 1#8,
                                              repeatCount := 1#8 }, .resp .ok] :=
  ⟨⟨by decide, ⟨by decide, by decide, fun _ h => nomatch h⟩, by decide, by decide, by decide⟩, rfl,
    ⟨by decide, by decide⟩, ⟨_, rfl, by decide⟩, _, rfl, by decide, by decide⟩

/-- The widest address with a code, the narrowest that is too wide, a pair the table lacks, and a tag
above 10. -/
theorem witness_EncBWritesTheFrame :
    (let s := fromHost [.action 4#4, .rail 3#2, .addr 0xFFFF#24, .unit 15#4];
      HoldsAction s .tiltDown ∧ s.cmd.rail = .put 3#2 ∧ s.cmd.addr = .put 0xFFFF#24 ∧ s.cmd.unit = .put 15#4 ∧
      (0xFFFF#24).toNat < 2 ^ 16 ∧ tableAt s.cfg.code4B (baseB .tiltDown, 3#2) = some 3#4) ∧
    (let s := fromHost [.action 8#4, .rail 1#2, .addr 0x10000#24, .unit 0#4];
      HoldsAction s .deepUp ∧ s.cmd.rail = .put 1#2 ∧ s.cmd.addr = .put 0x10000#24 ∧ s.cmd.unit = .put 0#4 ∧
      2 ^ 16 ≤ (0x10000#24).toNat ∧ tableAt s.cfg.code4B (baseB .deepUp, 1#2) = none) ∧
    ((fromHost [.action 15#4]).cmd.action = .put 15#4 ∧ 11 ≤ (15#4).toNat) :=
  ⟨⟨⟨by decide, by decide, fun _ h => nomatch h⟩, by decide, by decide, by decide, by decide, by decide⟩,
    ⟨⟨by decide, by decide, fun _ h => nomatch h⟩, by decide, by decide, by decide, by decide, by decide⟩,
    by decide⟩

/-- B8 (a known command value), B13 (a wrong checksum), B15 (an unknown command value), and 39 bits. -/
theorem witness_DecBReadsTheFrame :
    (HoldsCells (withBits 40 0b1111111111111111111111000000100100101100 []) 40
        (wireRev [0xFF#8, 0xFF#8, 0x3F#8, 0x90#8, 0x34#8]) ∧
      byteSum [0xFF#8, 0xFF#8, 0x3F#8, 0x90#8, 0x34#8] % 256 = 1 ∧
      tableAt cfgRef.actB (BitVec.ofNat 9 (0x3 + 0x90)) = some .tiltDown) ∧
    (HoldsCells (withBits 40 0b1100100000101100101010000000000001100101 []) 40
        (wireRev [0x13#8, 0x34#8, 0x15#8, 0x00#8, 0xA6#8]) ∧
      byteSum [0x13#8, 0x34#8, 0x15#8, 0x00#8, 0xA6#8] % 256 ≠ 1) ∧
    (HoldsCells (withBits 40 0b0100100000101100101011010000000001100000 []) 40
        (wireRev [0x12#8, 0x34#8, 0xB5#8, 0x00#8, 0x06#8]) ∧
      byteSum [0x12#8, 0x34#8, 0xB5#8, 0x00#8, 0x06#8] % 256 = 1 ∧
      tableAt cfgRef.actB (BitVec.ofNat 9 0xB) = none) ∧
    (withBits 39 0 []).bitlen.val ≠ 40 :=
  ⟨⟨⟨by decide, by decide⟩, by decide, by decide⟩, ⟨⟨by decide, by decide⟩, by decide⟩,
    ⟨⟨by decide, by decide⟩, by decide, by decide⟩, by decide⟩

/-- B8, and its last bit flipped. -/
theorem witness_ProtocolBRoundTripsAndDetectsFlips :
    (let s := fromHost [.action 4#4, .rail 3#2, .addr 0xFFFF#24, .unit 15#4];
      admissible s.cfg = true ∧ HoldsAction s .tiltDown ∧ s.cmd.rail = .put 3#2 ∧ s.cmd.addr = .put 0xFFFF#24 ∧
      s.cmd.unit = .put 15#4 ∧ (0xFFFF#24).toNat < 2 ^ 16 ∧
      tableAt s.cfg.code4B (baseB .tiltDown, 3#2) = some 3#4) ∧
    HoldsCells (withBits 40 0b1111111111111111111111000000100100101101 []) 40 (fun k =>
      if k = 39 then !wireRev [0xFF#8, 0xFF#8, 0x3F#8, 0x90#8, 0x34#8] k
      else wireRev [0xFF#8, 0xFF#8, 0x3F#8, 0x90#8, 0x34#8] k) :=
  ⟨⟨by decide, ⟨by decide, by decide, fun _ h => nomatch h⟩, by decide, by decide, by decide, by decide,
    by decide⟩, by decide, by decide⟩

theorem witness_IdentBIsAddressThenUnit :
    (let s := fromHost [.addr 0xFFFF#24, .unit 15#4];
      s.cmd.addr = .put 0xFFFF#24 ∧ s.cmd.unit = .put 15#4 ∧ (0xFFFF#24).toNat < 2 ^ 16) ∧
    (let s := fromHost [.addr 0x10000#24, .unit 0#4];
      s.cmd.addr = .put 0x10000#24 ∧ s.cmd.unit = .put 0#4 ∧ 2 ^ 16 ≤ (0x10000#24).toNat) := by decide

/-- The two frames (counts 15 and 16), and the ways to have none. -/
theorem witness_EncCWritesTheFrame :
    (let s := fromHost [.action 5#4, .addr 0#24, .rc 0xFFFF#16, .extv false];
      HoldsAction s .program ∧ s.cmd.addr = .put 0#24 ∧ s.cmd.rc = .put 0xFFFF#16 ∧ s.cmd.extv = .put false ∧
      tableAt s.cfg.codeC .program = some 8#4 ∧ tableAt s.cfg.codeC .tiltUp = none) ∧
    (let s := fromHost [.action 10#4, .custom 15#8, .addr 1#24, .rc 1#16, .extv true, .extb 2#8, .rep 15#8];
      HoldsAction s (.custom 15#8) ∧ s.cmd.extv = .put true ∧ s.cmd.extb = .put 2#8 ∧ (15#8).toNat < 16 ∧
      (∀ x ∈ s.cfg.codeC, x.2 ≠ (15#8).setWidth 4) ∧ s.cmd.rep = .put 15#8 ∧
      (1 ≤ (15#8).toNat ∧ (15#8).toNat ≤ 15) ∧ ¬ (1 ≤ (16#8).toNat ∧ (16#8).toNat ≤ 15)) ∧
    (let s := fromHost [.action 10#4, .custom 16#8, .addr 1#24, .rc 1#16, .extv true, .extb 2#8];
      HoldsAction s (.custom 16#8) ∧ (16 ≤ (16#8).toNat ∨ ∃ x ∈ s.cfg.codeC, x.2 = (16#8).setWidth 4)) ∧
    HoldsAction (fromHost [.action 3#4]) .tiltUp ∧ (∀ v, Action.tiltUp = .custom v → 16 ≤ v.toNat) :=
  ⟨⟨⟨by decide, by decide, fun _ h => nomatch h⟩, by decide, by decide, by decide, by decide, by decide⟩,
    ⟨⟨by decide, by decide, fun _ h => by cases h; rfl⟩, by decide, by decide, by decide, by decide, by decide,
      by decide, by decide⟩,
    ⟨⟨by decide, by decide, fun _ h => by cases h; rfl⟩, .inl (by decide)⟩,
    ⟨by decide, by decide, fun _ h => nomatch h⟩, fun _ h => nomatch h⟩

/-- C1, C14, C9, X1, C17 and a length no row has. -/
theorem witness_DecCReadsTheFrame :
    (HoldsCells (withBits 56 0b10100111100011101000111010001111110110011110110111111111 []) 56
        (wireC (plainBytesC 0xA7#8 2#4 9#4 1#16 0x123456#24)) ∧
      nibbleXor (plainBytesC 0xA7#8 2#4 9#4 1#16 0x123456#24) = 0#4 ∧ (.up, 2#4) ∈ cfgRef.codeC) ∧
    (HoldsCells (withBits 56 0b10100111100011101000111010001111110110011110110101111111 []) 56
        (wireC (plainBytesC 0xA7#8 2#4 9#4 1#16 0x923456#24)) ∧
      nibbleXor (plainBytesC 0xA7#8 2#4 9#4 1#16 0x923456#24) ≠ 0#4) ∧
    (HoldsCells (withBits 56 0b00100111100011101000111010001111110110011110110111111111 []) 56
        (wireC (plainBytesC 0x27#8 0xA#4 9#4 1#16 0x123456#24)) ∧
      nibbleXor (plainBytesC 0x27#8 0xA#4 9#4 1#16 0x123456#24) = 0#4 ∧ ∀ e ∈ cfgRef.codeC, e.2 ≠ 0xA#4) ∧
    (HoldsCells (withBits 80
        0b10100111000101110001011100000111010100010110010101110111111101111111011000000000 []) 80
        (wireC (plainBytesC 0xA7#8 0xB#4 0#4 0x10#16 0x123456#24 ++ [0x80#8, 0x01#8, 15#4 ++ 6#4])) ∧
      nibbleXor (plainBytesC 0xA7#8 0xB#4 0#4 0x10#16 0x123456#24) = 0#4 ∧
      6#4 = 15#4 ^^^ nibbleXor [0x80#8, 0x01#8]) ∧
    (HoldsCells (withBits 80
        0b10100111000101110001011100000111010100010110010101110111111101111111011000000001 []) 80
        (wireC (plainBytesC 0xA7#8 0xB#4 0#4 0x10#16 0x123456#24 ++ [0x80#8, 0x01#8, 15#4 ++ 7#4])) ∧
      7#4 ≠ 15#4 ^^^ nibbleXor [0x80#8, 0x01#8]) ∧
    ((withBits 64 0 []).bitlen.val ≠ 56 ∧ (withBits 64 0 []).bitlen.val ≠ 80) :=
  ⟨⟨⟨by decide, by decide⟩, by decide, by decide⟩, ⟨⟨by decide, by decide⟩, by decide⟩,
    ⟨⟨by decide, by decide⟩, by decide, by decide⟩, ⟨⟨by decide, by decide⟩, by decide, by decide⟩,
    ⟨⟨by decide, by decide⟩, by decide⟩, by decide⟩

/-- The extended frame of X1, and two encodings with one rolling code. -/
theorem witness_ProtocolCRoundTrips :
    (let s := fromHost [.action 10#4, .custom 0xB#8, .addr 0x123456#24, .rc 0x10#16, .extv true, .extb 1#8,
        .rep 15#8];
      admissible s.cfg = true ∧ HoldsAction s (.custom 0xB#8) ∧ s.cmd.addr = .put 0x123456#24 ∧
      s.cmd.rc = .put 0x10#16 ∧ ∃ t, exec .encC s = .next t ∧ t.status.sc = .ok) ∧
    ∃ x, encodeC cfgRef Command.zero = .ok x ∧ encodeC cfgRef { Command.zero with rollingCode := 0#16 } = .ok x :=
  ⟨⟨by decide, ⟨by decide, by decide, fun _ h => by cases h; rfl⟩, by decide, by decide, _, rfl, by decide⟩,
    _, rfl, rfl⟩

/-- C1, with wire bit 47 flipped and with wire bit 48 flipped. -/
theorem witness_ShortFrameFlipsBeforeTheLastByteGoUnseen :
    plainC1.length = 7 ∧ nibbleXor plainC1 = 0#4 ∧
    HoldsCells (withBits 56 0b10100111100011101000111010001111110110011110110111111111 []) 56 (wireC plainC1) ∧
    HoldsCells (withBits 56 0b10100111100011101000111010001111110110011110110011111111 []) 56
      (fun k => if k = 47 then !wireC plainC1 k else wireC plainC1 k) ∧
    HoldsCells (withBits 56 0b10100111100011101000111010001111110110011110110101111111 []) 56
      (fun k => if k = 48 then !wireC plainC1 k else wireC plainC1 k) :=
  ⟨by decide, by decide, ⟨by decide, by decide⟩, ⟨by decide, by decide⟩, by decide, by decide⟩

theorem witness_TransformsFollowTheSettingsTable :
    (let s := fromHost [.action 0#4, .rot true, .inv true];
      s.cmd.action = .put 0#4 ∧ HoldsSettings s true true) ∧
    (let s := fromHost [.action 15#4, .rot false, .inv true];
      s.cmd.action = .put 15#4 ∧ HoldsSettings s false true) :=
  ⟨⟨by decide, by decide, by decide⟩, by decide, by decide, by decide⟩

/-- The command of `requestA`: `Down` after rotation. -/
def commandA : Command :=
  { Command.zero with action := .down, rail := 1#2, address := 0x000001#24, channelMask := 0x01#8, repeatCount := 1#8 }

/-- P1 under Protocol-A, without pulse mode and with it, and the two reserved capabilities. -/
theorem witness_ReqCapSchedulesTheEvent :
    (let s := fromHost requestA;
      protoOf 0#2 = some .a ∧ s.seq.st = .idle ∧ HoldsCapability s .up ∧ HoldsSettings s true false ∧
      s.sets.pulse = .put false ∧ Built s .a (settingsTable .up true false) (s.cfg.defaultRepeat.at .a) commandA ∧
      Mappable s.cfg .a commandA ∧ commandA.repeatCount ≠ 0#8) ∧
    (fromHost (requestA ++ [.pulse true])).sets.pulse = .put true ∧
    (fromHost [.cap 3#2]).cap = .put 3#2 ∧ (fromHost [.cap 0#2, .capval 3#2]).cap = .put 0#2 ∧
    (fromHost [.cap 0#2, .capval 3#2]).capval = .put 3#2 :=
  ⟨⟨by decide, by decide, .inl ⟨by decide, by decide, rfl⟩, ⟨by decide, by decide⟩, by decide,
    ⟨⟨by decide, by decide, by decide, by decide⟩, by decide, by decide, by decide, by decide⟩, ⟨_, rfl⟩,
    by decide⟩, by decide, by decide, by decide, by decide⟩

/-- A Protocol-B command of one `TiltUp` step, rail 1. -/
def commandB : Command :=
  { Command.zero with action := .tiltUp, rail := 1#2, address := 0x1234#24, unit := 5#4, repeatCount := 1#8 }

/-- The registers that make a step request of `commandB`, with a step count. -/
def stepsB (n : BitVec 8) : State :=
  fromHost [.rot false, .inv false, .action 3#4, .rail 1#2, .addr 0x1234#24, .unit 5#4, .steps n]

/-- Step counts 0 and 255. -/
theorem witness_ReqStepsSchedulesTheBatch :
    protoOf 1#2 = some .b ∧ (stepsB 255#8).seq.st = .idle ∧ HoldsAction (stepsB 255#8) .tiltUp ∧
    HoldsSettings (stepsB 255#8) false false ∧ (stepsB 255#8).steps = .put 255#8 ∧
    Built (stepsB 255#8) .b (settingsTable .tiltUp false false) 1#8 commandB ∧ Mappable cfgRef .b commandB ∧
    255#8 ≠ 0#8 ∧ (stepsB 0#8).steps = .put 0#8 :=
  ⟨by decide, by decide, ⟨by decide, by decide, fun _ h => nomatch h⟩, ⟨by decide, by decide⟩, by decide,
    ⟨⟨by decide, by decide, by decide, by decide⟩, by decide, by decide, by decide, by decide⟩, ⟨_, rfl⟩,
    by decide, by decide⟩

/-- A command under Protocol-C, as `REQ.MY` and `REQ.PROG` build it. -/
def commandC1 (a : Action) (reps : BitVec 8) : Command :=
  { Command.zero with action := a, rail := 1#2, address := 0x123456#24, repeatCount := reps }

theorem witness_ReqMySchedulesTheHeldIdle :
    let s := fromHost [.addr 0x123456#24]
    protoOf 2#2 = some .c ∧ s.seq.st = .idle ∧
    Built s .c .idle (s.cfg.myRepeat.at .c) (commandC1 .idle 45#8) ∧
    Mappable s.cfg .c (commandC1 .idle 45#8) ∧ (commandC1 .idle 45#8).repeatCount ≠ 0#8 :=
  ⟨by decide, by decide, ⟨⟨by decide, by decide, by decide, by decide⟩, by decide, by decide, by decide, by decide⟩,
    ⟨_, rfl⟩, by decide⟩

/-- Protocol-A (the pairing) and Protocol-C (one frame). -/
theorem witness_ReqProgSchedulesPairing :
    (let s := fromHost [.addr 0x000001#24, .chmask 0x01#8];
      let c : Command := { commandA with action := .program };
      protoOf 0#2 = some .a ∧ s.seq.st = .idle ∧ Built s .a .program (s.cfg.defaultRepeat.at .a) c ∧
      Mappable s.cfg .a c ∧ c.repeatCount ≠ 0#8) ∧
    (let s := fromHost [.addr 0x123456#24];
      protoOf 2#2 = some .c ∧ s.seq.st = .idle ∧
      Built s .c .program (s.cfg.defaultRepeat.at .c) (commandC1 .program 1#8) ∧
      Mappable s.cfg .c (commandC1 .program 1#8) ∧ Proto.c ≠ .a) :=
  ⟨⟨by decide, by decide, ⟨⟨by decide, by decide, by decide, by decide⟩, by decide, by decide, by decide, by decide⟩,
    ⟨_, rfl⟩, by decide⟩,
    by decide, by decide, ⟨⟨by decide, by decide, by decide, by decide⟩, by decide, by decide, by decide, by decide⟩,
    ⟨_, rfl⟩, by decide⟩

/-- T20's registers, with a repeat count. -/
def rawB (n : BitVec 8) : State :=
  fromHost [.action 6#4, .rail 2#2, .addr 0x8001#24, .unit 2#4, .rep n]

theorem witness_ReqRawSchedulesTheHeldCommand :
    protoOf 1#2 = some .b ∧ (rawB 3#8).seq.st = .idle ∧ HeldRaw (rawB 3#8) .b (rawB 3#8).heldCommand ∧
    Mappable cfgRef .b (rawB 3#8).heldCommand ∧ (rawB 3#8).heldCommand.repeatCount ≠ 0#8 :=
  ⟨by decide, by decide, ⟨by decide, ⟨by decide, by decide, fun _ h => nomatch h⟩, by decide, by decide,
    by decide, by decide⟩, ⟨_, rfl⟩, by decide⟩

theorem witness_RequestsWhileBusyAreDropped : readyBatch.seq.st ≠ .idle ∧ waitingBatch.seq.st ≠ .idle ∧
    2#2 ≠ 3#2 := by decide

/-- An address too wide, a command the table lacks, a repeat count of 0, and a tag above 10. -/
theorem witness_RefusedRequestsReportTheReason :
    (let s := fromHost [.addr 0x10000#24, .rail 1#2, .unit 0#4];
      let c : Command := { Command.zero with action := .idle, rail := 1#2, address := 0x10000#24, repeatCount := 30#8 };
      Presents s .b c (.reqMy 1#2) ∧ s.seq.st = .idle ∧ 2 ^ addressWidth .b ≤ c.address.toNat) ∧
    (let s := fromHost [.addr 0xFFFF#24, .rail 0#2, .unit 0#4];
      let c : Command := { Command.zero with action := .idle, rail := 0#2, address := 0xFFFF#24, repeatCount := 30#8 };
      Presents s .b c (.reqMy 1#2) ∧ s.seq.st = .idle ∧ dryEncode s.cfg .b c = .error .unmapped) ∧
    (Presents (rawB 0#8) .b (rawB 0#8).heldCommand (.reqRaw 1#2) ∧ (rawB 0#8).seq.st = .idle ∧
      Mappable cfgRef .b (rawB 0#8).heldCommand ∧ (rawB 0#8).heldCommand.repeatCount = 0#8) ∧
    ((fromHost [.action 11#4]).cmd.action = .put 11#4 ∧ 11 ≤ (11#4).toNat) :=
  ⟨⟨⟨by decide, ⟨by decide, by decide, by decide, by decide⟩, by decide, by decide, by decide, by decide⟩,
      by decide, by decide⟩,
    ⟨⟨by decide, ⟨by decide, by decide, by decide, by decide⟩, by decide, by decide, by decide, by decide⟩,
      by decide, by decide⟩,
    ⟨⟨by decide, by decide, ⟨by decide, by decide, fun _ h => nomatch h⟩, by decide, by decide, by decide,
      by decide⟩, by decide, ⟨_, rfl⟩, by decide⟩, by decide⟩

/-- For each protocol a frame that decodes; one that does not. -/
theorem witness_RxDeliversTheDecodedCommand :
    (let s := withBits 39 0x88 [.rot true, .inv false];
      HoldsSettings s true false ∧ ∃ u, exec .decA s = .next u ∧ u.status.sc = .ok) ∧
    (let s := withBits 40 0b0100100000101100101010000000100001101001 [.rot true, .inv true];
      HoldsSettings s true true ∧ ∃ u, exec .decB s = .next u ∧ u.status.sc = .ok) ∧
    (let s := withBits 56 0b10100111100011101000111010001111110110011110110111111111 [.rot false, .inv false];
      HoldsSettings s false false ∧ ∃ u, exec .decC s = .next u ∧ u.status.sc = .ok) ∧
    (let s := withBits 41 0 [.rot false, .inv true];
      HoldsSettings s false true ∧ ∃ u, exec .decA s = .next u ∧ u.status.sc ≠ .ok) :=
  ⟨⟨⟨by decide, by decide⟩, _, rfl, by decide⟩, ⟨⟨by decide, by decide⟩, _, rfl, by decide⟩,
    ⟨⟨by decide, by decide⟩, _, rfl, by decide⟩, ⟨by decide, by decide⟩, _, rfl, by decide⟩

/-- Also of `FramesDeliverTheirCommand`: 40 bits of Protocol-A, a Protocol-B frame, the two Protocol-C frames. -/
theorem witness_RxCompletesOnAGoodFrame :
    (let s := withBits 40 0b0001001000110100010101100000010100010001 [.rot true, .inv false];
      admissible s.cfg = true ∧ HoldsSettings s true false ∧ s.bitlen.val = 40 ∧
      (∀ k : Fin 80, k.val < 39 → s.bitbuf[k.val] = .put (wireA 0x123456#24 0x05#8 0b0001000#7 k.val)) ∧
      (.up, 0x11#8) ∈ s.cfg.codeA ∧ (0x11#8).extractLsb' 1 7 = 0b0001000#7) ∧
    (let s := withBits 40 0b0100100000101100101010000000100001101001 [.rot true, .inv true];
      HoldsSettings s true true ∧ HoldsCells s 40 (wireRev [0x12#8, 0x34#8, 0x15#8, 0x10#8, 0x96#8]) ∧
      byteSum [0x12#8, 0x34#8, 0x15#8, 0x10#8, 0x96#8] % 256 = 1 ∧ tableAt s.cfg.actB 1#9 = some .up) ∧
    (let s := withBits 56 0b10100111100011101000111010001111110110011110110111111111 [.rot false, .inv false];
      HoldsSettings s false false ∧ HoldsCells s 56 (wireC (plainBytesC 0xA7#8 2#4 9#4 1#16 0x123456#24)) ∧
      nibbleXor (plainBytesC 0xA7#8 2#4 9#4 1#16 0x123456#24) = 0#4 ∧ (.up, 2#4) ∈ s.cfg.codeC) ∧
    (let s := withBits 80 0b10100111000101110001011100000111010100010110010101110111111101111111011000000000
        [.rot false, .inv false];
      HoldsSettings s false false ∧ HoldsCells s 80 (wireC (plainBytesC 0xA7#8 0xB#4 0#4 0x10#16 0x123456#24 ++
        [0x80#8, 0x01#8, 15#4 ++ (15#4 ^^^ nibbleXor [0x80#8, 0x01#8])])) ∧
      nibbleXor (plainBytesC 0xA7#8 0xB#4 0#4 0x10#16 0x123456#24) = 0#4) :=
  ⟨⟨by decide, ⟨by decide, by decide⟩, by decide, by decide, by decide, by decide⟩,
    ⟨⟨by decide, by decide⟩, ⟨by decide, by decide⟩, by decide, by decide⟩,
    ⟨⟨by decide, by decide⟩, ⟨by decide, by decide⟩, by decide, by decide⟩,
    ⟨by decide, by decide⟩, ⟨by decide, by decide⟩, by decide⟩

theorem witness_StepTakesTheEnabledSequencerStep :
    ({ readyBatch with agenda := [.fire true] } : State).agenda = .fire true :: [] ∧
    ({ waitingBatch with agenda := [.expire] } : State).agenda = .expire :: [] ∧
    (facing [.lateExpire]).agenda = .lateExpire :: [] ∧
    (readyBatch.agenda = [] ∧ readyBatch.seq.st = .ready) ∧
    (waitingBatch.agenda = [] ∧ waitingBatch.seq.st = .waiting) ∧
    (State.reset.agenda = [] ∧ State.reset.seq.st = .idle) ∧ waitingBatch.seq.st ≠ .ready := by decide

/-- An action without a code; a Protocol-B tilt, and a tilt that Protocol-A sends as `Up`. -/
theorem witness_SendTransmitsOrSkips :
    encodeP cfgRef .b { loweredTable cfgRef .b { commandB with action := .deepUp } with rollingCode := 0#16 } =
      .error .unmapped ∧
    (∃ b, encodeP cfgRef .b { loweredTable cfgRef .b { commandB with action := .tiltUp } with
      rollingCode := 0#16 } = .ok b) ∧
    ∃ b, encodeP cfgRef .a { loweredTable cfgRef .a { commandA with action := .tiltUp } with
      rollingCode := 0#16 } = .ok b :=
  ⟨by decide, ⟨_, rfl⟩, _, rfl⟩

/-- R340 with the reference table of R345: the `Custom` nibble and the `extCmd` of the two tilts. -/
theorem test_lower_tilt :
    ((lower cfgRef .c { Command.zero with action := .tiltUp }).action,
      (lower cfgRef .c { Command.zero with action := .tiltUp }).extCmd) = (.custom 0x0B#8, some 0x01#8) ∧
    ((lower cfgRef .c { Command.zero with action := .tiltDown }).action,
      (lower cfgRef .c { Command.zero with action := .tiltDown }).extCmd) = (.custom 0x0B#8, some 0x02#8) := by
  decide

/-- The list of P1 before its primary and before its follow-up. -/
theorem witness_FirePlaysTheList :
    (readyList.seq.st = .ready ∧ readyList.seq.kind = .list ∧ readyList.seq.ph = 0#2 ∧
      ∃ r, readyList.send readyList.seq.proto readyList.seq.cmd false = .ok r) ∧
    (let s := readyList.setPhase 1#2;
      s.seq.st = .ready ∧ s.seq.kind = .list ∧ s.seq.ph = 1#2 ∧
      ∃ r, s.send s.seq.proto { s.seq.cmd with action := actionOf s.seq.fuact 0#8,
                                               repeatCount := s.cfg.defaultRepeat.at s.seq.proto } true = .ok r) :=
  ⟨⟨by decide, by decide, by decide, _, rfl⟩, by decide, by decide, by decide, _, rfl⟩

/-- A batch that sends, one that cannot, the pairing in its phases 0, 1 and 2. -/
theorem witness_FirePlaysTheBatchAndThePairing :
    (readyBatch.seq.st = .ready ∧ readyBatch.seq.kind = .batch ∧
      ∃ u, readyBatch.send readyBatch.seq.proto
        { readyBatch.seq.cmd with repeatCount := BitVec.ofNat 8 (min 15 readyBatch.seq.rem.toNat) } false =
        .ok (true, u)) ∧
    (let s := { readyBatch with seq := { readyBatch.seq with cmd := { commandB with action := .deepUp } } };
      s.seq.st = .ready ∧ s.seq.kind = .batch ∧
      ∃ u, s.send s.seq.proto { s.seq.cmd with repeatCount := BitVec.ofNat 8 (min 15 s.seq.rem.toNat) } false =
        .ok (false, u)) ∧
    (readyPair.seq.st = .ready ∧ readyPair.seq.kind = .pair ∧ readyPair.seq.ph = 0#2 ∧
      (readyPair.setPhase 1#2).seq.ph = 1#2 ∧ (readyPair.setPhase 2#2).seq.ph = 2#2 ∧
      (∃ r, readyPair.send .a { readyPair.seq.cmd with action := .pair } true = .ok r) ∧
      ∃ r, (readyPair.setPhase 2#2).send .a { readyPair.seq.cmd with action := .up } false = .ok r) :=
  ⟨⟨by decide, by decide, _, rfl⟩, ⟨by decide, by decide, _, rfl⟩, by decide, by decide, by decide, by decide,
    by decide, ⟨_, rfl⟩, _, rfl⟩

/-- In the waits of a batch and of a pairing; an armed timer with an idle sequencer; no wait at all; a late
`Expire` with none to come, and with one. -/
theorem witness_ExpireResumesTheSchedule :
    (waitingBatch.timer = some 1500#16 ∧ waitingBatch.seq.st = .waiting ∧ waitingBatch.seq.kind = .batch) ∧
    (let s := after (seqFire false readyPair);
      s.timer = some 1000#16 ∧ s.seq.st = .waiting ∧ s.seq.kind = .pair) ∧
    (let s : State := { readyBatch with timer := some 1#16 };
      s.timer = some 1#16 ∧ s.seq.st ≠ .waiting) ∧
    readyBatch.timer = none ∧
    ((facing [.lateExpire]).agenda = .lateExpire :: [] ∧ (facing [.lateExpire]).abandoned = 0) ∧
    ({ waitingBatch.blockReset with agenda := [.lateExpire] } : State).abandoned ≠ 0 := by decide

/-- The list of P1 and a waiting batch. -/
theorem witness_FirePopsThePendingList :
    (admissible readyList.cfg = true ∧ Inv readyList ∧ readyList.seq.st = .ready ∧
      pending readyList.cfg readyList.seq = (commandA, 0) :: [({ commandA with action := .deepDown }, 0)] ∧
      Mappable readyList.cfg readyList.seq.proto commandA) ∧
    (admissible waitingBatch.cfg = true ∧ Inv waitingBatch ∧ waitingBatch.seq.st = .waiting) :=
  ⟨⟨by decide, witness_inv_list, by decide, by decide, _, rfl⟩, by decide, witness_inv_waiting, by decide⟩

theorem witness_BatchesPlayInBurstsOfFifteen :
    admissible readyBatch.cfg = true ∧ Inv readyBatch ∧ readyBatch.agenda = [] ∧ readyBatch.seq.st = .ready ∧
    readyBatch.seq.kind = .batch ∧
    ∀ r, 1 ≤ r → r ≤ 15 → Mappable readyBatch.cfg readyBatch.seq.proto
      { readyBatch.seq.cmd with repeatCount := BitVec.ofNat 8 r } := by
  refine ⟨by decide, witness_inv_batch, by decide, by decide, by decide, fun r h1 h2 => ?_⟩
  interval_cases r <;> exact ⟨_, rfl⟩

theorem witness_PairingPlaysItsThreeSends :
    admissible readyPair.cfg = true ∧ Inv readyPair ∧ readyPair.agenda = [] ∧ readyPair.seq.st = .ready ∧
    readyPair.seq.kind = .pair ∧ readyPair.seq.ph = 0#2 :=
  ⟨by decide, witness_inv_pair, by decide, by decide, by decide, by decide⟩

/-- A LIST of one item; a BATCH whose stale `PH` is 2. -/
theorem witness_CrashBurnsOneRollingCode :
    (let s : State := { readyMyC with agenda := [.crash] };
      s.agenda = .crash :: [] ∧ s.seq.st = .ready ∧ s.seq.proto = .c ∧ s.seq.kind ≠ .pair ∧
      (s.seq.kind = .list → s.seq.ph.toNat < 2) ∧
      pending s.cfg s.seq = (commandC1 .idle 45#8, 0) :: [] ∧ Mappable s.cfg .c (commandC1 .idle 45#8)) ∧
    (let q : Seq := { readyBatch.seq with rem := 2#8, ph := 2#2 };
      let s : State := { readyBatch with agenda := [.crash], seq := q };
      s.seq.st = .ready ∧ s.seq.proto = .c ∧ s.seq.kind ≠ .pair ∧
      (s.seq.kind = .list → s.seq.ph.toNat < 2) ∧
      pending s.cfg s.seq = ({ q.cmd with repeatCount := 2#8 }, 200) :: [] ∧
      Mappable s.cfg .c { q.cmd with repeatCount := 2#8 }) :=
  ⟨⟨by decide, by decide, by decide, by decide, by decide, by decide, _, rfl⟩,
    by decide, by decide, by decide, by decide, by decide, _, rfl⟩

/-- The whole-buffer write of 80 and of 81 bits; a length that falls, stays and grows. -/
theorem witness_HostWritesReachOnlyOperands :
    (facing [.host (.bitlen 80)]).agenda = .host (.bitlen 80) :: [] ∧
    (List.replicate 80 true).length ≤ 80 ∧ 80 < (List.replicate 81 true).length ∧
    ((39 : Fin 81).val < (withBits 40 0 []).bitlen.val ∧ (withBits 40 0 []).bitlen.val ≤ (40 : Fin 81).val) ∧
    (facing [.setting ⟨.deg180, true, false⟩]).agenda = .setting ⟨.deg180, true, false⟩ :: [] ∧
    (facing [.readSettings]).agenda = .readSettings :: [] := by decide

end Sys2Proof.Tests
end

section
/-! The request words that select no operation (30_encoding.md R120 to R122), and what a step does with one. -/

namespace Sys2Proof.Machine

/-! ### The fields of a request word -/

theorem oprOp_toNat (w : BitVec 8) : (oprOp w).toNat = w.toNat % 32 := by
  simp [oprOp]

theorem oprProto_toNat (w : BitVec 8) : (oprProto w).toNat = w.toNat / 32 % 4 := by
  simp [oprProto, Nat.shiftRight_eq_div_pow]

/-- `OPR[7]` as a bound on the word. -/
theorem opr_bit7_iff (w : BitVec 8) : w.getLsbD 7 = true ↔ 128 ≤ w.toNat := by
  rw [← BitVec.msb_eq_getLsbD_last, BitVec.msb_eq_true_iff_two_mul_ge]
  omega

/-! ### Which words decode -/

theorem byProto_isOk_iff (pr : BitVec 2) (a b c : Instr) :
    (∃ i, byProto pr a b c = .ok i) ↔ pr.toNat ≠ 3 := by
  have hlt := pr.isLt
  unfold byProto
  split
  case h_1 h | h_2 h | h_3 h => simp [h]
  case h_4 =>
    have h3 : pr.toNat = 3 := by simp only [imp_false] at *; omega
    simp [h3]

theorem withProto_isOk_iff (pr : BitVec 2) (i : Instr) :
    (∃ j, withProto pr i = .ok j) ↔ pr.toNat ≠ 3 := by
  have hok : protoOk pr = true ↔ pr.toNat ≠ 3 := by
    simp [protoOk, BitVec.toNat_eq]
  unfold withProto
  split
  case isTrue h => simp [hok.mp h]
  case isFalse h => simpa using mt hok.mpr h

/-- The conditions of R122 on `PROTO` and `OP`: a code that no row of R121 has, `PROTO = 3` with a code
marked "P" or "op", `IDENT.B` under another protocol than 1. -/
def IllegalFields (proto op : Nat) : Prop :=
  (op = 0x00 ∨ op = 0x0E ∨ op = 0x0F ∨ 0x16 ≤ op) ∨
  (proto = 3 ∧ (op = 0x05 ∨ op = 0x06 ∨ op = 0x09 ∨ op = 0x0A ∨ 0x10 ≤ op)) ∨
  (op = 0x0B ∧ proto ≠ 1)

/-- The rows of R121, by what they ask of `PROTO`: nothing, not 3 (marked "P", marked "op"), 1. -/
theorem decodeOp_isOk_iff (pr : BitVec 2) (op : BitVec 5) :
    (∃ i, decodeOp pr op = .ok i) ↔ ¬ IllegalFields pr.toNat op.toNat := by
  unfold decodeOp
  split
  case h_1 h | h_2 h | h_3 h | h_4 h | h_7 h | h_8 h | h_12 h | h_13 h => simp [IllegalFields, h]
  case h_5 h | h_6 h | h_9 h | h_10 h => simp [byProto_isOk_iff, IllegalFields, h]
  case h_14 h | h_15 h | h_16 h | h_17 h | h_18 h | h_19 h =>
    simp [withProto_isOk_iff, IllegalFields, h]
  case h_11 h =>
    have hpr : pr = 1#2 ↔ pr.toNat = 1 := by simp [BitVec.toNat_eq]
    by_cases h1 : pr.toNat = 1 <;> simp [IllegalFields, h, hpr, h1]
  case h_20 =>
    have hundefined : op.toNat = 0x00 ∨ op.toNat = 0x0E ∨ op.toNat = 0x0F ∨ 0x16 ≤ op.toNat := by
      simp only [imp_false] at *; omega
    simp [IllegalFields, hundefined]

/-- A request word decodes exactly if its bit 7 is clear and its fields are legal (R122). -/
theorem decode_opr_isOk_iff (w : BitVec 8) :
    (∃ i, decode (.opr w) = .ok i) ↔
      w.toNat < 128 ∧ ¬ IllegalFields (w.toNat / 32 % 4) (w.toNat % 32) := by
  rw [← oprOp_toNat, ← oprProto_toNat, ← decodeOp_isOk_iff, ← not_le]
  simp only [decode, decodeOpr]
  split
  case isTrue h => simp [(opr_bit7_iff w).mp h]
  case isFalse h => simp [mt (opr_bit7_iff w).mpr h]

/-! ### The step on a word that does not decode -/

/-- The host's write of a word that selects no operation ends with `None(IllegalOp)` (R122, R408). -/
theorem step_opr_of_not_decode {s : State} {w : BitVec 8} {rest : List Input}
    (ha : s.agenda = .opr w :: rest) (hd : ¬ ∃ i, decode (.opr w) = .ok i) :
    step s = .next ({ s with agenda := rest, opr := w }.respond .illegalOp) := by
  have hstep : step s = request w { s with agenda := rest } := by
    simp only [step, ha, perform]
  rw [hstep, request]
  split
  case h_1 i hi => exact absurd ⟨i, hi⟩ hd
  case h_2 => rfl

/-- Settles O3: the words that decode are known (`decode_opr_isOk_iff`), and a step on any other is
`step_opr_of_not_decode`. -/
theorem illegalWordsAnswerIllegalOp : Obligations.IllegalWordsAnswerIllegalOp := by
  intro w op proto illegal
  have hdecodes : (∃ i, decode (.opr w) = .ok i) ↔ ¬ illegal := by
    rw [decode_opr_isOk_iff, IllegalFields]
    omega
  exact ⟨fun hill _ _ ha => step_opr_of_not_decode ha fun hd => hdecodes.mp hd hill, hdecodes.mpr⟩

end Sys2Proof.Machine
end

section
/-! The serializer and the field shifter as operations (40_bitvector.md R183, R185, R188, R189): `I2B`, `B2I`,
`BF.INS` and `BF.EXT` on written operands. -/

namespace Sys2Proof.Machine

/-! ### The order operand -/

@[simp] theorem bitOrderOf_beq_perByteReversed (d : Bool) : (bitOrderOf d == .perByteReversed) = d := by
  cases d <;> rfl

theorem fits_bitOrderOf_iff (d : Bool) (w : Nat) : fits (bitOrderOf d) w ↔ (d = true → w % 8 = 0) := by
  cases d <;> simp [fits, bitOrderOf]

/-- The check the operations make is the condition of R93. -/
theorem orderFits_iff_fits (o : BitOrder) (w : Nat) : orderFits o w = true ↔ fits o w := by
  cases o <;> simp [orderFits, fits]

/-- A width the order takes keeps its serial indices inside itself. -/
theorem serialIndex_lt {d : Bool} {w i : Nat} (hf : d = true → w % 8 = 0) (hi : i < w) :
    serialIndex d w i < w := by
  cases d with
  | false => simp only [serialIndex, Bool.false_eq_true, if_false]; omega
  | true =>
    have h8 := hf rfl
    simp only [serialIndex, if_true]; omega

/-! ### Slices of the bit buffer -/

theorem State.writeBits_of_fits {s : State} {a : Nat} {v : Bits} (h : a ≤ s.bitlen.val ∧ a + v.length ≤ 80) :
    s.writeBits a v =
      .ok { s with bitbuf := writeAt s.bitbuf a v, bitlen := growLen s.bitlen (a + v.length) } :=
  if_pos h

theorem State.writeBits_of_not_fits {s : State} {a : Nat} {v : Bits}
    (h : ¬ (a ≤ s.bitlen.val ∧ a + v.length ≤ 80)) : s.writeBits a v = .error .precond :=
  if_neg h

theorem State.readBits_past_bitlen {s : State} {a n : Nat} (h : ¬ a + n ≤ s.bitlen.val) :
    s.readBits a n = .error .precond :=
  if_neg h

theorem growLen_val {len : Fin 81} {b : Nat} (h : b ≤ 80) : (growLen len b).val = max len.val b := by
  simp only [growLen]; omega

/-! ### `I2B` and `B2I` -/

theorem exec_i2b (pr : BitVec 2) (s : State) : exec (.i2b pr) s = s.finish (i2bBody s) :=
  exec_eq (.i2b pr) s

theorem exec_b2i (pr : BitVec 2) (s : State) : exec (.b2i pr) s = s.finish (b2iBody s) :=
  exec_eq (.b2i pr) s

section
variable {s : State} {w : BitVec 6} {o : BitVec 7} {d : Bool}

/-- `I2B` on written operands: the checks of R183 on width, value and order as one condition, then the slice
write with its own checks. -/
theorem i2bBody_of_written {v : Word} (hw : s.wid = .put w) (hv : s.value = .put v) (ho : s.off = .put o)
    (hd : s.ord = .put d) :
    i2bBody s =
      if 1 ≤ w.toNat ∧ w.toNat ≤ 32 ∧ v.toNat < 2 ^ w.toNat ∧ orderFits (bitOrderOf d) w.toNat then
        s.writeBits o.toNat (intToBits v.toNat w.toNat (bitOrderOf d))
      else .error .precond := by
  have hwidth : (w.toNat < 1 ∨ 32 < w.toNat) ↔ ¬ (1 ≤ w.toNat ∧ w.toNat ≤ 32) := by omega
  simp only [i2bBody, hw, hv, ho, hd, Reg.get_put, ok_bind, hwidth, ← Nat.not_lt, ite_not, ite_and,
    Bool.not_eq_true', ← Bool.not_eq_true]

/-- `B2I` on written operands: the checks of R185 on width and order as one condition, then the slice read. -/
theorem b2iBody_of_written (hw : s.wid = .put w) (ho : s.off = .put o) (hd : s.ord = .put d) :
    b2iBody s =
      if 1 ≤ w.toNat ∧ w.toNat ≤ 32 ∧ orderFits (bitOrderOf d) w.toNat then
        s.readBits o.toNat w.toNat >>= fun f =>
          .ok (s.setRes (BitVec.ofNat 32 (bitsToInt f (bitOrderOf d))))
      else .error .precond := by
  have hwidth : (w.toNat < 1 ∨ 32 < w.toNat) ↔ ¬ (1 ≤ w.toNat ∧ w.toNat ≤ 32) := by omega
  simp only [b2iBody, hw, ho, hd, Reg.get_put, ok_bind, hwidth, ite_not, ite_and, Bool.not_eq_true',
    ← Bool.not_eq_true]

end

/-- A cell after the serial form of `v` was written at `a` (R183): the bit of `v` that belongs there, and
outside the slice what stood there. -/
theorem writeAt_intToBits_getElem (buf : Vector (Reg Bool) 80) (a : Nat) {n : Nat} (v : BitVec n) {w : Nat}
    {d : Bool} (hf : fits (bitOrderOf d) w) (k : Fin 80) :
    (writeAt buf a (intToBits v.toNat w (bitOrderOf d)))[k.val] =
      if a ≤ k.val ∧ k.val < a + w then .put (v.getLsbD (serialIndex d w (k.val - a)))
      else buf[k.val] := by
  rw [writeAt_getElem _ _ _ _ k.isLt]
  by_cases hk : a ≤ k.val ∧ k.val < a + w
  · have hin : a ≤ k.val ∧ k.val - a < (intToBits v.toNat w (bitOrderOf d)).length := by
      rw [intToBits_length]; omega
    rw [dif_pos hin, if_pos hk, intToBits_getElem _ _ _ hf, bitOrderOf_beq_perByteReversed,
      BitVec.testBit_toNat]
  · rw [dif_neg (by rw [intToBits_length]; omega), if_neg hk]

/-- The word `B2I` makes of the bits `b 0` to `b (w - 1)` (R185). -/
theorem ofNat_bitsToInt_getLsbD (b : Nat → Bool) {w : Nat} {d : Bool} (hf : fits (bitOrderOf d) w) {i : Nat}
    (hi : i < 32) :
    (BitVec.ofNat 32 (bitsToInt ((List.range w).map b) (bitOrderOf d))).getLsbD i =
      (decide (i < w) && b (serialIndex d w i)) := by
  rw [BitVec.getLsbD_ofNat, bitsToInt_testBit _ _ (by simpa using hf), bitOrderOf_beq_perByteReversed,
    List.length_map, List.length_range]
  by_cases hiw : i < w
  · have hlt := serialIndex_lt ((fits_bitOrderOf_iff d w).mp hf) hiw
    simp [hi, hiw, List.getElem?_range hlt]
  · simp [hiw]

/-- Settles O16: the body is one check and a slice write (`i2bBody_of_written`), and the cells it leaves are
`writeAt_intToBits_getElem`. -/
theorem i2bWritesTheSerializedBits : Obligations.I2bWritesTheSerializedBits := by
  intro pr s w v o d hw hv ho hd legal
  rw [exec_i2b, i2bBody_of_written hw hv ho hd]
  simp only [legal, ← fits_bitOrderOf_iff, ← orderFits_iff_fits]
  constructor
  · rintro ⟨h1, h32, hval, hord, hoff, hend⟩
    rw [if_pos ⟨h1, h32, hval, hord⟩,
      State.writeBits_of_fits ⟨hoff, by rwa [intToBits_length]⟩, State.finish_ok]
    exact ⟨_, _, rfl, by rw [intToBits_length, growLen_val hend],
      writeAt_intToBits_getElem s.bitbuf o.toNat v ((orderFits_iff_fits _ _).mp hord)⟩
  · intro hill
    split
    case isTrue h =>
      rw [State.writeBits_of_not_fits (by rw [intToBits_length]; tauto), State.finish_error]
    case isFalse => rw [State.finish_error]

/-- Settles O17: the body is one check and a slice read (`b2iBody_of_written`), and the bits of the word it
makes are `ofNat_bitsToInt_getLsbD`. -/
theorem b2iReadsTheSerializedBits : Obligations.B2iReadsTheSerializedBits := by
  intro pr s w o d b hw ho hd legal
  rw [exec_b2i, b2iBody_of_written hw ho hd]
  simp only [legal, ← fits_bitOrderOf_iff, ← orderFits_iff_fits]
  constructor
  · rintro ⟨h1, h32, hord, hend⟩ hcells
    rw [if_pos ⟨h1, h32, hord⟩, State.readBits_eq_ok hend hcells, ok_bind, State.finish_ok]
    exact ⟨_, rfl, fun _ hi => ofNat_bitsToInt_getLsbD b ((orderFits_iff_fits _ _).mp hord) hi⟩
  · intro hill
    split
    case isTrue h =>
      rw [State.readBits_past_bitlen (by tauto), error_bind, State.finish_error]
    case isFalse => rw [State.finish_error]

/-! ### `BF.INS` and `BF.EXT` -/

theorem exec_bfIns (pr : BitVec 2) (s : State) : exec (.bfIns pr) s = s.finish (bfInsBody s) :=
  exec_eq (.bfIns pr) s

theorem exec_bfExt (pr : BitVec 2) (s : State) : exec (.bfExt pr) s = s.finish (bfExtBody s) :=
  exec_eq (.bfExt pr) s

/-- The mask has the bits of the field and no other (R188). -/
theorem fieldMask_getLsbD (p w : Nat) {i : Nat} (hi : i < 32) :
    (fieldMask p w).getLsbD i = decide (p ≤ i ∧ i < p + w) := by
  rw [fieldMask, BitVec.getLsbD_ofNat, Nat.testBit_shiftLeft, Nat.testBit_two_pow_sub_one]
  by_cases hp : p ≤ i
  · simp [hi, hp, Nat.sub_lt_iff_lt_add' hp]
  · simp [hp]

theorem insField_getLsbD (b v : Word) (p w : Nat) {i : Nat} (hi : i < 32) :
    (insField b v p w).getLsbD i =
      if p ≤ i ∧ i < p + w then v.getLsbD (i - p) else b.getLsbD i := by
  simp only [insField, BitVec.getLsbD_or, BitVec.getLsbD_and, BitVec.getLsbD_not, BitVec.getLsbD_shiftLeft,
    fieldMask_getLsbD p w hi]
  by_cases hfield : p ≤ i ∧ i < p + w
  · simp [hi, hfield.1, hfield.2]
  · simp [hi, hfield]

theorem extField_getLsbD (v : Word) (p w : Nat) {i : Nat} (hi : i < 32) :
    (extField v p w).getLsbD i = (decide (i < w) && v.getLsbD (p + i)) := by
  simp [extField, BitVec.getLsbD_and, fieldMask_getLsbD 0 w hi, Bool.and_comm]

section
variable {s : State} {w : BitVec 6} {p : BitVec 5} {b v : Word}

theorem bfInsBody_of_written (hw : s.wid = .put w) (hp : s.pos = .put p) (hb : s.base = .put b)
    (hv : s.value = .put v) :
    bfInsBody s =
      if 1 ≤ w.toNat ∧ p.toNat + w.toNat ≤ 32 then .ok (s.setRes (insField b v p.toNat w.toNat))
      else .error .precond := by
  have hcheck : (w.toNat < 1 ∨ 32 < p.toNat + w.toNat) ↔ ¬ (1 ≤ w.toNat ∧ p.toNat + w.toNat ≤ 32) := by omega
  simp only [bfInsBody, hw, hp, hb, hv, Reg.get_put, ok_bind, hcheck, ite_not]

theorem bfExtBody_of_written (hw : s.wid = .put w) (hp : s.pos = .put p) (hv : s.value = .put v) :
    bfExtBody s =
      if 1 ≤ w.toNat ∧ p.toNat + w.toNat ≤ 32 then .ok (s.setRes (extField v p.toNat w.toNat))
      else .error .precond := by
  have hcheck : (w.toNat < 1 ∨ 32 < p.toNat + w.toNat) ↔ ¬ (1 ≤ w.toNat ∧ p.toNat + w.toNat ≤ 32) := by omega
  simp only [bfExtBody, hw, hp, hv, Reg.get_put, ok_bind, hcheck, ite_not]

end

/-- Settles O18: the bodies are one check and a write of `RES` (`bfInsBody_of_written`,
`bfExtBody_of_written`); the bits written are `insField_getLsbD` and `extField_getLsbD`. -/
theorem bitFieldsAreInsertedAndExtracted : Obligations.BitFieldsAreInsertedAndExtracted := by
  intro pr s w p b v hw hp hb hv fits
  rw [exec_bfIns, exec_bfExt, bfInsBody_of_written hw hp hb hv, bfExtBody_of_written hw hp hv]
  refine ⟨fun hfits => ?_, fun hfits => ?_, fun hfits => ?_⟩
  · rw [if_pos hfits]
    exact ⟨_, rfl, fun _ hi => insField_getLsbD b v p.toNat w.toNat hi⟩
  · rw [if_pos hfits]
    exact ⟨_, rfl, fun _ hi => extField_getLsbD v p.toNat w.toNat hi⟩
  · rw [if_neg hfits, if_neg hfits]
    exact ⟨rfl, rfl⟩

end Sys2Proof.Machine
end

section
/-! The checksum and whitening operations on a buffer whose cells hold values (41_checksum.md R201 to R205,
R212, R213): `CSUM.NONE`, `CHK.NONE`, `CSUM.ADD`, `CHK.ADD`, `OBF` and `DEOBF`. -/

namespace Sys2Proof.Machine

/-! ### The byte operand and the byte result -/

theorem HoldsBytes.readBytes {s : State} {f : List Byte} (h : HoldsBytes s f) : s.readBytes = .ok f := by
  obtain ⟨hlen, hcells⟩ := h
  exact State.readBytes_eq_ok hlen hcells

/-- A byte list written from the first cell on stands in its own cells; the cells above keep theirs. -/
theorem writeAt_zero_getElem {α : Type} {n : Nat} (v : Vector (Reg α) n) (vs : List α) (j : Fin n) :
    (writeAt v 0 vs)[j.val] = if h : j.val < vs.length then .put vs[j.val] else v[j.val] := by
  simp [writeAt_getElem v 0 vs j.val j.isLt]

/-! ### `CSUM.NONE` and `CHK.NONE` -/

theorem exec_csumNone (s : State) : exec .csumNone s = s.finish (.ok (s.setRes 0#32)) :=
  exec_eq .csumNone s

theorem exec_chkNone (s : State) : exec .chkNone s = s.finish (.ok (s.setRes 1#32)) :=
  exec_eq .chkNone s

/-- Settles O21: both operations only write `RES`, without a read of the buffer. -/
theorem protocolAHasNoChecksum : Obligations.ProtocolAHasNoChecksum := by
  intro s
  rw [exec_csumNone, exec_chkNone, State.finish_ok, State.finish_ok]
  exact ⟨rfl, rfl⟩

/-! ### `CSUM.ADD` and `CHK.ADD` -/

theorem exec_csumAdd (s : State) : exec .csumAdd s = s.finish (csumAddBody s) :=
  exec_eq .csumAdd s

theorem exec_chkAdd (s : State) : exec .chkAdd s = s.finish (chkAddBody s) :=
  exec_eq .chkAdd s

/-- The checksum byte as the word that goes into `RES`. -/
theorem csB_setWidth (f : List Byte) :
    (csB f).setWidth 32 = BitVec.ofInt 32 ((1 - byteSum f) % 256) := by
  apply BitVec.eq_of_toNat_eq
  have hsum := csB_toNat f
  have hlt := (csB f).isLt
  rw [BitVec.toNat_setWidth, BitVec.toNat_ofInt, ← hsum]
  omega

/-- The last byte is the checksum of the bytes before it iff the whole sum is 1 mod 256 (R204, R205). -/
theorem csB_dropLast_eq_getLast_iff {f : List Byte} (hne : f ≠ []) :
    csB f.dropLast = f.getLast hne ↔ byteSum f % 256 = 1 := by
  have hsum : byteSum f = byteSum f.dropLast + (f.getLast hne).toNat := by
    conv_lhs => rw [← List.dropLast_append_getLast hne]
    rw [byteSum_append, byteSum_cons, byteSum_nil, Nat.add_zero]
  rw [csB_eq_iff, hsum]

section
variable {s : State} {f : List Byte}

theorem csumAddBody_of_holdsBytes (h : HoldsBytes s f) :
    csumAddBody s = .ok (s.setRes (BitVec.ofInt 32 ((1 - byteSum f) % 256))) := by
  rw [csumAddBody, h.readBytes, ok_bind, csB_setWidth]

theorem chkAddBody_of_empty (h : HoldsBytes s []) : chkAddBody s = .error .precond := by
  rw [chkAddBody, h.readBytes, ok_bind, List.getLast?_nil]

theorem chkAddBody_of_nonempty (h : HoldsBytes s f) (hne : f ≠ []) :
    chkAddBody s = if byteSum f % 256 = 1 then .ok (s.setRes 1#32) else .error .checksum := by
  rw [chkAddBody, h.readBytes, ok_bind, List.getLast?_eq_some_getLast hne]
  simp only [csB_dropLast_eq_getLast_iff hne]

end

/-- Settles O22: the running difference is the closed form (`csB_setWidth`), and the comparison with the last
byte is a condition on the whole sum (`csB_dropLast_eq_getLast_iff`). -/
theorem additiveChecksumIsOneMinusTheSum : Obligations.AdditiveChecksumIsOneMinusTheSum := by
  intro s f h
  rw [exec_csumAdd, exec_chkAdd, csumAddBody_of_holdsBytes h]
  refine ⟨rfl, fun hnil => ?_, fun hne hsum => ?_, fun hne hsum => ?_⟩
  · subst hnil
    rw [chkAddBody_of_empty h, State.finish_error]
  · rw [chkAddBody_of_nonempty h hne, if_pos hsum]
    rfl
  · rw [chkAddBody_of_nonempty h hne, if_neg hsum, State.finish_error]

/-! ### `OBF` and `DEOBF` -/

theorem exec_obf (pr : BitVec 2) (s : State) : exec (.obf pr) s = s.finish (obfBody s) :=
  exec_eq (.obf pr) s

theorem exec_deobf (pr : BitVec 2) (s : State) : exec (.deobf pr) s = s.finish (deobfBody s) :=
  exec_eq (.deobf pr) s

section
variable {s : State} {f : List Byte}

theorem exec_obf_of_holdsBytes (pr : BitVec 2) (h : HoldsBytes s f) :
    exec (.obf pr) s = .next ((s.putBytes (obf f)).respond .ok) := by
  rw [exec_obf, obfBody, h.readBytes, ok_bind, State.finish_ok]

theorem exec_deobf_of_holdsBytes (pr : BitVec 2) (h : HoldsBytes s f) :
    exec (.deobf pr) s = .next ((s.putBytes (deobf f)).respond .ok) := by
  rw [exec_deobf, deobfBody, h.readBytes, ok_bind, State.finish_ok]

end

theorem writeAt_obf_getElem (buf : Vector (Reg Byte) 10) (f : List Byte) (j : Fin 10) :
    (writeAt buf 0 (obf f))[j.val] = if j.val < f.length then .put (xorUpTo f j.val) else buf[j.val] := by
  rw [writeAt_zero_getElem]
  by_cases hj : j.val < f.length
  · rw [dif_pos (by simpa using hj), if_pos hj, obf_getElem f j.val hj]
  · rw [dif_neg (by simpa using hj), if_neg hj]

theorem writeAt_deobf_getElem (buf : Vector (Reg Byte) 10) (f : List Byte) (j : Fin 10) :
    (writeAt buf 0 (deobf f))[j.val] =
      if j.val = 0 ∧ 0 < f.length then .put (f.getD 0 0#8)
      else if j.val < f.length then .put (f.getD j.val 0#8 ^^^ f.getD (j.val - 1) 0#8)
      else buf[j.val] := by
  rw [writeAt_zero_getElem]
  by_cases hj : j.val < f.length
  · rw [dif_pos (by simpa using hj), deobf_getElem f j.val hj, List.getElem_eq_getD 0#8]
    by_cases h0 : j.val = 0
    · rw [if_pos h0, if_pos ⟨h0, by omega⟩, h0]
    · rw [if_neg h0, if_neg (fun h => h0 h.1), if_pos hj]
  · rw [dif_neg (by simpa using hj), if_neg (by omega), if_neg hj]

/-- Settles O25: each operation writes its chain from the first cell on (`exec_obf_of_holdsBytes`,
`exec_deobf_of_holdsBytes`), and the cells it leaves are `writeAt_obf_getElem` and `writeAt_deobf_getElem`. -/
theorem whiteningFollowsItsChains : Obligations.WhiteningFollowsItsChains := by
  intro pr s f h
  exact ⟨⟨_, exec_obf_of_holdsBytes pr h, writeAt_obf_getElem s.bytebuf f⟩,
    ⟨_, exec_deobf_of_holdsBytes pr h, writeAt_deobf_getElem s.bytebuf f⟩⟩

end Sys2Proof.Machine
end

section
/-! The Protocol-A encoder and decoder as operations (42_protocol_a.md R232, R236): `ENC.A` on an action the host
may request, `DEC.A` on a received sequence. -/

namespace Sys2Proof.Machine

theorem exec_encA (s : State) : exec .encA s = s.finish (encABody s) :=
  exec_eq .encA s

theorem exec_decA (s : State) : exec .decA s = s.finish (decABody s) :=
  exec_eq .decA s

/-! ### `EncA` -/

/-- No address is too wide for Protocol-A (R21). -/
theorem addressFits_a (address : BitVec 24) : addressFits .a address = true :=
  decide_eq_true address.isLt

/-- Of an action the host may request, `CodeA` is what the table says: `PAIR_A` is out of reach (R231, R420). -/
theorem codeA_of_host {cfg : Cfg} {a : Action} (ha : (tagOf a).toNat < 11) :
    codeA cfg a = tableAt cfg.codeA a := by
  have hpair : a ≠ .pair := by rintro rfl; exact absurd ha (by decide)
  rw [codeA, if_neg hpair]
  split
  case h_1 code hcode => rw [hcode]
  case h_2 hnone => rw [hnone]

/-- `EncA` of an action with a code makes the frame of R130 around the code's seven bits. -/
theorem encodeA_of_code {cfg : Cfg} {c : Command} {code : BitVec 8} (hcode : codeA cfg c.action = some code) :
    encodeA cfg c = .ok (frameBitsA c.address c.channelMask (codeBits code)) := by
  simp only [encodeA, addressFits_a, Bool.not_true, Bool.false_eq_true, if_false, hcode, trunc7_eq]
  rfl

theorem encodeA_of_no_code {cfg : Cfg} {c : Command} (hcode : codeA cfg c.action = none) :
    encodeA cfg c = .error .unmapped :=
  encodeA_unmapped (addressFits_a c.address) (by rw [unmappedA, hcode]; rfl)

/-! ### `ENC.A` -/

section
variable {s : State} {a : Action} {address : BitVec 24} {mask : BitVec 8}

theorem encABody_of_code {code : BitVec 8} (ha : HoldsAction s a) (haddr : s.cmd.addr = .put address)
    (hmask : s.cmd.chmask = .put mask) (hcode : tableAt s.cfg.codeA a = some code) :
    encABody s = .ok (s.putBits ((List.range 39).map (wireA address mask (codeBits code)))) := by
  rw [encABody_eq ha haddr hmask, encodeA_of_code ((codeA_of_host ha.1).trans hcode), ok_bind, frameBitsA_eq]

theorem encABody_of_no_code (ha : HoldsAction s a) (haddr : s.cmd.addr = .put address)
    (hmask : s.cmd.chmask = .put mask) (hcode : tableAt s.cfg.codeA a = none) :
    encABody s = .error .unmapped := by
  rw [encABody_eq ha haddr hmask, encodeA_of_no_code ((codeA_of_host ha.1).trans hcode), error_bind]

end

/-- The tag check comes first: nothing else of `CMD` is looked at (R405, R420). -/
theorem encABody_of_high_tag {s : State} {tag : BitVec 4} (htag : s.cmd.action = .put tag)
    (hhigh : 11 ≤ tag.toNat) : encABody s = .error .unmapped := by
  rw [encABody, hostTag_high htag hhigh, error_bind]

/-- Settles O27: the tag check is `encABody_of_high_tag`, the table decides between `encABody_of_code` and
`encABody_of_no_code`, and a buffer written whole holds what was written (`State.holdsCells_putBits`). -/
theorem encAWritesTheFrame : Obligations.EncAWritesTheFrame := by
  refine ⟨fun s a address mask ha haddr hmask => ⟨fun code hcode => ?_, fun hcode => ?_⟩,
    fun s tag htag hhigh => ?_⟩
  · rw [exec_encA, encABody_of_code ha haddr hmask hcode, State.finish_ok,
      State.putBits_frame s _ 39 (by simp)]
    obtain ⟨-, hcells⟩ := State.holdsCells_putBits s 39 (wireA address mask (codeBits code)) (by omega)
    exact ⟨_, rfl, hcells⟩
  · rw [exec_encA, encABody_of_no_code ha haddr hmask hcode, State.finish_error]
  · rw [exec_encA, encABody_of_high_tag htag hhigh, State.finish_error]

/-! ### The search for a code -/

/-- Where one entry alone passes the test, its key is found. -/
theorem keyWhere_of_unique {α β : Type} {ok : β → Bool} {l : List (α × β)} {a : α} {b : β} (hmem : (a, b) ∈ l)
    (hok : ok b = true) (hunique : ∀ e ∈ l, ok e.2 = true → e = (a, b)) : keyWhere ok l = some a := by
  cases hkey : keyWhere ok l with
  | none => rw [keyWhere_none.mp hkey _ hmem] at hok; cases hok
  | some a' =>
    obtain ⟨b', hmem', hok'⟩ := keyWhere_mem hkey
    cases hunique _ hmem' hok'
    rfl

/-- The comparison `MatchA` makes, on the seven bits themselves (R235). -/
theorem trunc7_beq_intToMsb_iff {code : BitVec 8} {code7 : BitVec 7} :
    (trunc7 code == intToMsb code7.toNat 7) = true ↔ codeBits code = code7 := by
  rw [beq_iff_eq, trunc7_inj]

/-- An entry is found by its seven bits: under R10 no other entry shares them. -/
theorem matchA_of_mem {cfg : Cfg} {a : Action} {code : BitVec 8} (hadm : admissible cfg = true)
    (hmem : (a, code) ∈ cfg.codeA) : matchA cfg (intToMsb (codeBits code).toNat 7) = some a := by
  obtain ⟨-, hnodup, -⟩ := admissible_a hadm
  refine keyWhere_of_unique hmem (trunc7_beq_intToMsb_iff.mpr rfl) fun e he hok => ?_
  exact List.inj_on_of_nodup_map hnodup.of_cons he hmem (trunc7_beq_intToMsb_iff.mp hok)

theorem matchA_eq_none {cfg : Cfg} {code7 : BitVec 7} (hnone : ∀ e ∈ cfg.codeA, codeBits e.2 ≠ code7) :
    matchA cfg (intToMsb code7.toNat 7) = none :=
  keyWhere_none.mpr fun e he => Bool.eq_false_iff.mpr (mt trunc7_beq_intToMsb_iff.mp (hnone e he))

/-! ### The Protocol-A decoder on a frame -/

/-- What the decoder returns for an action and the two fields of its frame (R236 to R238). -/
def decodedA (a : Action) (address : BitVec 24) (mask : BitVec 8) : Decoded where
  cmd := { action := a, rail := 1#2, address := address, channelMask := mask,
           unit := 0#4, rollingCode := 0#16, repeatCount := 1#8, extCmd := none }
  group := mask == 0#8
  tilt := a == .up || a == .down

section
variable {cfg : Cfg} {address : BitVec 24} {mask : BitVec 8}

theorem decodeA_frameBitsA {a : Action} {code : BitVec 8} (hadm : admissible cfg = true)
    (hmem : (a, code) ∈ cfg.codeA) :
    decodeA cfg (frameBitsA address mask (codeBits code)) = .ok (decodedA a address mask) := by
  rw [decodeA, frameBitsA_slice, matchA_of_mem hadm hmem, frameBitsA_address, frameBitsA_mask]
  rfl

theorem decodeA_frameBitsA_unknown {code7 : BitVec 7} (hnone : ∀ e ∈ cfg.codeA, codeBits e.2 ≠ code7) :
    decodeA cfg (frameBitsA address mask code7) = .error .unknownCode := by
  rw [decodeA, frameBitsA_slice, matchA_eq_none hnone]

end

/-! ### `DEC.A` -/

/-- On 39 or 40 bits `DEC.A` reads the frame in the first 39 cells: index 39 is ignored (R236). -/
theorem decABody_of_frame {s : State} {address : BitVec 24} {mask : BitVec 8} {code7 : BitVec 7}
    (hlen : s.bitlen.val = 39 ∨ s.bitlen.val = 40)
    (hcells : ∀ k : Fin 80, k.val < 39 → s.bitbuf[k.val] = .put (wireA address mask code7 k.val)) :
    decABody s = (decodeA s.cfg (frameBitsA address mask code7) >>= fun d => .ok (s.writeDecoded d)) := by
  rw [decABody, State.received_of_cells (p := .a) (if_pos hlen) (by omega) hcells, ok_bind, ← frameBitsA_eq]

theorem decABody_of_other_length {s : State} (h39 : s.bitlen.val ≠ 39) (h40 : s.bitlen.val ≠ 40) :
    decABody s = .error .badLength := by
  rw [decABody, State.received_badLength (p := .a) (if_neg (not_or.mpr ⟨h39, h40⟩)), error_bind]

/-- Settles O28: the length decides first (`decABody_of_other_length`); on a frame the code table decides between
`decodeA_frameBitsA` and `decodeA_frameBitsA_unknown`. -/
theorem decAReadsTheFrame : Obligations.DecAReadsTheFrame := by
  refine ⟨fun s address mask code7 hadm hlen hcells => ?_, fun s h39 h40 => ?_⟩
  · rw [exec_decA, decABody_of_frame hlen hcells]
    constructor
    · rintro a code hmem rfl
      rw [← codeBits, decodeA_frameBitsA hadm hmem, ok_bind, State.finish_ok]
      rfl
    · intro hnone
      rw [decodeA_frameBitsA_unknown hnone, error_bind, State.finish_error]
  · rw [exec_decA, decABody_of_other_length h39 h40, State.finish_error]

end Sys2Proof.Machine
end

section
/-! The Protocol-B encoder and decoder as operations (43_protocol_b.md R262, R265): `ENC.B` on an action the host
may request, `DEC.B` on a received sequence. -/

namespace Sys2Proof.Machine

theorem exec_encB (s : State) : exec .encB s = s.finish (encBBody s) :=
  exec_eq .encB s

theorem exec_decB (s : State) : exec .decB s = s.finish (decBBody s) :=
  exec_eq .decB s

/-! ### The bytes of the frame -/

/-- The flags byte field by field: the rail-3 marker in bit 7, the tilt marker in bit 4 (R140, R142). -/
theorem flagsB_eq_append (rail : BitVec 2) (tilt : Bool) :
    flagsB rail tilt = BitVec.ofBool (rail == 3#2) ++ 0#2 ++ BitVec.ofBool tilt ++ 0#4 := by
  revert rail tilt
  decide

/-- The frame that `EncB` builds, its checksum included, is the one of R140. -/
theorem bytesB_append_csB (c : Command) (code : BitVec 4) :
    bytesB c code ++ [csB (bytesB c code)] =
      frameBytesB c.address code c.unit (c.rail == 3#2) (isTiltB c.action) := by
  simp only [frameBytesB, bytesB, byteOf, nibbles_eq, flagsB_eq_append, csB_eq_ofInt]

@[simp] theorem frameBytesB_length (address : BitVec 24) (code unit : BitVec 4) (rail3 tilt : Bool) :
    (frameBytesB address code unit rail3 tilt).length = 5 := rfl

/-! ### `EncB` -/

section
variable {cfg : Cfg} {c : Command}

theorem encodeB_of_code {code : BitVec 4} (hfits : c.address.toNat < 2 ^ 16)
    (hcode : tableAt cfg.code4B (baseB c.action, c.rail) = some code) :
    encodeB cfg c = .ok ((List.range 40).map
      (wireRev (frameBytesB c.address code c.unit (c.rail == 3#2) (isTiltB c.action)))) := by
  rw [encodeB, addressFits_b, decide_eq_true hfits, Bool.not_true, if_neg Bool.false_ne_true, hcode]
  dsimp only
  rw [bytesB_append_csB, bytesToBits_rev_eq, frameBytesB_length]

theorem encodeB_of_no_code (hfits : c.address.toNat < 2 ^ 16)
    (hcode : tableAt cfg.code4B (baseB c.action, c.rail) = none) : encodeB cfg c = .error .unmapped :=
  encodeB_unmapped (decide_eq_true hfits) (by rw [unmappedB, hcode]; rfl)

theorem encodeB_of_wide_address (hwide : 2 ^ 16 ≤ c.address.toNat) : encodeB cfg c = .error .malformed :=
  encodeP_malformed (p := .b) (decide_eq_false hwide.not_gt)

end

/-! ### `ENC.B` -/

/-- The tag check comes first: nothing else of `CMD` is looked at (R405, R420). -/
theorem encBBody_of_high_tag {s : State} {tag : BitVec 4} (htag : s.cmd.action = .put tag)
    (hhigh : 11 ≤ tag.toNat) : encBBody s = .error .unmapped := by
  rw [encBBody, hostTag_high htag hhigh, error_bind]

/-- Settles O30: on written operands `ENC.B` is `EncB` (`encBBody_eq`), whose three answers are
`encodeB_of_wide_address`, `encodeB_of_code` and `encodeB_of_no_code`; the tag check before it is
`encBBody_of_high_tag`. -/
theorem encBWritesTheFrame : Obligations.EncBWritesTheFrame := by
  refine ⟨fun s a rail address unit ha hrail haddr hunit => ?_, fun s tag htag hhigh => ?_⟩
  · rw [exec_encB, encBBody_eq ha hrail haddr hunit]
    refine ⟨fun hwide => ?_, fun hfits code hcode => ?_, fun hfits hcode => ?_⟩
    · rw [encodeB_of_wide_address hwide, error_bind, State.finish_error]
    · rw [encodeB_of_code hfits hcode, ok_bind, State.finish_ok, State.putBits_frame s _ 40 (by simp)]
      obtain ⟨-, hcells⟩ := State.holdsCells_putBits s 40
        (wireRev (frameBytesB address code unit (rail == 3#2) (isTiltB a))) (by omega)
      exact ⟨_, rfl, hcells⟩
    · rw [encodeB_of_no_code hfits hcode, error_bind, State.finish_error]
  · rw [exec_encB, encBBody_of_high_tag htag hhigh, State.finish_error]

/-! ### The fields of a received frame -/

/-- The bytes of a sequence sent least significant bit first (R141) are read back. -/
theorem bitsToBytes_wireRev (f : List Byte) :
    bitsToBytes .perByteReversed ((List.range (8 * f.length)).map (wireRev f)) = f := by
  rw [← bytesToBits_rev_eq, bitsToBytes_bytesToBits]

/-- The received checksum is right iff the five bytes sum to 1 mod 256 (R204). -/
theorem csB_frame_eq_iff (f0 f1 f2 f3 f4 : Byte) :
    csB [f0, f1, f2, f3] = f4 ↔ byteSum [f0, f1, f2, f3, f4] % 256 = 1 :=
  csB_dropLast_eq_getLast_iff (List.cons_ne_nil f0 [f1, f2, f3, f4])

/-- `CommandValue` as the integer sum of R266: 9 bits hold it. -/
theorem commandValue_eq_ofNat (b2 b3 : Byte) :
    commandValue b2 b3 = BitVec.ofNat 9 (b2.toNat / 16 + if 0x80 ≤ b3.toNat then b3.toNat else 0) := by
  apply BitVec.eq_of_toNat_eq
  have hb2 := b2.isLt
  rw [commandValue]
  split <;> simp [Nat.shiftRight_eq_div_pow] <;> omega

/-- The tilt marker as a condition on the flags byte: `f[3] >> 4 = 1` (R265). -/
theorem hiNib_eq_one_iff (b : Byte) : hiNib b = 1#4 ↔ b.toNat / 16 = 1 := by
  have hb := b.isLt
  simp [BitVec.toNat_eq, hiNib, Nat.shiftRight_eq_div_pow]
  omega

theorem beWord_eq_append (hi lo : Byte) : beWord hi lo = hi ++ lo := by
  rw [beWord, BitVec.append_def, BitVec.shiftLeftZeroExtend_eq]
  rfl

/-- The big-endian address of two bytes, as a field of `CMD.ADDR`. -/
theorem beWord_setWidth (hi lo : Byte) : (beWord hi lo).setWidth 24 = 0#8 ++ hi ++ lo := by
  rw [beWord_eq_append, BitVec.append_assoc, BitVec.setWidth_eq_append (by omega)]

/-! ### The Protocol-B decoder on a frame -/

/-- What the decoder returns for the action, the command value and the four bytes of a frame (R265). -/
def decodedB (cfg : Cfg) (a : Action) (cv : BitVec 9) (f0 f1 f2 f3 : Byte) : Decoded where
  cmd := { action := if f3.toNat / 16 = 1 then tiltOf a else a,
           rail := (tableAt cfg.railB cv).getD 1#2, address := 0#8 ++ f0 ++ f1, channelMask := 0#8,
           unit := f2.extractLsb' 0 4, rollingCode := 0#16, repeatCount := 1#8, extCmd := none }
  group := f2.extractLsb' 0 4 == 0#4
  tilt := false

section
variable {cfg : Cfg} {f0 f1 f2 f3 f4 : Byte}

theorem decodeB_wireRev :
    decodeB cfg ((List.range 40).map (wireRev [f0, f1, f2, f3, f4])) = decodeBytesB cfg f0 f1 f2 f3 f4 := by
  rw [decodeB, show 40 = 8 * [f0, f1, f2, f3, f4].length from rfl, bitsToBytes_wireRev]

theorem decodeBytesB_of_bad_sum (hsum : byteSum [f0, f1, f2, f3, f4] % 256 ≠ 1) :
    decodeBytesB cfg f0 f1 f2 f3 f4 = .error .checksum := by
  rw [decodeBytesB, if_pos (mt (csB_frame_eq_iff f0 f1 f2 f3 f4).mp hsum)]

theorem decodeBytesB_of_unknown (hsum : byteSum [f0, f1, f2, f3, f4] % 256 = 1)
    (hcv : tableAt cfg.actB (commandValue f2 f3) = none) :
    decodeBytesB cfg f0 f1 f2 f3 f4 = .error .unknownCode := by
  rw [decodeBytesB, if_neg (not_not.mpr ((csB_frame_eq_iff f0 f1 f2 f3 f4).mpr hsum)), hcv]

theorem decodeBytesB_of_known {a : Action} (hsum : byteSum [f0, f1, f2, f3, f4] % 256 = 1)
    (hcv : tableAt cfg.actB (commandValue f2 f3) = some a) :
    decodeBytesB cfg f0 f1 f2 f3 f4 = .ok (decodedB cfg a (commandValue f2 f3) f0 f1 f2 f3) := by
  rw [decodeBytesB, if_neg (not_not.mpr ((csB_frame_eq_iff f0 f1 f2 f3 f4).mpr hsum)), hcv]
  simp only [decodedB, railOf, groupB, loNib_eq, hiNib_eq_one_iff, beWord_setWidth]

end

/-! ### `DEC.B` -/

/-- On 40 bits `DEC.B` is the decoder on the five bytes they carry (R265). -/
theorem decBBody_of_frame {s : State} {f0 f1 f2 f3 f4 : Byte}
    (h : HoldsCells s 40 (wireRev [f0, f1, f2, f3, f4])) :
    decBBody s = (decodeBytesB s.cfg f0 f1 f2 f3 f4 >>= fun d => .ok (s.writeDecoded d)) := by
  rw [decBBody, State.received_of_holdsCells (p := .b) h rfl, ok_bind, decodeB_wireRev]

theorem decBBody_of_other_length {s : State} (h40 : s.bitlen.val ≠ 40) : decBBody s = .error .badLength := by
  rw [decBBody, State.received_badLength (p := .b) (if_neg h40), error_bind]

/-- Settles O31: the length decides first (`decBBody_of_other_length`), then the checksum
(`decodeBytesB_of_bad_sum`), then the table at the command value (`decodeBytesB_of_unknown`,
`decodeBytesB_of_known`). -/
theorem decBReadsTheFrame : Obligations.DecBReadsTheFrame := by
  refine ⟨fun s f0 f1 f2 f3 f4 h => ?_, fun s h40 => ?_⟩
  · rw [exec_decB, decBBody_of_frame h, ← commandValue_eq_ofNat]
    refine ⟨fun hsum => ?_, fun hsum hcv => ?_, fun hsum a hcv => ?_⟩
    · rw [decodeBytesB_of_bad_sum hsum, error_bind, State.finish_error]
    · rw [decodeBytesB_of_unknown hsum hcv, error_bind, State.finish_error]
    · rw [decodeBytesB_of_known hsum hcv, ok_bind, State.finish_ok]
      rfl
  · rw [exec_decB, decBBody_of_other_length h40, State.finish_error]

end Sys2Proof.Machine
end

section
/-! The Protocol-C encoder and decoder as operations (44_protocol_c.md R291, R292, R300): `ENC.C` on an action the
host may request, `DEC.C` on a received sequence. -/

namespace Sys2Proof.Machine

theorem exec_encC (s : State) : exec .encC s = s.finish (encCBody s) :=
  exec_eq .encC s

theorem exec_decC (s : State) : exec .decC s = s.finish (decCBody s) :=
  exec_eq .decC s

/-! ### The bytes of the frame -/

@[simp] theorem checkedBytesC_length (mark0 : Byte) (nib : BitVec 4) (rc : BitVec 16) (address : BitVec 24) :
    (checkedBytesC mark0 nib rc address).length = 7 := rfl

@[simp] theorem trailerBytesC_length (mark7 e : Byte) (count : BitVec 4) :
    (trailerBytesC mark7 e count).length = 3 := rfl

/-- The plain bytes the codec builds are those of R150. -/
theorem plainC_eq_plainBytesC (mark0 : Byte) (nib check : BitVec 4) (rc : BitVec 16) (address : BitVec 24) :
    plainC mark0 nib check rc address = plainBytesC mark0 nib check rc address := by
  simp only [plainC, plainBytesC, nibbles_eq, byteOf]

theorem headC_eq_checkedBytesC (cfg : Cfg) (nib : BitVec 4) (c : Command) :
    headC cfg nib c = checkedBytesC cfg.markC0 nib c.rollingCode c.address := by
  simp only [headC, checkedBytesC, plainC_eq_plainBytesC, fold_eq_nibbleXor]

theorem tailC_eq_trailerBytesC (cfg : Cfg) (e : Byte) (count : BitVec 8) :
    tailC cfg e count = trailerBytesC cfg.markC7 e (count.setWidth 4) := by
  simp only [tailC, trailerBytesC, trailerByte, nibbles_eq, fold_eq_nibbleXor]

/-! ### The choice of the frame -/

theorem inRangeC_eq_false_iff {cfg : Cfg} {n : BitVec 4} :
    inRangeC cfg n = false ↔ ∀ x ∈ cfg.codeC, x.2 ≠ n := by
  simp [inRangeC]

section
variable {cfg : Cfg} {c : Command}

/-- Without `extCmd` the table decides (R291). -/
theorem selectC_of_no_extCmd (hext : c.extCmd = none) :
    selectC cfg c = (tableAt cfg.codeC c.action).map fun nib => (nib, none) := by
  simp only [selectC, hext]

theorem selectC_of_custom {v : BitVec 8} {e : Byte} (ha : c.action = .custom v) (hext : c.extCmd = some e)
    (hv : v.toNat < 16) (hrange : ∀ x ∈ cfg.codeC, x.2 ≠ v.setWidth 4) :
    selectC cfg c = some (v.setWidth 4, some e) := by
  simp only [selectC, ha, hext]
  exact if_pos ⟨hv, inRangeC_eq_false_iff.mpr hrange⟩

/-- With `extCmd` only a `Custom(v)` has a frame, of a `v` that is a nibble outside the range of `CODE_C`
(R291). -/
theorem selectC_eq_none_of_extCmd {e : Byte} (hext : c.extCmd = some e)
    (hcustom : ∀ v, c.action = .custom v → 16 ≤ v.toNat ∨ ∃ x ∈ cfg.codeC, x.2 = v.setWidth 4) :
    selectC cfg c = none := by
  cases ha : c.action
  case custom v =>
    simp only [selectC, ha, hext]
    refine if_neg ?_
    rintro ⟨hv, hrange⟩
    rcases hcustom v ha with hwide | ⟨x, hx, hxv⟩
    · omega
    · exact inRangeC_eq_false_iff.mp hrange x hx hxv
  all_goals simp only [selectC, ha, hext]

/-! ### `EncC` -/

theorem encodeC_of_short {nib : BitVec 4} (hsel : selectC cfg c = some (nib, none)) :
    encodeC cfg c =
      .ok ((List.range 56).map (wireC (checkedBytesC cfg.markC0 nib c.rollingCode c.address))) := by
  rw [encodeC, addressFits_c, Bool.not_true, if_neg Bool.false_ne_true, hsel]
  dsimp only
  rw [headC_eq_checkedBytesC, wireBitsC_eq, checkedBytesC_length]

theorem encodeC_of_extended {nib : BitVec 4} {e : Byte} (hsel : selectC cfg c = some (nib, some e))
    (hcount : 1 ≤ c.repeatCount.toNat ∧ c.repeatCount.toNat ≤ 15) :
    encodeC cfg c = .ok ((List.range 80).map (wireC (checkedBytesC cfg.markC0 nib c.rollingCode c.address ++
      trailerBytesC cfg.markC7 e (c.repeatCount.setWidth 4)))) := by
  rw [encodeC, addressFits_c, Bool.not_true, if_neg Bool.false_ne_true, hsel]
  dsimp only
  rw [if_neg (by omega), headC_eq_checkedBytesC, tailC_eq_trailerBytesC, wireBitsC_eq, List.length_append,
    checkedBytesC_length, trailerBytesC_length]

theorem encodeC_of_bad_count {nib : BitVec 4} {e : Byte} (hsel : selectC cfg c = some (nib, some e))
    (hcount : ¬ (1 ≤ c.repeatCount.toNat ∧ c.repeatCount.toNat ≤ 15)) : encodeC cfg c = .error .precond := by
  rw [encodeC, addressFits_c, Bool.not_true, if_neg Bool.false_ne_true, hsel]
  exact if_pos (by omega)

theorem encodeC_of_no_frame (hsel : selectC cfg c = none) : encodeC cfg c = .error .unmapped :=
  encodeC_unmapped (addressFits_c c.address) (by rw [unmappedC, hsel]; rfl)

end

/-! ### `ENC.C` -/

/-- The tag check comes first: nothing else of `CMD` is looked at (R405, R420). -/
theorem encCBody_of_high_tag {s : State} {tag : BitVec 4} (htag : s.cmd.action = .put tag)
    (hhigh : 11 ≤ tag.toNat) : encCBody s = .error .unmapped := by
  rw [encCBody, hostTag_high htag hhigh, error_bind]

/-- An encode that ends with `Some` writes its bits into `BITBUF`, and their number into `BITLEN`. -/
theorem exec_encC_of_bits {s : State} {n : Fin 81} {g : Nat → Bool}
    (hbody : encCBody s = .ok (s.putBits ((List.range n.val).map g))) :
    ∃ buf, exec .encC s = .next ({ s with bitbuf := buf, bitlen := n }.respond .ok) ∧
      ∀ k : Fin 80, k.val < n.val → buf[k.val] = .put (g k.val) := by
  rw [exec_encC, hbody, State.finish_ok, State.putBits_frame s _ n (by simp)]
  obtain ⟨-, hcells⟩ := State.holdsCells_putBits s n.val g (by omega)
  exact ⟨_, rfl, hcells⟩

/-- Settles O34: on written operands `ENC.C` is `EncC` (`encCBody_short`, `encCBody_ext`), the command selects the
frame (`selectC_of_no_extCmd`, `selectC_of_custom`, `selectC_eq_none_of_extCmd`), and `EncC` builds it
(`encodeC_of_short`, `encodeC_of_extended`); the tag check before it is `encCBody_of_high_tag`. -/
theorem encCWritesTheFrame : Obligations.EncCWritesTheFrame := by
  refine ⟨fun s a address rc ha haddr hrc => ⟨fun hextv nib hnib => ?_, fun hextv hnone => ?_,
    fun e hextv hextb v hav hv hrange n hrep => ?_, fun e hextv hextb hcustom => ?_⟩, fun s tag htag hhigh => ?_⟩
  · apply exec_encC_of_bits (n := 56)
    rw [encCBody_short ha haddr hrc hextv,
      encodeC_of_short ((selectC_of_no_extCmd rfl).trans (congrArg _ hnib)), ok_bind]
    rfl
  · rw [exec_encC, encCBody_short ha haddr hrc hextv,
      encodeC_of_no_frame ((selectC_of_no_extCmd rfl).trans (congrArg _ hnone)), error_bind, State.finish_error]
  · have hbody := encCBody_ext ha haddr hrc hextv hextb hrep
    refine ⟨fun hcount => ?_, fun hcount => ?_⟩
    · rw [encodeC_of_extended (selectC_of_custom hav rfl hv hrange) hcount, ok_bind] at hbody
      obtain ⟨buf, hexec, hcells⟩ := exec_encC_of_bits (n := 80) hbody
      exact ⟨buf, hexec, fun k => hcells k k.isLt⟩
    · rw [exec_encC, hbody, encodeC_of_bad_count (selectC_of_custom hav rfl hv hrange) hcount, error_bind,
        State.finish_error]
  · have hheld : s.heldCommand.action = a := congrArg Reg.val (heldAction_holds ha)
    have hext : s.heldCommand.extCmd = some e := by simp [State.heldCommand, hextv, hextb]
    have hsel : selectC s.cfg s.heldCommand = none := selectC_eq_none_of_extCmd hext (hheld ▸ hcustom)
    rw [exec_encC, encCBody_unmapped ha (.inl (by rw [hextv]; rfl)) (by rw [unmappedC, hsel]; rfl),
      State.finish_error]
  · rw [exec_encC, encCBody_of_high_tag htag hhigh, State.finish_error]

/-! ### The fields of a received frame -/

theorem hiNib_append (hi lo : BitVec 4) : hiNib (hi ++ lo) = hi := by
  rw [← nibbles_eq, hiNib_nibbles]

theorem loNib_append (hi lo : BitVec 4) : loNib (hi ++ lo) = lo := by
  rw [← nibbles_eq, loNib_nibbles]

/-- A nibble as the value of an 8-bit field. -/
theorem nibble_setWidth (n : BitVec 4) : n.setWidth 8 = 0#4 ++ n :=
  BitVec.setWidth_eq_append (by omega)

/-- The trailer check of R296 on the two nibbles of the last byte. -/
theorem trailerOk_append_iff (m7 e : Byte) (count check : BitVec 4) :
    trailerOk m7 e (count ++ check) = true ↔ check = count ^^^ nibbleXor [m7, e] := by
  rw [trailerOk, hiNib_append, loNib_append, fold_eq_nibbleXor, beq_iff_eq]

/-- What the decoder returns for an action and the fields of its frame, the repeat count and `extCmd` by the
frame's length (R300). -/
def decodedC (a : Action) (rc : BitVec 16) (address : BitVec 24) (reps : BitVec 8) (e : Option Byte) :
    Decoded where
  cmd := { action := a, rail := 1#2, address := address, channelMask := 0#8, unit := 0#4, rollingCode := rc,
           repeatCount := reps, extCmd := e }
  group := false
  tilt := false

/-- The rolling code is big-endian and the address little-endian (R88). -/
theorem commandC_of_fields (a : Action) (rc : BitVec 16) (address : BitVec 24) (reps : BitVec 8)
    (e : Option Byte) :
    commandC a (rc.extractLsb' 8 8) (rc.extractLsb' 0 8) (address.extractLsb' 0 8) (address.extractLsb' 8 8)
      (address.extractLsb' 16 8) reps e = decodedC a rc address reps e := by
  have hrc : beWord (rc.extractLsb' 8 8) (rc.extractLsb' 0 8) = rc := beWord_byteOf rc
  have haddr : leAddr (address.extractLsb' 0 8) (address.extractLsb' 8 8) (address.extractLsb' 16 8) = address :=
    leAddr_byteOf address
  rw [commandC, hrc, haddr, decodedC]

/-! ### The search for a command nibble -/

/-- The action of a nibble is found: under R10 no two actions share one. -/
theorem keyWhere_codeC_of_mem {cfg : Cfg} {a : Action} {nib : BitVec 4} (hadm : admissible cfg = true)
    (hmem : (a, nib) ∈ cfg.codeC) : keyWhere (fun n => n == nib) cfg.codeC = some a := by
  obtain ⟨-, hnodup, -⟩ := admissible_c hadm
  refine keyWhere_of_unique hmem (beq_self_eq_true nib) fun x hx hok => ?_
  exact List.inj_on_of_nodup_map hnodup hx hmem (beq_iff_eq.mp hok)

theorem keyWhere_codeC_eq_none {cfg : Cfg} {nib : BitVec 4} (hnone : ∀ x ∈ cfg.codeC, x.2 ≠ nib) :
    keyWhere (fun n => n == nib) cfg.codeC = none :=
  keyWhere_none.mpr fun x hx => beq_false_of_ne (hnone x hx)

/-! ### The Protocol-C decoder on a frame -/

/-- The decoder sees the plain bytes of a sequence given as their whitened form (R300, R214). -/
theorem decodeC_wireC (cfg : Cfg) (p : List Byte) :
    decodeC cfg ((List.range (8 * p.length)).map (wireC p)) = decodeBytesC cfg p := by
  rw [decodeC, ← wireBitsC_eq, deobf_bitsToBytes_wireBitsC]

section
variable {cfg : Cfg} {m0 m7 e : Byte} {nib chk count chk2 : BitVec 4} {rc : BitVec 16} {address : BitVec 24}

/-- The main check covers the first seven bytes and comes first, whatever follows them (R210, R300). -/
theorem decodeBytesC_of_bad_check (tail : List Byte)
    (hcheck : nibbleXor (plainBytesC m0 nib chk rc address) ≠ 0#4) :
    decodeBytesC cfg (plainBytesC m0 nib chk rc address ++ tail) = .error .checksum := by
  rw [← fold_eq_nibbleXor] at hcheck
  exact if_pos hcheck

theorem decodeBytesC_of_unknown (hcheck : nibbleXor (plainBytesC m0 nib chk rc address) = 0#4)
    (hnone : ∀ x ∈ cfg.codeC, x.2 ≠ nib) :
    decodeBytesC cfg (plainBytesC m0 nib chk rc address) = .error .unknownCode := by
  rw [← fold_eq_nibbleXor, plainBytesC] at hcheck
  simp only [decodeBytesC, plainBytesC, hcheck, ne_eq, not_true_eq_false, if_false, hiNib_append,
    keyWhere_codeC_eq_none hnone]

theorem decodeBytesC_of_known {a : Action} (hadm : admissible cfg = true)
    (hcheck : nibbleXor (plainBytesC m0 nib chk rc address) = 0#4) (hmem : (a, nib) ∈ cfg.codeC) :
    decodeBytesC cfg (plainBytesC m0 nib chk rc address) = .ok (decodedC a rc address 1#8 none) := by
  rw [← fold_eq_nibbleXor, plainBytesC] at hcheck
  simp only [decodeBytesC, plainBytesC, hcheck, ne_eq, not_true_eq_false, if_false, hiNib_append,
    keyWhere_codeC_of_mem hadm hmem, commandC_of_fields]

/-- Once the main check holds, the trailer check alone decides on an extended frame: any nibble is a `Custom`
(R300). -/
theorem decodeBytesC_of_extended (hcheck : nibbleXor (plainBytesC m0 nib chk rc address) = 0#4) :
    decodeBytesC cfg (plainBytesC m0 nib chk rc address ++ [m7, e, count ++ chk2]) =
      if chk2 = count ^^^ nibbleXor [m7, e] then
        .ok (decodedC (.custom (0#4 ++ nib)) rc address (0#4 ++ count) (some e))
      else .error .checksum := by
  rw [← fold_eq_nibbleXor, plainBytesC] at hcheck
  simp only [decodeBytesC, plainBytesC, List.cons_append, List.nil_append, hcheck, ne_eq, not_true_eq_false,
    if_false, trailerOk_append_iff, hiNib_append, nibble_setWidth, commandC_of_fields]

end

/-! ### `DEC.C` -/

/-- On the wire bits of 7 or 10 plain bytes `DEC.C` is the decoder on those bytes (R300). -/
theorem decCBody_of_frame {s : State} {n : Nat} {p : List Byte} (h : HoldsCells s n (wireC p))
    (hlen : n = 8 * p.length) (hn : n = 56 ∨ n = 80) :
    decCBody s = (decodeBytesC s.cfg p >>= fun d => .ok (s.writeDecoded d)) := by
  rw [decCBody, State.received_of_holdsCells (p := .c) h (if_pos hn), ok_bind, hlen, decodeC_wireC]

theorem decCBody_of_other_length {s : State} (h56 : s.bitlen.val ≠ 56) (h80 : s.bitlen.val ≠ 80) :
    decCBody s = .error .badLength := by
  rw [decCBody, State.received_badLength (p := .c) (if_neg (not_or.mpr ⟨h56, h80⟩)), error_bind]

/-- Settles O35: the length decides first (`decCBody_of_other_length`), then the main check
(`decodeBytesC_of_bad_check`); then on a short frame the code table (`decodeBytesC_of_unknown`,
`decodeBytesC_of_known`), on an extended one the trailer check (`decodeBytesC_of_extended`). -/
theorem decCReadsTheFrame : Obligations.DecCReadsTheFrame := by
  refine ⟨fun s m0 nib chk rc address hadm h => ?_,
    fun s m0 m7 e nib chk count chk2 rc address h => ?_, fun s h56 h80 => ?_⟩
  · rw [exec_decC, decCBody_of_frame h rfl (.inl rfl)]
    refine ⟨fun hcheck => ?_, fun hcheck hnone => ?_, fun hcheck a hmem => ?_⟩
    · rw [← List.append_nil (plainBytesC ..), decodeBytesC_of_bad_check [] hcheck, error_bind,
        State.finish_error]
    · rw [decodeBytesC_of_unknown hcheck hnone, error_bind, State.finish_error]
    · rw [decodeBytesC_of_known hadm hcheck hmem, ok_bind, State.finish_ok]
      rfl
  · rw [exec_decC, decCBody_of_frame h rfl (.inr rfl)]
    refine ⟨fun hbad => ?_, fun hcheck htrailer => ?_⟩
    · by_cases hcheck : nibbleXor (plainBytesC m0 nib chk rc address) = 0#4
      · have htrailer := hbad.resolve_left (not_not.mpr hcheck)
        rw [decodeBytesC_of_extended hcheck, if_neg htrailer, error_bind, State.finish_error]
      · rw [decodeBytesC_of_bad_check _ hcheck, error_bind, State.finish_error]
    · rw [decodeBytesC_of_extended hcheck, if_pos htrailer, ok_bind, State.finish_ok]
      rfl
  · rw [exec_decC, decCBody_of_other_length h56 h80, State.finish_error]

end Sys2Proof.Machine
end

section
/-! The Fire step of the sequencer (45_transform.md R355 to R357): which item it sends, and what it does to the
schedule after the `SEND`, kind by kind. -/

namespace Sys2Proof.Machine

/-! ### The item the step sends -/

section
variable {cfg : Cfg} {q : Seq}

theorem nextItem_list_primary (hk : q.kind = .list) (hph : q.ph = 0#2) :
    nextItem cfg q = some (q.proto, q.cmd) := by
  simp [nextItem, hk, hph]

theorem nextItem_list_followUp (hk : q.kind = .list) (hph : q.ph = 1#2) :
    nextItem cfg q = some (q.proto, followUpCmd cfg q) := by
  simp [nextItem, hk, hph]

/-- The command of a burst, with its repeat count as R357 writes it. -/
theorem nextItem_batch (hk : q.kind = .batch) :
    nextItem cfg q =
      some (q.proto, { q.cmd with repeatCount := BitVec.ofNat 8 (min 15 q.rem.toNat) }) := by
  simp only [nextItem, hk, burstOf_eq]

theorem nextItem_pair_code (hk : q.kind = .pair) (hph : q.ph = 0#2 ∨ q.ph = 1#2) :
    nextItem cfg q = some (.a, { q.cmd with action := .pair }) := by
  rcases hph with hph | hph <;> simp [nextItem, hk, hph]

theorem nextItem_pair_up (hk : q.kind = .pair) (hph : q.ph = 2#2) :
    nextItem cfg q = some (.a, { q.cmd with action := .up }) := by
  simp [nextItem, hk, hph]

end

/-! ### The schedule after the `SEND` -/

section
variable {u : State} {q : Seq}

/-- A primary with a follow-up leaves the block ready to send it, with no wait between them (R356). -/
theorem State.afterSend_list_primary (sent : Bool) (hk : q.kind = .list) (hph : q.ph = 0#2) :
    { u with seq := q }.afterSend sent =
      { u with seq := if q.fuv then { q with ph := 1#2 } else { q with st := .idle } } := by
  cases hfuv : q.fuv <;> simp [State.afterSend, hk, hph, hfuv, State.setPhase, State.goIdle]

theorem State.afterSend_list_followUp (sent : Bool) (hk : q.kind = .list) (hph : q.ph = 1#2) :
    { u with seq := q }.afterSend sent = { u with seq := { q with st := .idle } } := by
  simp [State.afterSend, hk, hph, State.goIdle]

theorem State.afterSend_batch_sent (hk : q.kind = .batch) :
    { u with seq := q }.afterSend true =
      { u with
        seq := { q with st := .waiting, rem := q.rem - BitVec.ofNat 8 (min 15 q.rem.toNat),
                        waitms := BitVec.ofNat 16 (100 * min 15 q.rem.toNat) },
        timer := some (BitVec.ofNat 16 (100 * min 15 q.rem.toNat)),
        trace := u.trace ++ [.wait (BitVec.ofNat 16 (100 * min 15 q.rem.toNat))] } := by
  rw [← burstOf_wait, ← burstOf_eq]
  simp only [State.afterSend, hk, if_true, State.setRem, State.armTimer]

theorem State.afterSend_batch_skipped (hk : q.kind = .batch) :
    { u with seq := q }.afterSend false = { u with seq := { q with st := .idle, rem := 0#8 } } := by
  simp only [State.afterSend, hk, Bool.false_eq_true, if_false, State.setRem, State.goIdle]

/-- The wait follows both bursts of the pairing code, sent or skipped (R357). -/
theorem State.afterSend_pair_code (sent : Bool) (hk : q.kind = .pair) (hph : q.ph = 0#2 ∨ q.ph = 1#2) :
    { u with seq := q }.afterSend sent =
      { u with
        seq := { q with st := .waiting, ph := q.ph + 1#2, waitms := 1000#16 },
        timer := some 1000#16, trace := u.trace ++ [.wait 1000#16] } := by
  have hlt : q.ph.toNat < 2 := by rcases hph with hph | hph <;> simp [hph]
  simp only [State.afterSend, hk, if_pos hlt, State.setPhase, State.armTimer]

theorem State.afterSend_pair_up (sent : Bool) (hk : q.kind = .pair) (hph : q.ph = 2#2) :
    { u with seq := q }.afterSend sent = { u with seq := { q with st := .idle } } := by
  simp [State.afterSend, hk, hph, State.goIdle]

end

/-! ### The step -/

/-- An enabled step sends the next item and goes on by the outcome of the `SEND`, with the schedule as it stood:
`SEND` does not touch it. -/
theorem seqFire_of_send {s u : State} {p : Proto} {c : Command} {fails sent : Bool}
    (hready : s.seq.st = .ready) (hitem : nextItem s.cfg s.seq = some (p, c))
    (hsend : s.send p c fails = .ok (sent, u)) :
    seqFire fails s = .next ({ u with seq := s.seq }.afterSend sent) := by
  obtain ⟨hseq, -⟩ := send_frame hsend
  rw [← hseq]
  simp only [seqFire, hready, if_true, hitem, hsend]

/-- Settles O52: phase 0 sends the primary (`nextItem_list_primary`) and goes on by whether there is a follow-up
(`afterSend_list_primary`), phase 1 sends the follow-up and ends the list. -/
theorem firePlaysTheList : Obligations.FirePlaysTheList := by
  refine fun s u fails sent hready hk => ⟨fun hph hsend => ?_, fun hph hsend => ?_⟩
  · rw [seqFire_of_send hready (nextItem_list_primary hk hph) hsend,
      State.afterSend_list_primary sent hk hph]
  · rw [seqFire_of_send hready (nextItem_list_followUp hk hph) hsend,
      State.afterSend_list_followUp sent hk hph]

/-- Settles O53: a batch sends one burst (`nextItem_batch`) and waits for it or is dropped
(`afterSend_batch_sent`, `afterSend_batch_skipped`); a pairing sends its code in phases 0 and 1, each with a
wait (`afterSend_pair_code`), and `Up` in phase 2, which ends it. -/
theorem firePlaysTheBatchAndThePairing : Obligations.FirePlaysTheBatchAndThePairing := by
  refine fun s u fails sent hready => ⟨fun hk hsend => ?_, fun hk hph hsend => ?_, fun hk hph hsend => ?_⟩
  · rw [seqFire_of_send hready (nextItem_batch hk) hsend]
    constructor
    · rintro rfl
      rw [State.afterSend_batch_sent hk]
    · rintro rfl
      rw [State.afterSend_batch_skipped hk]
  · rw [seqFire_of_send hready (nextItem_pair_code hk hph) hsend, State.afterSend_pair_code sent hk hph]
  · rw [seqFire_of_send hready (nextItem_pair_up hk hph) hsend, State.afterSend_pair_up sent hk hph]

end Sys2Proof.Machine
end

section
/-! The first checks of the pipeline requests (45_transform.md R359, R405, R407): `PROTO = 3`, then a pending
schedule, before any operand is read. -/

namespace Sys2Proof.Machine

/-- `PROTO = 3` is refused whatever the sequencer does (R405). -/
theorem reqProto_three (s : State) : reqProto 3#2 s = .error .illegalOp := rfl

/-- Under a protocol, a pending schedule is refused (R407). -/
theorem reqProto_busy {pr : BitVec 2} {s : State} (hpr : pr ≠ 3#2) (hst : s.seq.st ≠ .idle) :
    reqProto pr s = .error .busy := by
  obtain ⟨p, hp⟩ := protoOf_isSome hpr
  simp only [reqProto, hp, if_neg hst]

/-- Every request makes the two checks before anything else (R359). -/
theorem exec_request_reqProto_first {pr : BitVec 2} {i : Instr} (s : State)
    (hi : i = .reqCap pr ∨ i = .reqSteps pr ∨ i = .reqMy pr ∨ i = .reqProg pr ∨ i = .reqRaw pr) :
    ∃ rest : Proto → Except Status State, exec i s = s.finish (reqProto pr s >>= rest) := by
  rcases hi with rfl | rfl | rfl | rfl | rfl
  · exact ⟨_, exec_eq (.reqCap pr) s⟩
  · exact ⟨_, exec_eq (.reqSteps pr) s⟩
  · exact ⟨_, exec_eq (.reqMy pr) s⟩
  · exact ⟨_, exec_eq (.reqProg pr) s⟩
  · exact ⟨_, exec_eq (.reqRaw pr) s⟩

/-- Settles O44: the checks come first in every request (`exec_request_reqProto_first`), `PROTO = 3`
(`reqProto_three`) before the pending schedule (`reqProto_busy`). -/
theorem requestsWhileBusyAreDropped : Obligations.RequestsWhileBusyAreDropped := by
  intro pr i s hi
  obtain ⟨rest, hexec⟩ := exec_request_reqProto_first s hi
  rw [hexec]
  constructor
  · rintro rfl
    rw [reqProto_three, error_bind, State.finish_error]
  · intro hpr hst
    rw [reqProto_busy hpr hst, error_bind, State.finish_error]

end Sys2Proof.Machine
end

section
/-! Decoding and encoding invert each other (30_encoding.md R120, R121, R130, R140, R141, R150, R151): request
words by their fields, frames by the bytes or slices they carry. -/

namespace Sys2Proof.Machine

/-! ### Request words and their fields -/

theorem oprProto_oprWord (pr : BitVec 2) (op : BitVec 5) : oprProto (oprWord pr op) = pr := by
  revert pr op; decide

theorem oprOp_oprWord (pr : BitVec 2) (op : BitVec 5) : oprOp (oprWord pr op) = op := by
  revert pr op; decide

/-- A word whose bit 7 is clear is made of its two fields (R120). -/
theorem oprWord_of_fields {w : BitVec 8} (h7 : w.getLsbD 7 = false) : oprWord (oprProto w) (oprOp w) = w := by
  revert w; decide

/-- A request word is decoded by its fields: `OPR[7]` is 0 in it (R120). -/
theorem decode_oprWord (pr : BitVec 2) (op : BitVec 5) : decode (.opr (oprWord pr op)) = decodeOp pr op := by
  rw [decode, decodeOpr, Laws.RowFormat.oprWord_bit7, if_neg Bool.false_ne_true, oprProto_oprWord, oprOp_oprWord]

theorem withProto_of_ok {pr : BitVec 2} (i : Instr) (h : protoOk pr = true) : withProto pr i = .ok i :=
  if_pos h

theorem withProto_eq_ok {pr : BitVec 2} {i j : Instr} (h : withProto pr i = .ok j) :
    protoOk pr = true ∧ j = i := by
  unfold withProto at h
  split at h
  · cases h; exact ⟨by assumption, rfl⟩
  · cases h

/-- The three operations that `PROTO` selects from (R121, marked "P"). -/
theorem byProto_eq_ok {pr : BitVec 2} {a b c i : Instr} (h : byProto pr a b c = .ok i) :
    (pr = 0#2 ∧ i = a) ∨ (pr = 1#2 ∧ i = b) ∨ (pr = 2#2 ∧ i = c) := by
  unfold byProto at h
  split at h
  case h_1 h0 => cases h; exact .inl ⟨BitVec.eq_of_toNat_eq h0, rfl⟩
  case h_2 h1 => cases h; exact .inr (.inl ⟨BitVec.eq_of_toNat_eq h1, rfl⟩)
  case h_3 h2 => cases h; exact .inr (.inr ⟨BitVec.eq_of_toNat_eq h2, rfl⟩)
  case h_4 => cases h

/-- The row that the fields of a request word select is written with those fields (R121). -/
theorem encode_of_decodeOp {pr : BitVec 2} {op : BitVec 5} {i : Instr} (h : decodeOp pr op = .ok i) :
    i.wellFormed = true ∧ encode i = .opr (oprWord pr op) := by
  have hop {n : Nat} (hn : op.toNat = n) : op = BitVec.ofNat 5 n := by rw [← hn, BitVec.ofNat_toNat]; rfl
  unfold decodeOp at h
  split at h
  case h_1 hn | h_2 hn | h_3 hn | h_4 hn | h_7 hn | h_8 hn | h_12 hn | h_13 hn =>
    cases h; rw [hop hn]; exact ⟨rfl, rfl⟩
  case h_5 hn | h_6 hn | h_9 hn | h_10 hn =>
    rcases byProto_eq_ok h with ⟨rfl, rfl⟩ | ⟨rfl, rfl⟩ | ⟨rfl, rfl⟩ <;> rw [hop hn] <;> exact ⟨rfl, rfl⟩
  case h_11 hn =>
    split at h
    case isTrue h1 => cases h; rw [hop hn, h1]; exact ⟨rfl, rfl⟩
    case isFalse => cases h
  case h_14 hn | h_15 hn | h_16 hn | h_17 hn | h_18 hn | h_19 hn =>
    obtain ⟨hpr, rfl⟩ := withProto_eq_ok h
    rw [hop hn]; exact ⟨hpr, rfl⟩
  case h_20 => cases h

/-! ### Frames -/

theorem decodeFrame_frameBitsA (address : BitVec 24) (mask : BitVec 8) (code7 : BitVec 7) :
    decodeFrame .a (frameBitsA address mask code7) = .ok (.frameA address mask code7) := by
  have hlen : (frameBitsA address mask code7).length = 39 := Laws.RowFormat.frameA address mask code7
  simp only [decodeFrame, hlen, if_true, frameBitsA_address, frameBitsA_mask, frameBitsA_code]

theorem decodeFrame_frameBitsB {address : BitVec 16} {unit code4 : BitVec 4} {flags csum : Byte}
    (h : flagsOk flags = true) :
    decodeFrame .b (frameBitsB address unit code4 flags csum) =
      .ok (.frameB address unit code4 flags csum) := by
  have hlen : (frameBitsB address unit code4 flags csum).length = 40 :=
    Laws.RowFormat.frameB address unit code4 flags csum
  simp only [decodeFrame, hlen, if_true]
  simp only [frameBitsB, bitsToBytes_bytesToBits, h, if_true, beWord_byteOf, loNib_nibbles, hiNib_nibbles]

/-- A short Protocol-C payload is decoded by its plain bytes (R151). -/
theorem decodeFrame_wireBitsC_short (m : Byte) (n k : BitVec 4) (rc : BitVec 16) (address : BitVec 24) :
    decodeFrame .c (wireBitsC (plainC m n k rc address)) = .ok (.frameCShort m n k rc address) := by
  have hlen : (wireBitsC (plainC m n k rc address)).length = 56 ∨ _ :=
    Laws.RowFormat.frameCShort m n k rc address
  simp only [decodeFrame, if_pos hlen, deobf_bitsToBytes_wireBitsC]
  simp only [plainC, hiNib_nibbles, loNib_nibbles, beWord_byteOf, leAddr_byteOf]

/-- An extended Protocol-C payload is decoded by its plain bytes (R151). -/
theorem decodeFrame_wireBitsC_extended (m : Byte) (n k : BitVec 4) (rc : BitVec 16) (address : BitVec 24)
    (m7 e : Byte) (q t : BitVec 4) :
    decodeFrame .c (wireBitsC (plainC m n k rc address ++ [m7, e, nibbles q t])) =
      .ok (.frameCExt m n k rc address m7 e q t) := by
  have hlen : (wireBitsC (plainC m n k rc address ++ [m7, e, nibbles q t])).length = 56 ∨ _ :=
    Laws.RowFormat.frameCExt m n k rc address m7 e q t
  simp only [decodeFrame, if_pos hlen, deobf_bitsToBytes_wireBitsC]
  simp only [plainC, List.cons_append, List.nil_append, hiNib_nibbles, loNib_nibbles, beWord_byteOf,
    leAddr_byteOf]

/-- Settles O5: a request word is decoded by the fields it was written from (`decode_oprWord`), a frame by the
fields of its bits or bytes (`decodeFrame_frameBitsA`, `decodeFrame_frameBitsB`,
`decodeFrame_wireBitsC_short`, `decodeFrame_wireBitsC_extended`). -/
theorem decodeInvertsEncode : Obligations.DecodeInvertsEncode := by
  intro i hwf
  cases i
  case reqCap pr | reqSteps pr | reqMy pr | reqProg pr | reqRaw pr | rx pr =>
    exact (decode_oprWord ..).trans (withProto_of_ok _ hwf)
  case frameA address mask code7 => exact decodeFrame_frameBitsA address mask code7
  case frameB address unit code4 flags csum => exact decodeFrame_frameBitsB hwf
  case frameCShort => exact decodeFrame_wireBitsC_short ..
  case frameCExt => exact decodeFrame_wireBitsC_extended ..
  all_goals exact decode_oprWord ..

/-! ### From the bits back -/

/-- The serial form of a field is the slice it was read from (R181). -/
theorem intToMsb_fieldAt {n : Nat} {s : Bits} {a : Nat} (h : a + n ≤ s.length) :
    intToMsb (fieldAt n s a).toNat n = slice s a n := by
  have hlen : (slice s a n).length = n := by rw [slice, List.length_take, List.length_drop]; omega
  have hlt := msbToInt_lt (slice s a n)
  rw [hlen] at hlt
  have h := intToMsb_msbToInt (slice s a n)
  rwa [fieldAt, BitVec.toNat_ofNat, Nat.mod_eq_of_lt hlt, ← congrArg (intToMsb _) hlen]

theorem frameBitsA_of_fields {s : Bits} (h : s.length = 39) :
    frameBitsA (fieldAt 24 s 0) (fieldAt 8 s 24) (fieldAt 7 s 32) = s := by
  rw [frameBitsA, intToMsb_fieldAt (by omega), intToMsb_fieldAt (by omega), intToMsb_fieldAt (by omega)]
  simp only [slice, List.drop_zero]
  rw [← List.take_add, List.take_of_length_le (i := 7) (by simp [h]), List.take_append_drop]

theorem frameBitsB_of_bytes {s : Bits} {f0 f1 f2 f3 f4 : Byte} (h : s.length = 40)
    (hf : bitsToBytes .perByteReversed s = [f0, f1, f2, f3, f4]) :
    frameBitsB (beWord f0 f1) (loNib f2) (hiNib f2) f3 f4 = s := by
  rw [frameBitsB, byteOf_one_beWord, byteOf_zero_beWord, nibbles_hiNib_loNib, ← hf,
    bytesToBits_bitsToBytes _ _ (by omega)]

theorem wireBitsC_of_bytes {s : Bits} {p : List Byte} (h : s.length % 8 = 0)
    (hp : deobf (bitsToBytes .msbFirst s) = p) : wireBitsC p = s := by
  rw [wireBitsC, ← hp, obf_deobf, bytesToBits_bitsToBytes _ _ h]

theorem plainC_of_bytes (p0 p1 p2 p3 p4 p5 p6 : Byte) :
    plainC p0 (hiNib p1) (loNib p1) (beWord p2 p3) (leAddr p4 p5 p6) = [p0, p1, p2, p3, p4, p5, p6] := by
  simp only [plainC, nibbles_hiNib_loNib, byteOf_one_beWord, byteOf_zero_beWord, byteOf_leAddr]

/-- A payload that fits a row is made of that row's bits. -/
theorem encode_of_decodeFrame {p : Proto} {s : Bits} {i : Instr} (h : decodeFrame p s = .ok i) :
    i.wellFormed = true ∧ encode i = .frame p s := by
  unfold decodeFrame at h
  cases p <;> simp only at h
  case a =>
    split at h
    case isTrue hlen => cases h; exact ⟨rfl, congrArg _ (frameBitsA_of_fields hlen)⟩
    case isFalse => cases h
  case b =>
    split at h
    case isFalse => cases h
    case isTrue hlen =>
      split at h
      case h_1 f0 f1 f2 f3 f4 hf =>
        split at h
        case isTrue hflags => cases h; exact ⟨hflags, congrArg _ (frameBitsB_of_bytes hlen hf)⟩
        case isFalse => cases h
      case h_2 => cases h
  case c =>
    split at h
    case isFalse => cases h
    case isTrue hlen =>
      split at h
      case h_1 hp =>
        cases h
        rw [encode, plainC_of_bytes, wireBitsC_of_bytes (by omega) hp]; exact ⟨rfl, rfl⟩
      case h_2 hp =>
        cases h
        rw [encode, plainC_of_bytes, nibbles_hiNib_loNib, List.cons_append]
        exact ⟨rfl, congrArg _ (wireBitsC_of_bytes (by omega) hp)⟩
      case h_3 => cases h

/-- Settles O4: a request word that decodes has bit 7 clear and so is made of its fields
(`encode_of_decodeOp`), a payload that decodes is made of its bytes (`encode_of_decodeFrame`). -/
theorem decodedWordsReencode : Obligations.DecodedWordsReencode := by
  intro c i h
  cases c with
  | opr w =>
    simp only [decode, decodeOpr] at h
    split at h
    case isTrue => cases h
    case isFalse h7 =>
      have henc := encode_of_decodeOp h
      rwa [oprWord_of_fields (Bool.eq_false_iff.mpr h7)] at henc
  | frame p s => exact encode_of_decodeFrame h

/-- Settles O1: each word and each printed frame is evaluated by the decoder. -/
theorem decodesTheSpecsOwnWords : Obligations.DecodesTheSpecsOwnWords := by
  unfold Obligations.DecodesTheSpecsOwnWords
  decide

end Sys2Proof.Machine
end

section
/-! What every operation does, said once for all of them: what its body can make of the state it runs on, that
no body raises `OK` as a refusal, and from these how an operation ends (60_exceptions.md R400, R411) and which
registers it leaves alone (10_state.md R47). -/

namespace Sys2Proof.Machine

/-! ### What a body makes of a state -/

/-- What the body of an instruction can make of the state it runs on when it succeeds (R47): one clause for
each kind of result. -/
def BodyWrites (i : Instr) (s u : State) : Prop :=
  match i with
  | .i2b _ => ∃ b n, u = { s with bitbuf := b, bitlen := n } ∧ ∀ k : Fin 80,
      ¬ (s.off.val.toNat ≤ k.val ∧ k.val < s.off.val.toNat + s.wid.val.toNat) → b[k.val] = s.bitbuf[k.val]
  | .encA | .encB | .encC => ∃ b n, u = { s with bitbuf := b, bitlen := n }
  | .b2i _ | .bfIns _ | .bfExt _ | .csumNone | .csumAdd | .csumXorn | .chkNone | .chkAdd | .chkXorn
  | .identB => ∃ r, u = { s with res := r }
  | .obf _ | .deobf _ => ∃ b, u = { s with bytebuf := b } ∧
      ∀ j : Fin 10, s.bytelen.val ≤ j.val → b[j.val] = s.bytebuf[j.val]
  | .decA | .decB | .decC => ∃ d, u = s.writeDecoded d
  | .xfOut _ | .xfIn _ => ∃ tag, u = s.setActionTag tag
  | .reqCap _ | .reqSteps _ | .reqMy _ | .reqProg _ | .reqRaw _ => ∃ q, u = s.accept q
  | .rx _ | .frameA _ _ _ | .frameB _ _ _ _ _ | .frameCShort _ _ _ _ _ | .frameCExt _ _ _ _ _ _ _ _ _ =>
      ∃ d c, u = (s.writeDecoded d).emit (.deliver c)

theorem bodyWrites_of_ok {i : Instr} {s u : State} (h : bodyOf i s = .ok u) : BodyWrites i s u := by
  cases i
  case i2b => exact i2b_inv h
  case b2i => exact b2i_inv h
  case bfIns => exact bfIns_inv h
  case bfExt => exact bfExt_inv h
  case csumNone | chkNone => cases h; exact ⟨_, rfl⟩
  case csumAdd => exact csumAdd_inv h
  case csumXorn => exact csumXorn_inv h
  case chkAdd => exact chkAdd_inv h
  case chkXorn => exact chkXorn_inv h
  case obf => exact obf_inv h
  case deobf => exact deobf_inv h
  case encA => exact encA_inv h
  case encB => exact encB_inv h
  case encC => exact encC_inv h
  case decA => exact decA_inv h
  case decB => exact decB_inv h
  case decC => exact decC_inv h
  case identB => exact identB_inv h
  case xfOut => exact xfOut_inv h
  case xfIn => exact xfIn_inv h
  case reqCap => exact reqCap_inv h
  case reqSteps => exact reqSteps_inv h
  case reqMy => exact reqMy_inv h
  case reqProg => exact reqProg_inv h
  case reqRaw => exact reqRaw_inv h
  case rx => exact rxOp_inv h
  case frameA | frameB | frameCShort | frameCExt => exact rx_inv h

/-! ### A refusal is never `OK` -/

/-- A computation that raises no `OK`: whatever it raises is a status of R400 other than that of success. -/
structure Reports {α : Type} (x : Except Status α) : Prop where
  ne_ok : x ≠ .error .ok

namespace Reports

variable {α β : Type}

theorem ok (a : α) : Reports (.ok a) := ⟨nofun⟩

theorem error {e : Status} (h : e ≠ .ok) : Reports (.error e : Except Status α) :=
  ⟨fun heq => h (Except.error.inj heq)⟩

theorem bind {x : Except Status α} {f : α → Except Status β} (hx : Reports x) (hf : ∀ a, Reports (f a)) :
    Reports (x >>= f) := by
  refine ⟨fun h => ?_⟩
  rcases bind_eq_error.mp h with h | ⟨a, -, h⟩
  · exact hx.ne_ok h
  · exact (hf a).ne_ok h

theorem ite {c : Prop} [Decidable c] {x y : Except Status α} (hx : Reports x) (hy : Reports y) :
    Reports (if c then x else y) := by
  split
  · exact hx
  · exact hy

/-- Whatever raises `Precond` only. -/
theorem of_precond {x : Except Status α} (h : ∀ {e}, x = .error e → e = .precond) : Reports x :=
  ⟨fun heq => nomatch h heq⟩

theorem get (r : Reg α) : Reports r.get := ite (.ok _) (.error nofun)

theorem readBits (s : State) (a n : Nat) : Reports (s.readBits a n) := of_precond State.readBits_error

theorem readBytes (s : State) : Reports s.readBytes := of_precond State.readBytes_error

theorem writeBits (s : State) (a : Nat) (v : Bits) : Reports (s.writeBits a v) := ite (.ok _) (.error nofun)

theorem received (s : State) (p : Proto) : Reports (s.received p) := by
  unfold State.received
  split
  · exact .error nofun
  · exact .readBits s 0 _

theorem hostTag (s : State) : Reports s.hostTag := ite (.error nofun) (.ok _)

theorem check (o : Presented) (p : Proto) (unmapped : Command → Bool) : Reports (o.check p unmapped) :=
  ite (.error nofun) (ite (.error nofun) (ite (.ok _) (.error nofun)))

theorem encodeA (cfg : Cfg) (c : Command) : Reports (encodeA cfg c) := by
  refine ite (.error nofun) ?_
  split
  · exact .error nofun
  · exact .ok _

theorem encodeB (cfg : Cfg) (c : Command) : Reports (encodeB cfg c) := by
  refine ite (.error nofun) ?_
  split
  · exact .error nofun
  · exact .ok _

theorem encodeC (cfg : Cfg) (c : Command) : Reports (encodeC cfg c) := by
  refine ite (.error nofun) ?_
  split
  · exact .error nofun
  · exact .ok _
  · exact ite (.error nofun) (.ok _)

theorem encodeP (cfg : Cfg) (p : Proto) (c : Command) : Reports (encodeP cfg p c) := by
  cases p
  · exact encodeA cfg c
  · exact encodeB cfg c
  · exact encodeC cfg c

theorem decodeA (cfg : Cfg) (s : Bits) : Reports (decodeA cfg s) := by
  unfold Machine.decodeA
  split
  · exact .error nofun
  · exact .ok _

theorem decodeB (cfg : Cfg) (s : Bits) : Reports (decodeB cfg s) := by
  unfold Machine.decodeB
  split
  · refine ite (.error nofun) ?_
    split
    · exact .error nofun
    · exact .ok _
  · exact .error nofun

theorem decodeC (cfg : Cfg) (s : Bits) : Reports (decodeC cfg s) := by
  unfold Machine.decodeC decodeBytesC
  split
  · refine ite (.error nofun) ?_
    split
    · split
      · exact .error nofun
      · exact .ok _
    · exact ite (.ok _) (.error nofun)
    · exact .error nofun
  · exact .error nofun

theorem decodeP (cfg : Cfg) (p : Proto) (s : Bits) : Reports (decodeP cfg p s) := by
  cases p
  · exact decodeA cfg s
  · exact decodeB cfg s
  · exact decodeC cfg s

theorem reqProto (pr : BitVec 2) (s : State) : Reports (reqProto pr s) := by
  unfold Machine.reqProto
  split
  · exact .error nofun
  · exact ite (.ok _) (.error nofun)

theorem capAction (s : State) : Reports s.capAction := by
  unfold State.capAction
  dsimp only
  split
  · exact .ok _
  · exact ite (.error nofun) (.ok _)

theorem dryRun (cfg : Cfg) (p : Proto) (c : Command) : Reports (dryRun cfg p c) := by
  unfold Machine.dryRun
  split
  case h_1 e he => exact .error fun heq => (encodeP cfg p _).ne_ok (heq ▸ he)
  case h_2 => exact ite (.error nofun) (.ok _)

theorem accept (o : Presented) (cfg : Cfg) (p : Proto) : Reports (o.accept cfg p) :=
  bind (check ..) fun _ => bind (dryRun ..) fun _ => ok _

theorem rxBody (p : Proto) (s : State) : Reports (rxBody p s) :=
  bind (received s p) fun _ => bind (decodeP ..) fun _ => bind (get _) fun _ => bind (get _) fun _ => ok _

end Reports

theorem bodyOf_reports (i : Instr) (s : State) : Reports (bodyOf i s) := by
  cases i
  case i2b =>
    exact .bind (.get _) fun _ => .bind (.get _) fun _ => .bind (.get _) fun _ => .ite (.error nofun) <|
      .ite (.error nofun) <| .bind (.get _) fun _ => .ite (.error nofun) (.writeBits ..)
  case b2i =>
    exact .bind (.get _) fun _ => .bind (.get _) fun _ => .ite (.error nofun) <| .bind (.get _) fun _ =>
      .ite (.error nofun) <| .bind (.readBits ..) fun _ => .ok _
  case bfIns =>
    exact .bind (.get _) fun _ => .bind (.get _) fun _ => .ite (.error nofun) <| .bind (.get _) fun _ =>
      .bind (.get _) fun _ => .ok _
  case bfExt =>
    exact .bind (.get _) fun _ => .bind (.get _) fun _ => .ite (.error nofun) <| .bind (.get _) fun _ => .ok _
  case csumNone | chkNone => exact .ok _
  case csumAdd | csumXorn | obf | deobf => exact .bind (.readBytes s) fun _ => .ok _
  case chkAdd =>
    refine .bind (.readBytes s) fun f => ?_
    split
    · exact .error nofun
    · exact .ite (.ok _) (.error nofun)
  case chkXorn => exact .bind (.readBytes s) fun _ => .ite (.error nofun) (.ite (.ok _) (.error nofun))
  case encA => exact .bind (.hostTag s) fun _ => .bind (.check ..) fun _ => .bind (.encodeA ..) fun _ => .ok _
  case encB => exact .bind (.hostTag s) fun _ => .bind (.check ..) fun _ => .bind (.encodeB ..) fun _ => .ok _
  case encC => exact .bind (.hostTag s) fun _ => .bind (.check ..) fun _ => .bind (.encodeC ..) fun _ => .ok _
  case decA => exact .bind (.received ..) fun _ => .bind (.decodeA ..) fun _ => .ok _
  case decB => exact .bind (.received ..) fun _ => .bind (.decodeB ..) fun _ => .ok _
  case decC => exact .bind (.received ..) fun _ => .bind (.decodeC ..) fun _ => .ok _
  case identB => exact .bind (.get _) fun _ => .ite (.error nofun) <| .bind (.get _) fun _ => .ok _
  case xfOut | xfIn => exact .bind (.get _) fun _ => .bind (.get _) fun _ => .bind (.get _) fun _ => .ok _
  case reqCap => exact .bind (.reqProto ..) fun _ => .bind (.capAction s) fun _ => .bind (.accept ..) fun _ => .ok _
  case reqSteps =>
    exact .bind (.reqProto ..) fun _ => .bind (.hostTag s) fun _ => .bind (.accept ..) fun _ =>
      .ite (.ok _) (.ok _)
  case reqMy | reqProg => exact .bind (.reqProto ..) fun _ => .bind (.accept ..) fun _ => .ok _
  case reqRaw => exact .bind (.reqProto ..) fun _ => .bind (.hostTag s) fun _ => .bind (.accept ..) fun _ => .ok _
  case rx pr =>
    simp only [bodyOf, rxOp]
    split
    · exact .error nofun
    · exact .rxBody ..
  case frameA | frameB | frameCShort | frameCExt => exact .rxBody ..

/-! ### How an operation ends -/

/-- An operation answers a next state: what its body made, with `OK`, or the state it started on, with the status
it refused with (R411). -/
theorem exec_ends (i : Instr) (s : State) :
    (∃ u, bodyOf i (startOf i s) = .ok u ∧ exec i s = .next (u.respond .ok)) ∨
      ∃ e, e ≠ .ok ∧ bodyOf i (startOf i s) = .error e ∧ exec i s = .next ((startOf i s).respond e) := by
  rw [exec_eq]
  rcases State.finish_cases (startOf i s) (bodyOf i (startOf i s)) with ⟨u, hu, h⟩ | ⟨e, he, h⟩
  · exact .inl ⟨u, hu, h⟩
  · exact .inr ⟨e, fun heq => (bodyOf_reports i (startOf i s)).ne_ok (heq ▸ he), he, h⟩

/-- The same of a state that an operation is known to have ended in. -/
theorem exec_eq_next {i : Instr} {s t : State} (h : exec i s = .next t) :
    (∃ u, BodyWrites i (startOf i s) u ∧ t = u.respond .ok) ∨ ∃ e, e ≠ .ok ∧ t = (startOf i s).respond e := by
  rcases exec_ends i s with ⟨u, hu, h'⟩ | ⟨e, he, -, h'⟩
  · exact .inl ⟨u, bodyWrites_of_ok hu, Host.Outcome.next.inj (h.symm.trans h')⟩
  · exact .inr ⟨e, he, Host.Outcome.next.inj (h.symm.trans h')⟩

/-- An operation that ended with `OK` did so by its body. -/
theorem body_of_exec_ok {i : Instr} {s t : State} (h : exec i s = .next t) (hok : t.status.sc = .ok) :
    ∃ u, bodyOf i (startOf i s) = .ok u ∧ t = u.respond .ok := by
  rcases exec_ends i s with ⟨u, hu, h'⟩ | ⟨e, he, -, h'⟩
  · exact ⟨u, hu, Host.Outcome.next.inj (h.symm.trans h')⟩
  · cases Host.Outcome.next.inj (h.symm.trans h'); exact absurd hok he

/-- The registers that no operation reaches stand as they were in the state an operation starts on. -/
theorem startOf_frame (i : Instr) (s : State) :
    ∃ b n o, startOf i s = { s with bitbuf := b, bitlen := n, opr := o } := by
  unfold startOf
  split
  · exact ⟨_, _, _, rfl⟩
  · exact ⟨_, _, _, rfl⟩

@[simp] theorem startOf_trace (i : Instr) (s : State) : (startOf i s).trace = s.trace := by
  obtain ⟨b, n, o, h⟩ := startOf_frame i s
  rw [h]

/-- Settles O11: an operation ends in one of two ways (`exec_ends`); a body emits nothing but the `Deliver` of
`RX` (`bodyWrites_of_ok`). -/
theorem operationsEndWithOneResponse : Obligations.OperationsEndWithOneResponse := by
  intro i s
  rcases exec_ends i s with ⟨u, hu, h⟩ | ⟨e, he, -, h⟩
  · refine ⟨_, .ok, h, rfl, rfl, ?_⟩
    have hw := bodyWrites_of_ok hu
    cases i <;> simp only [BodyWrites] at hw
    case rx | frameA | frameB | frameCShort | frameCExt =>
      obtain ⟨d, c, rfl⟩ := hw
      exact .inr ⟨rfl, c, by simp⟩
    case i2b => obtain ⟨_, _, rfl, -⟩ := hw; rfl
    case obf | deobf => obtain ⟨_, rfl, -⟩ := hw; rfl
    case encA | encB | encC => obtain ⟨_, _, rfl⟩ := hw; rfl
    all_goals obtain ⟨_, rfl⟩ := hw; rfl
  · refine ⟨_, e, h, rfl, rfl, ?_⟩
    cases i
    case rx | frameA | frameB | frameCShort | frameCExt => exact .inl ⟨he, by simp⟩
    all_goals simp

end Sys2Proof.Machine
end

section
/-! What operations leave alone (60_exceptions.md R411; 10_state.md R47), read off what their bodies can write. -/

namespace Sys2Proof.Machine

/-- Settles O12: an operation that did not end with `OK` ended in the state it started on (`exec_eq_next`). -/
theorem failedOperationsChangeOnlyTheStatus : Obligations.FailedOperationsChangeOnlyTheStatus := by
  intro i s t h hfail
  rcases exec_eq_next h with ⟨u, -, rfl⟩ | ⟨e, -, rfl⟩
  · exact absurd rfl hfail
  · unfold startOf
    cases encode i with
    | opr w => rfl
    | frame p bits => rfl

/-- Settles O14: an operation ends in what its body made, of which `BodyWrites` says the registers, or in the state
it started on, where a frame row has placed its payload. -/
theorem operationsWriteOnlyTheirRegisters : Obligations.OperationsWriteOnlyTheirRegisters := by
  intro i s t h
  rcases exec_eq_next h with ⟨u, hw, rfl⟩ | ⟨e, -, rfl⟩
  · cases i <;> simp only [BodyWrites] at hw
    case i2b => obtain ⟨_, _, rfl, hcells⟩ := hw; exact ⟨rfl, hcells⟩
    case obf | deobf => obtain ⟨_, rfl, hcells⟩ := hw; exact ⟨rfl, hcells⟩
    case encA | encB | encC => obtain ⟨_, _, rfl⟩ := hw; rfl
    case rx | frameA | frameB | frameCShort | frameCExt => obtain ⟨_, _, rfl⟩ := hw; rfl
    all_goals obtain ⟨_, rfl⟩ := hw; rfl
  · cases i
    case i2b | obf | deobf => exact ⟨rfl, fun _ _ => rfl⟩
    all_goals rfl

/-- Settles O13: none of these registers is among those that `BodyWrites` names, but `SEQ` and `TXFAIL` for a
request, and the two flags for a decode. -/
theorem onlyRequestsTouchTheSequencer : Obligations.OnlyRequestsTouchTheSequencer := by
  intro i s t h
  rcases exec_eq_next h with ⟨u, hw, rfl⟩ | ⟨e, -, rfl⟩
  · cases i <;> simp only [BodyWrites] at hw
    case i2b => obtain ⟨_, _, rfl, -⟩ := hw; simp [startOf, encode]
    case obf | deobf => obtain ⟨_, rfl, -⟩ := hw; simp [startOf, encode]
    case encA | encB | encC => obtain ⟨_, _, rfl⟩ := hw; simp [startOf, encode]
    case rx | frameA | frameB | frameCShort | frameCExt => obtain ⟨_, _, rfl⟩ := hw; simp [startOf, encode]
    all_goals obtain ⟨_, rfl⟩ := hw; simp [startOf, encode]
  · cases i <;> simp [startOf, encode]

end Sys2Proof.Machine
end

section
/-! One step on each item of the agenda (60_exceptions.md R416, R430 to R436): requests and payloads, the host's
writes, reset, and what an `Expire` does. -/

namespace Sys2Proof.Machine

/-! ### The head of the agenda -/

/-- The next item of the agenda is performed on the state that is left of it (R416). -/
theorem step_of_agenda {s : State} {a : Input} {rest : List Input} (h : s.agenda = a :: rest) :
    step s = perform a { s with agenda := rest } := by
  simp only [step, h]

theorem step_of_empty_agenda {s : State} (h : s.agenda = []) : step s = autonomous s := by
  simp only [step, h]

/-- A sequence of at most 80 bits, placed in `BITBUF`, stands there (R83, R52). -/
theorem State.holdsCells_of_putBits (s : State) {bits : Bits} (h : bits.length ≤ 80) :
    HoldsCells (s.putBits bits) bits.length fun k => bits.getD k false := by
  refine ⟨State.putBits_bitlen_val s bits h, fun k hk => ?_⟩
  rw [State.putBits_getElem s bits k.val k.isLt, dif_pos hk, List.getElem_eq_getD false]

/-- A payload that is placed is received by `RX` under its protocol (R52, R370). -/
theorem receive_eq_exec_rx (p : Proto) (bits : Bits) (s : State) :
    receive p bits s = exec (.rx (protoCode p)) (s.place p bits) := by
  cases p <;> rfl

/-- Settles O2: each item is performed (`step_of_agenda`), and one that decodes runs what it decodes to; a
payload of no row is received by `RX` (`receive_eq_exec_rx`). -/
theorem stepRunsThePresentedInstruction : Obligations.StepRunsThePresentedInstruction := by
  refine fun s i rest => ⟨fun w ha hd => ?_, fun p bits ha hd => ?_, fun p bits why ha hd hlen => ?_⟩
  · rw [step_of_agenda ha, perform, request, hd]
  · have henc := (decodedWordsReencode _ _ hd).2
    have hlen : bits.length ≤ 80 := by
      simp only [decode] at hd
      cases p <;> simp only [decodeFrame] at hd <;> split at hd <;> first | omega | cases hd
    rw [step_of_agenda ha, perform, deliverPayload, if_pos hlen, hd]
  · rw [step_of_agenda ha, perform, deliverPayload, if_pos hlen, hd]
    refine ⟨{ s with agenda := rest }.place p bits, receive_eq_exec_rx p bits _, ?_, rfl⟩
    exact State.holdsCells_of_putBits { s with agenda := rest } hlen

/-- Settles O50: each clause is one branch of the step. -/
theorem stepTakesTheEnabledSequencerStep : Obligations.StepTakesTheEnabledSequencerStep := by
  refine fun s rest => ⟨fun fails ha => step_of_agenda ha, fun ha => step_of_agenda ha,
    fun ha => step_of_agenda ha, fun ha hst => ?_, fun ha hst => ?_, fun ha hst => ?_, fun fails hst => if_neg hst⟩
  all_goals rw [step_of_empty_agenda ha, autonomous, hst]

/-! ### Host writes -/

/-- One cell written leaves every other cell alone. -/
theorem writeAt_single_getElem {α : Type} {n : Nat} (v : Vector (Reg α) n) (i : Fin n) (x : α) (k : Fin n) :
    (writeAt v i.val [x])[k.val] = if k = i then .put x else v[k.val] := by
  rw [writeAt_getElem v i.val [x] k.val k.isLt]
  by_cases h : k = i
  · subst h; simp
  · have hne : ¬ (i.val ≤ k.val ∧ k.val - i.val < [x].length) := by
      have := Fin.val_ne_of_ne h
      simp only [List.length_singleton]; omega
    rw [dif_neg hne, if_neg h]

/-- What lowering a length leaves of the cells: those below it, and no value above it (R37, R38). -/
theorem truncAt_of_lower {α : Type} {n : Nat} (v : Vector (Reg α) n) (len new : Nat) (k : Fin n) :
    ((k.val < new ∨ len ≤ new → (if new < len then truncAt v new else v)[k.val] = v[k.val]) ∧
      (new ≤ k.val → new < len → (if new < len then truncAt v new else v)[k.val].written = false)) := by
  by_cases h : new < len
  · simp only [if_pos h]
    rw [truncAt_getElem v new k.val k.isLt]
    refine ⟨fun hk => if_pos (by omega), fun hk _ => ?_⟩
    rw [if_neg (by omega)]
  · simp only [if_neg h]
    exact ⟨fun _ => trivial, fun _ hlt => absurd hlt h⟩

/-- A host write reaches the register or cells it names (R431). -/
theorem wrote_hostWrite (s : State) (w : HostWrite) : Wrote s (s.hostWrite w) w := by
  cases w
  case bitCell i v => exact ⟨rfl, writeAt_single_getElem s.bitbuf i v⟩
  case byteCell i v => exact ⟨rfl, writeAt_single_getElem s.bytebuf i v⟩
  case bitlen n => exact ⟨rfl, truncAt_of_lower s.bitbuf s.bitlen.val n.val⟩
  case bytelen n => exact ⟨rfl, truncAt_of_lower s.bytebuf s.bytelen.val n.val⟩
  case bitbuf b =>
    refine ⟨fun h => if_neg (by omega), fun h => ?_⟩
    have hw : s.hostWrite (.bitbuf b) = s.putBits b := if_pos h
    rw [hw]
    refine ⟨rfl, State.holdsCells_of_putBits s h, fun k hk => ?_⟩
    rw [State.putBits_getElem s b k.val k.isLt, dif_neg (by omega)]
  all_goals rfl

/-- Settles O60: a host write is `wrote_hostWrite`; the two steps of the settings store are as the model writes
them. -/
theorem hostWritesReachOnlyOperands : Obligations.HostWritesReachOnlyOperands := by
  refine fun s rest => ⟨fun w ha => ?_, fun v ha => step_of_agenda ha, fun ha => step_of_agenda ha⟩
  exact ⟨_, step_of_agenda ha, wrote_hostWrite { s with agenda := rest } w⟩

/-! ### Reset -/

/-- The fields of the word `STATUS`, from bit 0 on (R39). -/
theorem statusWord_fields (txfail busy tilt group valid : Bool) (code : BitVec 4) :
    let w := BitVec.ofBool txfail ++ BitVec.ofBool busy ++ BitVec.ofBool tilt ++ BitVec.ofBool group ++
      BitVec.ofBool valid ++ code
    w.extractLsb' 0 4 = code ∧ w[4] = valid ∧ w[5] = group ∧ w[6] = tilt ∧ w[7] = busy ∧ w[8] = txfail := by
  revert txfail busy tilt group valid code
  decide

/-- Settles O7: the reset state is a literal; `STATUS` is read field by field (`statusWord_fields`). -/
theorem resetStateHoldsTheSpecsValues : Obligations.ResetStateHoldsTheSpecsValues := by
  refine ⟨rfl, by decide, rfl, rfl, rfl, rfl, rfl, rfl, rfl, by decide, fun s => ?_⟩
  obtain ⟨hcode, hvalid, hgroup, htilt, hbusy, htxfail⟩ := statusWord_fields s.status.txfail s.busyFlag
    s.status.tilt s.status.group s.status.valid s.status.sc.code
  refine ⟨?_, hvalid, hgroup, htilt, ?_, htxfail⟩
  · rw [State.statusWord, hcode]
    cases s.status.sc <;> rfl
  · rw [State.statusWord, hbusy, State.busyFlag, bne_iff_ne]

/-- Nothing of the operand registers and buffers is written after a reset (R48, R60). -/
theorem nothingWritten_blockReset (s : State) : NothingWritten s.blockReset := by
  have hbits : ∀ k : Fin 80, State.reset.bitbuf[k.val].written = false := by decide
  have hbytes : ∀ j : Fin 10, State.reset.bytebuf[j.val].written = false := by decide
  exact ⟨rfl, hbits, hbytes⟩

theorem clearedFrom_blockReset (s : State) : ClearedFrom s s.blockReset := by
  have hstatus : State.reset.statusWord = 0#9 := by decide
  refine ⟨rfl, hstatus, rfl, rfl, rfl, rfl, rfl, rfl, ?_⟩
  rw [State.blockReset_abandoned]
  split <;> rfl

/-- Settles O6: the step is `blockReset`, after which the block is idle, no timer is armed, and a wait that was in
progress is among the abandoned. -/
theorem resetClearsTheBlock : Obligations.ResetClearsTheBlock := by
  intro s rest ha
  refine ⟨_, step_of_agenda ha, clearedFrom_blockReset _, nothingWritten_blockReset _, rfl, rfl, rfl, rfl,
    fun hrest => ?_, fun later hrest => ?_, fun later hrest htimer => ?_⟩
  · rw [step_of_empty_agenda hrest]; rfl
  · rw [step_of_agenda (a := .expire) hrest]; rfl
  · rw [step_of_agenda (a := .lateExpire) hrest, perform, State.lateExpire_of_pos]
    · simp only [State.blockReset_abandoned, htimer, if_true]; rfl
    · simp [htimer]

/-! ### `Expire` -/

/-- Settles O54: `SEQ.EXPIRE` by its cases, and the `Expire` of an abandoned wait (`State.lateExpire_of_zero`,
`State.lateExpire_of_pos`). -/
theorem expireResumesTheSchedule : Obligations.ExpireResumesTheSchedule := by
  refine fun s => ⟨fun ms htimer => ⟨fun hst hk => ?_, fun hst hk => ?_, fun hst => ?_⟩, fun htimer => ?_,
    fun rest ha => ⟨fun hz => ?_, fun hpos => ?_⟩⟩
  · simp only [seqExpire, htimer, hst, hk, if_true]; rfl
  · simp only [seqExpire, htimer, hst, hk, if_true]; rfl
  · simp only [seqExpire, htimer, if_neg hst]; rfl
  · simp only [seqExpire, htimer]
  · rw [step_of_agenda ha, perform, State.lateExpire_of_zero { s with agenda := rest } hz]
  · rw [step_of_agenda ha, perform, State.lateExpire_of_pos { s with agenda := rest } hpos]

end Sys2Proof.Machine
end

section
/-! `SEND` (45_transform.md R350 to R353) and the requests (R359 to R368): what a send that is taken makes of the
state, and the schedule that an accepted request leaves in `SEQ`. -/

namespace Sys2Proof.Machine

/-! ### `SEND` -/

section
variable {s : State} {p : Proto} {c : Command}

theorem State.send_of_unmapped (fails : Bool) (h : dryEncode s.cfg p c = .error .unmapped) :
    s.send p c fails = .ok (false, s) := by
  simp only [State.send, h]

/-- The state before the `Transmit` call, with the call made (R350). -/
theorem State.prepare_transmit (bits : Bits) (fails : Bool) :
    (s.prepare p c).2.transmit bits (s.prepare p c).1.repeatCount fails =
      s.sent p bits c.repeatCount fails := by
  have hreps : (s.prepare p c).1.repeatCount = c.repeatCount := by
    rw [prepare_cmd]; exact lower_repeatCount s.cfg p c
  rw [hreps]
  cases p <;> simp [State.prepare, State.transmit, State.sent, sentEvents, State.bumpRcc]

/-- A mappable command is transmitted: the encoder does not fail on the wire command (R352). -/
theorem State.send_of_mappable (fails : Bool) (h : Mappable s.cfg p c) :
    ∃ bits, encodeP s.cfg p (wireCommand s p c) = .ok bits ∧
      s.send p c fails = .ok (true, s.sent p bits c.repeatCount fails) := by
  obtain ⟨dry, hdry⟩ := h
  obtain ⟨bits, hbits⟩ := encode_wireCommand (s := s) ⟨dry, hdry⟩
  refine ⟨bits, hbits, ?_⟩
  simp only [State.send, hdry, prepare_cmd, hbits]
  rw [← prepare_cmd, State.prepare_transmit]

/-- Either the command is unmappable and nothing happens, or it is transmitted. -/
theorem State.send_eq_ok {fails sent : Bool} {u : State} (h : s.send p c fails = .ok (sent, u)) :
    (sent = false ∧ u = s) ∨
      (sent = true ∧ Mappable s.cfg p c ∧ ∃ bits, encodeP s.cfg p (wireCommand s p c) = .ok bits ∧
        u = s.sent p bits c.repeatCount fails) := by
  cases hdry : dryEncode s.cfg p c with
  | ok dry =>
    obtain ⟨bits, hbits, hsend⟩ := State.send_of_mappable (s := s) fails ⟨dry, hdry⟩
    cases h.symm.trans hsend
    exact .inr ⟨rfl, ⟨dry, hdry⟩, bits, hbits, rfl⟩
  | error e =>
    by_cases he : e = .unmapped
    · cases h.symm.trans (State.send_of_unmapped fails (he ▸ hdry))
      exact .inl ⟨rfl, rfl⟩
    · simp [State.send, hdry] at h

end

theorem wireCommand_eq_table (s : State) (p : Proto) (c : Command) :
    wireCommand s p c =
      if p = .c then { loweredTable s.cfg p c with rollingCode := s.rcc + 1#16 } else loweredTable s.cfg p c := by
  rw [loweredTable_eq]
  cases p <;> rfl

/-- The dry run is on the lowered command of R340, rolling code 0. -/
theorem dryEncode_eq_table (cfg : Cfg) (p : Proto) (c : Command) :
    dryEncode cfg p c = encodeP cfg p { loweredTable cfg p c with rollingCode := 0#16 } := by
  rw [loweredTable_eq, dryEncode]

/-- Settles O51: the model's `LOWER` is the table (`loweredTable_eq`); an unmappable command is skipped
(`State.send_of_unmapped`), a mappable one transmitted (`State.send_of_mappable`). -/
theorem sendTransmitsOrSkips : Obligations.SendTransmitsOrSkips := by
  intro s p c fails l wire
  have hdry := dryEncode_eq_table s.cfg p c
  have hwire := wireCommand_eq_table s p c
  refine ⟨hdry, hwire, fun h => State.send_of_unmapped fails (hdry.trans h), fun dry h => ?_⟩
  obtain ⟨bits, hbits, hsend⟩ := State.send_of_mappable (s := s) fails ⟨dry, hdry.trans h⟩
  exact ⟨bits, (congrArg (encodeP s.cfg p) hwire).symm.trans hbits, hsend⟩

/-! ### What the dry run asks -/

theorem addressFits_of_mappable {cfg : Cfg} {p : Proto} {c : Command} (h : Mappable cfg p c) :
    addressFits p c.address = true := by
  obtain ⟨bits, hbits⟩ := h
  by_contra hfits
  cases hbits.symm.trans (dryEncode_malformed (Bool.eq_false_iff.mpr hfits))

theorem dryRun_eq_ok_iff {cfg : Cfg} {p : Proto} {c : Command} :
    dryRun cfg p c = .ok () ↔ Mappable cfg p c ∧ c.repeatCount ≠ 0#8 := by
  unfold dryRun Mappable
  split
  case h_1 e he => simp [he]
  case h_2 bits hbits => simp [hbits]

theorem dryRun_of_refused {cfg : Cfg} {p : Proto} {c : Command} {e : Status}
    (h : dryEncode cfg p c = .error e) : dryRun cfg p c = .error e := by
  simp only [dryRun, h]

theorem dryRun_of_no_repeat {cfg : Cfg} {p : Proto} {c : Command} (h : Mappable cfg p c)
    (hz : c.repeatCount = 0#8) : dryRun cfg p c = .error .precond := by
  obtain ⟨bits, hbits⟩ := h
  simp only [dryRun, hbits, if_pos hz]

/-- A presented command that is accepted passes the dry run. -/
theorem mappable_of_accept {o : Presented} {cfg : Cfg} {p : Proto} {c : Command} (h : o.accept cfg p = .ok c) :
    Mappable cfg p c ∧ c.repeatCount ≠ 0#8 := by
  obtain ⟨-, -, -, -, hdry⟩ := Presented.accept_eq_ok h
  exact dryRun_eq_ok_iff.mp hdry

/-! ### The checks of a request -/

theorem reqProto_of_idle {pr : BitVec 2} {p : Proto} {s : State} (hp : protoOf pr = some p)
    (hst : s.seq.st = .idle) : reqProto pr s = .ok p := by
  simp only [reqProto, hp, if_pos hst]

theorem reqProto_eq_ok {pr : BitVec 2} {p : Proto} {s : State} (h : reqProto pr s = .ok p) :
    protoOf pr = some p ∧ s.seq.st = .idle := by
  unfold reqProto at h
  split at h
  · cases h
  · split at h
    · cases h; exact ⟨by assumption, by assumption⟩
    · cases h

/-! ### The schedules -/

/-- The clauses of the invariant on the sequencer registers (R42, R352). -/
def GoodSchedule (cfg : Cfg) (q : Seq) : Prop := SeqShape q ∧ PhaseShape q ∧ ScheduleShape cfg q

/-- The follow-ups of R346. -/
theorem followUp_eq_some {a b : Action} {pulse : Bool} (h : followUp a pulse = some b) :
    b = .idle ∨ b = .deepUp ∨ b = .deepDown := by
  unfold followUp at h
  split at h
  · cases h
  · split at h <;> cases h <;> simp

theorem goodSchedule_listSeq {cfg : Cfg} {p : Proto} {c : Command} {fu : Option Action} (s : State)
    (hm : Mappable cfg p c) (hfu : ∀ a, fu = some a → a = .idle ∨ a = .deepUp ∨ a = .deepDown) :
    GoodSchedule cfg (listSeq s p c fu) := by
  refine ⟨⟨nofun, fun _ => nofun, nofun, nofun⟩, ⟨fun _ _ => Nat.zero_lt_two, nofun⟩,
    fun _ => ⟨addressFits_of_mappable hm, fun _ => .inl hm, fun _ hfuv => ?_⟩⟩
  obtain ⟨a, rfl⟩ := Option.isSome_iff_exists.mp hfuv
  exact (hfu a rfl).imp (congrArg tagOf) (Or.imp (congrArg tagOf) (congrArg tagOf))

theorem goodSchedule_batchSeq {cfg : Cfg} {p : Proto} {c : Command} {n : BitVec 8} (s : State)
    (hm : Mappable cfg p c) (hn : n ≠ 0#8) : GoodSchedule cfg (batchSeq s p c n) :=
  ⟨⟨fun _ _ => hn, nofun, nofun, nofun⟩, ⟨nofun, nofun⟩, fun _ => ⟨addressFits_of_mappable hm, nofun, nofun⟩⟩

theorem goodSchedule_pairSeq {cfg : Cfg} {c : Command} (s : State) (hm : Mappable cfg .a c) :
    GoodSchedule cfg (pairSeq s c) :=
  ⟨⟨nofun, nofun, fun _ => rfl, nofun⟩, ⟨nofun, fun _ _ => Nat.zero_lt_succ 2⟩,
    fun _ => ⟨addressFits_of_mappable hm, nofun, nofun⟩⟩

/-- What an accepted request leaves in `SEQ`, of an idle block: what stood there, or a new schedule. -/
def Schedules (s u : State) : Prop :=
  s.seq.st = .idle ∧ ∃ q, u = s.accept q ∧ (q = s.seq ∨ q.st = .ready ∧ GoodSchedule s.cfg q)

theorem reqCapBody_schedules {pr : BitVec 2} {s u : State} (h : reqCapBody pr s = .ok u) : Schedules s u := by
  simp only [reqCapBody, bind_eq_ok] at h
  obtain ⟨p, hp, a, -, c, hc, h⟩ := h
  cases h
  exact ⟨(reqProto_eq_ok hp).2, _, rfl,
    .inr ⟨rfl, goodSchedule_listSeq s (mappable_of_accept hc).1 fun a => followUp_eq_some⟩⟩

theorem reqStepsBody_schedules {pr : BitVec 2} {s u : State} (h : reqStepsBody pr s = .ok u) :
    Schedules s u := by
  simp only [reqStepsBody, bind_eq_ok] at h
  obtain ⟨p, hp, -, -, c, hc, h⟩ := h
  refine ⟨(reqProto_eq_ok hp).2, ?_⟩
  split at h
  case isTrue => cases h; exact ⟨_, rfl, .inl rfl⟩
  case isFalse hn => cases h; exact ⟨_, rfl, .inr ⟨rfl, goodSchedule_batchSeq s (mappable_of_accept hc).1 hn⟩⟩

theorem reqMyBody_schedules {pr : BitVec 2} {s u : State} (h : reqMyBody pr s = .ok u) : Schedules s u := by
  simp only [reqMyBody, bind_eq_ok] at h
  obtain ⟨p, hp, c, hc, h⟩ := h
  cases h
  exact ⟨(reqProto_eq_ok hp).2, _, rfl, .inr ⟨rfl, goodSchedule_listSeq s (mappable_of_accept hc).1 nofun⟩⟩

theorem reqProgBody_schedules {pr : BitVec 2} {s u : State} (h : reqProgBody pr s = .ok u) :
    Schedules s u := by
  simp only [reqProgBody, bind_eq_ok] at h
  obtain ⟨p, hp, c, hc, h⟩ := h
  obtain ⟨hm, -⟩ := mappable_of_accept hc
  cases h
  refine ⟨(reqProto_eq_ok hp).2, _, rfl, .inr ?_⟩
  by_cases hpa : p = .a
  · subst hpa; exact ⟨rfl, goodSchedule_pairSeq s hm⟩
  · rw [if_neg hpa]; exact ⟨rfl, goodSchedule_listSeq s hm nofun⟩

theorem reqRawBody_schedules {pr : BitVec 2} {s u : State} (h : reqRawBody pr s = .ok u) : Schedules s u := by
  simp only [reqRawBody, bind_eq_ok] at h
  obtain ⟨p, hp, -, -, c, hc, h⟩ := h
  cases h
  exact ⟨(reqProto_eq_ok hp).2, _, rfl, .inr ⟨rfl, goodSchedule_listSeq s (mappable_of_accept hc).1 nofun⟩⟩

/-! ### Requests whose operands are written -/

/-- A request under a protocol on an idle block, as far as its own operands are read: what is left is `Accept` on
the command it presents, and the schedule it makes of it. -/
theorem accept_of_presented {s : State} {p : Proto} {c : Command} :
    ({ cmd := c, addr := true, key := true, rest := true } : Presented).accept s.cfg p =
      (dryRun s.cfg p c >>= fun _ => .ok c) :=
  Presented.accept_of_written rfl rfl rfl

section
variable {pr : BitVec 2} {p : Proto} {s : State} {c : Command}

theorem reqCapBody_of_built {a : Action} {rot inv pulse : Bool} (hp : protoOf pr = some p)
    (hst : s.seq.st = .idle) (ha : HoldsCapability s a) (hset : HoldsSettings s rot inv)
    (hpulse : s.sets.pulse = .put pulse)
    (hb : Built s p (settingsTable a rot inv) (s.cfg.defaultRepeat.at p) c) :
    reqCapBody pr s =
      (dryRun s.cfg p c >>= fun _ => .ok (s.accept (listSeq s p c (followUp c.action pulse)))) := by
  simp only [reqCapBody, reqProto_of_idle hp hst, ok_bind, capAction_of_holds ha, transformed_of_holds a hset,
    xfOutAction_eq_table, hpulse, Reg.put_written, Reg.put_val, addressed_of_built hb, accept_of_presented]
  cases dryRun s.cfg p c <;> rfl

theorem reqStepsBody_of_built {a : Action} {rot inv : Bool} (hp : protoOf pr = some p)
    (hst : s.seq.st = .idle) (ha : HoldsAction s a) (hset : HoldsSettings s rot inv)
    (hn : s.steps.written = true) (hb : Built s p (settingsTable a rot inv) 1#8 c) :
    reqStepsBody pr s = (dryRun s.cfg p c >>= fun _ =>
      if s.steps.val = 0#8 then .ok (s.accept s.seq) else .ok (s.accept (batchSeq s p c s.steps.val))) := by
  simp only [reqStepsBody, reqProto_of_idle hp hst, ok_bind, hostTag_holds ha, heldAction_holds ha,
    transformed_of_holds a hset, xfOutAction_eq_table, hn, addressed_of_built hb, accept_of_presented]
  cases dryRun s.cfg p c <;> rfl

theorem reqMyBody_of_built (hp : protoOf pr = some p) (hst : s.seq.st = .idle)
    (hb : Built s p .idle (s.cfg.myRepeat.at p) c) :
    reqMyBody pr s = (dryRun s.cfg p c >>= fun _ => .ok (s.accept (listSeq s p c none))) := by
  simp only [reqMyBody, reqProto_of_idle hp hst, ok_bind, addressed_of_built hb, accept_of_presented]
  cases dryRun s.cfg p c <;> rfl

theorem reqProgBody_of_built (hp : protoOf pr = some p) (hst : s.seq.st = .idle)
    (hb : Built s p .program (s.cfg.defaultRepeat.at p) c) :
    reqProgBody pr s =
      (dryRun s.cfg p c >>= fun _ => .ok (s.accept (if p = .a then pairSeq s c else listSeq s p c none))) := by
  simp only [reqProgBody, reqProto_of_idle hp hst, ok_bind, addressed_of_built hb, accept_of_presented]
  cases dryRun s.cfg p c <;> rfl

theorem reqRawBody_of_held (hp : protoOf pr = some p) (hst : s.seq.st = .idle) (hr : HeldRaw s p c) :
    reqRawBody pr s = (dryRun s.cfg p c >>= fun _ => .ok (s.accept (listSeq s p c none))) := by
  obtain ⟨-, ha, -⟩ := id hr
  simp only [reqRawBody, reqProto_of_idle hp hst, ok_bind, hostTag_holds ha, rawOperand_of_heldRaw hr,
    accept_of_presented]
  cases dryRun s.cfg p c <;> rfl

end

theorem exec_reqCap (pr : BitVec 2) (s : State) : exec (.reqCap pr) s = s.finish (reqCapBody pr s) :=
  exec_eq (.reqCap pr) s

theorem exec_reqSteps (pr : BitVec 2) (s : State) : exec (.reqSteps pr) s = s.finish (reqStepsBody pr s) :=
  exec_eq (.reqSteps pr) s

theorem exec_reqMy (pr : BitVec 2) (s : State) : exec (.reqMy pr) s = s.finish (reqMyBody pr s) :=
  exec_eq (.reqMy pr) s

theorem exec_reqProg (pr : BitVec 2) (s : State) : exec (.reqProg pr) s = s.finish (reqProgBody pr s) :=
  exec_eq (.reqProg pr) s

theorem exec_reqRaw (pr : BitVec 2) (s : State) : exec (.reqRaw pr) s = s.finish (reqRawBody pr s) :=
  exec_eq (.reqRaw pr) s

/-- Settles O39: with its operands written the request is the dry run and a LIST (`reqCapBody_of_built`); a
reserved capability is refused first (`capAction_reserved`). -/
theorem reqCapSchedulesTheEvent : Obligations.ReqCapSchedulesTheEvent := by
  refine ⟨fun pr p s a rot inv pulse c hp hst ha hset hpulse hb hm hreps => ?_, fun pr p s hp hst hcap => ?_⟩
  · rw [exec_reqCap, reqCapBody_of_built hp hst ha hset hpulse hb, dryRun_eq_ok_iff.mpr ⟨hm, hreps⟩]
    refine ⟨_, rfl, rfl, rfl, rfl, rfl, rfl, ?_, ?_⟩
    · rintro rfl; rfl
    · rintro rfl
      cases c.action <;> simp [listSeq, followUp]
  · rw [exec_reqCap, reqCapBody, reqProto_of_idle hp hst, ok_bind, capAction_reserved hcap]
    rfl

/-- Settles O40: with its operands written the request is the dry run and a BATCH, or no schedule at all
(`reqStepsBody_of_built`); its repeat count is 1. -/
theorem reqStepsSchedulesTheBatch : Obligations.ReqStepsSchedulesTheBatch := by
  intro pr p s a rot inv n c hp hst ha hset hn hb hm
  have hsteps : s.steps.val = n := congrArg Reg.val hn
  have hreps : c.repeatCount ≠ 0#8 := by
    obtain ⟨-, -, hreps, -⟩ := hb
    rw [hreps]; decide
  rw [exec_reqSteps, reqStepsBody_of_built hp hst ha hset (congrArg Reg.written hn) hb,
    dryRun_eq_ok_iff.mpr ⟨hm, hreps⟩, ok_bind, hsteps]
  refine ⟨fun hz => ?_, fun hnz => ?_⟩
  · rw [if_pos hz]; rfl
  · rw [if_neg hnz]; exact ⟨_, rfl, rfl, rfl, rfl, rfl, rfl⟩

/-- Settles O41: the request is the dry run and a LIST without follow-up (`reqMyBody_of_built`). -/
theorem reqMySchedulesTheHeldIdle : Obligations.ReqMySchedulesTheHeldIdle := by
  intro pr p s c hp hst hb hm hreps
  rw [exec_reqMy, reqMyBody_of_built hp hst hb, dryRun_eq_ok_iff.mpr ⟨hm, hreps⟩]
  exact ⟨_, rfl, rfl, rfl, rfl, rfl, rfl, rfl⟩

/-- Settles O42: the request is the dry run and the schedule of its protocol (`reqProgBody_of_built`). -/
theorem reqProgSchedulesPairing : Obligations.ReqProgSchedulesPairing := by
  intro pr p s c hp hst hb hm hreps
  rw [exec_reqProg, reqProgBody_of_built hp hst hb, dryRun_eq_ok_iff.mpr ⟨hm, hreps⟩]
  refine ⟨_, rfl, ?_⟩
  by_cases hpa : p = .a
  · subst hpa
    exact ⟨rfl, rfl, rfl, rfl, fun _ => rfl, fun hne => absurd rfl hne⟩
  · simp only [if_neg hpa]
    exact ⟨rfl, rfl, rfl, rfl, fun h => absurd h hpa, fun _ => ⟨rfl, rfl⟩⟩

/-- Settles O43: the request is the dry run and a LIST of the command as held (`reqRawBody_of_held`). -/
theorem reqRawSchedulesTheHeldCommand : Obligations.ReqRawSchedulesTheHeldCommand := by
  intro pr p s c hp hst hr hm hreps
  rw [exec_reqRaw, reqRawBody_of_held hp hst hr, dryRun_eq_ok_iff.mpr ⟨hm, hreps⟩]
  exact ⟨_, rfl, rfl, rfl, rfl, rfl, rfl, rfl⟩

/-- A request that presents a command begins with its dry run (R359). -/
theorem exec_of_presents {i : Instr} {p : Proto} {s : State} {c : Command} (h : Presents s p c i)
    (hst : s.seq.st = .idle) : ∃ k, exec i s = s.finish (dryRun s.cfg p c >>= k) := by
  cases i <;> simp only [Presents] at h
  case reqCap pr =>
    obtain ⟨hp, a, rot, inv, pulse, ha, hset, hpulse, hb⟩ := h
    exact ⟨_, (exec_reqCap pr s).trans (congrArg _ (reqCapBody_of_built hp hst ha hset hpulse hb))⟩
  case reqSteps pr =>
    obtain ⟨hp, a, rot, inv, ha, hset, hn, hb⟩ := h
    exact ⟨_, (exec_reqSteps pr s).trans (congrArg _ (reqStepsBody_of_built hp hst ha hset hn hb))⟩
  case reqMy pr =>
    obtain ⟨hp, hb⟩ := h
    exact ⟨_, (exec_reqMy pr s).trans (congrArg _ (reqMyBody_of_built hp hst hb))⟩
  case reqProg pr =>
    obtain ⟨hp, hb⟩ := h
    exact ⟨_, (exec_reqProg pr s).trans (congrArg _ (reqProgBody_of_built hp hst hb))⟩
  case reqRaw pr =>
    obtain ⟨hp, hr⟩ := h
    exact ⟨_, (exec_reqRaw pr s).trans (congrArg _ (reqRawBody_of_held hp hst hr))⟩

/-- Settles O45: a request begins with the dry run of the command it presents (`exec_of_presents`), which refuses
with the encoder's reason, or a repeat count of 0; a host tag above 10 is refused before it (`hostTag_high`). -/
theorem refusedRequestsReportTheReason : Obligations.RefusedRequestsReportTheReason := by
  refine ⟨fun i p s c hpres hst => ?_, fun pr s tag hpr hst htag hhigh => ?_⟩
  · obtain ⟨k, hexec⟩ := exec_of_presents hpres hst
    have hrefuses : ∀ e, dryEncode s.cfg p c = .error e → exec i s = .next (s.respond e) := fun e he => by
      rw [hexec, dryRun_of_refused he]; rfl
    refine ⟨fun hwide => hrefuses _ (dryEncode_malformed ?_), hrefuses, fun hm hz => ?_⟩
    · exact decide_eq_false (by omega)
    · rw [hexec, dryRun_of_no_repeat hm hz]; rfl
  · obtain ⟨p, hp⟩ := protoOf_isSome hpr
    rw [exec_reqSteps, exec_reqRaw, reqStepsBody, reqRawBody, reqProto_of_idle hp hst, hostTag_high htag hhigh]
    exact ⟨rfl, rfl⟩

end Sys2Proof.Machine
end

section
/-! The invariant of the machine (10_state.md R39, R42, R55; 60_exceptions.md R425, R435): it holds at reset and
every step keeps it, the sequencer steps by their effect on the schedule, the operations by what they leave alone. -/

namespace Sys2Proof.Machine

/-! ### What keeping the invariant asks -/

/-- How many `Expire`s are still to come (R435). -/
def State.toCome (s : State) : Nat := (if s.timer.isSome then 1 else 0) + s.abandoned

/-- What a step does for the invariant: it holds afterwards, the configuration stands, and the balance of `Wait`
and `Expire` is kept. -/
structure Kept (s t : State) : Prop where
  inv : Inv t
  cfg : t.cfg = s.cfg
  expiry : ExpiryShape s → ExpiryShape t

theorem Kept.trans {s t u : State} (h : Kept s t) (h' : Kept t u) : Kept s u :=
  ⟨h'.inv, h'.cfg.trans h.cfg, fun he => h'.expiry (h.expiry he)⟩

/-- A step taken from a state that differs in nothing the invariant speaks of. -/
theorem Kept.rebase {s s' t : State} (h : Kept s' t) (hcfg : s'.cfg = s.cfg)
    (hexpiry : ExpiryShape s → ExpiryShape s') : Kept s t :=
  ⟨h.inv, h.cfg.trans hcfg, fun he => h.expiry (hexpiry he)⟩

/-- A step that appends events keeps the invariant if its schedule, timer and status are sound and it accounts for
every wait. -/
theorem Kept.of_parts {s t : State} {new : List Event} (hseq : GoodSchedule s.cfg t.seq) (hcfg : t.cfg = s.cfg)
    (htimer : TimerShape t) (hstatus : StatusShape t) (htrace : t.trace = s.trace ++ new)
    (hbalance : new.countP isWait + s.toCome = new.countP isExpire + t.toCome) : Kept s t := by
  obtain ⟨hshape, hphase, hschedule⟩ := hseq
  refine ⟨⟨hshape, hphase, hcfg ▸ hschedule, htimer, hstatus⟩, hcfg, fun he => ?_⟩
  simp only [ExpiryShape, State.toCome, htrace, List.countP_append] at he hbalance ⊢
  omega

/-- The events of a step that has nothing to do with the timer. -/
def Untimed (new : List Event) : Prop := ∀ e ∈ new, isWait e = false ∧ isExpire e = false

theorem Untimed.countP {new : List Event} (h : Untimed new) :
    new.countP isWait = 0 ∧ new.countP isExpire = 0 :=
  ⟨List.countP_eq_zero.mpr fun e he => Bool.eq_false_iff.mp (h e he).1,
    List.countP_eq_zero.mpr fun e he => Bool.eq_false_iff.mp (h e he).2⟩

/-- A step that leaves the sequencer and the timer alone keeps the invariant. -/
theorem Kept.of_untimed {s t : State} {new : List Event} (hinv : Inv s) (hseq : t.seq = s.seq)
    (hcfg : t.cfg = s.cfg) (htimer : t.timer = s.timer) (habandoned : t.abandoned = s.abandoned)
    (hstatus : StatusShape t) (htrace : t.trace = s.trace ++ new) (hnew : Untimed new) : Kept s t := by
  obtain ⟨hshape, hphase, hschedule, hts, -⟩ := hinv
  refine .of_parts (hseq ▸ ⟨hshape, hphase, hschedule⟩) hcfg ?_ hstatus htrace ?_
  · rw [TimerShape, htimer, hseq]; exact hts
  · rw [hnew.countP.1, hnew.countP.2, State.toCome, State.toCome, htimer, habandoned]

/-! ### Schedules -/

section
variable {cfg : Cfg} {q : Seq}

/-- A schedule that ends is sound whatever is left in its registers. -/
theorem GoodSchedule.idle (h : GoodSchedule cfg q) (r : BitVec 8) :
    GoodSchedule cfg { q with st := .idle, rem := r } := by
  obtain ⟨⟨-, hfuv, hpair, -⟩, -, -⟩ := h
  exact ⟨⟨fun _ => nofun, hfuv, hpair, nofun⟩, ⟨fun _ hne => absurd rfl hne, fun _ hne => absurd rfl hne⟩,
    fun hne => absurd rfl hne⟩

/-- The phase of the follow-up (R356). -/
theorem GoodSchedule.followUp (h : GoodSchedule cfg q) (hk : q.kind = .list) (hfuv : q.fuv = true) :
    GoodSchedule cfg { q with ph := 1#2 } := by
  obtain ⟨⟨hrem, -, hpair, hwait⟩, -, hschedule⟩ := h
  exact ⟨⟨hrem, fun _ _ => hfuv, hpair, hwait⟩,
    ⟨fun _ _ => Nat.one_lt_two, fun hp => nomatch hk.symm.trans hp⟩, hschedule⟩

/-- A batch that waits for its burst (R357). -/
theorem GoodSchedule.batch_waits (h : GoodSchedule cfg q) (hst : q.st ≠ .idle) (hk : q.kind = .batch)
    (r : BitVec 8) (ms : BitVec 16) : GoodSchedule cfg { q with st := .waiting, rem := r, waitms := ms } := by
  obtain ⟨⟨-, hfuv, hpair, -⟩, ⟨hlist, hpairph⟩, hschedule⟩ := h
  exact ⟨⟨fun _ => nofun, hfuv, hpair, fun _ => .inl hk⟩,
    ⟨fun hl _ => hlist hl hst, fun hp _ => hpairph hp hst⟩, fun _ => hschedule hst⟩

/-- A pairing that waits after its code (R357). -/
theorem GoodSchedule.pair_waits (h : GoodSchedule cfg q) (hst : q.st ≠ .idle) (hk : q.kind = .pair)
    (hph : q.ph.toNat < 2) (ms : BitVec 16) :
    GoodSchedule cfg { q with st := .waiting, ph := q.ph + 1#2, waitms := ms } := by
  obtain ⟨⟨-, -, hpair, -⟩, -, hschedule⟩ := h
  have hnext : (q.ph + 1#2).toNat < 3 := by
    rw [BitVec.toNat_add, BitVec.toNat_ofNat]; omega
  have hlist : q.kind ≠ .list := by rw [hk]; exact nofun
  exact ⟨⟨fun _ => nofun, fun hl => absurd hl hlist, hpair, fun _ => .inr hk⟩,
    ⟨fun hl => absurd hl hlist, fun _ _ => hnext⟩, fun _ => hschedule hst⟩

/-- A schedule whose wait has elapsed, with something left to send (R358). -/
theorem GoodSchedule.resumes (h : GoodSchedule cfg q) (hst : q.st = .waiting)
    (hrem : q.kind = .batch → q.rem ≠ 0#8) : GoodSchedule cfg { q with st := .ready } := by
  obtain ⟨⟨-, hfuv, hpair, -⟩, ⟨hlist, hpairph⟩, hschedule⟩ := h
  have hne : q.st ≠ .idle := by rw [hst]; exact nofun
  exact ⟨⟨fun hb _ => hrem hb, hfuv, hpair, nofun⟩, ⟨fun hl _ => hlist hl hne, fun hp _ => hpairph hp hne⟩,
    fun _ => hschedule hne⟩

end

theorem goodSchedule_of_inv {s : State} (h : Inv s) : GoodSchedule s.cfg s.seq := by
  obtain ⟨hshape, hphase, hschedule, -, -⟩ := h
  exact ⟨hshape, hphase, hschedule⟩

/-- Outside a wait no timer is armed (R55). -/
theorem timer_of_not_waiting {s : State} (h : Inv s) (hst : s.seq.st ≠ .waiting) : s.timer = none := by
  obtain ⟨-, -, -, htimer, -⟩ := h
  rw [htimer, if_neg hst]

theorem waiting_of_timer {s : State} (h : Inv s) {ms : BitVec 16} (hms : s.timer = some ms) :
    s.seq.st = .waiting := by
  by_contra hne
  cases hms.symm.trans (timer_of_not_waiting h hne)

/-! ### The Fire step -/

/-- The step, where enabled, is a `SEND` of the next item and what follows it (R355). -/
theorem seqFire_eq_next {s t : State} {fails : Bool} (h : seqFire fails s = .next t) :
    (s.seq.st ≠ .ready ∧ t = s) ∨ ∃ p c sent u, s.seq.st = .ready ∧ nextItem s.cfg s.seq = some (p, c) ∧
      s.send p c fails = .ok (sent, u) ∧ t = u.afterSend sent := by
  unfold seqFire at h
  split at h
  case isFalse hst => cases h; exact .inl ⟨hst, rfl⟩
  case isTrue hst =>
    split at h
    case h_1 => cases h
    case h_2 p c hitem =>
      split at h
      case h_1 => cases h
      case h_2 sent u hsend => cases h; exact .inr ⟨p, c, sent, u, hst, hitem, hsend, rfl⟩

theorem sentEvents_untimed (s : State) (p : Proto) (bits : Bits) (reps : BitVec 8) (fails : Bool) :
    Untimed (sentEvents s p bits reps fails) := by
  cases p <;> cases fails <;> simp [Untimed, sentEvents, isWait, isExpire]

theorem send_keeps {s u : State} {p : Proto} {c : Command} {fails sent : Bool} (hinv : Inv s)
    (h : s.send p c fails = .ok (sent, u)) : Kept s u := by
  have hstatus : StatusShape s := hinv.2.2.2.2
  rcases State.send_eq_ok h with ⟨-, rfl⟩ | ⟨-, -, bits, -, rfl⟩
  · exact ⟨hinv, rfl, id⟩
  · exact .of_untimed hinv rfl rfl rfl rfl hstatus rfl
      (sentEvents_untimed s p bits c.repeatCount fails)

theorem timerShape_of_idle {s : State} (htimer : s.timer = none) (hst : s.seq.st ≠ .waiting) : TimerShape s := by
  rw [TimerShape, htimer, if_neg hst]

/-- What follows a `SEND` ends the schedule, goes on to the follow-up, or arms the timer (R356, R357). -/
theorem afterSend_keeps {s : State} (sent : Bool) (hinv : Inv s) (hst : s.seq.st = .ready) :
    Kept s (s.afterSend sent) := by
  have hgood := goodSchedule_of_inv hinv
  have hstatus : StatusShape s := hinv.2.2.2.2
  have htimer : s.timer = none := timer_of_not_waiting hinv (by rw [hst]; exact nofun)
  have hne : s.seq.st ≠ .idle := by rw [hst]; exact nofun
  have hends : ∀ r, Kept s (s.setRem r).goIdle := fun r =>
    .of_parts (new := []) (hgood.idle r) rfl (timerShape_of_idle htimer nofun) hstatus (by simp [State.setRem]) rfl
  have harms : ∀ {u : State} (ms : BitVec 16), GoodSchedule s.cfg (u.armTimer ms).seq → u.cfg = s.cfg →
      u.status = s.status → u.trace = s.trace → u.abandoned = s.abandoned → Kept s (u.armTimer ms) := by
    intro u ms hg hcfg hs htrace hab
    refine .of_parts (new := [.wait ms]) hg hcfg rfl (by rw [StatusShape]; exact hs ▸ hstatus) ?_ ?_
    · simp [State.armTimer, htrace]
    · simp [State.armTimer, State.toCome, isWait, isExpire, htimer, hab]
  unfold State.afterSend
  split
  case h_1 hk =>
    split
    case isTrue hph =>
      refine .of_parts (new := []) (hgood.followUp hk hph.2) rfl (timerShape_of_idle htimer ?_) hstatus
        (by simp [State.setPhase]) rfl
      simp [State.setPhase, hst]
    case isFalse => exact hends s.seq.rem
  case h_2 hk =>
    split
    case isTrue => exact harms _ (hgood.batch_waits hne hk _ _) rfl rfl rfl rfl
    case isFalse => exact hends 0#8
  case h_3 hk =>
    split
    case isTrue hph => exact harms _ (hgood.pair_waits hne hk hph _) rfl rfl rfl rfl
    case isFalse => exact hends s.seq.rem

theorem seqFire_keeps {s t : State} {fails : Bool} (hinv : Inv s) (h : seqFire fails s = .next t) :
    Kept s t := by
  rcases seqFire_eq_next h with ⟨-, rfl⟩ | ⟨p, c, sent, u, hst, -, hsend, rfl⟩
  · exact ⟨hinv, rfl, id⟩
  · have hu := send_keeps hinv hsend
    obtain ⟨hseq, -⟩ := send_frame hsend
    exact hu.trans (afterSend_keeps sent hu.inv (hseq ▸ hst))

/-! ### The Expire step -/

/-- An `Expire` that ends the wait in progress: the schedule goes on or ends (R358). -/
theorem seqExpire_eq_next {s t : State} (h : seqExpire s = .next t) :
    (s.timer = none ∧ t = s) ∨
      (s.timer.isSome = true ∧ s.seq.st ≠ .waiting ∧ t = s.timerReports) ∨
      (s.timer.isSome = true ∧ s.seq.st = .waiting ∧ s.seq.kind ≠ .list ∧
        t = { s.timerReports with
          seq := { s.seq with st := if s.seq.kind = .batch ∧ s.seq.rem = 0#8 then .idle else .ready } }) := by
  unfold seqExpire at h
  split at h
  case h_1 htimer => cases h; exact .inl ⟨htimer, rfl⟩
  case h_2 ms htimer =>
    have hsome : s.timer.isSome = true := by rw [htimer]; rfl
    split at h
    case isFalse hst => cases h; exact .inr (.inl ⟨hsome, hst, rfl⟩)
    case isTrue hst =>
      refine .inr (.inr ⟨hsome, hst, ?_⟩)
      split at h
      case h_1 => cases h
      case h_2 hk => cases h; simp [hk]
      case h_3 hk => cases h; simp [hk]

theorem seqExpire_keeps {s t : State} (hinv : Inv s) (h : seqExpire s = .next t) : Kept s t := by
  have hstatus : StatusShape s := hinv.2.2.2.2
  have hgood := goodSchedule_of_inv hinv
  rcases seqExpire_eq_next h with ⟨-, rfl⟩ | ⟨hsome, hst, -⟩ | ⟨hsome, hst, -, rfl⟩
  · exact ⟨hinv, rfl, id⟩
  · obtain ⟨ms, hms⟩ := Option.isSome_iff_exists.mp hsome
    exact absurd (waiting_of_timer hinv hms) hst
  · refine .of_parts (new := [.expire]) ?_ rfl (timerShape_of_idle rfl ?_) hstatus rfl ?_
    · split
      case isTrue => exact hgood.idle s.seq.rem
      case isFalse hrem => exact hgood.resumes hst fun hk hz => hrem ⟨hk, hz⟩
    · dsimp only; split <;> exact nofun
    · simp [State.toCome, isWait, isExpire, hsome, State.timerReports]

/-! ### Reset -/

theorem goodSchedule_reset (cfg : Cfg) : GoodSchedule cfg State.reset.seq :=
  ⟨⟨nofun, fun _ => nofun, nofun, nofun⟩, ⟨fun _ hne => absurd rfl hne, nofun⟩, fun hne => absurd rfl hne⟩

/-- A reset keeps the invariant, whatever state it is taken at; a wait in progress is among the abandoned
(R435, R451). -/
theorem blockReset_keeps (s : State) : Kept s s.blockReset := by
  refine .of_parts (new := []) (goodSchedule_reset s.cfg) rfl rfl nofun (List.append_nil _).symm ?_
  simp only [State.toCome, State.blockReset_abandoned, State.blockReset_timer]
  cases s.timer <;> simp [State.reset, Nat.add_comm]

/-- The items a crash burns a rolling code for are the mappable ones of Protocol-C; elsewhere it is a reset
(R102, R452). -/
theorem seqCrash_cases (s : State) :
    seqCrash s = s.blockReset ∨ ∃ c, s.seq.st = .ready ∧ nextItem s.cfg s.seq = some (.c, c) ∧
      seqCrash s = s.bumpRcc.blockReset := by
  unfold seqCrash
  split
  case isFalse => exact .inl rfl
  case isTrue hst =>
    split
    case h_2 => exact .inl rfl
    case h_1 p c hitem =>
      split
      case h_2 => exact .inl rfl
      case h_1 =>
        cases p
        case c => exact .inr ⟨c, hst, hitem, rfl⟩
        all_goals exact .inl rfl

theorem seqCrash_keeps (s : State) : Kept s (seqCrash s) := by
  rcases seqCrash_cases s with h | ⟨c, -, -, h⟩
  · rw [h]; exact blockReset_keeps s
  · rw [h]
    obtain ⟨hinv, hcfg, hexpiry⟩ := blockReset_keeps s.bumpRcc
    refine ⟨hinv, hcfg, fun he => hexpiry ?_⟩
    simp only [ExpiryShape, State.bumpRcc_trace, List.countP_append] at he ⊢
    exact he

/-- Settles O8: the reset state is the reset of itself, which keeps the invariant, and no wait is in its trace. -/
theorem invariantHoldsAtReset : Obligations.InvariantHoldsAtReset :=
  ⟨(blockReset_keeps State.reset).inv, rfl⟩

/-! ### Operations -/

/-- The events of an operation: its `Resp`, and the `Deliver` of a good `RX` before it (R400). -/
theorem exec_trace {i : Instr} {s t : State} (h : exec i s = .next t) :
    (∃ st, t.trace = s.trace ++ [.resp st]) ∨ ∃ c, t.trace = s.trace ++ [.deliver c, .resp .ok] := by
  obtain ⟨t', st, h', -, -, htrace⟩ := operationsEndWithOneResponse i s
  cases h.symm.trans h'
  cases i
  case rx | frameA | frameB | frameCShort | frameCExt =>
    exact htrace.imp (fun ⟨_, he⟩ => ⟨st, he⟩) (fun ⟨_, he⟩ => he)
  all_goals exact .inl ⟨st, htrace⟩

theorem exec_untimed {i : Instr} {s t : State} (h : exec i s = .next t) :
    ∃ new, t.trace = s.trace ++ new ∧ Untimed new ∧ ∀ v, Event.rcSet v ∉ new := by
  rcases exec_trace h with ⟨st, he⟩ | ⟨c, he⟩
  · exact ⟨_, he, by simp [Untimed, isWait, isExpire], by simp⟩
  · exact ⟨_, he, by simp [Untimed, isWait, isExpire], by simp⟩

theorem statusShape_of_exec {i : Instr} {s t : State} (h : exec i s = .next t) : StatusShape t := by
  obtain ⟨t', st, h', hsc, hvalid, -⟩ := operationsEndWithOneResponse i s
  cases h.symm.trans h'
  rw [StatusShape, hvalid, hsc]
  exact beq_iff_eq.mp

/-- An operation leaves `SEQ` as it was, or it is a request that an idle block accepted (R359). -/
theorem exec_seq {i : Instr} {s t : State} (h : exec i s = .next t) :
    t.seq = s.seq ∨ (s.seq.st = .idle ∧ t.seq.st = .ready ∧ GoodSchedule s.cfg t.seq) := by
  have hframe := onlyRequestsTouchTheSequencer i s t h
  have hrequest : startOf i s = s → (∀ u, bodyOf i s = .ok u → Schedules s u) →
      t.seq = s.seq ∨ (s.seq.st = .idle ∧ t.seq.st = .ready ∧ GoodSchedule s.cfg t.seq) := by
    intro hstart hbody
    rcases exec_ends i s with ⟨u, hu, h'⟩ | ⟨e, -, -, h'⟩
    · cases h.symm.trans h'
      obtain ⟨hidle, q, rfl, hq⟩ := hbody u (hstart ▸ hu)
      exact hq.imp id fun hq => ⟨hidle, hq⟩
    · cases h.symm.trans h'
      rw [State.respond_seq, hstart]; exact .inl rfl
  obtain ⟨-, -, -, -, -, -, -, hmatch⟩ := hframe
  cases i
  case reqCap => exact hrequest rfl fun _ => reqCapBody_schedules
  case reqSteps => exact hrequest rfl fun _ => reqStepsBody_schedules
  case reqMy => exact hrequest rfl fun _ => reqMyBody_schedules
  case reqProg => exact hrequest rfl fun _ => reqProgBody_schedules
  case reqRaw => exact hrequest rfl fun _ => reqRawBody_schedules
  all_goals exact .inl hmatch.1

theorem exec_keeps {i : Instr} {s t : State} (hinv : Inv s) (h : exec i s = .next t) : Kept s t := by
  obtain ⟨-, -, htimer, habandoned, hcfg, -⟩ := onlyRequestsTouchTheSequencer i s t h
  obtain ⟨new, htrace, hnew, -⟩ := exec_untimed h
  rcases exec_seq h with hseq | ⟨hidle, hready, hgood⟩
  · exact .of_untimed hinv hseq hcfg htimer habandoned (statusShape_of_exec h) htrace hnew
  · have hnone : t.timer = none := htimer.trans (timer_of_not_waiting hinv (by rw [hidle]; exact nofun))
    refine .of_parts hgood hcfg (timerShape_of_idle hnone (by rw [hready]; exact nofun))
      (statusShape_of_exec h) htrace ?_
    rw [hnew.countP.1, hnew.countP.2, State.toCome, State.toCome, htimer, habandoned]

/-! ### Every step -/

theorem lateExpire_keeps {s : State} (hinv : Inv s) : Kept s s.lateExpire := by
  by_cases hz : s.abandoned = 0
  · rw [State.lateExpire_of_zero s hz]; exact ⟨hinv, rfl, id⟩
  · have hstatus : StatusShape s := hinv.2.2.2.2
    have htimer : TimerShape s := hinv.2.2.2.1
    rw [State.lateExpire_of_pos s hz]
    refine .of_parts (new := [.expire]) (goodSchedule_of_inv hinv) rfl htimer hstatus rfl ?_
    simp only [State.toCome, List.countP_singleton, isWait, isExpire]
    simp; omega

/-- A host write changes operands and buffers only (R431). -/
theorem hostWrite_frame (s : State) (w : HostWrite) :
    (s.hostWrite w).seq = s.seq ∧ (s.hostWrite w).cfg = s.cfg ∧ (s.hostWrite w).timer = s.timer ∧
      (s.hostWrite w).abandoned = s.abandoned ∧ (s.hostWrite w).status = s.status ∧
      (s.hostWrite w).trace = s.trace ∧ (s.hostWrite w).rcc = s.rcc := by
  cases w
  case bitbuf v =>
    simp only [State.hostWrite]
    split <;> simp
  all_goals exact ⟨rfl, rfl, rfl, rfl, rfl, rfl, rfl⟩

theorem pairStore_frame (s : State) : ∃ r, s.pairStore = { s with rcc := r } := by
  unfold State.pairStore
  split
  · exact ⟨_, rfl⟩
  · exact ⟨s.rcc, rfl⟩

theorem request_keeps {s t : State} {w : BitVec 8} (hinv : Inv s) (h : request w s = .next t) : Kept s t := by
  unfold request at h
  split at h
  case h_1 i _ => exact (exec_keeps (s := { s with opr := w }) hinv h).rebase rfl id
  case h_2 =>
    cases h
    exact .of_untimed (new := [.resp .illegalOp]) hinv rfl rfl rfl rfl nofun rfl
      (by simp [Untimed, isWait, isExpire])

theorem deliverPayload_keeps {s t : State} {p : Proto} {bits : Bits} (hinv : Inv s)
    (h : deliverPayload p bits s = .next t) : Kept s t := by
  unfold deliverPayload at h
  split at h
  case isFalse => cases h; exact ⟨hinv, rfl, id⟩
  case isTrue =>
    split at h
    case h_1 => exact exec_keeps hinv h
    case h_2 =>
      rw [receive_eq_exec_rx] at h
      exact (exec_keeps (s := s.place p bits) hinv h).rebase rfl id

theorem perform_keeps {s t : State} {a : Input} (hinv : Inv s) (h : perform a s = .next t) : Kept s t := by
  have hstatus : StatusShape s := hinv.2.2.2.2
  have huntimed : Untimed [] := nofun
  cases a
  case opr w => exact request_keeps hinv h
  case host w =>
    cases h
    obtain ⟨hseq, hcfg, htimer, habandoned, hst, htrace, -⟩ := hostWrite_frame s w
    refine .of_untimed hinv hseq hcfg htimer habandoned ?_ (htrace.trans (List.append_nil _).symm) huntimed
    rw [StatusShape, hst]; exact hstatus
  case readSettings | setting =>
    cases h
    exact .of_untimed hinv rfl rfl rfl rfl hstatus (List.append_nil _).symm huntimed
  case frame p bits => exact deliverPayload_keeps hinv h
  case fire fails => exact seqFire_keeps hinv h
  case expire => exact seqExpire_keeps hinv h
  case lateExpire => cases h; exact lateExpire_keeps hinv
  case reset => cases h; exact blockReset_keeps s
  case crash => cases h; exact seqCrash_keeps s
  case pairStore =>
    cases h
    obtain ⟨r, hr⟩ := pairStore_frame s
    rw [hr]
    exact .of_untimed hinv rfl rfl rfl rfl hstatus (List.append_nil _).symm huntimed

theorem autonomous_keeps {s t : State} (hinv : Inv s) (h : autonomous s = .next t) : Kept s t := by
  unfold autonomous at h
  split at h
  · exact seqFire_keeps hinv h
  · exact seqExpire_keeps hinv h
  · cases h; exact ⟨hinv, rfl, id⟩

theorem step_keeps {s t : State} (hinv : Inv s) (h : step s = .next t) : Kept s t := by
  unfold step at h
  split at h
  case h_1 => exact autonomous_keeps hinv h
  case h_2 a rest _ => exact (perform_keeps (s := { s with agenda := rest }) hinv h).rebase rfl id

/-- Settles O9: each item of the agenda keeps the invariant (`perform_keeps`), and so does what the block does of
itself (`autonomous_keeps`). -/
theorem invariantKeptByEveryStep : Obligations.InvariantKeptByEveryStep := by
  intro s t _ hinv h
  obtain ⟨hinv', hcfg, hexpiry⟩ := step_keeps hinv h
  exact ⟨hinv', hcfg, hexpiry⟩

end Sys2Proof.Machine
end

section
/-! The sequencer's steps do not stop (45_transform.md R352), the pending list they play (10_state.md R43, R104),
and the rolling-code counter over every step (20_memory.md R100, R102). -/

namespace Sys2Proof.Machine

/-! ### The encoder's refusals -/

/-- A frame with an `extCmd` is selected by a command that has one (R291). -/
theorem extCmd_of_selectC {cfg : Cfg} {c : Command} {nib : BitVec 4} {e : Byte}
    (h : selectC cfg c = some (nib, some e)) : c.extCmd = some e := by
  unfold selectC at h
  split at h
  case h_1 => simp at h
  case h_2 v e' _ hext =>
    split at h
    · cases h; exact hext
    · cases h
  case h_3 => cases h

/-- Of an address that fits, the encoder refuses only what it has no code for, and under Protocol-C an extended
frame whose count is outside 1 to 15 (R359, R404). -/
theorem encodeP_refuses {cfg : Cfg} {p : Proto} {c : Command} {e : Status} (hfits : addressFits p c.address = true)
    (h : encodeP cfg p c = .error e) :
    e = .unmapped ∨
      (p = .c ∧ c.extCmd ≠ none ∧ (c.repeatCount.toNat < 1 ∨ 15 < c.repeatCount.toNat)) := by
  cases p <;> simp only [encodeP] at h
  case a =>
    simp only [encodeA, hfits, Bool.not_true, Bool.false_eq_true, if_false] at h
    split at h <;> cases h
    exact .inl rfl
  case b =>
    simp only [encodeB, hfits, Bool.not_true, Bool.false_eq_true, if_false] at h
    split at h <;> cases h
    exact .inl rfl
  case c =>
    simp only [encodeC, hfits, Bool.not_true, Bool.false_eq_true, if_false] at h
    split at h
    case h_1 => cases h; exact .inl rfl
    case h_2 => cases h
    case h_3 nib x hsel =>
      split at h
      case isTrue hcount => exact .inr ⟨rfl, by rw [extCmd_of_selectC hsel]; exact nofun, hcount⟩
      case isFalse => cases h

/-- A command whose address fits can be sent if, under Protocol-C, it is lowered to no `extCmd` or its count fits
the trailer (R352). -/
theorem sendable_of_fits {cfg : Cfg} {p : Proto} {c : Command} (hfits : addressFits p c.address = true)
    (hcount : p = .c → (lower cfg .c c).extCmd = none ∨ (1 ≤ c.repeatCount.toNat ∧ c.repeatCount.toNat ≤ 15)) :
    Sendable cfg p c := by
  cases hdry : dryEncode cfg p c with
  | ok bits => exact .inl ⟨bits, hdry⟩
  | error e =>
    have hlowered : addressFits p (lower cfg p c).address = true := by rw [lower_address]; exact hfits
    rcases encodeP_refuses (c := { lower cfg p c with rollingCode := 0#16 }) hlowered hdry with rfl | ⟨rfl, hext, hbad⟩
    · exact .inr hdry
    · simp only [lower_repeatCount] at hbad
      rcases hcount rfl with hnone | hok
      · exact absurd hnone hext
      · omega

/-- A follow-up of R346 is lowered to no `extCmd` (R340). -/
theorem lower_extCmd_of_followUp {cfg : Cfg} {c : Command}
    (h : c.action = .idle ∨ c.action = .deepUp ∨ c.action = .deepDown) :
    (lower cfg .c c).extCmd = none := by
  rcases h with h | h | h <;> simp only [lower, h]

/-! ### No step stops -/

/-- Under the invariant a ready schedule has a next item, and it can be sent (R352). -/
theorem nextItem_sendable {s : State} (hinv : Inv s) (hst : s.seq.st = .ready) :
    ∃ p c, nextItem s.cfg s.seq = some (p, c) ∧ Sendable s.cfg p c := by
  obtain ⟨⟨hrem, hfuv, hpair, -⟩, ⟨hlistph, hpairph⟩, hschedule, -, -⟩ := hinv
  have hne : s.seq.st ≠ .idle := by rw [hst]; exact nofun
  obtain ⟨hfits, hprimary, hfollow⟩ := hschedule hne
  cases hk : s.seq.kind
  case list =>
    rcases phase_lt_two s.seq.ph (hlistph hk hne) with hph | hph
    · exact ⟨_, _, nextItem_list_primary hk hph, hprimary hk⟩
    · refine ⟨_, _, nextItem_list_followUp hk hph, sendable_of_fits hfits fun _ => .inl ?_⟩
      refine lower_extCmd_of_followUp ?_
      rcases hfollow hk (hfuv hk hph) with h | h | h <;> simp only [followUpCmd, h]
      · exact .inl rfl
      · exact .inr (.inl rfl)
      · exact .inr (.inr rfl)
  case batch =>
    have hpos : s.seq.rem.toNat ≠ 0 := fun hz => hrem hk hst (BitVec.eq_of_toNat_eq hz)
    refine ⟨_, _, nextItem_batch hk, sendable_of_fits hfits fun _ => .inr ?_⟩
    rw [BitVec.toNat_ofNat]; omega
  case pair =>
    rcases phase_lt_three s.seq.ph (hpairph hk hne) with hph | hph | hph
    · exact ⟨_, _, nextItem_pair_code hk (.inl hph), sendable_of_fits (addressFits_a _) nofun⟩
    · exact ⟨_, _, nextItem_pair_code hk (.inr hph), sendable_of_fits (addressFits_a _) nofun⟩
    · exact ⟨_, _, nextItem_pair_up hk hph, sendable_of_fits (addressFits_a _) nofun⟩

theorem seqFire_answers {s : State} (fails : Bool) (hinv : Inv s) : ∃ t, seqFire fails s = .next t := by
  by_cases hst : s.seq.st = .ready
  · obtain ⟨p, c, hitem, hsend⟩ := nextItem_sendable hinv hst
    rcases hsend with hm | hu
    · obtain ⟨bits, -, hsent⟩ := State.send_of_mappable (s := s) fails hm
      exact ⟨_, seqFire_of_send hst hitem hsent⟩
    · exact ⟨_, seqFire_of_send hst hitem (State.send_of_unmapped fails hu)⟩
  · exact ⟨s, if_neg hst⟩

/-- Only a batch or a pairing waits (R42), so an `Expire` finds a rule. -/
theorem seqExpire_answers {s : State} (hinv : Inv s) : ∃ t, seqExpire s = .next t := by
  obtain ⟨⟨-, -, -, hwaits⟩, -⟩ := hinv
  unfold seqExpire
  split
  · exact ⟨_, rfl⟩
  · split
    case isFalse => exact ⟨_, rfl⟩
    case isTrue hst =>
      split
      case h_1 hk => rcases hwaits hst with h | h <;> cases hk.symm.trans h
      case h_2 => exact ⟨_, rfl⟩
      case h_3 => exact ⟨_, rfl⟩

theorem exec_answers (i : Instr) (s : State) : ∃ t, exec i s = .next t := by
  rcases exec_ends i s with ⟨u, -, h⟩ | ⟨e, -, -, h⟩
  · exact ⟨_, h⟩
  · exact ⟨_, h⟩

theorem perform_answers {s : State} (a : Input) (hinv : Inv s) : ∃ t, perform a s = .next t := by
  cases a
  case opr w =>
    simp only [perform, request]
    split
    · exact exec_answers _ _
    · exact ⟨_, rfl⟩
  case frame p bits =>
    simp only [perform, deliverPayload, receive_eq_exec_rx]
    split
    · split <;> exact exec_answers _ _
    · exact ⟨_, rfl⟩
  case fire fails => exact seqFire_answers fails hinv
  case expire => exact seqExpire_answers hinv
  all_goals exact ⟨_, rfl⟩

/-- Settles O10: operations always answer (`exec_answers`); under the invariant so do the two sequencer steps
(`seqFire_answers`, `seqExpire_answers`). -/
theorem noStepStopsUnderTheInvariant : Obligations.NoStepStopsUnderTheInvariant := by
  intro s _ hinv
  unfold Safe step
  split
  case h_1 =>
    unfold autonomous
    split
    · exact seqFire_answers _ hinv
    · exact seqExpire_answers hinv
    · exact ⟨s, rfl⟩
  case h_2 a rest _ => exact perform_answers (s := { s with agenda := rest }) a hinv

/-! ### The pending list -/

section
variable {cfg : Cfg} {q : Seq} {c : Command} {d : Nat} {tail : List (Command × Nat)}

/-- The head of the pending list is the item the next Fire step sends (R43, R356, R357). -/
theorem nextItem_of_pending (hphase : PhaseShape q) (hpair : q.kind = .pair → q.proto = .a)
    (h : pending cfg q = (c, d) :: tail) : nextItem cfg q = some (q.proto, c) := by
  obtain ⟨hlistph, hpairph⟩ := hphase
  have hne : q.st ≠ .idle := fun hst => by simp [pending, hst] at h
  cases hk : q.kind
  case list =>
    rcases phase_lt_two q.ph (hlistph hk hne) with hph | hph <;> simp [pending, hne, hk, hph] at h
    · rw [nextItem_list_primary hk hph, h.1.1]
    · rw [nextItem_list_followUp hk hph, h.1.1]
  case batch =>
    have hpos : q.rem.toNat ≠ 0 := fun hz => by
      rw [pending_batch cfg q hne hk, hz] at h; simp [bursts, burstsFuel] at h
    rw [pending_batch cfg q hne hk, bursts_step _ _ hpos] at h
    simp only [List.cons.injEq, Prod.mk.injEq] at h
    rw [nextItem_batch hk, h.1.1]
  case pair =>
    rcases phase_lt_three q.ph (hpairph hk hne) with hph | hph | hph <;> simp [pending, hne, hk, hph] at h
    · rw [nextItem_pair_code hk (.inl hph), hpair hk, h.1.1]
    · rw [nextItem_pair_code hk (.inr hph), hpair hk, h.1.1]
    · rw [nextItem_pair_up hk hph, hpair hk, h.1.1]

end

/-- What follows a sent item takes it off the pending list, and waits its delay where it has one (R43, R357). -/
theorem afterSend_pops {u : State} {q : Seq} {c : Command} {d : Nat} {tail : List (Command × Nat)}
    (hst : q.st = .ready) (hphase : PhaseShape q) (h : pending u.cfg q = (c, d) :: tail) :
    let t := { u with seq := q }.afterSend true
    pending t.cfg t.seq = tail ∧ t.trace = u.trace ++ (if d = 0 then [] else [.wait (BitVec.ofNat 16 d)]) ∧
      (t.seq.st = .waiting ↔ d ≠ 0) := by
  obtain ⟨hlistph, hpairph⟩ := hphase
  have hne : q.st ≠ .idle := by rw [hst]; exact nofun
  cases hk : q.kind
  case list =>
    rcases phase_lt_two q.ph (hlistph hk hne) with hph | hph <;>
      simp only [pending, hne, hk, hph, if_true, if_false, List.cons.injEq, Prod.mk.injEq] at h
    · obtain ⟨⟨-, rfl⟩, rfl⟩ := h
      rw [State.afterSend_list_primary true hk hph]
      cases hfuv : q.fuv <;> simp [pending, hst, hk, followUpCmd]
    · simp at h
      obtain ⟨⟨-, rfl⟩, rfl⟩ := h
      rw [State.afterSend_list_followUp true hk hph]
      simp [pending]
  case batch =>
    have hpos : q.rem.toNat ≠ 0 := fun hz => by
      rw [pending_batch _ q hne hk, hz] at h; simp [bursts, burstsFuel] at h
    rw [pending_batch _ q hne hk, bursts_step _ _ hpos] at h
    simp only [List.cons.injEq, Prod.mk.injEq] at h
    obtain ⟨⟨-, rfl⟩, rfl⟩ := h
    have hd : 100 * min 15 q.rem.toNat ≠ 0 := by omega
    rw [State.afterSend_batch_sent hk]
    refine ⟨?_, by simp [hd], by simp [hd]⟩
    simp only [pending, hk, reduceCtorEq, if_false, rem_sub_burst]
  case pair =>
    rcases phase_lt_three q.ph (hpairph hk hne) with hph | hph | hph <;> simp [pending, hne, hk, hph] at h
    · obtain ⟨⟨-, rfl⟩, rfl⟩ := h
      rw [State.afterSend_pair_code true hk (.inl hph)]
      simp [pending, hk, hph]
    · obtain ⟨⟨-, rfl⟩, rfl⟩ := h
      rw [State.afterSend_pair_code true hk (.inr hph)]
      simp [pending, hk, hph]
    · obtain ⟨⟨-, rfl⟩, rfl⟩ := h
      rw [State.afterSend_pair_up true hk hph]
      simp [pending]

/-- An `Expire` leaves the pending list as it is: the schedule that it ends has nothing left (R358). -/
theorem seqExpire_pending {s t : State} (h : seqExpire s = .next t) (hst : s.seq.st = .waiting) :
    pending t.cfg t.seq = pending s.cfg s.seq := by
  have hne : s.seq.st ≠ .idle := by rw [hst]; exact nofun
  rcases seqExpire_eq_next h with ⟨-, rfl⟩ | ⟨-, hnot, -⟩ | ⟨-, -, -, rfl⟩
  · rfl
  · exact absurd hst hnot
  · by_cases hends : s.seq.kind = .batch ∧ s.seq.rem = 0#8
    · obtain ⟨hk, hrem⟩ := hends
      rw [pending_batch s.cfg s.seq hne hk]
      simp [pending, hk, hrem, bursts, burstsFuel]
    · simp [if_neg hends, pending, hst, State.timerReports, followUpCmd]

/-- Settles O55: the item sent is the head of the list (`nextItem_of_pending`), it is transmitted
(`State.send_of_mappable`) and taken off the list (`afterSend_pops`); an `Expire` is `seqExpire_pending`. -/
theorem firePopsThePendingList : Obligations.FirePopsThePendingList := by
  refine fun s fails c d tail _ hinv => ⟨fun hst hpending hm => ?_, fun hst => ?_⟩
  · obtain ⟨⟨-, -, hpair, -⟩, hphase, -⟩ := id hinv
    have hitem := nextItem_of_pending hphase hpair hpending
    obtain ⟨bits, hbits, hsend⟩ := State.send_of_mappable (s := s) fails hm
    obtain ⟨htail, htrace, hwait⟩ :=
      afterSend_pops (u := s.sent s.seq.proto bits c.repeatCount fails) hst hphase hpending
    exact ⟨_, bits, seqFire_of_send hst hitem hsend, htail, hbits, htrace, hwait⟩
  · obtain ⟨t, ht⟩ := seqExpire_answers hinv
    exact ⟨t, ht, seqExpire_pending ht hst⟩

/-! ### The counter -/

/-- What follows a `SEND` emits nothing but the `Wait` it arms, and leaves the counter alone. -/
theorem afterSend_trace (sent : Bool) (s : State) :
    (s.afterSend sent).rcc = s.rcc ∧ ∃ more, (s.afterSend sent).trace = s.trace ++ more ∧
      ∀ v, Event.rcSet v ∉ more := by
  have hwait : ∀ (u : State) (ms : BitVec 16), u.rcc = s.rcc → u.trace = s.trace →
      (u.armTimer ms).rcc = s.rcc ∧ ∃ more, (u.armTimer ms).trace = s.trace ++ more ∧
        ∀ v, Event.rcSet v ∉ more :=
    fun u ms hrcc htrace => ⟨hrcc, [.wait ms], by simp [State.armTimer, htrace], by simp⟩
  unfold State.afterSend
  split
  · split <;> exact ⟨rfl, [], (List.append_nil _).symm, by simp⟩
  · split
    · exact hwait _ _ rfl rfl
    · exact ⟨rfl, [], (List.append_nil _).symm, by simp⟩
  · split
    · exact hwait _ _ rfl rfl
    · exact ⟨rfl, [], (List.append_nil _).symm, by simp⟩

/-- What a step does to the counter, but for the pairing step and a crash: nothing, or the update of a
Protocol-C `SEND`, followed at once by its `Transmit` (R100, R351). -/
def CountsBySend (s t : State) : Prop :=
  ∃ new, t.trace = s.trace ++ new ∧
    ((t.rcc = s.rcc ∧ ∀ v, Event.rcSet v ∉ new) ∨
      (∃ bits reps more, s.seq.st = .ready ∧ s.seq.proto = .c ∧ t.rcc = s.rcc + 1#16 ∧
        new = [.rcGet s.rcc, .rcSet (s.rcc + 1#16), .transmit bits reps] ++ more ∧
        ∀ v, Event.rcSet v ∉ more))

theorem CountsBySend.of_still {s t : State} {new : List Event} (hrcc : t.rcc = s.rcc)
    (htrace : t.trace = s.trace ++ new) (hnew : ∀ v, Event.rcSet v ∉ new) : CountsBySend s t :=
  ⟨new, htrace, .inl ⟨hrcc, hnew⟩⟩

theorem CountsBySend.refl (s : State) : CountsBySend s s :=
  .of_still rfl (List.append_nil _).symm (by simp)

theorem seqFire_counts {s t : State} {fails : Bool} (h : seqFire fails s = .next t) : CountsBySend s t := by
  rcases seqFire_eq_next h with ⟨-, rfl⟩ | ⟨p, c, sent, u, hst, hitem, hsend, rfl⟩
  · exact .refl _
  obtain ⟨hrcc, more, htrace, hmore⟩ := afterSend_trace sent u
  rcases State.send_eq_ok hsend with ⟨-, rfl⟩ | ⟨-, -, bits, -, rfl⟩
  · exact .of_still hrcc htrace hmore
  by_cases hp : p = .c
  · have hproto : s.seq.proto = .c := by
      rcases nextItem_proto hitem with h | h
      · exact h.symm.trans hp
      · cases hp.symm.trans h
    subst hp
    have hfail : ∀ v, Event.rcSet v ∉ (if fails then [Event.txFail] else []) ++ more := by
      cases fails <;> simp [hmore]
    exact ⟨_, htrace.trans (List.append_assoc ..), .inr ⟨bits, c.repeatCount, _, hst, hproto, hrcc,
      by simp [sentEvents], hfail⟩⟩
  · have hno : ∀ v, Event.rcSet v ∉ sentEvents s p bits c.repeatCount fails ++ more := by
      cases fails <;> simp [sentEvents, hp, hmore]
    exact .of_still (hrcc.trans (if_neg hp)) (htrace.trans (List.append_assoc ..)) hno

theorem seqExpire_counts {s t : State} (h : seqExpire s = .next t) : CountsBySend s t := by
  rcases seqExpire_eq_next h with ⟨-, rfl⟩ | ⟨-, -, rfl⟩ | ⟨-, -, -, rfl⟩
  · exact .refl _
  · exact .of_still (new := [.expire]) rfl rfl (by simp)
  · exact .of_still (new := [.expire]) rfl rfl (by simp)

theorem exec_counts {i : Instr} {s t : State} (h : exec i s = .next t) : CountsBySend s t := by
  obtain ⟨hrcc, -⟩ := onlyRequestsTouchTheSequencer i s t h
  obtain ⟨new, htrace, -, hnew⟩ := exec_untimed h
  exact .of_still hrcc htrace hnew

theorem request_counts {s t : State} {w : BitVec 8} (h : request w s = .next t) : CountsBySend s t := by
  unfold request at h
  split at h
  case h_1 i _ => exact exec_counts (s := { s with opr := w }) h
  case h_2 => cases h; exact .of_still (new := [.resp .illegalOp]) rfl rfl (by simp)

theorem deliverPayload_counts {s t : State} {p : Proto} {bits : Bits} (h : deliverPayload p bits s = .next t) :
    CountsBySend s t := by
  unfold deliverPayload at h
  split at h
  case isFalse => cases h; exact .refl _
  case isTrue =>
    split at h
    case h_1 => exact exec_counts h
    case h_2 => rw [receive_eq_exec_rx] at h; exact exec_counts (s := s.place p bits) h

/-- Every item of the agenda but a crash and the pairing step. -/
theorem perform_counts {s t : State} {a : Input} (h : perform a s = .next t) (hcrash : a ≠ .crash)
    (hpair : a ≠ .pairStore) : CountsBySend s t := by
  cases a
  case opr w => exact request_counts h
  case host w =>
    cases h
    obtain ⟨-, -, -, -, -, htrace, hrcc⟩ := hostWrite_frame s w
    exact .of_still hrcc (htrace.trans (List.append_nil _).symm) (by simp)
  case frame p bits => exact deliverPayload_counts h
  case fire fails => exact seqFire_counts h
  case expire => exact seqExpire_counts h
  case lateExpire =>
    cases h
    by_cases hz : s.abandoned = 0
    · rw [State.lateExpire_of_zero s hz]; exact .refl s
    · rw [State.lateExpire_of_pos s hz]; exact .of_still (new := [.expire]) rfl rfl (by simp)
  case readSettings | setting | reset => cases h; exact .of_still rfl (List.append_nil _).symm (by simp)
  case crash => exact absurd rfl hcrash
  case pairStore => exact absurd rfl hpair

/-- The pairing step on an idle block and on any other (R456). -/
theorem step_pairStore {s : State} {rest : List Input} (ha : s.agenda = .pairStore :: rest) :
    (s.seq.st = .idle → step s = .next { s with agenda := rest, rcc := 0#16 }) ∧
      (s.seq.st ≠ .idle → step s = .next { s with agenda := rest }) := by
  rw [step_of_agenda ha, perform, State.pairStore]
  exact ⟨fun hst => by rw [if_pos hst], fun hst => by rw [if_neg hst]⟩

theorem step_counts {s t : State} (h : step s = .next t) :
    CountsBySend s t ∨ (∃ rest, s.agenda = .crash :: rest ∧ t = seqCrash { s with agenda := rest }) ∨
      ∃ rest, s.agenda = .pairStore :: rest := by
  cases ha : s.agenda with
  | nil =>
    rw [step_of_empty_agenda ha, autonomous] at h
    split at h
    · exact .inl (seqFire_counts h)
    · exact .inl (seqExpire_counts h)
    · cases h; exact .inl (.refl s)
  | cons a rest =>
    rw [step_of_agenda ha] at h
    by_cases hcrash : a = .crash
    · subst hcrash; cases h; exact .inr (.inl ⟨rest, rfl, rfl⟩)
    · by_cases hpair : a = .pairStore
      · subst hpair; exact .inr (.inr ⟨rest, rfl⟩)
      · exact .inl (perform_counts (s := { s with agenda := rest }) h hcrash hpair)

/-- Settles O58: the pairing step is `step_pairStore`, a crash is `seqCrash_cases`, and every other step counts by
`SEND` only (`step_counts`). -/
theorem onlySendsAndPairingWriteTheCounter : Obligations.OnlySendsAndPairingWriteTheCounter := by
  refine ⟨fun s rest ha => step_pairStore ha, fun s t h => ?_⟩
  rcases step_counts h with ⟨new, htrace, hc⟩ | ⟨rest, ha, rfl⟩ | ⟨rest, ha⟩
  · exact ⟨new, htrace, hc.imp id .inl⟩
  · rcases seqCrash_cases { s with agenda := rest } with he | ⟨c, hst, hitem, he⟩
    · rw [he]
      exact ⟨[], (List.append_nil _).symm, .inl ⟨rfl, by simp⟩⟩
    · have hproto : s.seq.proto = .c := ((nextItem_proto hitem).resolve_right nofun).symm
      rw [he]
      exact ⟨_, rfl, .inr (.inr (.inl ⟨rest, ha, hst, hproto, rfl, rfl, rfl⟩))⟩
  · obtain ⟨hidle, hbusy⟩ := step_pairStore ha
    by_cases hst : s.seq.st = .idle
    · cases h.symm.trans (hidle hst)
      exact ⟨[], (List.append_nil _).symm, .inr (.inr (.inr ⟨rest, ha, hst, rfl, rfl⟩))⟩
    · cases h.symm.trans (hbusy hst)
      exact ⟨[], (List.append_nil _).symm, .inl ⟨rfl, by simp⟩⟩

/-- Settles O59: the item being sent is the head of the pending list (`nextItem_of_pending`), so the crash updates the
counter, and the rest is `blockReset`. -/
theorem crashBurnsOneRollingCode : Obligations.CrashBurnsOneRollingCode := by
  intro s rest c d tail ha hst hproto hk hph hpending hm
  have hphase : PhaseShape s.seq := ⟨fun hl _ => hph hl, fun hp => absurd hp hk⟩
  have hitem : nextItem s.cfg s.seq = some (.c, c) :=
    hproto ▸ nextItem_of_pending hphase (fun hp => absurd hp hk) hpending
  obtain ⟨bits, hdry⟩ := hm
  have hcrash : seqCrash { s with agenda := rest } = { s with agenda := rest }.bumpRcc.blockReset := by
    simp only [seqCrash, hst, if_true, hitem, hdry]; rfl
  refine ⟨_, (step_of_agenda ha).trans (congrArg Host.Outcome.next hcrash), rfl, rfl, clearedFrom_blockReset _,
    nothingWritten_blockReset _, rfl, rfl⟩

end Sys2Proof.Machine
end

section
/-! The two schedules played to their end (45_transform.md R357, R362, R367; 42_protocol_a.md R243): a batch in its
bursts, and the pairing, with nothing on the agenda. -/

namespace Sys2Proof.Machine

/-! ### Runs -/

theorem host_run_succ {M : Host.Core} {s t : M.State} (k : Nat) (h : M.step s = .next t) :
    M.run (k + 1) s = M.run k t := by
  rw [Host.Core.run, h]

theorem run_succ {s t : State} (k : Nat) (h : step s = .next t) :
    Sys2Proof.core.run (k + 1) s = Sys2Proof.core.run k t :=
  host_run_succ (M := Sys2Proof.core) k h

/-- With nothing on the agenda a ready block fires and a waiting one takes its `Expire`: one round of two steps
(R355, R358). -/
theorem run_round {s t u : State} (k : Nat) (hs : s.agenda = []) (hst : s.seq.st = .ready)
    (hfire : seqFire (Config.txFails s.txCalls) s = .next t) (ht : t.agenda = []) (htst : t.seq.st = .waiting)
    (hexpire : seqExpire t = .next u) : Sys2Proof.core.run (k + 2) s = Sys2Proof.core.run k u := by
  rw [run_succ (k + 1) (t := t), run_succ k (t := u)]
  · rw [step_of_empty_agenda ht, autonomous, htst]; exact hexpire
  · rw [step_of_empty_agenda hs, autonomous, hst]; exact hfire

theorem seqExpire_of_batch {s : State} {ms : BitVec 16} (htimer : s.timer = some ms) (hst : s.seq.st = .waiting)
    (hk : s.seq.kind = .batch) :
    seqExpire s = .next { s with
      seq := { s.seq with st := if s.seq.rem = 0#8 then .idle else .ready },
      timer := none, trace := s.trace ++ [.expire] } :=
  ((expireResumesTheSchedule s).1 ms htimer).1 hst hk

theorem seqExpire_of_pair {s : State} {ms : BitVec 16} (htimer : s.timer = some ms) (hst : s.seq.st = .waiting)
    (hk : s.seq.kind = .pair) :
    seqExpire s = .next { s with seq := { s.seq with st := .ready }, timer := none,
                                 trace := s.trace ++ [.expire] } :=
  ((expireResumesTheSchedule s).1 ms htimer).2.1 hst hk

/-! ### Batches -/

/-- The bursts of a step count, one at a time (R362). -/
theorem burstCounts_step {n : Nat} (hn : n ≠ 0) : burstCounts n = min 15 n :: burstCounts (n - min 15 n) := by
  by_cases h : n < 15
  · simp [burstCounts, Nat.div_eq_of_lt h, Nat.mod_eq_of_lt h, hn, Nat.min_eq_right h.le]
  · obtain ⟨m, rfl⟩ : ∃ m, n = m + 15 := ⟨n - 15, by omega⟩
    simp [burstCounts, List.replicate_succ]

/-- What an observer sees of a `SEND`: its burst (R104). -/
theorem sentEvents_seen (s : State) (p : Proto) (bits : Bits) (reps : BitVec 8) (fails : Bool) :
    (sentEvents s p bits reps fails).filterMap seen = [.burst reps.toNat] := by
  cases p <;> cases fails <;> rfl

/-- One burst of a batch, its wait and its `Expire`, as an observer sees them; the step count goes down by the burst
(R357, R358). -/
theorem batch_round {s : State} (k : Nat) (hs : s.agenda = []) (hst : s.seq.st = .ready)
    (hk : s.seq.kind = .batch)
    (hm : Mappable s.cfg s.seq.proto
      { s.seq.cmd with repeatCount := BitVec.ofNat 8 (min 15 s.seq.rem.toNat) }) :
    ∃ u new, Sys2Proof.core.run (k + 2) s = Sys2Proof.core.run k u ∧ u.agenda = [] ∧ u.cfg = s.cfg ∧
      u.seq.kind = .batch ∧ u.seq.cmd = s.seq.cmd ∧ u.seq.proto = s.seq.proto ∧
      u.seq.rem.toNat = s.seq.rem.toNat - min 15 s.seq.rem.toNat ∧
      u.seq.st = (if u.seq.rem.toNat = 0 then .idle else .ready) ∧ u.trace = s.trace ++ new ∧
      new.filterMap seen =
        [.burst (min 15 s.seq.rem.toNat), .wait (100 * min 15 s.seq.rem.toNat), .expire] := by
  obtain ⟨bits, -, hsend⟩ := State.send_of_mappable (s := s) (Config.txFails s.txCalls) hm
  obtain ⟨hfire, -⟩ := (firePlaysTheBatchAndThePairing s _ _ _ hst).1 hk hsend
  refine ⟨_, sentEvents s s.seq.proto bits (BitVec.ofNat 8 (min 15 s.seq.rem.toNat))
    (Config.txFails s.txCalls) ++ [.wait (BitVec.ofNat 16 (100 * min 15 s.seq.rem.toNat)), .expire],
    run_round k hs hst (hfire rfl) hs rfl (seqExpire_of_batch rfl rfl hk), hs, rfl, hk, rfl, rfl,
    rem_sub_burst s.seq.rem, ?_, ?_, ?_⟩
  · exact if_congr (BitVec.toNat_eq (y := 0#8)) rfl rfl
  · simp only [State.sent, List.append_assoc, List.cons_append, List.nil_append]
  · rw [List.filterMap_append, sentEvents_seen]
    simp [seen]; omega

/-- A batch from any step count on plays its bursts and ends idle. -/
theorem batch_run (n : Nat) (s : State) (hn : s.seq.rem.toNat = n) (hs : s.agenda = [])
    (hst : s.seq.st = if n = 0 then .idle else .ready) (hk : s.seq.kind = .batch)
    (hm : ∀ r, 1 ≤ r → r ≤ 15 →
      Mappable s.cfg s.seq.proto { s.seq.cmd with repeatCount := BitVec.ofNat 8 r }) :
    ∃ t new, Sys2Proof.core.run (2 * (burstCounts n).length) s = .next t ∧ t.seq.st = .idle ∧
      t.trace = s.trace ++ new ∧
      new.filterMap seen = (burstCounts n).flatMap fun r => [.burst r, .wait (100 * r), .expire] := by
  induction n using Nat.strongRecOn generalizing s with
  | ind n ih =>
    by_cases hz : n = 0
    · subst hz
      exact ⟨s, [], rfl, hst, (List.append_nil _).symm, rfl⟩
    · rw [if_neg hz] at hst
      obtain ⟨u, new, hrun, hu, hcfg, huk, hcmd, hproto, hurem, hust, htrace, hseen⟩ :=
        batch_round (2 * (burstCounts (n - min 15 n)).length) hs hst hk (hm _ (by omega) (by omega))
      rw [hn] at hurem hseen
      obtain ⟨t, more, hrun', ht, htrace', hseen'⟩ := ih (n - min 15 n) (by omega) u hurem hu
        (hurem ▸ hust) huk (by rw [hcfg, hcmd, hproto]; exact hm)
      refine ⟨t, new ++ more, ?_, ht, ?_, ?_⟩
      · rw [burstCounts_step hz, List.length_cons, Nat.mul_succ, hrun, hrun']
      · rw [htrace', htrace, List.append_assoc]
      · rw [burstCounts_step hz, List.filterMap_append, hseen, hseen', List.flatMap_cons]

/-- Settles O56: by induction on the steps left (`batch_run`), one burst, wait and `Expire` at a time
(`batch_round`). -/
theorem batchesPlayInBurstsOfFifteen : Obligations.BatchesPlayInBurstsOfFifteen := by
  intro s _ hinv hs hst hk hm
  obtain ⟨⟨hrem, -⟩, -⟩ := hinv
  have hpos : s.seq.rem.toNat ≠ 0 := fun hz => hrem hk hst (BitVec.eq_of_toNat_eq hz)
  exact batch_run _ s rfl hs (by rw [if_neg hpos]; exact hst) hk hm

/-! ### The pairing -/

/-- The encoder has the code of the pairing (R231). -/
theorem encodeA_pair {cfg : Cfg} {c : Command} (h : c.action = .pair) : ∃ bits, encodeA cfg c = .ok bits := by
  have hcode : ∃ code, codeA cfg c.action = some code := by
    unfold codeA
    split
    · exact ⟨_, rfl⟩
    · rw [if_pos h]; exact ⟨_, rfl⟩
  obtain ⟨code, hcode⟩ := hcode
  exact ⟨_, encodeA_of_code hcode⟩

/-- An admissible configuration has the code of `Up` (R10). -/
theorem encodeA_up {cfg : Cfg} {c : Command} (hadm : admissible cfg = true) (h : c.action = .up) :
    ∃ bits, encodeA cfg c = .ok bits := by
  obtain ⟨-, -, -, hup, -⟩ := admissible_a hadm
  have hcode : codeA cfg c.action = some 0x11#8 := by rw [codeA, h, hup]
  exact ⟨_, encodeA_of_code hcode⟩

/-- A Protocol-A command that is no tilt is sent as it stands (R340, R350). -/
theorem send_a_of_encodeA {s : State} {c : Command} {bits : Bits} (fails : Bool)
    (ha : c.action = .pair ∨ c.action = .up) (henc : encodeA s.cfg c = .ok bits) :
    s.send .a c fails = .ok (true, s.sent .a bits c.repeatCount fails) := by
  have hlower : lower s.cfg .a c = c := by rcases ha with h | h <;> simp only [lower, h]
  have hm : Mappable s.cfg .a c := ⟨bits, by rw [dryEncode, hlower]; exact henc⟩
  obtain ⟨bits', hbits', hsend⟩ := State.send_of_mappable (s := s) fails hm
  have hwire : wireCommand s .a c = c := by simp [wireCommand, hlower]
  rw [hwire] at hbits'
  cases hbits'.symm.trans henc
  exact hsend

/-- The events of a Protocol-A `SEND`, but for the transceiver's answer. -/
theorem sentEvents_a_filter (s : State) (bits : Bits) (reps : BitVec 8) (fails : Bool) :
    (sentEvents s .a bits reps fails).filter (fun e => e ≠ .txFail) = [.transmit bits reps] := by
  cases fails <;> simp [sentEvents]

/-- The pairing code, its wait and its `Expire`; the next phase is ready (R357, R358). -/
theorem pair_round {s : State} {bits : Bits} (k : Nat) (hs : s.agenda = []) (hst : s.seq.st = .ready)
    (hk : s.seq.kind = .pair) (hph : s.seq.ph = 0#2 ∨ s.seq.ph = 1#2)
    (henc : encodeA s.cfg { s.seq.cmd with action := .pair } = .ok bits) :
    ∃ u new, Sys2Proof.core.run (k + 2) s = Sys2Proof.core.run k u ∧ u.agenda = [] ∧ u.cfg = s.cfg ∧
      u.rcc = s.rcc ∧ u.seq.st = .ready ∧ u.seq.kind = .pair ∧ u.seq.ph = s.seq.ph + 1#2 ∧
      u.seq.cmd = s.seq.cmd ∧ u.trace = s.trace ++ new ∧
      new.filter (fun e => e ≠ .txFail) =
        [.transmit bits s.seq.cmd.repeatCount, .wait 1000#16, .expire] := by
  have hsend := send_a_of_encodeA (Config.txFails s.txCalls) (.inl rfl) henc
  have hfire := (firePlaysTheBatchAndThePairing s _ _ _ hst).2.1 hk hph hsend
  refine ⟨_, sentEvents s .a bits s.seq.cmd.repeatCount (Config.txFails s.txCalls) ++ [.wait 1000#16, .expire],
    run_round k hs hst hfire hs rfl (seqExpire_of_pair rfl rfl hk), hs, rfl, rfl, rfl, hk, rfl, rfl, ?_, ?_⟩
  · simp only [State.sent, List.append_assoc, List.cons_append, List.nil_append]
  · rw [List.filter_append, sentEvents_a_filter]
    rfl

/-- The last item of a pairing (R357). -/
theorem pair_last {s : State} {bits : Bits} (hs : s.agenda = []) (hst : s.seq.st = .ready)
    (hk : s.seq.kind = .pair) (hph : s.seq.ph = 2#2)
    (henc : encodeA s.cfg { s.seq.cmd with action := .up } = .ok bits) :
    ∃ t new, Sys2Proof.core.run 1 s = .next t ∧ t.seq.st = .idle ∧ t.rcc = s.rcc ∧
      t.trace = s.trace ++ new ∧
      new.filter (fun e => e ≠ .txFail) = [.transmit bits s.seq.cmd.repeatCount] := by
  have hsend := send_a_of_encodeA (Config.txFails s.txCalls) (.inr rfl) henc
  have hfire := (firePlaysTheBatchAndThePairing s _ _ _ hst).2.2 hk hph hsend
  have hstep : step s = seqFire (Config.txFails s.txCalls) s := by
    rw [step_of_empty_agenda hs, autonomous, hst]
  exact ⟨_, _, run_succ 0 (hstep.trans hfire), rfl, rfl, rfl, sentEvents_a_filter s bits s.seq.cmd.repeatCount _⟩

/-- Settles O57: two rounds of the pairing code (`pair_round`), then `Up` (`pair_last`). -/
theorem pairingPlaysItsThreeSends : Obligations.PairingPlaysItsThreeSends := by
  intro s hadm _ hs hst hk hph
  obtain ⟨pairBits, hpair⟩ := encodeA_pair (cfg := s.cfg) (c := { s.seq.cmd with action := .pair }) rfl
  obtain ⟨upBits, hup⟩ := encodeA_up (c := { s.seq.cmd with action := .up }) hadm rfl
  obtain ⟨u, new1, hrun1, hu, hcfg1, hrcc1, hst1, hk1, hph1, hcmd1, htrace1, hnew1⟩ :=
    pair_round 3 hs hst hk (.inl hph) hpair
  obtain ⟨v, new2, hrun2, hv, hcfg2, hrcc2, hst2, hk2, hph2, hcmd2, htrace2, hnew2⟩ :=
    pair_round 1 hu hst1 hk1 (.inr (by rw [hph1, hph]; rfl)) (by rw [hcfg1, hcmd1]; exact hpair)
  obtain ⟨t, new3, hrun3, hst3, hrcc3, htrace3, hnew3⟩ :=
    pair_last hv hst2 hk2 (by rw [hph2, hph1, hph]; rfl) (by rw [hcfg2, hcfg1, hcmd2, hcmd1]; exact hup)
  refine ⟨t, new1 ++ (new2 ++ new3), pairBits, upBits, hrun1.trans (hrun2.trans hrun3), hst3, hpair, hup, ?_,
    hrcc3.trans (hrcc2.trans hrcc1), ?_⟩
  · rw [htrace3, htrace2, htrace1, List.append_assoc, List.append_assoc]
  · rw [List.filter_append, List.filter_append, hnew1, hnew2, hnew3, hcmd2, hcmd1]
    rfl

end Sys2Proof.Machine
end

section
/-! The laws of the bit-vector, checksum and whitening operations (40_bitvector.md R186, R190; 41_checksum.md R206
to R209, R214): what a conversion, an insert and a whitening undo, and which corruptions a checksum sees. -/

namespace Sys2Proof.Machine

/-! ### Bit vectors and bit fields -/

/-- The two orders of a byte are each other's reverse (R182). -/
theorem intToBits_byte_reverse (v : Nat) : intToBits v 8 .perByteReversed = (intToBits v 8 .msbFirst).reverse :=
  rfl

/-- Settles O19: the conversions invert each other (`bitsToInt_intToBits`, `intToBits_bitsToInt`), and the bits of a
byte list are `bytesToBits_getElem?`. -/
theorem serializerRoundTrips : Obligations.SerializerRoundTrips :=
  ⟨fun v w o _ _ hv hf => bitsToInt_intToBits v w o hv hf, fun f o _ _ hf => intToBits_bitsToInt f o hf,
    fun v _ => intToBits_byte_reverse v,
    fun f j k hj hk => ⟨bytesToBits_getElem? .perByteReversed f j k hj hk,
      bytesToBits_getElem? .msbFirst f j k hj hk⟩⟩

/-- The field read back from an insert holds the low bits that were inserted (R190). -/
theorem extField_insField (b v : Word) {p w : Nat} (hfits : p + w ≤ 32) :
    (extField (insField b v p w) p w).toNat = v.toNat % 2 ^ w := by
  apply Nat.eq_of_testBit_eq
  intro i
  rw [Nat.testBit_mod_two_pow, BitVec.testBit_toNat, BitVec.testBit_toNat]
  by_cases hi : i < w
  · rw [extField_getLsbD _ _ _ (by omega), insField_getLsbD _ _ _ _ (by omega),
      if_pos (by omega), Nat.add_sub_cancel_left]
  · by_cases h32 : i < 32
    · rw [extField_getLsbD _ _ _ h32, decide_eq_false hi, Bool.false_and, Bool.false_and]
    · rw [BitVec.getLsbD_of_ge _ _ (by omega), decide_eq_false hi, Bool.false_and]

/-- Settles O20: the two bodies write `RES` (`bfInsBody_of_written`, `bfExtBody_of_written`), and the field read back
is `extField_insField`. -/
theorem extractAfterInsertGivesTheField : Obligations.ExtractAfterInsertGivesTheField := by
  intro pr s w p b v hw hp hb hv h1 h32
  let t := (s.setRes (insField b v p.toNat w.toNat)).respond .ok
  refine ⟨t, ({ t with value := .put t.res }.setRes (extField t.res p.toNat w.toNat)).respond .ok, ?_, ?_,
    extField_insField b v h32, fun i hi hout => ?_⟩
  · rw [exec_bfIns, bfInsBody_of_written hw hp hb hv, if_pos ⟨h1, h32⟩, State.finish_ok]
  · rw [exec_bfExt, bfExtBody_of_written (s := { t with value := .put t.res }) hw hp rfl, if_pos ⟨h1, h32⟩,
      State.finish_ok]
  · exact (insField_getLsbD b v p.toNat w.toNat hi).trans (if_neg (by omega))

/-! ### The additive checksum -/

/-- Replacing one byte changes the sum by the difference. -/
theorem byteSum_set {f : List Byte} {j : Nat} (b : Byte) (h : j < f.length) :
    byteSum (f.set j b) + (f.getD j 0#8).toNat = byteSum f + b.toNat := by
  induction f generalizing j with
  | nil => simp at h
  | cons x t ih =>
    cases j with
    | zero => simp only [List.set_cons_zero, byteSum_cons, List.getD_cons_zero]; omega
    | succ j =>
      have := ih (j := j) (by simpa using h)
      simp only [List.set_cons_succ, byteSum_cons, List.getD_cons_succ]; omega

@[simp] theorem flipByteBit_length (f : List Byte) (j k : Nat) : (flipByteBit f j k).length = f.length :=
  List.length_set

theorem flipByteBit_getD (f : List Byte) (j k i : Nat) (h : j < f.length) :
    (flipByteBit f j k).getD i 0#8 = if i = j then f.getD j 0#8 ^^^ BitVec.twoPow 8 k else f.getD i 0#8 := by
  rw [flipByteBit, List.getD_eq_getElem?_getD, List.getElem?_set]
  by_cases hij : i = j
  · simp [hij, h]
  · simp [hij, Ne.symm hij]

/-- Setting a bit that is clear adds its weight. -/
theorem toNat_xor_twoPow_of_clear {x : Byte} {k : Nat} (hk : k < 8) (h : x.getLsbD k = false) :
    (x ^^^ BitVec.twoPow 8 k).toNat = x.toNat + 2 ^ k := by
  have hand : x &&& BitVec.twoPow 8 k = 0#8 := by rw [BitVec.and_twoPow, h]; rfl
  have hxor : x ^^^ BitVec.twoPow 8 k = x ||| BitVec.twoPow 8 k := by
    apply BitVec.eq_of_getLsbD_eq
    intro i hi
    by_cases hik : i = k
    · simp [hik, h]
    · simp [Ne.symm hik]
  rw [hxor, ← BitVec.add_eq_or_of_and_eq_zero _ _ hand, BitVec.toNat_add_of_and_eq_zero hand,
    BitVec.toNat_twoPow_of_lt hk]

theorem xor_twoPow_cancel (x : Byte) (k : Nat) : x ^^^ BitVec.twoPow 8 k ^^^ BitVec.twoPow 8 k = x := by
  rw [BitVec.xor_assoc, BitVec.xor_self, BitVec.xor_zero]

/-- Clearing a bit that is set takes its weight away. -/
theorem toNat_xor_twoPow_of_set {x : Byte} {k : Nat} (hk : k < 8) (h : x.getLsbD k = true) :
    (x ^^^ BitVec.twoPow 8 k).toNat + 2 ^ k = x.toNat := by
  have hclear : (x ^^^ BitVec.twoPow 8 k).getLsbD k = false := by simp [hk, h]
  rw [← toNat_xor_twoPow_of_clear hk hclear, xor_twoPow_cancel]

/-- One flipped bit changes the sum of a byte list, also mod 256: two bytes that differ are not 256 apart. -/
theorem byteSum_flipByteBit_ne {f : List Byte} {j k : Nat} (hj : j < f.length) (hk : k < 8) :
    byteSum (flipByteBit f j k) % 256 ≠ byteSum f % 256 := by
  have hset := byteSum_set (f.getD j 0#8 ^^^ BitVec.twoPow 8 k) hj
  have hpow : 2 ^ k < 256 := Nat.pow_lt_pow_right (by omega) hk
  have hpos : 0 < 2 ^ k := Nat.two_pow_pos k
  rw [flipByteBit]
  cases hbit : (f.getD j 0#8).getLsbD k with
  | true => have := toNat_xor_twoPow_of_set hk hbit; omega
  | false => have := toNat_xor_twoPow_of_clear hk hbit; omega

/-- Two flips of one bit position in opposite directions leave the sum as it was. -/
theorem byteSum_opposite_flips {f : List Byte} {i j k : Nat} (hi : i < f.length) (hj : j < f.length) (hk : k < 8)
    (hset : (f.getD i 0#8).getLsbD k = true) (hclear : (f.getD j 0#8).getLsbD k = false) :
    byteSum (flipByteBit (flipByteBit f i k) j k) = byteSum f := by
  have hji : j ≠ i := by rintro rfl; rw [hset] at hclear; cases hclear
  have hdown := byteSum_set (f.getD i 0#8 ^^^ BitVec.twoPow 8 k) hi
  have hup := byteSum_set ((flipByteBit f i k).getD j 0#8 ^^^ BitVec.twoPow 8 k)
    (f := flipByteBit f i k) (j := j) (by simpa using hj)
  rw [flipByteBit_getD f i k j hi, if_neg hji, toNat_xor_twoPow_of_clear hk hclear] at hup
  have := toNat_xor_twoPow_of_set hk hset
  rw [← flipByteBit] at hdown
  conv_lhs => rw [flipByteBit, flipByteBit_getD f i k j hi, if_neg hji]
  omega

/-- `CHK.ADD` passes only where the sum is 1 mod 256. -/
theorem byteSum_of_exec_chkAdd {s : State} {f : List Byte} (h : HoldsBytes s f) (hne : f ≠ [])
    (hexec : exec .chkAdd s = .next ({ s with res := 1#32 }.respond .ok)) : byteSum f % 256 = 1 := by
  by_contra hsum
  rw [exec_chkAdd, chkAddBody_of_nonempty h hne, if_neg hsum, State.finish_error] at hexec
  have hsc := congrArg (fun t => t.status.sc) (Host.Outcome.next.inj hexec)
  cases hsc

/-- Settles O23: `CHK.ADD` is a condition on the sum mod 256, which one flip breaks (`byteSum_flipByteBit_ne`) and two
opposite flips keep (`byteSum_opposite_flips`). -/
theorem singleBitFlipsFailTheAdditiveCheck : Obligations.SingleBitFlipsFailTheAdditiveCheck := by
  intro s f h hlen hexec
  have hne : f ≠ [] := List.ne_nil_of_length_eq_add_one hlen
  have hsum := byteSum_of_exec_chkAdd h hne hexec
  refine ⟨fun t j k hj hk ht => ?_, fun t i j k hi hj hk hset hclear ht => ?_⟩
  · obtain ⟨-, -, -, hfail⟩ := additiveChecksumIsOneMinusTheSum t _ ht
    refine hfail (List.ne_nil_of_length_eq_add_one (by simpa using hlen)) ?_
    rw [← hsum]
    exact byteSum_flipByteBit_ne (by omega) hk
  · obtain ⟨-, -, hpass, -⟩ := additiveChecksumIsOneMinusTheSum t _ ht
    refine hpass (List.ne_nil_of_length_eq_add_one (by simpa using hlen)) ?_
    rw [byteSum_opposite_flips (by omega) (by omega) hk hset hclear, hsum]

/-! ### The nibble checksum -/

theorem exec_csumXorn (s : State) : exec .csumXorn s = s.finish (csumXornBody s) := exec_eq .csumXorn s

theorem exec_chkXorn (s : State) : exec .chkXorn s = s.finish (chkXornBody s) := exec_eq .chkXorn s

section
variable {s : State} {f : List Byte}

theorem csumXornBody_of_holdsBytes (h : HoldsBytes s f) :
    csumXornBody s = .ok (s.setRes ((nibbleXor f).setWidth 32)) := by
  rw [csumXornBody, h.readBytes, ok_bind, fold_eq_nibbleXor]

theorem chkXornBody_of_empty (h : HoldsBytes s []) : chkXornBody s = .error .precond := by
  rw [chkXornBody, h.readBytes, ok_bind]
  rfl

theorem chkXornBody_of_nonempty (h : HoldsBytes s f) (hne : f ≠ []) :
    chkXornBody s = if nibbleXor f = 0#4 then .ok (s.setRes 1#32) else .error .checksum := by
  rw [chkXornBody, h.readBytes, ok_bind, if_neg (by simpa using hne), fold_eq_nibbleXor]

end

/-- The nibbles of one byte. -/
theorem nibbleXor_singleton (b : Byte) : nibbleXor [b] = b.extractLsb' 4 4 ^^^ b.extractLsb' 0 4 := by
  rw [nibbleXor_cons, nibbleXor_nil, BitVec.xor_zero]

theorem nibbleXor_cons_singleton (b : Byte) (f : List Byte) : nibbleXor (b :: f) = nibbleXor [b] ^^^ nibbleXor f :=
  nibbleXor_append [b] f

/-- The sum of the nibbles is linear in the bytes. -/
theorem nibbleXor_xor (x y : Byte) : nibbleXor [x ^^^ y] = nibbleXor [x] ^^^ nibbleXor [y] := by
  simp only [nibbleXor_singleton, BitVec.extractLsb'_xor]
  ac_rfl

/-- Replacing one byte takes its nibbles out of the sum and puts the new ones in. -/
theorem nibbleXor_set {f : List Byte} {j : Nat} (b : Byte) (h : j < f.length) :
    nibbleXor (f.set j b) = nibbleXor f ^^^ nibbleXor [f.getD j 0#8] ^^^ nibbleXor [b] := by
  induction f generalizing j with
  | nil => simp at h
  | cons x t ih =>
    cases j with
    | zero =>
      rw [List.set_cons_zero, nibbleXor_cons_singleton b, nibbleXor_cons_singleton x, List.getD_cons_zero,
        BitVec.xor_comm (nibbleXor [x]), BitVec.xor_assoc (nibbleXor t), BitVec.xor_self, BitVec.xor_zero,
        BitVec.xor_comm]
    | succ j =>
      rw [List.set_cons_succ, nibbleXor_cons_singleton x, ih (by simpa using h), nibbleXor_cons_singleton x t,
        List.getD_cons_succ]
      simp only [BitVec.xor_assoc]

/-- A nibble put into an empty low nibble. -/
theorem nibbleXor_or_low {x : Byte} (n : BitVec 4) (h : x.extractLsb' 0 4 = 0#4) :
    nibbleXor [x ||| n.setWidth 8] = nibbleXor [x] ^^^ n := by
  have hlow : (n.setWidth 8).extractLsb' 0 4 = n := by revert n; decide
  have hhigh : (n.setWidth 8).extractLsb' 4 4 = 0#4 := by revert n; decide
  rw [nibbleXor_singleton, nibbleXor_singleton, BitVec.extractLsb'_or, BitVec.extractLsb'_or, hlow, hhigh, h]
  simp

/-- Settles O24: the folded byte is the XOR of the nibbles (`fold_eq_nibbleXor`), and the nibble that makes it 0 is the
XOR of the others (`nibbleXor_set`, `nibbleXor_or_low`). -/
theorem nibbleChecksumIsTheXorOfTheNibbles : Obligations.NibbleChecksumIsTheXorOfTheNibbles := by
  refine ⟨fun s f h => ⟨?_, fun hnil => ?_, fun hne hzero => ?_, fun hne hzero => ?_⟩, fun s f hlen hlow h => ?_⟩
  · rw [exec_csumXorn, csumXornBody_of_holdsBytes h]
    rfl
  · subst hnil
    rw [exec_chkXorn, chkXornBody_of_empty h, State.finish_error]
  · rw [exec_chkXorn, chkXornBody_of_nonempty h hne, if_pos hzero]
    rfl
  · rw [exec_chkXorn, chkXornBody_of_nonempty h hne, if_neg hzero, State.finish_error]
  · have hne : f.set 1 (f.getD 1 0#8 ||| (nibbleXor f).setWidth 8) ≠ [] := by
      rw [← List.length_pos_iff, List.length_set]; omega
    rw [exec_chkXorn, chkXornBody_of_nonempty h hne, if_pos]
    · rfl
    · rw [nibbleXor_set _ (by omega), nibbleXor_or_low _ hlow, ← BitVec.xor_assoc, BitVec.xor_assoc (nibbleXor f),
        BitVec.xor_self, BitVec.xor_zero, BitVec.xor_self]

/-! ### Whitening -/

section
variable {s : State} {f g : List Byte}

/-- A byte list of the same length takes the place of the one held. -/
theorem HoldsBytes.putBytes (h : HoldsBytes s f) (hlen : g.length = f.length) : HoldsBytes (s.putBytes g) g := by
  obtain ⟨hbytelen, -⟩ := h
  refine ⟨hbytelen.trans hlen.symm, fun j hj => ?_⟩
  exact (writeAt_zero_getElem s.bytebuf g j).trans (dif_pos hj)

theorem HoldsBytes.respond (h : HoldsBytes s f) (st : Status) : HoldsBytes (s.respond st) f := h

/-- Writing the list that a buffer held gives the buffer back. -/
theorem HoldsBytes.putBytes_back (h : HoldsBytes s f) (hlen : g.length = f.length) :
    ((s.putBytes g).putBytes f).bytebuf = s.bytebuf := by
  obtain ⟨-, hcells⟩ := h
  apply Vector.ext
  intro j hj
  have hback := writeAt_zero_getElem (s.putBytes g).bytebuf f ⟨j, hj⟩
  by_cases hjf : j < f.length
  · exact hback.trans ((dif_pos hjf).trans (hcells ⟨j, hj⟩ hjf).symm)
  · exact hback.trans ((dif_neg hjf).trans
      ((writeAt_zero_getElem s.bytebuf g ⟨j, hj⟩).trans (dif_neg (hlen ▸ hjf))))

/-- A list that begins with the same byte leaves the first cell as it was. -/
theorem HoldsBytes.putBytes_first (h : HoldsBytes s f) (hfirst : g[0]? = f[0]?) :
    (s.putBytes g).bytebuf[0] = s.bytebuf[0] := by
  obtain ⟨-, hcells⟩ := h
  refine (writeAt_zero_getElem s.bytebuf g (0 : Fin 10)).trans ?_
  split
  · rename_i hg
    obtain ⟨hf, heq⟩ := List.getElem?_eq_some_iff.mp (hfirst.symm.trans (List.getElem?_eq_getElem hg))
    exact (congrArg Reg.put heq.symm).trans (hcells 0 hf).symm
  · rfl

end

theorem obf_first (f : List Byte) : (obf f)[0]? = f[0]? := by cases f <;> rfl

theorem deobf_first (f : List Byte) : (deobf f)[0]? = f[0]? := by cases f <;> rfl

/-- Three bytes on which whitening twice is not the identity: `1, 0, 0` becomes `1, 1, 1`, then `1, 0, 1`. -/
def threeBytes : State := { State.reset.putBytes [1#8, 0#8, 0#8] with bytelen := 3 }

theorem holdsBytes_threeBytes : HoldsBytes threeBytes [1#8, 0#8, 0#8] := by
  unfold HoldsBytes
  decide

/-- Settles O26: each operation writes the list that the other one undoes (`deobf_obf`, `obf_deobf`), so the buffer is
given back (`HoldsBytes.putBytes_back`). -/
theorem whiteningOperationsUndoEachOther : Obligations.WhiteningOperationsUndoEachOther := by
  refine ⟨fun pr s f h => ⟨?_, ?_⟩, threeBytes, _, _, _, holdsBytes_threeBytes,
    exec_obf_of_holdsBytes _ holdsBytes_threeBytes, exec_obf_of_holdsBytes _
      ((holdsBytes_threeBytes.putBytes (obf_length _)).respond .ok), by decide⟩
  · have hput := (h.putBytes (obf_length f)).respond .ok
    refine ⟨_, _, exec_obf_of_holdsBytes pr h, exec_deobf_of_holdsBytes pr hput, ?_, h.putBytes_first (obf_first f)⟩
    rw [deobf_obf]
    exact h.putBytes_back (obf_length f)
  · have hput := (h.putBytes (deobf_length f)).respond .ok
    refine ⟨_, _, exec_deobf_of_holdsBytes pr h, exec_obf_of_holdsBytes pr hput, ?_,
      h.putBytes_first (deobf_first f)⟩
    rw [obf_deobf]
    exact h.putBytes_back (deobf_length f)

end Sys2Proof.Machine
end

section
/-! The transforms and the identity as operations (45_transform.md R333 to R335; 43_protocol_b.md R272), and the round
trip of Protocol-B with the corruptions that its checksum sees (43_protocol_b.md R270). -/

namespace Sys2Proof.Machine

/-! ### `IDENT.B` -/

theorem exec_identB (s : State) : exec .identB s = s.finish (identBBody s) := exec_eq .identB s

/-- The identity word is the sum of its two fields: the unit fills the four bits the address was moved over. -/
theorem identWord_eq (address : BitVec 24) (unit : BitVec 4) (h : address.toNat < 2 ^ 16) :
    (address.setWidth 32 <<< 4) ||| unit.setWidth 32 = BitVec.ofNat 32 (16 * address.toNat + unit.toNat) := by
  apply BitVec.eq_of_toNat_eq
  have hunit := unit.isLt
  have hshift : (address.setWidth 32 <<< 4).toNat = 2 ^ 4 * address.toNat := by
    rw [BitVec.toNat_shiftLeft, BitVec.toNat_setWidth, Nat.shiftLeft_eq]; omega
  have hword : (unit.setWidth 32).toNat = unit.toNat := by rw [BitVec.toNat_setWidth]; omega
  rw [BitVec.toNat_or, hshift, hword, ← Nat.two_pow_add_eq_or_of_lt hunit, BitVec.toNat_ofNat]
  omega

/-- Settles O33: the address check comes first, and the word is `identWord_eq`. -/
theorem identBIsAddressThenUnit : Obligations.IdentBIsAddressThenUnit := by
  intro s address unit haddr hunit
  refine ⟨fun hfits => ?_, fun hwide => ?_⟩
  · rw [exec_identB, identBBody, haddr, Reg.get_put, ok_bind, addressFits_b, decide_eq_true hfits, hunit, Reg.get_put,
      ← identWord_eq address unit hfits]
    rfl
  · rw [exec_identB, identBBody, haddr, Reg.get_put, ok_bind, addressFits_b, decide_eq_false hwide.not_gt]
    rfl

/-! ### `XF.OUT` and `XF.IN` -/

theorem exec_xfOut (pr : BitVec 2) (s : State) : exec (.xfOut pr) s = s.finish (xfOutBody s) := exec_eq (.xfOut pr) s

theorem exec_xfIn (pr : BitVec 2) (s : State) : exec (.xfIn pr) s = s.finish (xfInBody s) := exec_eq (.xfIn pr) s

/-- The tag alone names an action that is no `Custom`; of a `Custom` the payload is needed too. -/
theorem actionOf_tagOf_of_payload {a : Action} {v : BitVec 8} (h : ∀ w, a = .custom w → w = v) :
    actionOf (tagOf a) v = a := by
  cases a
  case custom w => rw [h w rfl]; rfl
  case reserved t =>
    have ht : t = 0#2 ∨ t = 1#2 ∨ t = 2#2 ∨ t = 3#2 := by clear h; revert t; decide
    rcases ht with rfl | rfl | rfl | rfl <;> rfl
  all_goals rfl

theorem payload_of_actionOf {tag : BitVec 4} {v w : BitVec 8} (h : actionOf tag v = .custom w) : w = v := by
  unfold actionOf at h
  split at h <;> cases h
  rfl

theorem settingsTable_eq_custom {a : Action} {rot inv : Bool} {w : BitVec 8} (h : settingsTable a rot inv = .custom w) :
    a = .custom w := by
  rw [← settingsTable_undo a rot inv, h]
  rfl

section
variable {s : State} {tag : BitVec 4} {rot inv : Bool}

theorem exec_xfOut_of_written (pr : BitVec 2) (htag : s.cmd.action = .put tag) (hset : HoldsSettings s rot inv) :
    exec (.xfOut pr) s = .next ((s.setActionTag
      (tagOf (settingsTable (actionOf tag s.cmd.custom.val) rot inv))).respond .ok) := by
  obtain ⟨hrot, hinv⟩ := hset
  simp only [exec_xfOut, xfOutBody, htag, hrot, hinv, Reg.get_put, ok_bind, State.finish_ok, xfOutAction_eq_table]

theorem exec_xfIn_of_written (pr : BitVec 2) (htag : s.cmd.action = .put tag) (hset : HoldsSettings s rot inv) :
    exec (.xfIn pr) s = .next ((s.setActionTag
      (tagOf (settingsTable (actionOf tag s.cmd.custom.val) rot inv))).respond .ok) := by
  obtain ⟨hrot, hinv⟩ := hset
  simp only [exec_xfIn, xfInBody, htag, hrot, hinv, Reg.get_put, ok_bind, State.finish_ok, xfInAction_eq_table]

/-- The tag that a transform writes is read back as the action it stands for. -/
theorem actionOf_transformed (v : BitVec 8) :
    actionOf (tagOf (settingsTable (actionOf tag v) rot inv)) v = settingsTable (actionOf tag v) rot inv :=
  actionOf_tagOf_of_payload fun _ h => payload_of_actionOf (settingsTable_eq_custom h)

/-- The tag is the one before, once the table has been applied twice. -/
theorem setActionTag_undo (htag : s.cmd.action = .put tag) :
    ((s.setActionTag (tagOf (settingsTable (actionOf tag s.cmd.custom.val) rot inv))).setActionTag
      (tagOf (settingsTable (actionOf (tagOf (settingsTable (actionOf tag s.cmd.custom.val) rot inv))
        s.cmd.custom.val) rot inv))).cmd = s.cmd := by
  rw [actionOf_transformed, settingsTable_undo, tagOf_actionOf, State.setActionTag_cmd, State.setActionTag_cmd, ← htag]

end

/-- Settles O38: both transforms write the tag of the table (`exec_xfOut_of_written`, `exec_xfIn_of_written`), which is
its own inverse (`setActionTag_undo`). -/
theorem transformsFollowTheSettingsTable : Obligations.TransformsFollowTheSettingsTable := by
  intro pr s tag rot inv htag hset after
  have hset' : HoldsSettings after rot inv := hset
  exact ⟨exec_xfOut_of_written pr htag hset, exec_xfIn_of_written pr htag hset,
    ⟨_, exec_xfIn_of_written (s := after) pr rfl hset', setActionTag_undo htag⟩,
    ⟨_, exec_xfOut_of_written (s := after) pr rfl hset', setActionTag_undo htag⟩⟩

/-! ### What a decode and an encode leave -/

theorem HoldsCells.congr {s : State} {n : Nat} {g g' : Nat → Bool} (h : HoldsCells s n g)
    (hg : ∀ k, k < n → g k = g' k) : HoldsCells s n g' := by
  obtain ⟨hlen, hcells⟩ := h
  exact ⟨hlen, fun k hk => hg k.val hk ▸ hcells k hk⟩

/-- `CMD` holds the action of the command that was decoded. -/
theorem holdsAction_writeDecoded (s : State) {d : Decoded} (h : (tagOf d.cmd.action).toNat < 11) (st : Status) :
    HoldsAction ((s.writeDecoded d).respond st) d.cmd.action := by
  refine ⟨h, rfl, fun v hv => ?_⟩
  have hcustom : ((s.writeDecoded d).respond st).cmd.custom = .put (payloadOf d.cmd.action) := rfl
  rw [hcustom, hv]
  rfl

/-- An operation ends with a refusal exactly where its body raises it. -/
theorem State.finish_eq_respond_iff {s : State} {r : Except Status State} {e : Status} (he : e ≠ .ok) :
    s.finish r = .next (s.respond e) ↔ r = .error e := by
  constructor
  · intro h
    rcases State.finish_eq_next h with ⟨u, -, hu⟩ | ⟨e', hr, hu⟩
    · exact absurd (congrArg (fun t => t.status.sc) hu) he
    · have hsc : e = e' := congrArg (fun t => t.status.sc) hu
      rw [hr, hsc]
  · rintro rfl
    rfl

/-! ### Protocol-B -/

theorem byteSum_frameBytesB (address : BitVec 24) (code unit : BitVec 4) (rail3 tilt : Bool) :
    byteSum (frameBytesB address code unit rail3 tilt) % 256 = 1 := by
  simp only [frameBytesB, byteSum_append, byteSum_cons _ [], byteSum_nil, Nat.add_zero, ← csB_eq_ofInt]
  exact (csB_eq_iff _ _).mp rfl

/-- Wire index `k` with one bit of the sequence inverted: that of the byte it belongs to (R141). -/
theorem wireRev_flipByteBit {f : List Byte} {i k : Nat} (hi : i < 8 * f.length) :
    wireRev (flipByteBit f (i / 8) (i % 8)) k = if k = i then !wireRev f k else wireRev f k := by
  rw [wireRev, flipByteBit_getD f _ _ _ (by omega)]
  by_cases hbyte : k / 8 = i / 8
  · by_cases hki : k = i
    · subst hki
      simp [wireRev, Nat.mod_lt]
    · have hbit : i % 8 ≠ k % 8 := by omega
      simp [wireRev, hbyte, hki, hbit]
  · have hki : k ≠ i := fun h => hbyte (by rw [h])
    rw [if_neg hbyte, if_neg hki, wireRev]

/-- Five bytes whose sum is wrong end `DEC.B` with `Checksum`. -/
theorem exec_decB_of_bad_sum {s : State} {f : List Byte} (hlen : f.length = 5) (h : HoldsCells s 40 (wireRev f))
    (hsum : byteSum f % 256 ≠ 1) : exec .decB s = .next (s.respond .checksum) := by
  obtain ⟨f0, f1, f2, f3, f4, rfl⟩ : ∃ f0 f1 f2 f3 f4, f = [f0, f1, f2, f3, f4] :=
    match f, hlen with
    | [f0, f1, f2, f3, f4], _ => ⟨f0, f1, f2, f3, f4, rfl⟩
  exact (decBReadsTheFrame.1 s f0 f1 f2 f3 f4 h).1 hsum

/-- The command value of a frame is the one of its code, its rail marker and its tilt marker (R266). -/
theorem commandValue_of_fields (code unit : BitVec 4) (rail : BitVec 2) (tilt : Bool) :
    commandValue (code ++ unit) (BitVec.ofBool (rail == 3#2) ++ 0#2 ++ BitVec.ofBool tilt ++ 0#4) =
      commandValueOf code rail tilt := by
  have hcode : ((code ++ unit) >>> 4).setWidth 9 = code.setWidth 9 := by
    apply BitVec.eq_of_getLsbD_eq
    intro i hi
    rw [BitVec.getLsbD_setWidth, BitVec.getLsbD_ushiftRight, BitVec.getLsbD_append, if_neg (by omega),
      Nat.add_sub_cancel_left, BitVec.getLsbD_setWidth]
  have hflags : ∀ (rail : BitVec 2) (tilt : Bool),
      (if 0x80 ≤ (flagsB rail tilt).toNat then (flagsB rail tilt).setWidth 9 else 0#9) =
        if rail = 3#2 then 0x80#9 + (if tilt then 0x10#9 else 0#9) else 0#9 := by decide
  rw [commandValue, ← flagsB_eq_append, hcode, hflags, commandValueOf]

/-- The tilt marker stands alone in the high nibble exactly for a tilt on a rail other than 3 (R142, R265). -/
theorem flags_div_16 (rail3 tilt : Bool) :
    (BitVec.ofBool rail3 ++ 0#2 ++ BitVec.ofBool tilt ++ 0#4).toNat / 16 = 1 ↔ rail3 = false ∧ tilt = true := by
  revert rail3 tilt
  decide

/-- The base action and the tilt marker give the action back, wherever the marker stands (R261, R265). -/
theorem raise_baseB (a : Action) (rail : BitVec 2) :
    (if (BitVec.ofBool (rail == 3#2) ++ 0#2 ++ BitVec.ofBool (isTiltB a) ++ 0#4).toNat / 16 = 1 then
        tiltOf (if rail = 3#2 ∧ isTiltB a = true then tiltOf (baseB a) else baseB a)
      else if rail = 3#2 ∧ isTiltB a = true then tiltOf (baseB a) else baseB a) = a := by
  simp only [flags_div_16]
  by_cases htilt : a = .tiltUp ∨ a = .tiltDown
  · rcases htilt with rfl | rfl <;> by_cases hrail : rail = 3#2 <;> simp [hrail, isTiltB, baseB, tiltOf]
  · obtain ⟨hup, hdown⟩ := not_or.mp htilt
    have hfalse : isTiltB a = false := by simp [isTiltB, hup, hdown]
    have hbase : baseB a = a := by
      unfold baseB
      split
      · exact absurd rfl hup
      · exact absurd rfl hdown
      · rfl
    simp [hfalse, hbase]

/-- The two address bytes of a frame hold a 16-bit address (R140, R263). -/
theorem address_of_bytes {address : BitVec 24} (h : address.toNat < 2 ^ 16) :
    0#8 ++ address.extractLsb' 8 8 ++ address.extractLsb' 0 8 = address := by
  apply BitVec.eq_of_getLsbD_eq
  intro i hi
  rw [BitVec.getLsbD_append, BitVec.getLsbD_append, BitVec.getLsbD_extractLsb', BitVec.getLsbD_extractLsb']
  by_cases h8 : i < 8
  · simp [h8]
  · by_cases h16 : i < 16
    · simp [h8, show i - 8 < 8 by omega, show 8 + (i - 8) = i by omega]
    · have hbit : address.getLsbD i = false :=
        Nat.testBit_lt_two_pow (h.trans_le (Nat.pow_le_pow_right (by omega) (by omega)))
      simp [h8, show ¬ i - 8 < 8 by omega, hbit]

section
variable {s : State} {a : Action} {rail : BitVec 2} {address : BitVec 24} {unit code : BitVec 4}

/-- What `ENC.B` leaves of a command that the table maps (R262). -/
theorem exec_encB_of_code (ha : HoldsAction s a) (hrail : s.cmd.rail = .put rail) (haddr : s.cmd.addr = .put address)
    (hunit : s.cmd.unit = .put unit) (hfits : address.toNat < 2 ^ 16)
    (hcode : tableAt s.cfg.code4B (baseB a, rail) = some code) :
    ∃ t, exec .encB s = .next t ∧ t.cfg = s.cfg ∧
      HoldsCells t 40 (wireRev (frameBytesB address code unit (rail == 3#2) (isTiltB a))) := by
  refine ⟨(s.putBits ((List.range 40).map _)).respond .ok, ?_, rfl, State.holdsCells_putBits s 40 _ (by omega)⟩
  rw [exec_encB, encBBody_eq ha hrail haddr hunit, encodeB_of_code hfits hcode, ok_bind, State.finish_ok]

/-- What `DEC.B` makes of the frame of a command that the table maps (R265, R268). -/
theorem exec_decB_of_frame (hadm : admissible s.cfg = true) (hfits : address.toNat < 2 ^ 16)
    (hcode : tableAt s.cfg.code4B (baseB a, rail) = some code)
    (h : HoldsCells s 40 (wireRev (frameBytesB address code unit (rail == 3#2) (isTiltB a)))) :
    exec .decB s = .next ((s.writeDecoded {
      cmd := { action := a, rail := rail, address := address, channelMask := 0#8, unit := unit,
               rollingCode := 0#16, repeatCount := 1#8, extCmd := none },
      group := unit == 0#4, tilt := false }).respond .ok) := by
  obtain ⟨-, hup, hdown, hplain, htilted⟩ := admissible_b hadm _ (tableAt_mem hcode)
  have hentry : admissibleEntryB s.cfg ((baseB a, rail), code) (isTiltB a) = true := by
    cases htilt : isTiltB a with
    | false => exact hplain
    | true =>
      refine htilted ?_
      rcases (by simpa [isTiltB] using htilt : a = .tiltUp ∨ a = .tiltDown) with rfl | rfl
      · exact .inl rfl
      · exact .inr rfl
  obtain ⟨hact, hrail⟩ := admissibleEntryB_spec hentry
  rw [← commandValue_of_fields code unit] at hact hrail
  have hlow : (code ++ unit).extractLsb' 0 4 = unit := by rw [← loNib_eq, loNib_append]
  have hsum := byteSum_frameBytesB address code unit (rail == 3#2) (isTiltB a)
  rw [exec_decB, decBBody_of_frame h, decodeBytesB_of_known hsum hact, ok_bind, State.finish_ok]
  simp only [decodedB, hrail, hlow, raise_baseB, address_of_bytes hfits]

end

/-- Settles O32: the frame that `ENC.B` writes (`exec_encB_of_code`) is decoded to the command
(`exec_decB_of_frame`), and a flipped bit makes its sum wrong (`byteSum_flipByteBit_ne`). -/
theorem protocolBRoundTripsAndDetectsFlips : Obligations.ProtocolBRoundTripsAndDetectsFlips := by
  intro s a rail address unit code hadm ha hrail haddr hunit hfits hcode
  obtain ⟨t, henc, hcfg, hcells⟩ := exec_encB_of_code ha hrail haddr hunit hfits hcode
  refine ⟨t, _, _, henc, exec_decB_of_frame (hcfg ▸ hadm) hfits (hcfg ▸ hcode) hcells, rfl,
    holdsAction_writeDecoded t ha.1 .ok, rfl, rfl, rfl, rfl, hcells, fun i x hi hx => ?_⟩
  have hlen := frameBytesB_length address code unit (rail == 3#2) (isTiltB a)
  refine exec_decB_of_bad_sum (by rw [flipByteBit_length, hlen])
    (hx.congr fun k _ => (wireRev_flipByteBit (by omega)).symm) ?_
  rw [← byteSum_frameBytesB address code unit (rail == 3#2) (isTiltB a)]
  exact byteSum_flipByteBit_ne (by omega) (by omega)

end Sys2Proof.Machine
end

section
/-! The round trip of Protocol-C (44_protocol_c.md R303), and the corruptions that its check sees on the wire
(41_checksum.md R216): the sum of the nibbles of a plain frame is that of its last wire byte. -/

namespace Sys2Proof.Machine

/-! ### The check on the wire -/

/-- The wire byte at an index is the XOR of the plain bytes up to it (R212). -/
theorem xorUpTo_eq_obf {f : List Byte} {j : Nat} (h : j < f.length) : xorUpTo f j = (obf f).getD j 0#8 := by
  rw [List.getD_eq_getElem?_getD, List.getElem?_eq_getElem (by simpa using h), Option.getD_some, obf_getElem f j h]

/-- The check sees the last wire byte only: all nibbles of the plain bytes are XORed into it. -/
theorem nibbleXor_eq_last {f : List Byte} {n : Nat} (h : f.length = n + 1) :
    nibbleXor f = nibbleXor [xorUpTo f n] := by
  have hall : xorUpTo f n = f.foldr (· ^^^ ·) 0#8 := by rw [xorUpTo, List.take_of_length_le h.le]
  rw [hall]
  clear h hall
  induction f with
  | nil => rfl
  | cons b t ih => rw [nibbleXor_cons_singleton, ih, List.foldr_cons, nibbleXor_xor]

/-- The plain bytes whose wire form is that of `p` with bit `k` of wire byte `j` inverted. -/
def flipWireBit (p : List Byte) (j k : Nat) : List Byte := deobf (flipByteBit (obf p) j k)

@[simp] theorem flipWireBit_length (p : List Byte) (j k : Nat) : (flipWireBit p j k).length = p.length := by
  rw [flipWireBit, deobf_length, flipByteBit_length, obf_length]

theorem xorUpTo_flipWireBit {p : List Byte} {i j k : Nat} (hi : i < p.length) (hj : j < p.length) :
    xorUpTo (flipWireBit p j k) i = if i = j then xorUpTo p j ^^^ BitVec.twoPow 8 k else xorUpTo p i := by
  rw [xorUpTo_eq_obf (by simpa using hi), flipWireBit, obf_deobf, flipByteBit_getD _ _ _ _ (by simpa using hj),
    xorUpTo_eq_obf hi, xorUpTo_eq_obf hj]

/-- Wire index `k` with the bit at index `i` inverted (R151). -/
theorem wireC_flipWireBit {p : List Byte} {i k : Nat} (hi : i < 8 * p.length) (hk : k < 8 * p.length) :
    wireC (flipWireBit p (i / 8) (7 - i % 8)) k = if k = i then !wireC p k else wireC p k := by
  rw [wireC, xorUpTo_flipWireBit (by omega) (by omega)]
  by_cases hbyte : k / 8 = i / 8
  · by_cases hki : k = i
    · subst hki
      simp [wireC, show 7 - k % 8 < 8 by omega]
    · have hbit : 7 - i % 8 ≠ 7 - k % 8 := by omega
      simp [wireC, hbyte, hki, hbit]
  · have hki : k ≠ i := fun h => hbyte (by rw [h])
    rw [if_neg hbyte, if_neg hki, wireC]

/-- One bit of a byte changes the XOR of its nibbles. -/
theorem nibbleXor_twoPow_ne {k : Nat} (hk : k < 8) : nibbleXor [BitVec.twoPow 8 k] ≠ 0#4 := by
  have h : ∀ k : Fin 8, nibbleXor [BitVec.twoPow 8 k.val] ≠ 0#4 := by decide
  exact h ⟨k, hk⟩

/-- Of seven wire bytes only the last one is seen: a flip before it leaves the check as it was, a flip in it breaks a
check that held (R216). -/
theorem nibbleXor_flipWireBit_iff {p : List Byte} {j k : Nat} (hlen : p.length = 7) (hj : j < 7) (hk : k < 8)
    (hzero : nibbleXor p = 0#4) : nibbleXor (flipWireBit p j k) ≠ 0#4 ↔ j = 6 := by
  rw [nibbleXor_eq_last (f := flipWireBit p j k) (n := 6) (by rw [flipWireBit_length, hlen]),
    xorUpTo_flipWireBit (by omega) (by omega)]
  rw [nibbleXor_eq_last hlen] at hzero
  by_cases h6 : 6 = j
  · subst h6
    rw [if_pos rfl, nibbleXor_xor, hzero, BitVec.zero_xor]
    exact iff_of_true (nibbleXor_twoPow_ne hk) rfl
  · rw [if_neg h6, hzero]
    exact iff_of_false (fun h => h rfl) (Ne.symm h6)

/-- On seven bytes the decoder refuses with `Checksum` exactly where the check fails (R300). -/
theorem decodeBytesC_short_checksum_iff {cfg : Cfg} {p : List Byte} (hlen : p.length = 7) :
    decodeBytesC cfg p = .error .checksum ↔ nibbleXor p ≠ 0#4 := by
  obtain ⟨p0, p1, p2, p3, p4, p5, p6, rfl⟩ : ∃ p0 p1 p2 p3 p4 p5 p6, p = [p0, p1, p2, p3, p4, p5, p6] :=
    match p, hlen with
    | [p0, p1, p2, p3, p4, p5, p6], _ => ⟨p0, p1, p2, p3, p4, p5, p6, rfl⟩
  rw [← fold_eq_nibbleXor, decodeBytesC]
  split
  case isTrue h => exact iff_of_true rfl h
  case isFalse h =>
    refine iff_of_false ?_ h
    split <;> nofun

/-- `DEC.C` on the wire bits of seven plain bytes. -/
theorem exec_decC_checksum_iff {s : State} {p : List Byte} (hlen : p.length = 7) (h : HoldsCells s 56 (wireC p)) :
    exec .decC s = .next (s.respond .checksum) ↔ nibbleXor p ≠ 0#4 := by
  rw [exec_decC, decCBody_of_frame h (by rw [hlen]) (.inl rfl), State.finish_eq_respond_iff (e := .checksum) (by decide),
    ← decodeBytesC_short_checksum_iff (cfg := s.cfg) hlen]
  cases decodeBytesC s.cfg p <;> simp

/-- Settles O37: `DEC.C` reports `Checksum` exactly where the nibbles of the plain bytes do not cancel
(`exec_decC_checksum_iff`), and a flipped wire bit makes them so in the last byte only (`nibbleXor_flipWireBit_iff`). -/
theorem shortFrameFlipsBeforeTheLastByteGoUnseen : Obligations.ShortFrameFlipsBeforeTheLastByteGoUnseen := by
  intro s x p i hlen hzero hi hs hx
  refine ⟨fun h => (exec_decC_checksum_iff hlen hs).mp h hzero, ?_⟩
  have hflip : HoldsCells x 56 (wireC (flipWireBit p (i / 8) (7 - i % 8))) :=
    hx.congr fun k hk => (wireC_flipWireBit (by omega) (by omega)).symm
  rw [exec_decC_checksum_iff (by simpa using hlen) hflip,
    nibbleXor_flipWireBit_iff hlen (by omega) (by omega) hzero]
  omega

/-! ### The round trip -/

section
variable {cfg : Cfg} {c : Command} {nib : BitVec 4} {e : Byte}

/-- The short frame is selected by a key of `CODE_C` without `extCmd` (R291). -/
theorem selectC_eq_short (h : selectC cfg c = some (nib, none)) :
    c.extCmd = none ∧ tableAt cfg.codeC c.action = some nib := by
  unfold selectC at h
  split at h
  case h_1 hext =>
    obtain ⟨n, hn, heq⟩ := Option.map_eq_some_iff.mp h
    cases heq
    exact ⟨hext, hn⟩
  case h_2 => split at h <;> cases h
  case h_3 => cases h

/-- The extended frame is selected by a `Custom` nibble with `extCmd` (R291). -/
theorem selectC_eq_extended (h : selectC cfg c = some (nib, some e)) :
    c.extCmd = some e ∧ c.action = .custom (0#4 ++ nib) := by
  unfold selectC at h
  split at h
  case h_1 => simp at h
  case h_2 v e' hact hext =>
    split at h
    case isTrue hv =>
      cases h
      refine ⟨hext, hact.trans (congrArg _ ?_)⟩
      rw [← nibble_setWidth]
      apply BitVec.eq_of_toNat_eq
      rw [BitVec.toNat_setWidth, BitVec.toNat_setWidth]
      omega
    case isFalse => cases h
  case h_3 => cases h

/-- The bits of an encoded command are those of its short or of its extended frame (R292). -/
theorem encodeC_eq_ok {bits : Bits} (h : encodeC cfg c = .ok bits) :
    (∃ nib, selectC cfg c = some (nib, none) ∧
      bits = wireBitsC (checkedBytesC cfg.markC0 nib c.rollingCode c.address)) ∨
    ∃ nib e, selectC cfg c = some (nib, some e) ∧ (1 ≤ c.repeatCount.toNat ∧ c.repeatCount.toNat ≤ 15) ∧
      bits = wireBitsC (checkedBytesC cfg.markC0 nib c.rollingCode c.address ++
        trailerBytesC cfg.markC7 e (c.repeatCount.setWidth 4)) := by
  simp only [encodeC, addressFits_c, Bool.not_true, Bool.false_eq_true, if_false] at h
  split at h
  case h_1 => cases h
  case h_2 nib hsel =>
    cases h
    exact .inl ⟨nib, hsel, by rw [headC_eq_checkedBytesC]⟩
  case h_3 nib e hsel =>
    split at h
    case isTrue => cases h
    case isFalse hcount =>
      cases h
      exact .inr ⟨nib, e, hsel, by omega, by rw [headC_eq_checkedBytesC, tailC_eq_trailerBytesC]⟩

/-- The nibble put into a plain frame makes its check hold (R208). -/
theorem nibbleXor_checkedBytesC (mark0 : Byte) (nib : BitVec 4) (rc : BitVec 16) (address : BitVec 24) :
    nibbleXor (checkedBytesC mark0 nib rc address) = 0#4 := by
  have hsplit : ∀ check, nibbleXor (plainBytesC mark0 nib check rc address) =
      nibbleXor (plainBytesC mark0 nib 0#4 rc address) ^^^ check := by
    intro check
    have hnib : nibbleXor [nib ++ check] = nibbleXor [nib ++ 0#4] ^^^ check := by revert nib check; decide
    simp only [plainBytesC, nibbleXor_cons_singleton _ (_ :: _), hnib]
    ac_rfl
  rw [checkedBytesC, hsplit, BitVec.xor_self]

/-- What is decoded of an encoded command (R303). -/
theorem decodeC_of_encodeC {bits : Bits} (hadm : admissible cfg = true) (h : encodeC cfg c = .ok bits) :
    (bits.length = 56 ∨ bits.length = 80) ∧
      decodeC cfg bits = .ok (decodedC c.action c.rollingCode c.address
        (if c.extCmd.isSome then c.repeatCount else 1#8) c.extCmd) := by
  rcases encodeC_eq_ok h with ⟨nib, hsel, rfl⟩ | ⟨nib, e, hsel, hcount, rfl⟩
  · obtain ⟨hext, hcode⟩ := selectC_eq_short hsel
    refine ⟨.inl rfl, ?_⟩
    rw [decodeC, deobf_bitsToBytes_wireBitsC, checkedBytesC,
      decodeBytesC_of_known hadm (nibbleXor_checkedBytesC ..) (tableAt_mem hcode), hext]
    rfl
  · obtain ⟨hext, hact⟩ := selectC_eq_extended hsel
    have hreps : 0#4 ++ c.repeatCount.setWidth 4 = c.repeatCount := by
      rw [← nibble_setWidth]
      apply BitVec.eq_of_toNat_eq
      rw [BitVec.toNat_setWidth, BitVec.toNat_setWidth]
      omega
    refine ⟨.inr rfl, ?_⟩
    rw [decodeC, deobf_bitsToBytes_wireBitsC, checkedBytesC, trailerBytesC,
      decodeBytesC_of_extended (nibbleXor_checkedBytesC ..), if_pos rfl, hreps, hext, hact]
    rfl

end

/-- A sequence placed whole is the one a decoder then reads. -/
theorem State.received_putBits (s : State) {p : Proto} {bits : Bits} (hlen : bits.length ≤ 80)
    (hwire : wireLength p bits.length = some bits.length) : (s.putBits bits).received p = .ok bits := by
  rw [State.received_of_holdsCells (s.holdsCells_of_putBits hlen) hwire]
  congr 1
  apply List.ext_getElem (by simp)
  intro i h1 h2
  simp [List.getElem?_eq_getElem h2]

/-- What an `ENC.C` that completes encoded: the command held, with the registers written that the frame is made of. -/
theorem encCBody_eq_ok {s u : State} (h : encCBody s = .ok u) :
    ∃ bits, encodeC s.cfg s.heldCommand = .ok bits ∧ u = s.putBits bits ∧ ExtWritten s ∧
      (s.cmd.extv.val = true → s.cmd.rep.written = true) := by
  simp only [encCBody, bind_eq_ok] at h
  obtain ⟨-, -, c, hcheck, bits, henc, hu⟩ := h
  cases hu
  obtain ⟨rfl, -, -, hrest, -, -⟩ := Presented.check_eq_ok.mp hcheck
  simp only [State.encOperand, Bool.and_eq_true, Bool.or_eq_true, Bool.not_eq_true'] at hrest
  obtain ⟨⟨hext, -⟩, hrep⟩ := hrest
  exact ⟨bits, henc, rfl, State.extWritten_iff.mp hext, fun hv => hrep.resolve_left (by simp [hv])⟩

/-- The rolling code is read back from the plain bytes (R293). -/
theorem rollingCode_of_checkedBytesC {mark0 : Byte} {nib : BitVec 4} {rc rc' : BitVec 16} {address : BitVec 24}
    (h : checkedBytesC mark0 nib rc address = checkedBytesC mark0 nib rc' address) : rc = rc' := by
  simp only [checkedBytesC, plainBytesC, List.cons.injEq] at h
  obtain ⟨-, -, hhi, hlo, -⟩ := h
  rw [← beWord_byteOf rc, ← beWord_byteOf rc']
  exact congrArg₂ beWord hhi hlo

theorem wireBitsC_injective : Function.Injective wireBitsC :=
  Function.LeftInverse.injective (g := fun s => deobf (bitsToBytes .msbFirst s)) deobf_bitsToBytes_wireBitsC

/-- Different rolling codes give different bits (R303). -/
theorem rollingCode_of_encodeC {cfg : Cfg} {c : Command} {rc : BitVec 16} {bits : Bits}
    (h : encodeC cfg c = .ok bits) (h' : encodeC cfg { c with rollingCode := rc } = .ok bits) :
    rc = c.rollingCode := by
  have hselect : selectC cfg { c with rollingCode := rc } = selectC cfg c := rfl
  rcases encodeC_eq_ok h with ⟨nib, hsel, hbits⟩ | ⟨nib, e, hsel, -, hbits⟩ <;>
    rcases encodeC_eq_ok h' with ⟨nib', hsel', hbits'⟩ | ⟨nib', e', hsel', -, hbits'⟩ <;>
    cases hsel'.symm.trans (hselect.trans hsel)
  · exact rollingCode_of_checkedBytesC (wireBitsC_injective (hbits'.symm.trans hbits))
  · obtain ⟨hhead, -⟩ := List.append_inj (wireBitsC_injective (hbits'.symm.trans hbits)) rfl
    exact rollingCode_of_checkedBytesC hhead

/-- What `DEC.C` makes of the bits of an encoded command, placed in `BITBUF`. -/
theorem exec_decC_of_encodeC {s : State} {c : Command} {bits : Bits} (hadm : admissible s.cfg = true)
    (h : encodeC s.cfg c = .ok bits) :
    exec .decC ((s.putBits bits).respond .ok) = .next ((((s.putBits bits).respond .ok).writeDecoded
      (decodedC c.action c.rollingCode c.address (if c.extCmd.isSome then c.repeatCount else 1#8)
        c.extCmd)).respond .ok) := by
  obtain ⟨hlen, hdec⟩ := decodeC_of_encodeC hadm h
  have hreceived : ((s.putBits bits).respond .ok).received .c = .ok bits :=
    State.received_putBits s (by omega) (if_pos hlen)
  rw [exec_decC, decCBody, hreceived, ok_bind, State.respond_cfg, State.putBits_cfg, hdec, ok_bind, State.finish_ok]

/-- Settles O36: the bits that `ENC.C` places are decoded to the command held (`decodeC_of_encodeC`), and they carry the
rolling code (`rollingCode_of_encodeC`). -/
theorem protocolCRoundTrips : Obligations.ProtocolCRoundTrips := by
  refine ⟨fun s t a address rc hadm ha haddr hrc hexec hok => ?_,
    fun cfg c rc x y hx hy hxy => rollingCode_of_encodeC hx (hxy ▸ hy)⟩
  obtain ⟨u, hbody, rfl⟩ := body_of_exec_ok hexec hok
  obtain ⟨bits, henc, rfl, ⟨hextv, hextb⟩, hrep⟩ := encCBody_eq_ok (s := s) hbody
  have hact : s.heldCommand.action = a := congrArg Reg.val (heldAction_holds ha)
  refine ⟨_, exec_decC_of_encodeC hadm henc, rfl, hact ▸ holdsAction_writeDecoded _ (hact ▸ ha.1) .ok,
    (Reg.eq_put_of_written (congrArg Reg.written haddr)).symm.trans haddr,
    (Reg.eq_put_of_written (congrArg Reg.written hrc)).symm.trans hrc, ?_, fun hv => ⟨?_, ?_⟩⟩
  · rw [Reg.eq_put_of_written hextv]
    cases hv : s.cmd.extv.val <;> simp [State.heldCommand, hv, decodedC, cmdRegsOf]
  · rw [Reg.eq_put_of_written (hextb hv)]
    simp [State.heldCommand, hv, decodedC, cmdRegsOf]
  · rw [Reg.eq_put_of_written (hrep hv)]
    simp [State.heldCommand, hv, decodedC, cmdRegsOf]

end Sys2Proof.Machine
end

section
/-! The incoming path (45_transform.md R370): `RX` on a sequence that decodes, the frame rows that place one, and what
no decoder produces (42_protocol_a.md R240, 60_exceptions.md R420). -/

namespace Sys2Proof.Machine

/-! ### What a decoder reads in a state -/

/-- What the decoder of a protocol makes of the received sequence (R236, R265, R300). -/
def State.decoded (s : State) (p : Proto) : Except Status Decoded := s.received p >>= decodeP s.cfg p

theorem Reports.decoded (s : State) (p : Proto) : Reports (s.decoded p) :=
  (Reports.received s p).bind (Reports.decodeP s.cfg p)

/-- The command that `RX` delivers: the decoded one, raised and transformed (R370). -/
def deliveredCommand (cfg : Cfg) (p : Proto) (c : Command) (tilt rot inv : Bool) : Command :=
  let raised := raiseTilt cfg p c tilt
  { raised with action := settingsTable raised.action rot inv }

section
variable {s : State} {p : Proto} {d : Decoded} {rot inv : Bool}

theorem decABody_eq (s : State) : decABody s = (s.decoded .a >>= fun d => .ok (s.writeDecoded d)) :=
  (bind_assoc ..).symm

theorem decBBody_eq (s : State) : decBBody s = (s.decoded .b >>= fun d => .ok (s.writeDecoded d)) :=
  (bind_assoc ..).symm

theorem decCBody_eq (s : State) : decCBody s = (s.decoded .c >>= fun d => .ok (s.writeDecoded d)) :=
  (bind_assoc ..).symm

/-- `RX` under written settings is the decoder, then the write and the delivery of its command (R370). -/
theorem rxBody_of_settings (p : Proto) (hset : HoldsSettings s rot inv) :
    rxBody p s = (s.decoded p >>= fun d =>
      let c := deliveredCommand s.cfg p d.cmd d.tilt rot inv
      .ok ((s.writeDecoded { d with cmd := c }).emit (.deliver c))) := by
  obtain ⟨hrot, hinv⟩ := hset
  simp only [rxBody, hrot, hinv, Reg.get_put, ok_bind, xfInAction_eq_table, State.decoded, bind_assoc]
  rfl

/-- What an `RX` that completes read and delivered. -/
theorem rxBody_eq_ok {u : State} (h : rxBody p s = .ok u) :
    ∃ d rot inv, s.decoded p = .ok d ∧ HoldsSettings s rot inv ∧
      u = (s.writeDecoded { d with cmd := deliveredCommand s.cfg p d.cmd d.tilt rot inv }).emit
        (.deliver (deliveredCommand s.cfg p d.cmd d.tilt rot inv)) := by
  have hparts := h
  simp only [rxBody, bind_eq_ok] at hparts
  obtain ⟨bits, hbits, d, hd, rot, hrot, inv, hinv, -⟩ := hparts
  have hset : HoldsSettings s rot inv := ⟨Reg.get_eq_ok.mp hrot, Reg.get_eq_ok.mp hinv⟩
  have hdec : s.decoded p = .ok d := bind_eq_ok.mpr ⟨bits, hbits, hd⟩
  rw [rxBody_of_settings p hset, hdec] at h
  cases h
  exact ⟨d, rot, inv, hdec, hset, rfl⟩

theorem exec_rx (pr : BitVec 2) (s : State) : exec (.rx pr) s = s.finish (rxOp pr s) := exec_eq (.rx pr) s

theorem rxOp_protoCode (p : Proto) (s : State) : rxOp (protoCode p) s = rxBody p s := by cases p <;> rfl

/-- `RX` of a sequence that decodes: the command delivered, the flags of the decoder, and nothing else (R370). -/
theorem exec_rx_of_decoded {c : Command} (hset : HoldsSettings s rot inv) (hdec : s.decoded p = .ok d)
    (hc : deliveredCommand s.cfg p d.cmd d.tilt rot inv = c) :
    exec (.rx (protoCode p)) s = .next { s with
      cmd := cmdRegsOf c, trace := s.trace ++ [.deliver c, .resp .ok],
      status := { s.status with sc := .ok, valid := true, group := d.group, tilt := d.tilt } } := by
  rw [exec_rx, rxOp_protoCode, rxBody_of_settings p hset, hdec, ok_bind, hc, State.finish_ok]
  simp [State.respond, State.emit, State.writeDecoded, validOf]

/-- A sequence that does not decode ends `RX` with the decoder's reason (R370). -/
theorem exec_rx_of_refused {e : Status} (hset : HoldsSettings s rot inv) (hdec : s.decoded p = .error e) :
    exec (.rx (protoCode p)) s = .next (s.respond e) := by
  rw [exec_rx, rxOp_protoCode, rxBody_of_settings p hset, hdec]
  rfl

/-- The decoding operation of a protocol. -/
def decodeInstr : Proto → Instr
  | .a => .decA
  | .b => .decB
  | .c => .decC

theorem exec_decodeInstr (p : Proto) (s : State) :
    exec (decodeInstr p) s = s.finish (s.decoded p >>= fun d => .ok (s.writeDecoded d)) := by
  cases p
  · exact (exec_decA s).trans (congrArg s.finish (decABody_eq s))
  · exact (exec_decB s).trans (congrArg s.finish (decBBody_eq s))
  · exact (exec_decC s).trans (congrArg s.finish (decCBody_eq s))

/-- `RX` against the decoding operation of its protocol (R370). -/
theorem exec_rx_of_exec_dec {u : State} (hset : HoldsSettings s rot inv) (hexec : exec (decodeInstr p) s = .next u) :
    (u.status.sc ≠ .ok → exec (.rx (protoCode p)) s = .next u) ∧
    (u.status.sc = .ok →
      let c := deliveredCommand s.cfg p u.heldCommand u.status.tilt rot inv
      exec (.rx (protoCode p)) s =
        .next { u with cmd := cmdRegsOf c, trace := s.trace ++ [.deliver c, .resp .ok] }) := by
  rw [exec_decodeInstr] at hexec
  cases hdec : s.decoded p with
  | error e =>
    rw [hdec] at hexec
    cases hexec
    have he : e ≠ .ok := fun heq => (Reports.decoded s p).ne_ok (heq ▸ hdec)
    exact ⟨fun _ => exec_rx_of_refused hset hdec, fun hok => absurd hok he⟩
  | ok d =>
    rw [hdec] at hexec
    cases hexec
    refine ⟨fun hne => absurd rfl hne, fun _ => ?_⟩
    have hheld : ((s.writeDecoded d).respond .ok).heldCommand = d.cmd := State.writeDecoded_heldCommand s d
    rw [hheld]
    exact exec_rx_of_decoded hset hdec rfl

end

/-- Settles O46: `RX` and the decoding operation read the same (`exec_rx_of_exec_dec`). -/
theorem rxDeliversTheDecodedCommand : Obligations.RxDeliversTheDecodedCommand := by
  intro s rot inv hset
  refine ⟨rfl, fun pr p dec hp u hexec => ?_⟩
  rcases hp with ⟨rfl, rfl, rfl⟩ | ⟨rfl, rfl, rfl⟩ | ⟨rfl, rfl, rfl⟩
  · exact exec_rx_of_exec_dec (p := .a) hset hexec
  · exact exec_rx_of_exec_dec (p := .b) hset hexec
  · exact exec_rx_of_exec_dec (p := .c) hset hexec

/-! ### `RX` on a frame -/

section
variable {s : State}

theorem decoded_a_of_frame {address : BitVec 24} {mask : BitVec 8} {a : Action} {code : BitVec 8}
    (hadm : admissible s.cfg = true) (hlen : s.bitlen.val = 39 ∨ s.bitlen.val = 40)
    (hcells : ∀ k : Fin 80, k.val < 39 → s.bitbuf[k.val] = .put (wireA address mask (codeBits code) k.val))
    (hmem : (a, code) ∈ s.cfg.codeA) : s.decoded .a = .ok (decodedA a address mask) := by
  rw [State.decoded, State.received_of_cells (p := .a) (if_pos hlen) (by omega) hcells, ok_bind, ← frameBitsA_eq]
  exact decodeA_frameBitsA hadm hmem

theorem decoded_b_of_frame {f0 f1 f2 f3 f4 : Byte} {a : Action} (h : HoldsCells s 40 (wireRev [f0, f1, f2, f3, f4]))
    (hsum : byteSum [f0, f1, f2, f3, f4] % 256 = 1) (hcv : tableAt s.cfg.actB (commandValue f2 f3) = some a) :
    s.decoded .b = .ok (decodedB s.cfg a (commandValue f2 f3) f0 f1 f2 f3) := by
  rw [State.decoded, State.received_of_holdsCells (p := .b) h rfl, ok_bind]
  exact decodeB_wireRev.trans (decodeBytesB_of_known hsum hcv)

theorem decoded_c_of_frame {n : Nat} {f : List Byte} (h : HoldsCells s n (wireC f)) (hlen : n = 8 * f.length)
    (hn : n = 56 ∨ n = 80) : s.decoded .c = decodeBytesC s.cfg f := by
  rw [State.decoded, State.received_of_holdsCells (p := .c) h (if_pos hn), ok_bind, hlen]
  exact decodeC_wireC s.cfg f

end

section
variable (cfg : Cfg) (a : Action) (rot inv : Bool)

/-- A Protocol-A `Up` or `Down` arrives as a tilt (R238, R341). -/
theorem deliveredCommand_a (address : BitVec 24) (mask : BitVec 8) :
    deliveredCommand cfg .a (decodedA a address mask).cmd (decodedA a address mask).tilt rot inv =
      { action := settingsTable (tiltOf a) rot inv, rail := 1#2, address := address, channelMask := mask,
        unit := 0#4, rollingCode := 0#16, repeatCount := 1#8, extCmd := none } := by
  cases a <;> rfl

theorem deliveredCommand_c_short (rc : BitVec 16) (address : BitVec 24) (tilt : Bool) :
    deliveredCommand cfg .c (decodedC a rc address 1#8 none).cmd tilt rot inv =
      { action := settingsTable a rot inv, rail := 1#2, address := address, channelMask := 0#8,
        unit := 0#4, rollingCode := rc, repeatCount := 1#8, extCmd := none } := by
  cases a <;> rfl

/-- The tilt that an extended frame stands for, if any (R341). -/
def tiltOfC (cfg : Cfg) (nib : BitVec 4) (e : Byte) : Option Action :=
  if (nib, e) = cfg.tiltUpC then some .tiltUp else if (nib, e) = cfg.tiltDownC then some .tiltDown else none

theorem extended_pair_eq_iff (nib : BitVec 4) (e : Byte) (t : BitVec 4 × Byte) :
    (0#4 ++ nib, e) = (t.1.setWidth 8, t.2) ↔ (nib, e) = t := by
  have hinj : ∀ n m : BitVec 4, 0#4 ++ n = m.setWidth 8 ↔ n = m := by decide
  rw [Prod.ext_iff, Prod.ext_iff]
  exact and_congr_left' (hinj nib t.1)

theorem deliveredCommand_c_extended (rc : BitVec 16) (address : BitVec 24) (nib : BitVec 4) (reps : BitVec 8)
    (e : Byte) (tilt : Bool) :
    deliveredCommand cfg .c (decodedC (.custom (0#4 ++ nib)) rc address reps (some e)).cmd tilt rot inv =
      { action := settingsTable ((tiltOfC cfg nib e).getD (.custom (0#4 ++ nib))) rot inv, rail := 1#2,
        address := address, channelMask := 0#8, unit := 0#4, rollingCode := rc, repeatCount := reps,
        extCmd := if (tiltOfC cfg nib e).isSome then none else some e } := by
  simp only [deliveredCommand, decodedC, raiseTilt, tiltOfC, extended_pair_eq_iff]
  split
  · rfl
  · split <;> rfl

end

/-- Settles O47: each frame decodes (`decoded_a_of_frame`, `decoded_b_of_frame`, `decoded_c_of_frame`), and `RX` delivers
what it decodes to (`exec_rx_of_decoded`). -/
theorem rxCompletesOnAGoodFrame : Obligations.RxCompletesOnAGoodFrame := by
  intro s rot inv hadm hset delivered
  refine ⟨fun address mask code7 a code hlen hcells hmem hcode => ?_, fun f0 f1 f2 f3 f4 a h => ?_,
    fun m0 nib chk rc address a h hcheck hmem => ?_, fun m0 nib chk rc address m7 e count h hcheck => ?_⟩
  · subst hcode
    exact exec_rx_of_decoded (p := .a) hset (decoded_a_of_frame hadm hlen hcells hmem) (deliveredCommand_a ..)
  · rw [← commandValue_eq_ofNat]
    exact fun hsum hcv => exec_rx_of_decoded (p := .b) hset (decoded_b_of_frame h hsum hcv) rfl
  · exact exec_rx_of_decoded (p := .c) hset ((decoded_c_of_frame h rfl (.inl rfl)).trans
      (decodeBytesC_of_known hadm hcheck hmem)) (deliveredCommand_c_short ..)
  · exact exec_rx_of_decoded (p := .c) hset ((decoded_c_of_frame h rfl (.inr rfl)).trans
      ((decodeBytesC_of_extended hcheck).trans (if_pos rfl))) (deliveredCommand_c_extended ..)

/-! ### The frame rows -/

/-- A payload presented to the block is `RX` on the state in which it was placed (R52, R415). -/
theorem receive_presents (s : State) (p : Proto) {bits : Bits} {n : Fin 81} {g : Nat → Bool}
    (hbits : bits = (List.range n.val).map g) :
    ∃ u, receive p bits s = exec (.rx (protoCode p)) u ∧ HoldsCells u n.val g ∧
      u = { s with bitbuf := u.bitbuf, bitlen := n, opr := rxWord p } := by
  subst hbits
  refine ⟨_, receive_eq_exec_rx p _ s, State.holdsCells_putBits s n.val g (by omega), ?_⟩
  conv_lhs => rw [State.place, State.putBits_frame s _ n (by simp)]
  rfl

/-- Settles O48: each row is a payload presented to `RX` (`receive_presents`), whose bits are those of the wire
(`frameBitsA_eq`, `bytesToBits_rev_eq`, `wireBitsC_eq`). -/
theorem frameRowsPresentTheirBitsToRx : Obligations.FrameRowsPresentTheirBitsToRx := by
  intro s
  refine ⟨fun address mask code7 => receive_presents s .a (n := 39) (frameBitsA_eq address mask code7),
    fun address unit code4 flags csum => receive_presents s .b (n := 40) ?_,
    fun m0 nib chk rc address => receive_presents s .c (n := 56) ?_,
    fun m0 nib chk rc address m7 e count chk2 => receive_presents s .c (n := 80) ?_⟩
  · rw [frameBitsB, bytesToBits_rev_eq, nibbles_eq]
    rfl
  · rw [wireBitsC_eq, plainC_eq_plainBytesC]
    rfl
  · rw [wireBitsC_eq, plainC_eq_plainBytesC, nibbles_eq]
    rfl

/-- The high nibble of a byte made of two (R140). -/
theorem append_toNat_div_16 (hi lo : BitVec 4) : (hi ++ lo).toNat / 16 = hi.toNat := by
  revert hi lo
  decide

/-- The address bytes of a received Protocol-B frame (R140, R265). -/
theorem address_append_bytes (x : BitVec 16) : 0#8 ++ x.extractLsb' 8 8 ++ x.extractLsb' 0 8 = 0#8 ++ x := by
  have hbytes : beWord (x.extractLsb' 8 8) (x.extractLsb' 0 8) = x := beWord_byteOf x
  rw [← beWord_setWidth, hbytes]
  exact BitVec.setWidth_eq_append (by omega)

/-- Settles O49: a frame row is `RX` on its bits (`frameRowsPresentTheirBitsToRx`), and `RX` completes on them
(`rxCompletesOnAGoodFrame`). -/
theorem framesDeliverTheirCommand : Obligations.FramesDeliverTheirCommand := by
  intro s rot inv hadm hset
  obtain ⟨hrowA, hrowB, hrowShort, hrowExt⟩ := frameRowsPresentTheirBitsToRx s
  refine ⟨fun address mask code7 a code hmem hcode => ?_, fun address unit code4 flags csum a => ?_,
    fun m0 nib chk rc address a hcheck hmem => ?_, fun m0 nib chk rc address m7 e count chk2 hcheck htrailer => ?_⟩
  · obtain ⟨u, hexec, ⟨hlen, hcells⟩, hu⟩ := hrowA address mask code7
    obtain ⟨hrx, -⟩ := rxCompletesOnAGoodFrame u rot inv (by rw [hu]; exact hadm) (by rw [hu]; exact hset)
    have hgood := hrx address mask code7 a code (.inl hlen) hcells (by rw [hu]; exact hmem) hcode
    exact ⟨_, hexec.trans hgood, rfl, by rw [hu]⟩
  · obtain ⟨u, hexec, hcells, hu⟩ := hrowB address unit code4 flags csum
    obtain ⟨-, hrx, -⟩ := rxCompletesOnAGoodFrame u rot inv (by rw [hu]; exact hadm) (by rw [hu]; exact hset)
    have hgood := hrx _ _ _ _ _ a hcells
    have hunit : (code4 ++ unit).extractLsb' 0 4 = unit := by rw [← loNib_eq, loNib_append]
    rw [append_toNat_div_16, hunit, address_append_bytes] at hgood
    intro cv hsum hcv
    exact ⟨_, hexec.trans (hgood hsum (by rw [hu]; exact hcv)), rfl, by rw [hu]⟩
  · obtain ⟨u, hexec, hcells, hu⟩ := hrowShort m0 nib chk rc address
    obtain ⟨-, -, hrx, -⟩ := rxCompletesOnAGoodFrame u rot inv (by rw [hu]; exact hadm) (by rw [hu]; exact hset)
    have hgood := hrx m0 nib chk rc address a hcells hcheck (by rw [hu]; exact hmem)
    exact ⟨_, hexec.trans hgood, by rw [hu]⟩
  · subst htrailer
    obtain ⟨u, hexec, hcells, hu⟩ := hrowExt m0 nib chk rc address m7 e count _
    obtain ⟨-, -, -, hrx⟩ := rxCompletesOnAGoodFrame u rot inv (by rw [hu]; exact hadm) (by rw [hu]; exact hset)
    have hgood := hrx m0 nib chk rc address m7 e count hcells hcheck
    exact ⟨_, hexec.trans hgood, by rw [hu]⟩

end Sys2Proof.Machine
end

section
/-! The round trips of Protocol-A, and what no decoder of any protocol produces (42_protocol_a.md R240;
60_exceptions.md R420). -/

namespace Sys2Proof.Machine

/-! ### The two directions -/

section
variable {s : State} {a : Action} {address : BitVec 24} {mask : BitVec 8} {code : BitVec 8}

/-- What `ENC.A` leaves of an action with a code (R232). -/
theorem exec_encA_of_code (ha : HoldsAction s a) (haddr : s.cmd.addr = .put address)
    (hmask : s.cmd.chmask = .put mask) (hcode : tableAt s.cfg.codeA a = some code) :
    ∃ t, exec .encA s = .next t ∧ t.cfg = s.cfg ∧ t.status.sc = .ok ∧
      HoldsCells t 39 (wireA address mask (codeBits code)) := by
  refine ⟨(s.putBits ((List.range 39).map _)).respond .ok, ?_, rfl, rfl, State.holdsCells_putBits s 39 _ (by omega)⟩
  rw [exec_encA, encABody_of_code ha haddr hmask hcode, State.finish_ok]

/-- What `DEC.A` leaves of a frame with a known code (R236). -/
theorem exec_decA_of_frame (hadm : admissible s.cfg = true) (hlen : s.bitlen.val = 39 ∨ s.bitlen.val = 40)
    (hcells : ∀ k : Fin 80, k.val < 39 → s.bitbuf[k.val] = .put (wireA address mask (codeBits code) k.val))
    (hmem : (a, code) ∈ s.cfg.codeA) :
    exec .decA s = .next ((s.writeDecoded (decodedA a address mask)).respond .ok) := by
  rw [exec_decA, decABody_eq, decoded_a_of_frame hadm hlen hcells hmem, ok_bind, State.finish_ok]

end

/-- An admissible table of Protocol-A does not name `Pair` (R10). -/
theorem tableAt_codeA_pair {cfg : Cfg} (hadm : admissible cfg = true) : tableAt cfg.codeA .pair = none := by
  obtain ⟨-, -, hkeys, -⟩ := admissible_a hadm
  cases htable : tableAt cfg.codeA .pair with
  | none => rfl
  | some code =>
    rcases hkeys _ (tableAt_mem htable) with hkey | hcustom
    · have hpair : Action.pair ∉ keysA := by decide
      exact absurd hkey hpair
    · cases hcustom

/-- The pairing code is sent, and no receiver takes it for an action (R231, R235). -/
theorem decodeA_of_encodeA_pair {cfg : Cfg} {c : Command} (hadm : admissible cfg = true) (h : c.action = .pair) :
    ∃ bits, encodeA cfg c = .ok bits ∧ decodeA cfg bits = .error .unknownCode := by
  obtain ⟨-, hnodup, -⟩ := admissible_a hadm
  have hcode : codeA cfg c.action = some cfg.pairA := by rw [codeA, h, tableAt_codeA_pair hadm]; rfl
  refine ⟨_, encodeA_of_code hcode, decodeA_frameBitsA_unknown fun e he heq => ?_⟩
  exact (List.nodup_cons.mp hnodup).1 (List.mem_map.mpr ⟨e, he, heq⟩)

/-- A sequence of 39 bits that decodes is the frame of an action with a code (R235, R236). -/
theorem frame_of_decodeA {cfg : Cfg} {bits : Bits} {d : Decoded} (hlen : bits.length = 39)
    (h : decodeA cfg bits = .ok d) :
    ∃ a code address mask, (a, code) ∈ cfg.codeA ∧ bits = frameBitsA address mask (codeBits code) := by
  obtain ⟨address, mask, code7, rfl⟩ : ∃ address mask code7, bits = frameBitsA address mask code7 :=
    ⟨_, _, _, (frameBitsA_of_fields hlen).symm⟩
  by_cases hknown : ∃ e ∈ cfg.codeA, codeBits e.2 = code7
  · obtain ⟨⟨a, code⟩, hmem, rfl⟩ := hknown
    exact ⟨a, code, address, mask, hmem, rfl⟩
  · rw [decodeA_frameBitsA_unknown fun e he heq => hknown ⟨e, he, heq⟩] at h
    cases h

/-- The action of an admissible entry is one that the host may request (R20, R420). -/
theorem isCodable_of_codeA {cfg : Cfg} {a : Action} {code : BitVec 8} (hadm : admissible cfg = true)
    (hmem : (a, code) ∈ cfg.codeA) : isCodable a = true := by
  obtain ⟨-, -, hkeys, -⟩ := admissible_a hadm
  rcases hkeys _ hmem with hkey | hcustom
  · have hall : ∀ k ∈ keysA, isCodable k = true := by decide
    exact hall a hkey
  · cases a <;> first | rfl | cases hcustom

/-- A sequence that `DEC.A` accepts is encoded back to its 39 bits. -/
theorem encA_of_decA {s t : State} {n : Nat} {g : Nat → Bool} (hadm : admissible s.cfg = true)
    (h : HoldsCells s n g) (hexec : exec .decA s = .next t) (hok : t.status.sc = .ok) :
    ∃ u, exec .encA t = .next u ∧ u.status.sc = .ok ∧ HoldsCells u 39 g := by
  obtain ⟨hlen, hcells⟩ := h
  obtain ⟨v, hbody, -⟩ := body_of_exec_ok hexec hok
  have h39 : s.bitlen.val = 39 ∨ s.bitlen.val = 40 := by
    by_contra hother
    obtain ⟨h39, h40⟩ := not_or.mp hother
    cases (decABody_of_other_length h39 h40).symm.trans hbody
  have hreceived : s.received .a = .ok ((List.range 39).map g) :=
    State.received_of_cells (p := .a) (if_pos h39) (by omega) fun k hk => hcells k (by omega)
  obtain ⟨d, hdec, -⟩ := bind_eq_ok.mp ((decABody_eq s).symm.trans hbody)
  rw [State.decoded, hreceived, ok_bind] at hdec
  obtain ⟨a, code, address, mask, hmem, hbits⟩ := frame_of_decodeA (by simp) hdec
  have hg : ∀ k, k < 39 → g k = wireA address mask (codeBits code) k := fun k hk =>
    List.map_inj_left.mp (hbits.trans (frameBitsA_eq ..)) k (List.mem_range.mpr hk)
  have hframe := exec_decA_of_frame hadm h39
    (fun k hk => (hcells k (by omega)).trans (congrArg Reg.put (hg k.val hk))) hmem
  cases hexec.symm.trans hframe
  obtain ⟨hnodup, -⟩ := admissible_a hadm
  obtain ⟨u, henc, -, hu, hcells'⟩ := exec_encA_of_code
    (holdsAction_writeDecoded s (d := decodedA a address mask) (isCodable_iff.mp (isCodable_of_codeA hadm hmem)) .ok)
    rfl rfl (tableAt_of_mem hnodup hmem)
  exact ⟨u, henc, hu, hcells'.congr fun k hk => (hg k hk).symm⟩

/-! ### What no decoder produces -/

theorem isCodable_of_decodeA {cfg : Cfg} {bits : Bits} {d : Decoded} (hadm : admissible cfg = true)
    (h : decodeA cfg bits = .ok d) : isCodable d.cmd.action = true := by
  unfold decodeA at h
  split at h
  case h_1 => cases h
  case h_2 a ha =>
    cases h
    obtain ⟨code, hmem, -⟩ := keyWhere_mem ha
    exact isCodable_of_codeA hadm hmem

theorem isCodable_of_decodeB {cfg : Cfg} {bits : Bits} {d : Decoded} (hadm : admissible cfg = true)
    (h : decodeB cfg bits = .ok d) : isCodable d.cmd.action = true := by
  unfold decodeB at h
  split at h
  case h_2 => cases h
  case h_1 f0 f1 f2 f3 f4 _ =>
    unfold decodeBytesB at h
    split at h
    case isTrue => cases h
    case isFalse =>
      split at h
      case h_1 => cases h
      case h_2 a ha =>
        cases h
        have hcodable := admissible_actB hadm _ (tableAt_mem ha)
        dsimp only
        split
        · exact isCodable_tiltOf hcodable
        · exact hcodable

theorem isCodable_of_decodeC {cfg : Cfg} {bits : Bits} {d : Decoded} (hadm : admissible cfg = true)
    (h : decodeC cfg bits = .ok d) : isCodable d.cmd.action = true := by
  unfold decodeC decodeBytesC at h
  split at h
  case h_2 => cases h
  case h_1 =>
    split at h
    case isTrue => cases h
    case isFalse =>
      split at h
      case h_3 => cases h
      case h_1 =>
        split at h
        case h_1 => cases h
        case h_2 a ha =>
          cases h
          obtain ⟨nib, hmem, -⟩ := keyWhere_mem ha
          obtain ⟨-, -, hkeys, -⟩ := admissible_c hadm
          obtain ⟨-, hcodable, -⟩ := hkeys _ hmem
          exact hcodable
      case h_2 =>
        split at h
        case isTrue => cases h; rfl
        case isFalse => cases h

section
variable {s : State} {p : Proto} {d : Decoded}

/-- No decoder produces `Pair` or a reserved tag (R420). -/
theorem isCodable_of_decoded (hadm : admissible s.cfg = true) (h : s.decoded p = .ok d) :
    isCodable d.cmd.action = true := by
  obtain ⟨bits, -, hdec⟩ := bind_eq_ok.mp h
  cases p
  · exact isCodable_of_decodeA hadm hdec
  · exact isCodable_of_decodeB hadm hdec
  · exact isCodable_of_decodeC hadm hdec

theorem isCodable_deliveredCommand {cfg : Cfg} {c : Command} {tilt rot inv : Bool} (h : isCodable c.action = true) :
    isCodable (deliveredCommand cfg p c tilt rot inv).action = true := by
  rw [deliveredCommand, ← xfInAction_eq_table]
  exact isCodable_xfInAction (isCodable_raiseTilt h)

/-- After a decode, `CMD` holds a tag below that of `Pair`. -/
theorem tag_of_decBody {u : State} (hadm : admissible s.cfg = true)
    (h : (s.decoded p >>= fun d => .ok (s.writeDecoded d)) = .ok u) : u.cmd.action.val.toNat < 11 := by
  obtain ⟨d, hdec, hu⟩ := bind_eq_ok.mp h
  cases hu
  exact isCodable_iff.mp (isCodable_of_decoded hadm hdec)

/-- After an `RX`, `CMD` and what was delivered hold a tag below that of `Pair`. -/
theorem tag_of_rxBody {u : State} (hadm : admissible s.cfg = true) (h : rxBody p s = .ok u) :
    (u.respond .ok).cmd.action.val.toNat < 11 ∧
      ∀ new c, (u.respond .ok).trace = s.trace ++ new → .deliver c ∈ new → (tagOf c.action).toNat < 11 := by
  obtain ⟨d, rot, inv, hdec, -, rfl⟩ := rxBody_eq_ok h
  have htag := isCodable_iff.mp (isCodable_deliveredCommand (cfg := s.cfg) (p := p) (tilt := d.tilt) (rot := rot)
    (inv := inv) (isCodable_of_decoded hadm hdec))
  refine ⟨htag, fun new c htrace hc => ?_⟩
  simp only [State.respond_trace, State.emit_trace, State.writeDecoded_trace, List.append_assoc] at htrace
  cases List.append_cancel_left htrace
  simp only [List.cons_append, List.nil_append, List.mem_cons, Event.deliver.injEq, reduceCtorEq, List.not_mem_nil,
    or_false] at hc
  exact hc ▸ htag

end

theorem startOf_cfg (i : Instr) (s : State) : (startOf i s).cfg = s.cfg := by
  unfold startOf
  split <;> rfl

/-- Settles O29: the two directions are `exec_encA_of_code` with `exec_decA_of_frame`, and `encA_of_decA`; the pairing
code is `decodeA_of_encodeA_pair`; what no decoder produces is `isCodable_of_decoded`. -/
theorem protocolARoundTrips : Obligations.ProtocolARoundTrips := by
  refine ⟨fun s a code address mask hadm ha hcode haddr hmask => ?_, fun cfg c => decodeA_of_encodeA_pair,
    fun s t n g => encA_of_decA, fun i s t hadm hexec hok => ?_⟩
  · obtain ⟨t, henc, hcfg, -, hlen, hcells⟩ := exec_encA_of_code ha haddr hmask hcode
    exact ⟨t, _, henc, exec_decA_of_frame (hcfg ▸ hadm) (.inl hlen) hcells (hcfg ▸ tableAt_mem hcode), rfl,
      holdsAction_writeDecoded t (d := decodedA a address mask) ha.1 .ok, rfl, rfl⟩
  · obtain ⟨u, hbody, rfl⟩ := body_of_exec_ok hexec hok
    have hadm' : admissible (startOf i s).cfg = true := startOf_cfg i s ▸ hadm
    have hdec (p : Proto) (h : ((startOf i s).decoded p >>= fun d => .ok ((startOf i s).writeDecoded d)) = .ok u) :=
      tag_of_decBody hadm' h
    have hrx (p : Proto) (h : rxBody p (startOf i s) = .ok u) := startOf_trace i s ▸ tag_of_rxBody hadm' h
    cases i
    case decA => exact hdec .a ((decABody_eq _).symm.trans hbody)
    case decB => exact hdec .b ((decBBody_eq _).symm.trans hbody)
    case decC => exact hdec .c ((decCBody_eq _).symm.trans hbody)
    case rx pr =>
      simp only [bodyOf, rxOp] at hbody
      split at hbody
      · cases hbody
      · exact hrx _ hbody
    case frameA => exact hrx .a hbody
    case frameB => exact hrx .b hbody
    case frameCShort => exact hrx .c hbody
    case frameCExt => exact hrx .c hbody
    all_goals trivial

end Sys2Proof.Machine
end

section
/-! Unwritten operands (10_state.md R48; 60_exceptions.md R409, R405): what an operation that completes has read, and
what one with an unwritten operand reports. -/

namespace Sys2Proof.Machine

/-! ### What an operation that completes has read -/

/-- The encoding operation of a protocol. -/
def encodeInstr : Proto → Instr
  | .a => .encA
  | .b => .encB
  | .c => .encC

/-- Whether the encoder of a protocol has no code for a command (R232, R262, R292). -/
def unmappedOf (cfg : Cfg) : Proto → Command → Bool
  | .a => unmappedA cfg
  | .b => unmappedB cfg
  | .c => unmappedC cfg

/-- The three encoding operations are one: the tag check, the checks of R405, the encoder. -/
theorem bodyOf_encodeInstr (p : Proto) (s : State) :
    bodyOf (encodeInstr p) s = (s.hostTag >>= fun _ => (s.encOperand p).check p (unmappedOf s.cfg p) >>= fun c =>
      encodeP s.cfg p c >>= fun bits => .ok (s.putBits bits)) := by
  cases p <;> rfl

section
variable {s u : State} {pr : BitVec 2} {p : Proto}

theorem operandsWritten_of_i2b (h : i2bBody s = .ok u) : OperandsWritten s (.i2b pr) := by
  simp only [i2bBody, bind_eq_ok] at h
  obtain ⟨w, hw, v, hv, o, ho, h⟩ := h
  split at h
  case isTrue => cases h
  case isFalse =>
    split at h
    case isTrue => cases h
    case isFalse =>
      obtain ⟨d, hd, -⟩ := bind_eq_ok.mp h
      exact ⟨Reg.get_written hv, Reg.get_written hw, Reg.get_written hd, Reg.get_written ho⟩

theorem operandsWritten_of_b2i (h : b2iBody s = .ok u) : OperandsWritten s (.b2i pr) := by
  simp only [b2iBody, bind_eq_ok] at h
  obtain ⟨w, hw, o, ho, h⟩ := h
  split at h
  case isTrue => cases h
  case isFalse =>
    obtain ⟨d, hd, h⟩ := bind_eq_ok.mp h
    split at h
    case isTrue => cases h
    case isFalse =>
      obtain ⟨v, hv, -⟩ := bind_eq_ok.mp h
      refine ⟨Reg.get_written ho, Reg.get_written hw, Reg.get_written hd, ?_⟩
      rw [Reg.get_eq_ok.mp hw, Reg.get_eq_ok.mp ho]
      exact State.readBits_written hv

theorem operandsWritten_of_bfIns (h : bfInsBody s = .ok u) : OperandsWritten s (.bfIns pr) := by
  simp only [bfInsBody, bind_eq_ok] at h
  obtain ⟨w, hw, o, ho, h⟩ := h
  split at h
  case isTrue => cases h
  case isFalse =>
    simp only [bind_eq_ok] at h
    obtain ⟨b, hb, v, hv, -⟩ := h
    exact ⟨Reg.get_written hb, Reg.get_written hv, Reg.get_written ho, Reg.get_written hw⟩

theorem operandsWritten_of_bfExt (h : bfExtBody s = .ok u) : OperandsWritten s (.bfExt pr) := by
  simp only [bfExtBody, bind_eq_ok] at h
  obtain ⟨w, hw, o, ho, h⟩ := h
  split at h
  case isTrue => cases h
  case isFalse =>
    obtain ⟨v, hv, -⟩ := bind_eq_ok.mp h
    exact ⟨Reg.get_written hv, Reg.get_written ho, Reg.get_written hw⟩

/-- An operation on `BYTEBUF` reads its first `BYTELEN` cells before anything else. -/
theorem bytesWritten_of_ok {k : List Byte → Except Status State} (h : (s.readBytes >>= k) = .ok u) :
    ∀ j : Fin 10, j.val < s.bytelen.val → s.bytebuf[j.val].written = true := by
  obtain ⟨f, hf, -⟩ := bind_eq_ok.mp h
  exact State.readBytes_written hf

theorem operandsWritten_of_encOperand (haddr : (s.encOperand p).addr = true) (hkey : (s.encOperand p).key = true)
    (hrest : (s.encOperand p).rest = true) : OperandsWritten s (encodeInstr p) := by
  cases p <;> simp only [State.encOperand, Bool.and_eq_true] at haddr hkey hrest
  case a => exact ⟨State.heldAction_written.mp hkey.1, haddr, hrest⟩
  case b => exact ⟨State.heldAction_written.mp hkey.1, hkey.2, haddr, hrest⟩
  case c =>
    obtain ⟨⟨hext, hrc⟩, hrep⟩ := hrest
    refine ⟨State.heldAction_written.mp hkey.1, haddr, hrc, State.extWritten_iff.mp hext, fun hv => ?_⟩
    simpa [hv] using hrep

theorem operandsWritten_of_encode (h : bodyOf (encodeInstr p) s = .ok u) : OperandsWritten s (encodeInstr p) := by
  rw [bodyOf_encodeInstr] at h
  simp only [bind_eq_ok] at h
  obtain ⟨-, -, c, hcheck, -⟩ := h
  obtain ⟨-, haddr, hkey, hrest, -, -⟩ := Presented.check_eq_ok.mp hcheck
  exact operandsWritten_of_encOperand haddr hkey hrest

theorem cellsWritten_of_received {bits : Bits} {n : Nat} (h : s.received p = .ok bits)
    (hn : wireLength p s.bitlen.val = some n) : CellsWritten s n := by
  obtain ⟨m, hm, hcells⟩ := State.received_written h
  cases hn.symm.trans hm
  exact hcells

/-- The cells that a decoder of a protocol reads, where the received length is one it takes. -/
theorem operandsWritten_of_received {bits : Bits} (h : s.received p = .ok bits) :
    OperandsWritten s (decodeInstr p) := by
  obtain ⟨n, hn, hcells⟩ := State.received_written h
  cases p <;> simp only [wireLength] at hn <;> split at hn <;> cases hn <;> exact hcells

theorem bodyOf_decodeInstr (p : Proto) (s : State) :
    bodyOf (decodeInstr p) s = (s.received p >>= fun bits => decodeP s.cfg p bits >>= fun d =>
      .ok (s.writeDecoded d)) := by
  cases p <;> rfl

theorem operandsWritten_of_decode (h : bodyOf (decodeInstr p) s = .ok u) : OperandsWritten s (decodeInstr p) := by
  rw [bodyOf_decodeInstr] at h
  obtain ⟨bits, hbits, -⟩ := bind_eq_ok.mp h
  exact operandsWritten_of_received hbits

theorem operandsWritten_of_identB (h : identBBody s = .ok u) : OperandsWritten s .identB := by
  simp only [identBBody, bind_eq_ok] at h
  obtain ⟨a, ha, h⟩ := h
  split at h
  case isTrue => cases h
  case isFalse =>
    obtain ⟨n, hn, -⟩ := bind_eq_ok.mp h
    exact ⟨Reg.get_written ha, Reg.get_written hn⟩

theorem operandsWritten_of_xfOut (h : xfOutBody s = .ok u) : OperandsWritten s (.xfOut pr) := by
  simp only [xfOutBody, bind_eq_ok] at h
  obtain ⟨t, ht, r, hr, i, hi, -⟩ := h
  exact ⟨Reg.get_written ht, Reg.get_written hr, Reg.get_written hi⟩

theorem operandsWritten_of_xfIn (h : xfInBody s = .ok u) : OperandsWritten s (.xfIn pr) := by
  simp only [xfInBody, bind_eq_ok] at h
  obtain ⟨t, ht, r, hr, i, hi, -⟩ := h
  exact ⟨Reg.get_written ht, Reg.get_written hr, Reg.get_written hi⟩

/-- What a request under the protocol it names has read of the addressing registers. -/
theorem addressing_of_proto {P : Proto → Prop} (hp : reqProto pr s = .ok p) (h : P p) :
    ∀ q, protoOf pr = some q → P q := by
  intro q hq
  obtain ⟨hproto, -⟩ := reqProto_eq_ok hp
  cases hproto.symm.trans hq
  exact h

theorem written_of_accept {a : Reg Action} {reps : BitVec 8} {others : Bool} {c : Command} {cfg : Cfg}
    (h : (s.addressed p a reps others).accept cfg p = .ok c) :
    AddressingWritten s p ∧ a.written = true ∧ others = true := by
  obtain ⟨-, haddr, hkey, hrest, -⟩ := Presented.accept_eq_ok h
  exact State.addressed_written.mp ⟨haddr, hkey, hrest⟩

theorem operandsWritten_reqCap {r : Reg Action} (hp : reqProto pr s = .ok p) (hr : s.capAction = .ok r)
    (h : AddressingWritten s p ∧ (s.transformed r).written = true ∧ s.sets.pulse.written = true) :
    OperandsWritten s (.reqCap pr) := by
  obtain ⟨haddr, hact, hpulse⟩ := h
  obtain ⟨hrw, hset⟩ := State.transformed_written.mp hact
  obtain ⟨hcap, hcapval⟩ := State.capAction_written hr hrw
  exact ⟨hcap, hcapval, hset, hpulse, addressing_of_proto hp haddr⟩

theorem operandsWritten_of_reqCap (h : reqCapBody pr s = .ok u) : OperandsWritten s (.reqCap pr) := by
  simp only [reqCapBody, bind_eq_ok] at h
  obtain ⟨p, hp, r, hr, c, hc, -⟩ := h
  exact operandsWritten_reqCap hp hr (written_of_accept hc)

theorem operandsWritten_reqSteps (hp : reqProto pr s = .ok p)
    (h : AddressingWritten s p ∧ (s.transformed s.heldAction).written = true ∧ s.steps.written = true) :
    OperandsWritten s (.reqSteps pr) := by
  obtain ⟨haddr, hact, hsteps⟩ := h
  obtain ⟨hheld, hset⟩ := State.transformed_written.mp hact
  exact ⟨State.heldAction_written.mp hheld, hset, hsteps, addressing_of_proto hp haddr⟩

theorem operandsWritten_of_reqSteps (h : reqStepsBody pr s = .ok u) : OperandsWritten s (.reqSteps pr) := by
  simp only [reqStepsBody, bind_eq_ok] at h
  obtain ⟨p, hp, -, -, c, hc, -⟩ := h
  exact operandsWritten_reqSteps hp (written_of_accept hc)

theorem operandsWritten_of_reqMy (h : reqMyBody pr s = .ok u) : OperandsWritten s (.reqMy pr) := by
  simp only [reqMyBody, bind_eq_ok] at h
  obtain ⟨p, hp, c, hc, -⟩ := h
  obtain ⟨haddr, -⟩ := written_of_accept hc
  exact addressing_of_proto hp haddr

theorem operandsWritten_of_reqProg (h : reqProgBody pr s = .ok u) : OperandsWritten s (.reqProg pr) := by
  simp only [reqProgBody, bind_eq_ok] at h
  obtain ⟨p, hp, c, hc, -⟩ := h
  obtain ⟨haddr, -⟩ := written_of_accept hc
  exact addressing_of_proto hp haddr

/-- What the operand of `REQ.RAW` says of the registers it is made of. -/
theorem written_of_rawOperand (haddr : (s.rawOperand p).addr = true) (hkey : (s.rawOperand p).key = true)
    (hrest : (s.rawOperand p).rest = true) :
    ActionWritten s ∧ s.cmd.rep.written = true ∧ AddressingWritten s p ∧ (p = .c → ExtWritten s) := by
  cases p <;> simp only [State.rawOperand, Bool.and_eq_true] at haddr hkey hrest
  case a => exact ⟨State.heldAction_written.mp hkey.1, hrest.1, ⟨haddr, hrest.2⟩, nofun⟩
  case b => exact ⟨State.heldAction_written.mp hkey.1, hrest.1, ⟨hkey.2, haddr, hrest.2⟩, nofun⟩
  case c => exact ⟨State.heldAction_written.mp hkey.1, hrest.1, haddr, fun _ => State.extWritten_iff.mp hrest.2⟩

theorem operandsWritten_reqRaw (hp : reqProto pr s = .ok p) (haddr : (s.rawOperand p).addr = true)
    (hkey : (s.rawOperand p).key = true) (hrest : (s.rawOperand p).rest = true) :
    OperandsWritten s (.reqRaw pr) := by
  obtain ⟨hact, hrep, haddressing⟩ := written_of_rawOperand haddr hkey hrest
  exact ⟨hact, hrep, addressing_of_proto (P := fun q => AddressingWritten s q ∧ (q = .c → ExtWritten s)) hp
    haddressing⟩

theorem operandsWritten_of_reqRaw (h : reqRawBody pr s = .ok u) : OperandsWritten s (.reqRaw pr) := by
  simp only [reqRawBody, bind_eq_ok] at h
  obtain ⟨p, hp, -, -, c, hc, -⟩ := h
  obtain ⟨-, haddr, hkey, hrest, -⟩ := Presented.accept_eq_ok hc
  exact operandsWritten_reqRaw hp haddr hkey hrest

theorem settingsWritten_of_holds {rot inv : Bool} (h : HoldsSettings s rot inv) : SettingsWritten s := by
  obtain ⟨hrot, hinv⟩ := h
  exact ⟨congrArg Reg.written hrot, congrArg Reg.written hinv⟩

theorem written_of_rxBody (h : rxBody p s = .ok u) :
    SettingsWritten s ∧ ∀ n, wireLength p s.bitlen.val = some n → CellsWritten s n := by
  obtain ⟨d, rot, inv, hdec, hset, -⟩ := rxBody_eq_ok h
  obtain ⟨bits, hbits, -⟩ := bind_eq_ok.mp hdec
  exact ⟨settingsWritten_of_holds hset, fun n hn => cellsWritten_of_received hbits hn⟩

theorem operandsWritten_of_rx (h : rxOp pr s = .ok u) : OperandsWritten s (.rx pr) := by
  unfold rxOp at h
  split at h
  case h_1 => cases h
  case h_2 p hp =>
    obtain ⟨hset, hcells⟩ := written_of_rxBody h
    exact ⟨hset, fun q hq => by cases hp.symm.trans hq; exact hcells⟩

end

/-- An operation whose body succeeds has read written operands only. -/
theorem operandsWritten_of_bodyOf {i : Instr} {s u : State} (h : bodyOf i (startOf i s) = .ok u) :
    OperandsWritten s i := by
  cases i
  case i2b => exact operandsWritten_of_i2b h
  case b2i => exact operandsWritten_of_b2i h
  case bfIns => exact operandsWritten_of_bfIns h
  case bfExt => exact operandsWritten_of_bfExt h
  case csumNone | chkNone => trivial
  case csumAdd | csumXorn | chkAdd | chkXorn | obf | deobf => exact bytesWritten_of_ok (s := s) h
  case encA => exact operandsWritten_of_encode (p := .a) h
  case encB => exact operandsWritten_of_encode (p := .b) h
  case encC => exact operandsWritten_of_encode (p := .c) h
  case decA => exact operandsWritten_of_decode (p := .a) h
  case decB => exact operandsWritten_of_decode (p := .b) h
  case decC => exact operandsWritten_of_decode (p := .c) h
  case identB => exact operandsWritten_of_identB h
  case xfOut => exact operandsWritten_of_xfOut h
  case xfIn => exact operandsWritten_of_xfIn h
  case reqCap => exact operandsWritten_of_reqCap h
  case reqSteps => exact operandsWritten_of_reqSteps h
  case reqMy => exact operandsWritten_of_reqMy h
  case reqProg => exact operandsWritten_of_reqProg h
  case reqRaw => exact operandsWritten_of_reqRaw h
  case rx => exact operandsWritten_of_rx h
  case frameA | frameB | frameCShort | frameCExt =>
    obtain ⟨hset, -⟩ := written_of_rxBody h
    exact hset

end Sys2Proof.Machine
end

section
/-! What an operation reports whose operands are not all written (10_state.md R48; 60_exceptions.md R405, R409): the
`Precond` of the read, or a condition that comes before it and rests on written registers. -/

namespace Sys2Proof.Machine

/-! ### Operations that refuse with `Precond` only -/

/-- A computation that raises nothing but `Precond`. -/
structure OnlyPrecond {α : Type} (x : Except Status α) : Prop where
  eq_precond : ∀ {e}, x = .error e → e = .precond

namespace OnlyPrecond

variable {α β : Type}

theorem ok (a : α) : OnlyPrecond (.ok a) := ⟨nofun⟩

theorem precond : OnlyPrecond (.error .precond : Except Status α) := ⟨fun h => (Except.error.inj h).symm⟩

theorem bind {x : Except Status α} {f : α → Except Status β} (hx : OnlyPrecond x) (hf : ∀ a, OnlyPrecond (f a)) :
    OnlyPrecond (x >>= f) := by
  refine ⟨fun h => ?_⟩
  rcases bind_eq_error.mp h with h | ⟨a, -, h⟩
  · exact hx.eq_precond h
  · exact (hf a).eq_precond h

theorem ite {c : Prop} [Decidable c] {x y : Except Status α} (hx : OnlyPrecond x) (hy : OnlyPrecond y) :
    OnlyPrecond (if c then x else y) := by
  split
  · exact hx
  · exact hy

theorem get (r : Reg α) : OnlyPrecond r.get := ite (ok _) precond

theorem readBits (s : State) (a n : Nat) : OnlyPrecond (s.readBits a n) := ⟨State.readBits_error⟩

theorem writeBits (s : State) (a : Nat) (v : Bits) : OnlyPrecond (s.writeBits a v) := ite (ok _) precond

/-- What raises nothing but `Precond` and does not answer ends with `Precond`. -/
theorem eq_error {x : Except Status α} (h : OnlyPrecond x) (hne : ∀ a, x ≠ .ok a) : x = .error .precond := by
  cases hx : x with
  | ok a => exact absurd hx (hne a)
  | error e => rw [h.eq_precond hx]

end OnlyPrecond

/-- The operations whose only refusal before their operands are read is `Precond`. -/
def ReadsFirst (i : Instr) : Prop :=
  match i with
  | .i2b _ | .b2i _ | .bfIns _ | .bfExt _ | .csumAdd | .csumXorn | .chkAdd | .chkXorn | .obf _ | .deobf _
  | .xfOut _ | .xfIn _ => True
  | _ => False

/-- Reading an unwritten byte cell ends an operation on `BYTEBUF` with `Precond`. -/
theorem bytes_unwritten {s : State} {α : Type} {k : List Byte → Except Status α}
    (h : ¬ ∀ j : Fin 10, j.val < s.bytelen.val → s.bytebuf[j.val].written = true) :
    (s.readBytes >>= k) = .error .precond := by
  rw [State.readBytes_precond h, error_bind]

theorem startOf_of_readsFirst {i : Instr} (hi : ReadsFirst i) (s : State) : startOf i s = s := by
  cases i
  case frameA | frameB | frameCShort | frameCExt => cases hi
  all_goals rfl

theorem body_unwritten_of_readsFirst {i : Instr} {s : State} (hi : ReadsFirst i) (h : ¬ OperandsWritten s i) :
    bodyOf i s = .error .precond := by
  have hstart := startOf_of_readsFirst hi s
  have hne : ∀ u, bodyOf i s ≠ .ok u := fun u hu => h (operandsWritten_of_bodyOf (by rwa [hstart]))
  refine OnlyPrecond.eq_error ?_ hne
  cases i
  case i2b =>
    exact .bind (.get _) fun _ => .bind (.get _) fun _ => .bind (.get _) fun _ => .ite .precond <|
      .ite .precond <| .bind (.get _) fun _ => .ite .precond (.writeBits ..)
  case b2i =>
    exact .bind (.get _) fun _ => .bind (.get _) fun _ => .ite .precond <| .bind (.get _) fun _ =>
      .ite .precond <| .bind (.readBits ..) fun _ => .ok _
  case bfIns =>
    exact .bind (.get _) fun _ => .bind (.get _) fun _ => .ite .precond <| .bind (.get _) fun _ =>
      .bind (.get _) fun _ => .ok _
  case bfExt =>
    exact .bind (.get _) fun _ => .bind (.get _) fun _ => .ite .precond <| .bind (.get _) fun _ => .ok _
  case csumAdd | csumXorn | chkAdd | chkXorn | obf | deobf =>
    exact ⟨fun he => (Except.error.inj ((bytes_unwritten h).symm.trans he)).symm⟩
  case xfOut | xfIn => exact .bind (.get _) fun _ => .bind (.get _) fun _ => .bind (.get _) fun _ => .ok _
  all_goals cases hi

/-! ### Filled registers -/

section
variable {s full : State}

theorem State.Fills.cfg (h : s.Fills full) : full.cfg = s.cfg := by rw [h.1]

theorem State.Fills.seq (h : s.Fills full) : full.seq = s.seq := by rw [h.1]

theorem State.Fills.bitlen (h : s.Fills full) : full.bitlen = s.bitlen := by rw [h.1]

theorem State.Fills.cmd (h : s.Fills full) :
    s.cmd.action.Fills full.cmd.action ∧ s.cmd.custom.Fills full.cmd.custom ∧ s.cmd.rail.Fills full.cmd.rail ∧
    s.cmd.addr.Fills full.cmd.addr ∧ s.cmd.chmask.Fills full.cmd.chmask ∧ s.cmd.unit.Fills full.cmd.unit ∧
    s.cmd.rc.Fills full.cmd.rc ∧ s.cmd.rep.Fills full.cmd.rep ∧ s.cmd.extv.Fills full.cmd.extv ∧
    s.cmd.extb.Fills full.cmd.extb := by
  obtain ⟨-, hcmd, -⟩ := h
  exact hcmd

theorem State.Fills.addr (h : s.Fills full) : s.cmd.addr.Fills full.cmd.addr := by
  obtain ⟨-, -, -, haddr, -⟩ := h.cmd
  exact haddr

theorem State.Fills.rail (h : s.Fills full) : s.cmd.rail.Fills full.cmd.rail := by
  obtain ⟨-, -, hrail, -⟩ := h.cmd
  exact hrail

theorem State.Fills.extv (h : s.Fills full) : s.cmd.extv.Fills full.cmd.extv := by
  obtain ⟨-, -, -, -, -, -, -, -, hextv, -⟩ := h.cmd
  exact hextv

theorem State.Fills.settings (h : s.Fills full) :
    s.sets.rot.Fills full.sets.rot ∧ s.sets.inv.Fills full.sets.inv := by
  obtain ⟨-, -, ⟨hrot, hinv, -⟩, -⟩ := h
  exact ⟨hrot, hinv⟩

theorem State.Fills.capability (h : s.Fills full) : s.cap.Fills full.cap ∧ s.capval.Fills full.capval := by
  obtain ⟨-, -, -, ⟨hcap, hcapval, -⟩, -⟩ := h
  exact ⟨hcap, hcapval⟩

/-- A payload placed in both states leaves them as far apart as they were. -/
theorem State.Fills.place (h : s.Fills full) (p : Proto) (bits : Bits) :
    (s.place p bits).Fills (full.place p bits) := by
  obtain ⟨hframe, hcmd, hsets, hops, -, hbytes⟩ := h
  refine ⟨?_, hcmd, hsets, hops, fun k hw => ?_, hbytes⟩
  · conv_lhs => rw [hframe]
    rfl
  · have hs := State.putBits_getElem s bits k.val k.isLt
    have hfull := State.putBits_getElem full bits k.val k.isLt
    by_cases hk : k.val < bits.length
    · exact (hfull.trans (dif_pos hk)).trans (hs.trans (dif_pos hk)).symm
    · have hnot : (s.place p bits).bitbuf[k.val].written = false := by
        rw [show (s.place p bits).bitbuf[k.val] = _ from hs.trans (dif_neg hk)]
      rw [hnot] at hw
      cases hw

theorem State.Fills.startOf (h : s.Fills full) (i : Instr) : (startOf i s).Fills (startOf i full) := by
  unfold Sys2Proof.Machine.startOf
  split
  · exact h
  · exact h.place _ _

theorem State.Fills.reqProto {pr : BitVec 2} {p : Proto} (h : s.Fills full) (hp : reqProto pr full = .ok p) :
    reqProto pr s = .ok p := by
  rwa [Sys2Proof.Machine.reqProto, h.seq] at hp

theorem State.Fills.addressFits (h : s.Fills full) {p : Proto} (hw : s.cmd.addr.written = true)
    (hfits : addressFits p full.cmd.addr.val = true) : addressFits p s.cmd.addr.val = true := by
  rwa [Reg.Fills_val h.addr hw] at hfits

/-! ### The encoding operations -/

theorem State.Fills.unmapped_encOperand (h : s.Fills full) {p : Proto} (hkey : (s.encOperand p).key = true)
    (hmapped : unmappedOf s.cfg p (full.encOperand p).cmd = false) :
    unmappedOf s.cfg p (s.encOperand p).cmd = false := by
  have hhead : s.heldAction.written = true := by
    simp only [State.encOperand, Bool.and_eq_true] at hkey
    exact hkey.1
  have hact : full.heldCommand.action = s.heldCommand.action := State.Fills_heldAction h hhead
  cases p <;> simp only [State.encOperand, Bool.and_eq_true, Bool.or_eq_true, Bool.not_eq_true', hhead,
    true_and] at hkey hmapped ⊢
  case a =>
    rwa [unmappedOf, unmappedA, hact] at hmapped
  case b =>
    have hrail : full.heldCommand.rail = s.heldCommand.rail := Reg.Fills_val h.rail hkey
    rwa [unmappedOf, unmappedB, hact, hrail] at hmapped
  case c =>
    rcases hkey with hextv | hnokey
    · have hext : full.heldCommand.extCmd.isSome = s.heldCommand.extCmd.isSome := by
        simp only [State.heldCommand, Reg.Fills_val h.extv hextv]
        split <;> rfl
      exact (unmappedC_congr hact hext).symm.trans hmapped
    · have hnone : unmappedC s.cfg full.heldCommand = true :=
        unmappedC_of_noKey (by rw [hact]; exact hnokey)
      cases hnone.symm.trans hmapped

variable {u : State} {p : Proto} {pr : BitVec 2}

theorem encode_incomplete (h : s.Fills full) (hok : bodyOf (encodeInstr p) full = .ok u)
    (hn : ¬ OperandsWritten s (encodeInstr p)) : bodyOf (encodeInstr p) s = .error .precond := by
  rw [bodyOf_encodeInstr] at hok ⊢
  simp only [bind_eq_ok] at hok
  obtain ⟨⟨⟩, htag, c, hcheck, -⟩ := hok
  rw [h.cfg] at hcheck
  have hs := Presented.check_incomplete (o := s.encOperand p) hcheck h.addressFits h.unmapped_encOperand
    fun ⟨haddr, hkey, hrest⟩ => hn (operandsWritten_of_encOperand haddr hkey hrest)
  rw [State.Fills_hostTag h htag, ok_bind, hs, error_bind]

/-! ### The decoding operations and `RX` -/

/-- A sequence that is read with more cells written, and is not read: the read of the missing cell is `Precond`. -/
theorem received_incomplete {bits : Bits} {e : Status} (h : s.Fills full) (hfull : full.received p = .ok bits)
    (hs : s.received p = .error e) : e = .precond := by
  obtain ⟨n, hn, -⟩ := State.received_written hfull
  exact State.received_error hs (by rw [← h.bitlen, hn]; nofun)

theorem decode_incomplete (h : s.Fills full) (hok : bodyOf (decodeInstr p) full = .ok u)
    (hn : ¬ OperandsWritten s (decodeInstr p)) : bodyOf (decodeInstr p) s = .error .precond := by
  rw [bodyOf_decodeInstr] at hok ⊢
  obtain ⟨bits, hfull, -⟩ := bind_eq_ok.mp hok
  cases hs : s.received p with
  | ok bits' => exact absurd (operandsWritten_of_received hs) hn
  | error e => rw [received_incomplete h hfull hs, error_bind]

theorem rxBody_incomplete (h : s.Fills full) (hok : rxBody p full = .ok u)
    (hn : ¬ (SettingsWritten s ∧ ∀ n, wireLength p s.bitlen.val = some n → CellsWritten s n)) :
    rxBody p s = .error .precond := by
  have hne : ∀ v, rxBody p s ≠ .ok v := fun v hv => hn (written_of_rxBody hv)
  simp only [rxBody, bind_eq_ok] at hok
  obtain ⟨bits, hfull, d, hdec, -⟩ := hok
  refine OnlyPrecond.eq_error ?_ hne
  unfold rxBody
  cases hs : s.received p with
  | error e => rw [received_incomplete h hfull hs]; exact .precond
  | ok bits' =>
    cases hfull.symm.trans (State.Fills_received h hs)
    rw [h.cfg] at hdec
    rw [ok_bind, hdec, ok_bind]
    exact .bind (.get _) fun _ => .bind (.get _) fun _ => .ok _

theorem rxOp_incomplete (h : s.Fills full) (hok : rxOp pr full = .ok u) (hn : ¬ OperandsWritten s (.rx pr)) :
    rxOp pr s = .error .precond := by
  unfold rxOp at hok ⊢
  split at hok
  case h_1 => cases hok
  case h_2 p hp =>
    refine rxBody_incomplete h hok fun ⟨hset, hcells⟩ => hn ⟨hset, fun q hq => ?_⟩
    cases hp.symm.trans hq
    exact hcells

/-! ### `IDENT.B` -/

theorem identB_incomplete (h : s.Fills full) (hok : identBBody full = .ok u) (hn : ¬ OperandsWritten s .identB) :
    identBBody s = .error .precond := by
  have hne : ∀ v, identBBody s ≠ .ok v := fun v hv => hn (operandsWritten_of_identB hv)
  refine OnlyPrecond.eq_error ?_ hne
  simp only [identBBody, bind_eq_ok] at hok
  obtain ⟨a, ha, hok⟩ := hok
  unfold identBBody
  cases hw : s.cmd.addr.written with
  | false => rw [Reg.get_of_unwritten hw, error_bind]; exact .precond
  | true =>
    have hfits : addressFits .b s.cmd.addr.val = true := by
      refine h.addressFits hw ?_
      rw [Reg.get_eq_ok.mp ha]
      by_contra hwide
      rw [if_pos (by simpa using hwide)] at hok
      cases hok
    rw [Reg.get_of_written hw, ok_bind, if_neg (by simpa using hfits)]
    exact .bind (.get _) fun _ => .ok _

/-! ### The requests -/

/-- A request whose command would be accepted with more registers written. -/
theorem addressed_incomplete {a a' : Reg Action} {reps reps' : BitVec 8} {others others' : Bool} {c : Command}
    (h : s.Fills full) (hval : a.written = true → a'.val = a.val)
    (hok : (full.addressed p a' reps' others').accept full.cfg p = .ok c)
    (hn : ¬ (AddressingWritten s p ∧ a.written = true ∧ others = true)) :
    (s.addressed p a reps others).accept s.cfg p = .error .precond := by
  rw [h.cfg] at hok
  refine Presented.accept_incomplete hok h.addressFits (fun hkey hmapped => ?_)
    fun hall => hn (State.addressed_written.mp hall)
  simp only [State.addressed, Bool.and_eq_true] at hkey
  refine (unmappedP_congr (c := (s.addressed p a reps others).cmd) (c' := (full.addressed p a' reps' others').cmd)
    (hval hkey.1) ?_ fun _ _ => rfl).symm.trans hmapped
  rintro rfl
  exact Reg.Fills_val h.rail hkey.2

/-- The action of a capability rests on `CAPVAL` under `CAP = 0` only (R361). -/
theorem capActionOf_of_cap {cap v v' : BitVec 2} (h : cap = 0#2 → v' = v) : capActionOf cap v' = capActionOf cap v := by
  by_cases h0 : cap = 0#2
  · rw [h h0]
  · have hall : ∀ cap v v' : BitVec 2, cap ≠ 0#2 → capActionOf cap v' = capActionOf cap v := by decide
    exact hall cap v v' h0

/-- The capability that a filled state reads is the one of the registers that are written. -/
theorem capAction_filled {r' : Reg Action} (h : s.Fills full) (hok : full.capAction = .ok r') :
    ∃ r, s.capAction = .ok r ∧ (r.written = true → r'.val = r.val) := by
  obtain ⟨hcap, hcapval⟩ := h.capability
  have hsame (hw : (s.cap.written && (s.cap.val != 0#2 || s.capval.written)) = true) :
      full.capAction = s.capAction := by
    simp only [Bool.and_eq_true, Bool.or_eq_true, bne_iff_ne, ne_eq] at hw
    obtain ⟨hwcap, hwval⟩ := hw
    have hc : full.cap = s.cap := hcap hwcap
    have hwval' (h0 : s.cap.val = 0#2) : full.capval = s.capval := hcapval (hwval.resolve_left (not_not.mpr h0))
    by_cases h0 : s.cap.val = 0#2
    · simp only [State.capAction, hc, hwval' h0]
    · have haction : capActionOf s.cap.val full.capval.val = capActionOf s.cap.val s.capval.val :=
        capActionOf_of_cap fun h => absurd h h0
      simp only [State.capAction, hc, haction, bne_iff_ne.mpr h0, Bool.true_or]
  cases hw : s.cap.written && (s.cap.val != 0#2 || s.capval.written) with
  | true => exact ⟨r', (hsame hw).symm.trans hok, fun _ => rfl⟩
  | false =>
    simp only [State.capAction, hw]
    split
    · exact ⟨_, rfl, nofun⟩
    · exact ⟨_, rfl, nofun⟩

theorem transformed_filled {a a' : Reg Action} (h : s.Fills full) (hval : a.written = true → a'.val = a.val)
    (hw : (s.transformed a).written = true) : (full.transformed a').val = (s.transformed a).val := by
  obtain ⟨ha, hrot, hinv⟩ := State.transformed_written.mp hw
  obtain ⟨hfrot, hfinv⟩ := h.settings
  simp only [State.transformed, hval ha, Reg.Fills_val hfrot hrot, Reg.Fills_val hfinv hinv]

theorem reqCap_incomplete (h : s.Fills full) (hok : reqCapBody pr full = .ok u)
    (hn : ¬ OperandsWritten s (.reqCap pr)) : reqCapBody pr s = .error .precond := by
  simp only [reqCapBody, bind_eq_ok] at hok
  obtain ⟨p, hp, r', hr', c, hc, -⟩ := hok
  obtain ⟨r, hr, hval⟩ := capAction_filled h hr'
  have hproto := h.reqProto hp
  rw [reqCapBody, hproto, ok_bind, hr, ok_bind, addressed_incomplete h (transformed_filled h hval) hc
    fun hall => hn (operandsWritten_reqCap hproto hr hall), error_bind]

theorem reqSteps_incomplete (h : s.Fills full) (hok : reqStepsBody pr full = .ok u)
    (hn : ¬ OperandsWritten s (.reqSteps pr)) : reqStepsBody pr s = .error .precond := by
  simp only [reqStepsBody, bind_eq_ok] at hok
  obtain ⟨p, hp, ⟨⟩, htag, c, hc, -⟩ := hok
  have hproto := h.reqProto hp
  rw [reqStepsBody, hproto, ok_bind, State.Fills_hostTag h htag, ok_bind,
    addressed_incomplete h (transformed_filled h (State.Fills_heldAction h)) hc
      fun hall => hn (operandsWritten_reqSteps hproto hall), error_bind]

theorem reqMy_incomplete (h : s.Fills full) (hok : reqMyBody pr full = .ok u)
    (hn : ¬ OperandsWritten s (.reqMy pr)) : reqMyBody pr s = .error .precond := by
  simp only [reqMyBody, bind_eq_ok] at hok
  obtain ⟨p, hp, c, hc, -⟩ := hok
  have hproto := h.reqProto hp
  rw [reqMyBody, hproto, ok_bind, addressed_incomplete h (fun _ => rfl) hc
    fun ⟨haddr, _⟩ => hn (addressing_of_proto hproto haddr), error_bind]

theorem reqProg_incomplete (h : s.Fills full) (hok : reqProgBody pr full = .ok u)
    (hn : ¬ OperandsWritten s (.reqProg pr)) : reqProgBody pr s = .error .precond := by
  simp only [reqProgBody, bind_eq_ok] at hok
  obtain ⟨p, hp, c, hc, -⟩ := hok
  have hproto := h.reqProto hp
  rw [reqProgBody, hproto, ok_bind, addressed_incomplete h (fun _ => rfl) hc
    fun ⟨haddr, _⟩ => hn (addressing_of_proto hproto haddr), error_bind]

theorem State.Fills.unmapped_rawOperand (h : s.Fills full) (hkey : (s.rawOperand p).key = true)
    (hmapped : unmappedP s.cfg p (full.rawOperand p).cmd = false) :
    unmappedP s.cfg p (s.rawOperand p).cmd = false := by
  have hhead : s.heldAction.written = true := by
    simp only [State.rawOperand, Bool.and_eq_true] at hkey
    exact hkey.1
  refine (unmappedP_congr (c := (s.rawOperand p).cmd) (c' := (full.rawOperand p).cmd)
    (State.Fills_heldAction h hhead) ?_ ?_).symm.trans hmapped
  · rintro rfl
    simp only [State.rawOperand, Bool.and_eq_true] at hkey
    exact Reg.Fills_val h.rail hkey.2
  · rintro rfl hcustom
    have hheld : isCustom s.heldAction.val = true := hcustom
    simp only [State.rawOperand, Bool.and_eq_true, Bool.or_eq_true, hheld, Bool.not_true, Bool.false_eq_true,
      or_false] at hkey
    simp only [State.rawOperand, State.heldCommand, Reg.Fills_val h.extv hkey.2]
    split <;> rfl

theorem reqRaw_incomplete (h : s.Fills full) (hok : reqRawBody pr full = .ok u)
    (hn : ¬ OperandsWritten s (.reqRaw pr)) : reqRawBody pr s = .error .precond := by
  simp only [reqRawBody, bind_eq_ok] at hok
  obtain ⟨p, hp, ⟨⟩, htag, c, hc, -⟩ := hok
  have hproto := h.reqProto hp
  rw [h.cfg] at hc
  have haccept : (s.rawOperand p).accept s.cfg p = .error .precond :=
    Presented.accept_incomplete hc h.addressFits h.unmapped_rawOperand
      fun ⟨haddr, hkey, hrest⟩ => hn (operandsWritten_reqRaw hproto haddr hkey hrest)
  rw [reqRawBody, hproto, ok_bind, State.Fills_hostTag h htag, ok_bind, haccept, error_bind]

end

/-! ### All operations -/

/-- An operation that would complete with values in its unwritten registers ends with `Precond` without them. -/
theorem body_incomplete {i : Instr} {s full u : State} (h : s.Fills full)
    (hok : bodyOf i (startOf i full) = .ok u) (hn : ¬ OperandsWritten s i) :
    bodyOf i (startOf i s) = .error .precond := by
  cases i
  case i2b | b2i | bfIns | bfExt | csumAdd | csumXorn | chkAdd | chkXorn | obf | deobf | xfOut | xfIn =>
    exact body_unwritten_of_readsFirst trivial hn
  case csumNone | chkNone => exact absurd trivial hn
  case encA => exact encode_incomplete (p := .a) h hok hn
  case encB => exact encode_incomplete (p := .b) h hok hn
  case encC => exact encode_incomplete (p := .c) h hok hn
  case decA => exact decode_incomplete (p := .a) h hok hn
  case decB => exact decode_incomplete (p := .b) h hok hn
  case decC => exact decode_incomplete (p := .c) h hok hn
  case identB => exact identB_incomplete h hok hn
  case reqCap => exact reqCap_incomplete h hok hn
  case reqSteps => exact reqSteps_incomplete h hok hn
  case reqMy => exact reqMy_incomplete h hok hn
  case reqProg => exact reqProg_incomplete h hok hn
  case reqRaw => exact reqRaw_incomplete h hok hn
  case rx => exact rxOp_incomplete h hok hn
  case frameA | frameB | frameCShort | frameCExt =>
    exact rxBody_incomplete (h.place _ _) hok fun ⟨hset, _⟩ => hn hset

/-! ### Conditions before the operands -/

section
variable {s : State} {address : BitVec 24} {a : Action}

theorem exec_identB_of_wide (haddr : s.cmd.addr = .put address) (hwide : 2 ^ 16 ≤ address.toNat) :
    exec .identB s = .next (s.respond .malformed) := by
  rw [exec_identB, identBBody, haddr, Reg.get_put, ok_bind, addressFits_b, decide_eq_false hwide.not_gt]
  rfl

theorem exec_encB_of_wide (haddr : s.cmd.addr = .put address) (hwide : 2 ^ 16 ≤ address.toNat)
    (htag : s.cmd.action.written = true → s.cmd.action.val.toNat < 11) :
    exec .encB s = .next (s.respond .malformed) := by
  have hhost : s.hostTag = .ok () := by
    rcases hostTag_cases s with ⟨hw, hhigh, -⟩ | ⟨-, hok⟩
    · exact absurd (htag hw) hhigh.not_gt
    · exact hok
  have hfits : addressFits .b (s.encOperand .b).cmd.address = false := by
    have hval : (s.encOperand .b).cmd.address = address := congrArg Reg.val haddr
    rw [hval]
    exact decide_eq_false hwide.not_gt
  rw [exec_encB, encBBody, hhost, ok_bind, Presented.check_malformed _ (congrArg Reg.written haddr) hfits]
  rfl

theorem exec_encA_of_unmapped (ha : HoldsAction s a) (h : tableAt s.cfg.codeA a = none) :
    exec .encA s = .next (s.respond .unmapped) := by
  have hact : (s.encOperand .a).cmd.action = a := congrArg Reg.val (heldAction_holds ha)
  have hnone : unmappedA s.cfg (s.encOperand .a).cmd = true := by
    rw [unmappedA, hact, codeA_of_host ha.1, h]; rfl
  rw [exec_encA, encABody, hostTag_holds ha, ok_bind, Presented.check_unmapped (fun _ => addressFits_a _)
    (by simp [State.encOperand, heldAction_holds ha]) hnone]
  rfl

theorem exec_encB_of_unmapped {rail : BitVec 2} (ha : HoldsAction s a) (hrail : s.cmd.rail = .put rail)
    (h : tableAt s.cfg.code4B (baseB a, rail) = none)
    (hfits : s.cmd.addr.written = true → s.cmd.addr.val.toNat < 2 ^ 16) :
    exec .encB s = .next (s.respond .unmapped) := by
  have hact : (s.encOperand .b).cmd.action = a := congrArg Reg.val (heldAction_holds ha)
  have hr : (s.encOperand .b).cmd.rail = rail := congrArg Reg.val hrail
  have hnone : unmappedB s.cfg (s.encOperand .b).cmd = true := by rw [unmappedB, hact, hr, h]; rfl
  rw [exec_encB, encBBody, hostTag_holds ha, ok_bind, Presented.check_unmapped
    (fun hw => decide_eq_true (hfits hw)) (by simp [State.encOperand, heldAction_holds ha, hrail]) hnone]
  rfl

theorem exec_encC_of_no_key (ha : HoldsAction s a) (h : tableAt s.cfg.codeC a = none)
    (hcustom : isCustom a = false) : exec .encC s = .next (s.respond .unmapped) := by
  have hkey : ((tableAt s.cfg.codeC a).isSome || isCustom a) = false := by rw [h, hcustom]; rfl
  have hact : s.heldCommand.action = a := congrArg Reg.val (heldAction_holds ha)
  rw [exec_encC, encCBody_unmapped ha (.inr hkey) (unmappedC_of_noKey (by rw [hact]; exact hkey)),
    State.finish_error]

end

/-- Settles O15: a body that succeeds has read its operands (`operandsWritten_of_bodyOf`); one that would succeed with
more registers written ends with `Precond` (`body_incomplete`), and so does one that reads first
(`body_unwritten_of_readsFirst`). -/
theorem unwrittenOperandsArePreconditionFailures : Obligations.UnwrittenOperandsArePreconditionFailures := by
  refine ⟨fun i s t hexec hok => ?_, fun i s full t hfills hexec hok hn => ?_, fun s pr i hi hn => ?_,
    fun s address haddr hwide => ⟨exec_identB_of_wide haddr hwide, exec_encB_of_wide haddr hwide⟩,
    fun s a ha => ⟨exec_encA_of_unmapped ha, fun rail => exec_encB_of_unmapped ha, exec_encC_of_no_key ha⟩⟩
  · obtain ⟨u, hbody, -⟩ := body_of_exec_ok hexec hok
    exact operandsWritten_of_bodyOf hbody
  · obtain ⟨u, hbody, -⟩ := body_of_exec_ok hexec hok
    refine ⟨(startOf i s).respond .precond, ?_, rfl⟩
    rw [exec_eq, body_incomplete hfills hbody hn, State.finish_error]
  · have hreads : ReadsFirst i := by
      rcases hi with rfl | rfl | rfl | rfl | rfl | rfl | rfl | rfl | rfl | rfl | rfl | rfl <;> trivial
    have hstart : startOf i s = s := startOf_of_readsFirst hreads s
    rw [exec_eq, hstart, body_unwritten_of_readsFirst hreads hn, State.finish_error]

end Sys2Proof.Machine
end
